-- ==== Sys2Proof/Word.lean ====
section
/-! DEFINITION. The word types of the QRC: the registers are 32 bits wide (R8, 10_state.md §2) and
the buffers hold bytes (R35). -/

namespace Sys2Proof

/-- One byte of a buffer, of the matrix buffer, or one element of GF(256) (R8, R35). -/
abbrev Byte := BitVec 8

/-- One 32-bit register, or the command word (R24, R100). -/
abbrev Word := BitVec 32

/-- The 9-bit field polynomial of `POLY` and `POLY_ACTIVE` (R28, R29). -/
abbrev Poly := BitVec 9

/-- `zext_32` of a byte (R9, R32). -/
abbrev Byte.toWord (b : Byte) : Word := b.setWidth 32

/-- A natural number as a 32-bit register value (R9: the rules state that their values fit). -/
abbrev natWord (n : Nat) : Word := BitVec.ofNat 32 n

end Sys2Proof
end

