-- ==== Sys2Proof/Config.lean ====
section
/-! DEFINITION. What an implementation fixes and the values the spec leaves free (R8,
93_implementation_defined.md §1). Nothing here has a body: no proof can see a value. -/

namespace Sys2Proof.Config

/-- The free bytes: `freeByte k` is the `k`-th byte the hardware draws where the spec says a value
is unspecified (R83: a byte of a running command's write set read while BUSY; R393: a byte of an
aborted command's write set). The state's counter `freeCount` names the next one.
DESIGN CHOICE (notes/assumptions/3.md). -/
opaque freeByte : Nat → Byte

/-- Which 64 KiB page of the host's address space holds the window: the open parameter behind
`QRC_BASE` (R8, R73, I14). -/
opaque qrcPage : Nat

/-- `QRC_BASE`, 64 KiB aligned as R8 requires. -/
def qrcBase : Nat := 65536 * qrcPage

end Sys2Proof.Config
end

