-- ==== Sys2Proof/Syntax.lean ====
section
/-! DEFINITION. The syntax: the 28 commands (R101), the canonical command lines with their operands
(R110), and the events that reach the QRC from outside, host bus accesses (R109, R74) among them. -/

namespace Sys2Proof

/-- The ECC levels (R15, R104), in the order of their ordinals 0 to 3. -/
inductive Ecc where
  | L | M | Q | H
  deriving DecidableEq, Repr

/-- The two encoding modes the QRC implements (R2, R184). -/
inductive Mode where
  | byte | alnum
  deriving DecidableEq, Repr

/-- The four values of the MODE operand field (R105). -/
inductive ModeField where
  | auto | byte | alnum | unsupported
  deriving DecidableEq, Repr

/-- A mask id, 0 to 7 (R107). -/
abbrev MaskId := Fin 8

/-- The instructions: the commands of the opcode map, one constructor per row (R101). A command word
carries no operand; the operands stand in OPA, OPB and OPC (R102). -/
inductive Instr where
  | nop
  | gfInit | gfAdd | gfSub | gfMul | gfDiv | gfInv | gfPow | gfExp | gfLog
  | rsGenpoly | rsEncode
  | capQuery | fitCheck | selectVersion
  | modeDetect | buildData
  | blockAssemble
  | scaffold | place
  | maskApply | penalty | maskSelect
  | formatEncode | formatStamp | versionEncode | versionStamp
  | encode
  deriving DecidableEq, Repr

/-- A command in the canonical syntax of R110: its mnemonic with its operands. A version, bound or
length is a number (0 for a version or bound not given, R106); `ecc = none` means no level given. -/
inductive Command where
  | nop | gfInit | place | penalty | versionStamp
  | gfAdd (a b : Nat) | gfSub (a b : Nat) | gfMul (a b : Nat) | gfDiv (a b : Nat)
  | gfInv (a : Nat) | gfLog (a : Nat)
  | gfPow (a e : Nat)
  | gfExp (i : Nat)
  | rsGenpoly (t : Nat)
  | rsEncode (src len t : Nat)
  | capQuery (v : Nat) (e : Ecc)
  | blockAssemble (v : Nat) (e : Ecc)
  | fitCheck (v : Nat) (e : Ecc) (m : ModeField) (n : Nat)
  | buildData (v : Nat) (e : Ecc) (m : ModeField) (n : Nat)
  | selectVersion (m : ModeField) (n : Nat) (ecc : Option Ecc) (minv maxv : Nat)
  | modeDetect (n : Nat)
  | scaffold (v : Nat)
  | versionEncode (v : Nat)
  | maskApply (k : MaskId)
  | maskSelect (e : Ecc)
  | formatEncode (e : Ecc) (k : MaskId)
  | formatStamp (e : Ecc) (k : MaskId)
  | encode (n ver : Nat) (ecc : Option Ecc) (m : ModeField) (minv maxv : Nat)
  deriving DecidableEq, Repr

/-- Why a command word names no command (R100, R108). -/
inductive DecodeError where
  /-- Bits [31:8] of the word are not all zero. -/
  | reservedBits (word : Word)
  /-- The opcode is none of the opcode map's. -/
  | reservedOpcode (opcode : Byte)
  deriving DecidableEq, Repr

/-- The three operand registers as a command sees them (R31, R102). -/
structure Operands where
  opa : Word
  opb : Word
  opc : Word
  deriving DecidableEq, Repr

/-- The access widths of the host bus: 8, 16 and 32 bits (R74). -/
inductive Width where
  | byte | half | word
  deriving DecidableEq, Repr

/-- The bytes an access covers (R74). -/
def Width.bytes : Width → Nat
  | .byte => 1
  | .half => 2
  | .word => 4

/-- What a host access does: `MemRead`, or `MemWrite` of a value (R11). -/
inductive AccessKind where
  | read
  | write (data : Word)
  deriving DecidableEq, Repr

/-- One host bus access, at a byte offset from `QRC_BASE` (R11, R70). -/
structure Access where
  offset : Nat
  width  : Width
  kind   : AccessKind
  deriving DecidableEq, Repr

/-- What happens next, in the one total order of R86 and R361: a host access, the sequencer takes its
step (it completes the running command or the reset initialisation, R58), or a power-on reset with the
arbitrary contents the buffers and the matrix then hold (R390, R391, R392). -/
inductive Event where
  | host (a : Access)
  | sequencer
  | powerOn (contents : List Host.Cell)
  deriving DecidableEq, Repr

end Sys2Proof
end

