-- ==== Sys2Proof/WellFormed.lean ====
section
/-! DEFINITION. Which canonical commands are well formed: every operand fits in the operand field that
carries it (R102). A value outside its field has no encoding; a value inside the field but outside
the range the command checks (a version 0 or 41) is well formed, and the command itself reports it. -/

namespace Sys2Proof

/-- Every operand fits in its field of R102: A8 and B8 8 bits, E16, I16 and LEN 16, T 8, SRC 12,
RLEN 13, VER, MINV and MAXV 6. -/
def Command.wf : Command → Bool
  | .nop | .gfInit | .place | .penalty | .versionStamp => true
  | .gfAdd a b | .gfSub a b | .gfMul a b | .gfDiv a b => decide (a < 256) && decide (b < 256)
  | .gfInv a | .gfLog a => decide (a < 256)
  | .gfPow a e => decide (a < 256) && decide (e < 65536)
  | .gfExp i => decide (i < 65536)
  | .rsGenpoly t => decide (t < 256)
  | .rsEncode src len t => decide (src < 4096) && decide (len < 8192) && decide (t < 256)
  | .capQuery v _ | .blockAssemble v _ => decide (v < 64)
  | .fitCheck v _ _ n | .buildData v _ _ n => decide (v < 64) && decide (n < 65536)
  | .selectVersion _ n _ minv maxv =>
    decide (n < 65536) && decide (minv < 64) && decide (maxv < 64)
  | .modeDetect n => decide (n < 65536)
  | .scaffold v | .versionEncode v => decide (v < 64)
  | .maskApply _ | .maskSelect _ | .formatEncode _ _ | .formatStamp _ _ => true
  | .encode n ver _ _ minv maxv =>
    decide (n < 65536) && decide (ver < 64) && decide (minv < 64) && decide (maxv < 64)

end Sys2Proof
end

