-- ==== Sys2Proof/Decode.lean ====
section
/-! DEFINITION. Decoding and encoding (30_encoding.md): the command word and its opcode (R100, R101,
R351), the operand fields of OPA, OPB and OPC (R102), and the assembly of a canonical command into
the words the host writes (R110). -/

namespace Sys2Proof

/-- The OPCODE field, bits [7:0] of the command word (R100). -/
def opcodeField (w : Word) : Byte := w.extractLsb' 0 8

/-- The RSVD field, bits [31:8] of the command word (R100). -/
def rsvdField (w : Word) : BitVec 24 := w.extractLsb' 8 24

/-- The opcode map, read from its opcode column; every other value is reserved (R101, R108). -/
def instrOfOpcode (op : Nat) : Option Instr :=
  match op with
  | 0x00 => some .nop
  | 0x01 => some .gfInit
  | 0x10 => some .gfAdd
  | 0x11 => some .gfSub
  | 0x12 => some .gfMul
  | 0x13 => some .gfDiv
  | 0x14 => some .gfInv
  | 0x15 => some .gfPow
  | 0x16 => some .gfExp
  | 0x17 => some .gfLog
  | 0x20 => some .rsGenpoly
  | 0x21 => some .rsEncode
  | 0x30 => some .capQuery
  | 0x31 => some .fitCheck
  | 0x32 => some .selectVersion
  | 0x38 => some .modeDetect
  | 0x39 => some .buildData
  | 0x40 => some .blockAssemble
  | 0x50 => some .scaffold
  | 0x51 => some .place
  | 0x60 => some .maskApply
  | 0x61 => some .penalty
  | 0x62 => some .maskSelect
  | 0x70 => some .formatEncode
  | 0x71 => some .formatStamp
  | 0x72 => some .versionEncode
  | 0x73 => some .versionStamp
  | 0x80 => some .encode
  | _ => none

/-- The first thing an accepted command does: decode its word (R351). -/
def decode (w : Word) : Except DecodeError Instr :=
  if rsvdField w ≠ 0 then .error (.reservedBits w)
  else
    match instrOfOpcode (opcodeField w).toNat with
    | some i => .ok i
    | none => .error (.reservedOpcode (opcodeField w))

/-- The decoder on a row of the opcode table: one 32-bit word, bit 0 least significant. The command
word is one register write, so no byte order arises (R77). -/
def decodeTableWord (nbits w : Nat) : Option Instr :=
  match decode (BitVec.ofNat 32 (w % 2 ^ nbits)) with
  | .ok i => some i
  | .error _ => none

/-! ### Operand fields (R102): unsigned zero-extended slices, bit `lo` first -/

namespace Operands

/-- OPA[7:0], the field element `a`. -/
def a8 (o : Operands) : Byte := o.opa.extractLsb' 0 8
/-- OPB[7:0], the field element `b`. -/
def b8 (o : Operands) : Byte := o.opb.extractLsb' 0 8
/-- OPB[15:0], the exponent of GF_POW. -/
def e16 (o : Operands) : BitVec 16 := o.opb.extractLsb' 0 16
/-- OPA[15:0], the index of GF_EXP. -/
def i16 (o : Operands) : BitVec 16 := o.opa.extractLsb' 0 16
/-- OPC[7:0], the parity count or generator degree. -/
def t (o : Operands) : BitVec 8 := o.opc.extractLsb' 0 8
/-- OPA[11:0], the first DATA_BUF index of RS_ENCODE. -/
def src (o : Operands) : BitVec 12 := o.opa.extractLsb' 0 12
/-- OPB[12:0], the data length of RS_ENCODE. -/
def rlen (o : Operands) : BitVec 13 := o.opb.extractLsb' 0 13
/-- OPA[5:0], the version. -/
def ver (o : Operands) : BitVec 6 := o.opa.extractLsb' 0 6
/-- OPA[9:8], the ordinal of the ECC level. -/
def eccBits (o : Operands) : BitVec 2 := o.opa.extractLsb' 8 2
/-- OPA[10], whether an ECC level is given. -/
def eg (o : Operands) : Bool := o.opa.extractLsb' 10 1 == 1#1
/-- OPA[13:12], the encoding mode. -/
def modeBits (o : Operands) : BitVec 2 := o.opa.extractLsb' 12 2
/-- OPA[18:16], the mask id. -/
def maskBits (o : Operands) : BitVec 3 := o.opa.extractLsb' 16 3
/-- OPB[15:0], the input length or character count. -/
def len (o : Operands) : BitVec 16 := o.opb.extractLsb' 0 16
/-- OPC[5:0], the lowest version to try. -/
def minv (o : Operands) : BitVec 6 := o.opc.extractLsb' 0 6
/-- OPC[13:8], the highest version to try. -/
def maxv (o : Operands) : BitVec 6 := o.opc.extractLsb' 8 6

end Operands

/-- The ECC level of an ordinal (R104). -/
def eccOfBits (b : BitVec 2) : Ecc :=
  match b.toNat with
  | 0 => .L
  | 1 => .M
  | 2 => .Q
  | _ => .H

/-- The MODE field's four values (R105). -/
def modeOfBits (b : BitVec 2) : ModeField :=
  match b.toNat with
  | 0 => .auto
  | 1 => .byte
  | 2 => .alnum
  | _ => .unsupported

/-- A mask field's id; all eight values are legal (R107). -/
def maskOfBits (b : BitVec 3) : MaskId := b.toFin

namespace Operands

/-- The ECC level the ECC field names (R104). -/
def ecc (o : Operands) : Ecc := eccOfBits o.eccBits
/-- The level requested, or none where EG = 0 (R106). -/
def eccOpt (o : Operands) : Option Ecc := if o.eg then some o.ecc else none
/-- The MODE field (R105). -/
def mode (o : Operands) : ModeField := modeOfBits o.modeBits
/-- The MASK field (R107). -/
def mask (o : Operands) : MaskId := maskOfBits o.maskBits

end Operands

/-! ### The encoder -/

/-- The opcode of an instruction, read from the opcode map's mnemonic column (R101). -/
def opcodeOf : Instr → Byte
  | .nop => 0x00#8
  | .gfInit => 0x01#8
  | .gfAdd => 0x10#8
  | .gfSub => 0x11#8
  | .gfMul => 0x12#8
  | .gfDiv => 0x13#8
  | .gfInv => 0x14#8
  | .gfPow => 0x15#8
  | .gfExp => 0x16#8
  | .gfLog => 0x17#8
  | .rsGenpoly => 0x20#8
  | .rsEncode => 0x21#8
  | .capQuery => 0x30#8
  | .fitCheck => 0x31#8
  | .selectVersion => 0x32#8
  | .modeDetect => 0x38#8
  | .buildData => 0x39#8
  | .blockAssemble => 0x40#8
  | .scaffold => 0x50#8
  | .place => 0x51#8
  | .maskApply => 0x60#8
  | .penalty => 0x61#8
  | .maskSelect => 0x62#8
  | .formatEncode => 0x70#8
  | .formatStamp => 0x71#8
  | .versionEncode => 0x72#8
  | .versionStamp => 0x73#8
  | .encode => 0x80#8

/-- The command word of an instruction: its opcode, with RSVD zero (R100). -/
def encode (i : Instr) : Word := (opcodeOf i).setWidth 32

/-- The ordinal of an ECC level (R104). -/
def eccOrdinal : Ecc → Nat
  | .L => 0
  | .M => 1
  | .Q => 2
  | .H => 3

/-- The MODE field value (R105). -/
def modeCode : ModeField → Nat
  | .auto => 0
  | .byte => 1
  | .alnum => 2
  | .unsupported => 3

/-- The four words a canonical command writes: OPA, OPB, OPC, then CMD (R110). -/
structure Assembled where
  operands : Operands
  cmd : Word
  deriving DecidableEq, Repr

/-- OPA holding VER, ECC, EG, MODE and MASK, every other bit 0 (R102, R110). -/
def opaOf (ver : Nat) (ecc : Nat) (eg : Nat) (mode : Nat) (mask : Nat) : Word :=
  BitVec.ofNat 32 (ver + 2 ^ 8 * ecc + 2 ^ 10 * eg + 2 ^ 12 * mode + 2 ^ 16 * mask)

/-- OPC holding MINV and MAXV (R102, R110). -/
def opcOf (minv maxv : Nat) : Word := BitVec.ofNat 32 (minv + 2 ^ 8 * maxv)

/-- EG and ECC of an optional level: both 0 where none is given (R106, R110). -/
def egOf : Option Ecc → Nat
  | none => 0
  | some _ => 1

/-- The ECC field of an optional level (R106, R110). -/
def eccOptOrdinal : Option Ecc → Nat
  | none => 0
  | some e => eccOrdinal e

/-- The instruction a canonical command runs: its mnemonic (R110). -/
def Command.instr : Command → Instr
  | .nop => .nop
  | .gfInit => .gfInit
  | .place => .place
  | .penalty => .penalty
  | .versionStamp => .versionStamp
  | .gfAdd _ _ => .gfAdd
  | .gfSub _ _ => .gfSub
  | .gfMul _ _ => .gfMul
  | .gfDiv _ _ => .gfDiv
  | .gfInv _ => .gfInv
  | .gfLog _ => .gfLog
  | .gfPow _ _ => .gfPow
  | .gfExp _ => .gfExp
  | .rsGenpoly _ => .rsGenpoly
  | .rsEncode _ _ _ => .rsEncode
  | .capQuery _ _ => .capQuery
  | .blockAssemble _ _ => .blockAssemble
  | .fitCheck _ _ _ _ => .fitCheck
  | .buildData _ _ _ _ => .buildData
  | .selectVersion _ _ _ _ _ => .selectVersion
  | .modeDetect _ => .modeDetect
  | .scaffold _ => .scaffold
  | .versionEncode _ => .versionEncode
  | .maskApply _ => .maskApply
  | .maskSelect _ => .maskSelect
  | .formatEncode _ _ => .formatEncode
  | .formatStamp _ _ => .formatStamp
  | .encode _ _ _ _ _ _ => .encode

/-- The operand words of a canonical command: OPA, OPB and OPC assembled from the operands, with
every other bit 0 (R110). -/
def Command.operands : Command → Operands
  | .nop | .gfInit | .place | .penalty | .versionStamp => ⟨0, 0, 0⟩
  | .gfAdd a b | .gfSub a b | .gfMul a b | .gfDiv a b => ⟨natWord a, natWord b, 0⟩
  | .gfInv a | .gfLog a => ⟨natWord a, 0, 0⟩
  | .gfPow a e => ⟨natWord a, natWord e, 0⟩
  | .gfExp i => ⟨natWord i, 0, 0⟩
  | .rsGenpoly t => ⟨0, 0, natWord t⟩
  | .rsEncode src len t => ⟨natWord src, natWord len, natWord t⟩
  | .capQuery v e | .blockAssemble v e => ⟨opaOf v (eccOrdinal e) 0 0 0, 0, 0⟩
  | .fitCheck v e m n | .buildData v e m n =>
    ⟨opaOf v (eccOrdinal e) 0 (modeCode m) 0, natWord n, 0⟩
  | .selectVersion m n e minv maxv =>
    ⟨opaOf 0 (eccOptOrdinal e) (egOf e) (modeCode m) 0, natWord n, opcOf minv maxv⟩
  | .modeDetect n => ⟨0, natWord n, 0⟩
  | .scaffold v | .versionEncode v => ⟨opaOf v 0 0 0 0, 0, 0⟩
  | .maskApply k => ⟨opaOf 0 0 0 0 k.val, 0, 0⟩
  | .maskSelect e => ⟨opaOf 0 (eccOrdinal e) 0 0 0, 0, 0⟩
  | .formatEncode e k | .formatStamp e k => ⟨opaOf 0 (eccOrdinal e) 0 0 k.val, 0, 0⟩
  | .encode n ver e m minv maxv =>
    ⟨opaOf ver (eccOptOrdinal e) (egOf e) (modeCode m) 0, natWord n, opcOf minv maxv⟩

/-- A canonical command as the four words the host writes (R110). -/
def assemble (c : Command) : Assembled := ⟨c.operands, encode c.instr⟩

/-- The canonical command that an instruction and the operand registers make, read through the
fields of its operand form (R101, R102). -/
def commandOf (i : Instr) (o : Operands) : Command :=
  match i with
  | .nop => .nop
  | .gfInit => .gfInit
  | .gfAdd => .gfAdd o.a8.toNat o.b8.toNat
  | .gfSub => .gfSub o.a8.toNat o.b8.toNat
  | .gfMul => .gfMul o.a8.toNat o.b8.toNat
  | .gfDiv => .gfDiv o.a8.toNat o.b8.toNat
  | .gfInv => .gfInv o.a8.toNat
  | .gfPow => .gfPow o.a8.toNat o.e16.toNat
  | .gfExp => .gfExp o.i16.toNat
  | .gfLog => .gfLog o.a8.toNat
  | .rsGenpoly => .rsGenpoly o.t.toNat
  | .rsEncode => .rsEncode o.src.toNat o.rlen.toNat o.t.toNat
  | .capQuery => .capQuery o.ver.toNat o.ecc
  | .fitCheck => .fitCheck o.ver.toNat o.ecc o.mode o.len.toNat
  | .selectVersion => .selectVersion o.mode o.len.toNat o.eccOpt o.minv.toNat o.maxv.toNat
  | .modeDetect => .modeDetect o.len.toNat
  | .buildData => .buildData o.ver.toNat o.ecc o.mode o.len.toNat
  | .blockAssemble => .blockAssemble o.ver.toNat o.ecc
  | .scaffold => .scaffold o.ver.toNat
  | .place => .place
  | .maskApply => .maskApply o.mask
  | .penalty => .penalty
  | .maskSelect => .maskSelect o.ecc
  | .formatEncode => .formatEncode o.ecc o.mask
  | .formatStamp => .formatStamp o.ecc o.mask
  | .versionEncode => .versionEncode o.ver.toNat
  | .versionStamp => .versionStamp
  | .encode => .encode o.len.toNat o.ver.toNat o.eccOpt o.mode o.minv.toNat o.maxv.toNat

/-- Reading four words back as a canonical command (R351, R102). -/
def disassemble (w : Assembled) : Except DecodeError Command :=
  match decode w.cmd with
  | .ok i => .ok (commandOf i w.operands)
  | .error e => .error e

end Sys2Proof
end

