-- ==== Sys2Proof/Machine/State.lean ====
section
/-! DEFINITION. The state of the QRC as plain data (10_state.md), what a command answers, why a step
can stop, and the state right after reset (R390). -/

namespace Sys2Proof.Machine

/-- The buffers and the matrix buffer: (window offset, byte) pairs in rising order of offset, listing
exactly the bytes that differ from what an unlisted offset reads as (R35, R71). -/
abbrev Memory := List Host.Cell

/-- The `mod` field of a matrix cell (R40). -/
inductive Module where
  | unset | light | dark
  deriving DecidableEq, Repr

/-- One cell of the matrix: its module and its entry in the reserved grid (R40). -/
structure Cell where
  mod : Module
  res : Bool
  deriving DecidableEq, Repr

/-- The field in use: POLY_ACTIVE (R29) with the EXP and LOG tables built from it (R45). -/
structure GfField where
  polyActive : Poly
  /-- `EXP[0..511]`. -/
  exp : List Byte
  /-- `LOG[0..255]`; entry 0 is never read. -/
  log : List Byte
  deriving DecidableEq, Repr

/-- The accept snapshot: everything a command reads, as it stood at acceptance (R47, R350). -/
structure Snapshot where
  poly : Poly
  field : GfField
  mver : BitVec 6
  ops : Operands
  mem : Memory
  deriving DecidableEq, Repr

/-- The sequencer's phase (R47). While BUSY it holds the accepted command word and the snapshot. -/
inductive Phase where
  | init
  | idle
  | busy (word : Word) (snap : Snapshot)
  deriving DecidableEq, Repr

/-- The errors a command raises, each with what it records (R355, R356). Raised by the commands named
in R355 and by the decoding of every command word; the machine goes on. -/
inductive CmdError where
  /-- E_CAPACITY: length, mode, bounds, level, and whether the level was given. -/
  | capacity (n : Nat) (mode : Mode) (lo hi : Nat) (ecc : Nat) (given : Bool)
  /-- E_MODE: the offset of the first byte outside the set (0xFFFF: the value is refused), and MODE. -/
  | mode (offset : Nat) (field : Nat)
  /-- E_RANGE: the offending value and the field code. -/
  | range (value : Nat) (code : Nat)
  /-- E_DIV_ZERO: the dividend; the divisor is 0. -/
  | divZero (dividend : Byte)
  /-- E_LOG_ZERO. -/
  | logZero
  /-- E_CONSISTENCY: the sum of the block data lengths and the expected total. -/
  | consistency (sum total : Nat)
  /-- E_ILLEGAL: the command word. -/
  | illegal (word : Word)
  /-- E_POLY: the refused POLY value. -/
  | poly (p : Poly)
  /-- E_UNSET: the first UNSET cell. -/
  | unset (r c : Nat)
  deriving DecidableEq, Repr

/-- Everything a successful command writes (the "Writes" of its rule): RES0 and on, SCORE0 to SCORE7
or none of them, MVER, the field in use, and bytes of the buffers and the matrix (R32, R33, R353). -/
structure Writes where
  res : List Word := []
  score : List Word := []
  mver : Option (BitVec 6) := none
  field : Option GfField := none
  mem : List Host.Cell := []
  deriving DecidableEq, Repr

/-- What a command's rule evaluates to: an error, or its writes (R352). -/
abbrev CmdResult := Except CmdError Writes

/-- The response to one host access: the value read (0 for a write), and whether it was refused with
a bus error (R76). -/
structure BusResponse where
  data : Word
  busError : Bool
  deriving DecidableEq, Repr

/-- Why the machine stops. -/
inductive Fault where
  /-- Raised by a host access that is not wholly inside the 64 KiB window (R70): it is no access to
  the QRC at all. No command raises it. Safe: the model says nothing of the run after it. -/
  | outsideWindow (offset : Nat)
  deriving DecidableEq, Repr

/-- Why the machine gives no meaning. -/
inductive Refusal where
  /-- The instruction has no meaning in this model yet; raised by `exec` alone. Safe. -/
  | notModelled (mnemonic : String)
  deriving DecidableEq, Repr

/-- The state of the QRC. STATUS.BUSY and STATUS.GF_READY are read off `phase` (R23, R47), ID and the
capacity ROM are constants (R21, R46), and `irq` is derived (R49). -/
structure State where
  /-- CTRL.IE (R22). -/
  ie : Bool
  /-- STATUS.DONE (R23). -/
  done : Bool
  /-- STATUS.ERR (R23). -/
  err : Bool
  /-- STATUS.OVR (R23). -/
  ovr : Bool
  /-- CMD, the last accepted word (R24). -/
  cmd : Word
  /-- ERRCODE[3:0] (R25). -/
  errcode : BitVec 4
  /-- ERRINFO0 (R26). -/
  errinfo0 : Word
  /-- ERRINFO1 (R27). -/
  errinfo1 : Word
  /-- POLY[8:0] (R28). -/
  poly : Poly
  /-- POLY_ACTIVE (R29), EXP and LOG (R45). -/
  field : GfField
  /-- MVER[5:0] (R30). -/
  mver : BitVec 6
  /-- OPA (R31). -/
  opa : Word
  /-- OPB (R31). -/
  opb : Word
  /-- OPC (R31). -/
  opc : Word
  /-- RES0 to RES7 (R32). -/
  res : Vector Word 8
  /-- SCORE0 to SCORE7 (R33). -/
  score : Vector Word 8
  /-- IN_BUF, DATA_BUF, ECC_BUF, ILV_BUF, GEN_BUF, PAR_BUF and the matrix (R35, R39, R71). -/
  mem : Memory
  /-- The sequencer's phase, with the accepted word and the snapshot while BUSY (R47). -/
  phase : Phase
  /-- The model's own: what still reaches the QRC from outside, in its total order (R86, R361). -/
  events : List Event
  /-- The model's own: the response to the last host access, none before the first. -/
  resp : Option BusResponse
  /-- The model's own: how many free bytes have been drawn from `Config.freeByte`. -/
  freeCount : Nat
  deriving DecidableEq, Repr

/-- The reset value of POLY and POLY_ACTIVE, 0x11D (R8, R28, R29). -/
def polyReset : Poly := 0x11D#9

/-- The tables before reset initialisation has built them: unspecified and never observable (R390);
zeros here (DESIGN CHOICE, notes/assumptions/2.md). -/
def GfField.reset : GfField := ⟨polyReset, List.replicate 512 0, List.replicate 256 0⟩

/-- Every register at its reset value and `phase = INIT` (R390), with the buffers and the matrix holding
`m`. -/
def State.resetHolding (m : Memory) : State where
  ie := false
  done := false
  err := false
  ovr := false
  cmd := 0
  errcode := 0
  errinfo0 := 0
  errinfo1 := 0
  poly := polyReset
  field := GfField.reset
  mver := 0
  opa := 0
  opb := 0
  opc := 0
  res := Vector.replicate 8 0
  score := Vector.replicate 8 0
  mem := m
  phase := .init
  events := []
  resp := none
  freeCount := 0

/-- The machine right after power-on reset (R390), with no buffer byte listed: the power-on contents
are unspecified (R391), and an unlisted byte reads as 0 (DESIGN CHOICE, notes/assumptions/1.md). -/
def State.reset : State := State.resetHolding []

end Sys2Proof.Machine
end

