-- ==== Sys2Proof/Machine/Ops.lean ====
section
/-! DEFINITION. The operations every command shares: memory (R35, R41, R71), the result registers
(R32), acceptance (R350), raising an error (R352) and completion (R353). -/

namespace Sys2Proof.Machine

/-! ### Memory -/

/-- What an offset that memory does not list reads as: reserved offsets read 0 (R84); a buffer byte
nothing has written since power-on is unspecified (R391) and reads 0 here (DESIGN CHOICE,
notes/assumptions/1.md). -/
def unlisted : Byte := 0

/-- The byte at a window offset. -/
def readByte : Memory → Nat → Byte
  | [], _ => unlisted
  | (b, v) :: m, a => if b < a then readByte m a else if b = a then v else unlisted

/-- Store a byte, keeping memory in its canonical form: rising offsets, no byte listed that an
unlisted offset reads as. -/
def writeByte : Memory → Nat → Byte → Memory
  | [], a, x => if x = unlisted then [] else [(a, x)]
  | (b, v) :: m, a, x =>
    if b < a then (b, v) :: writeByte m a x
    else
      let rest := if b = a then m else (b, v) :: m
      if x = unlisted then rest else (a, x) :: rest

/-- Store every listed byte. Where two entries name one offset, the earlier one stands. -/
def writeBytes (m : Memory) : List Host.Cell → Memory
  | [] => m
  | (a, x) :: ws => writeByte (writeBytes m ws) a x

/-- Memory from the first listed offset that is at least `a`. -/
def dropBelow : Memory → Nat → Memory
  | [], _ => []
  | (b, v) :: m, a => if b < a then dropBelow m a else (b, v) :: m

/-- The `k` bytes from offset `a` on, in one walk over memory. -/
def readBytes : Memory → Nat → Nat → List Byte
  | _, _, 0 => []
  | m, a, k + 1 => readByte (dropBelow m a) a :: readBytes (dropBelow m a) (a + 1) k

/-- The entries that store `bs` from offset `a` on. -/
def bytesAt : Nat → List Byte → List Host.Cell
  | _, [] => []
  | a, b :: bs => (a, b) :: bytesAt (a + 1) bs

/-- Offsets rise strictly. -/
def risingFrom : Nat → Memory → Bool
  | _, [] => true
  | a, (b, _) :: m => decide (a ≤ b) && risingFrom (b + 1) m

/-- The canonical form of memory: rising offsets, and no byte listed that an unlisted one reads as. -/
def Memory.wf (m : Memory) : Bool := risingFrom 0 m && m.all fun e => e.2 != unlisted

/-! ### The address map (R71) -/

/-- The first offset of GEN_BUF. -/
def genBase : Nat := 0x0100
/-- The first offset of PAR_BUF. -/
def parBase : Nat := 0x0200
/-- The first offset of DATA_BUF. -/
def dataBase : Nat := 0x1000
/-- The first offset of ECC_BUF. -/
def eccBase : Nat := 0x2000
/-- The first offset of ILV_BUF. -/
def ilvBase : Nat := 0x3000
/-- The first offset of IN_BUF. -/
def inBase : Nat := 0x4000
/-- The first offset of the matrix. -/
def matBase : Nat := 0x8000
/-- MSTRIDE, the row stride of the matrix buffer (R8). -/
def mstride : Nat := 177
/-- The size of the window (R70). -/
def windowSize : Nat := 0x10000

/-- The offset of cell (r, c) (R41, R71). -/
def cellOffset (r c : Nat) : Nat := matBase + mstride * r + c

/-- The offset lies in the register region (R71). -/
def inRegs (a : Nat) : Bool := decide (a < 0x0100)

/-- The offset is a byte of the matrix (R71). -/
def inMatrix (a : Nat) : Bool := decide (matBase ≤ a ∧ a < matBase + mstride * mstride)

/-- The offset is a byte of one of the six buffers (R35, R71). -/
def inBuffer (a : Nat) : Bool :=
  decide (0x0100 ≤ a ∧ a < 0x0300) || decide (0x1000 ≤ a ∧ a < 0x6000)

/-- The offset holds a byte of a buffer or of the matrix; every other offset at 0x0100 and above is
reserved (R71). -/
def inStorage (a : Nat) : Bool := inBuffer a || inMatrix a

/-! ### Matrix cells (R40, R41) -/

/-- The byte of a cell: bit 0 VAL, bit 1 SET, bit 2 RES (R41). -/
def Cell.toByte (c : Cell) : Byte :=
  (match c.mod with
    | .unset => 0b00#8
    | .light => 0b10#8
    | .dark => 0b11#8) ||| (if c.res then 0b100#8 else 0#8)

/-- The cell a byte stores: with SET = 0 the module is UNSET whatever VAL says, and bits [7:3] are
ignored (R41). -/
def Cell.ofByte (b : Byte) : Cell :=
  ⟨if b.getLsbD 1 then (if b.getLsbD 0 then .dark else .light) else .unset, b.getLsbD 2⟩

/-- What a matrix byte holds after `b` is written to it: 0b01 is never stored, and bits [7:3] read 0
(R41). -/
def matrixByte (b : Byte) : Byte := (Cell.ofByte b).toByte

/-- What an offset of the storage holds after `b` is written to it. -/
def storedByte (a : Nat) (b : Byte) : Byte := if inMatrix a then matrixByte b else b

/-- The memory that power-on leaves, from arbitrary contents: any byte in each buffer, a legal encoding
in each matrix cell, and nothing at a reserved offset (R391, R41). -/
def powerOnMemory (contents : List Host.Cell) : Memory :=
  writeBytes [] ((contents.filter fun e => inStorage e.1).map fun e => (e.1, storedByte e.1 e.2))

/-! ### Registers -/

/-- Write RESk, RESk+1, … (or SCOREk, …); every other one keeps its value (R32, R33). -/
def setFrom (v : Vector Word 8) (k : Nat) : List Word → Vector Word 8
  | [] => v
  | w :: ws => setFrom (v.setIfInBounds k w) (k + 1) ws

/-- The operand registers (R31). -/
def State.ops (s : State) : Operands := ⟨s.opa, s.opb, s.opc⟩

/-- The accept snapshot taken now (R350). -/
def State.snapshot (s : State) : Snapshot := ⟨s.poly, s.field, s.mver, s.ops, s.mem⟩

/-- What the running command reads: its accept snapshot (R58). Where no command is running, what a
command accepted now would read (DESIGN CHOICE, notes/assumptions/11.md). -/
def State.input (s : State) : Snapshot :=
  match s.phase with
  | .busy _ snap => snap
  | _ => s.snapshot

/-- Power-on reset, the function `reset(b)` of R392: the registers at their reset values, `phase = INIT`,
and the contents `b` (R390, R391). -/
def State.powerOn (s : State) (contents : List Host.Cell) : State :=
  { State.resetHolding (powerOnMemory contents) with
    events := s.events, resp := s.resp, freeCount := s.freeCount }

/-! ### Errors (R355, R356) -/

/-- The mode's number in error records and results: 1 byte, 2 alphanumeric (R105, R188). -/
def modeNumber : Mode → Nat
  | .byte => 1
  | .alnum => 2

/-- The code of an error (R355). -/
def CmdError.code : CmdError → BitVec 4
  | .capacity _ _ _ _ _ _ => 1
  | .mode _ _ => 2
  | .range _ _ => 3
  | .divZero _ => 4
  | .logZero => 5
  | .consistency _ _ => 6
  | .illegal _ => 7
  | .poly _ => 8
  | .unset _ _ => 9

/-- What an error records in ERRINFO0 (R356). -/
def CmdError.info0 : CmdError → Word
  | .capacity n m _ _ _ _ => natWord (n + 2 ^ 16 * modeNumber m)
  | .mode offset field => natWord (offset + 2 ^ 16 * field)
  | .range value _ => natWord value
  | .divZero a => a.toWord
  | .logZero => 0
  | .consistency sum _ => natWord sum
  | .illegal w => w
  | .poly p => p.setWidth 32
  | .unset r c => natWord (r + 2 ^ 8 * c)

/-- What an error records in ERRINFO1, 0 where its rule names nothing (R352, R356). -/
def CmdError.info1 : CmdError → Word
  | .capacity _ _ lo hi e given =>
    natWord (lo + 2 ^ 8 * hi + 2 ^ 16 * e + 2 ^ 18 * (if given then 1 else 0))
  | .range _ code => natWord code
  | .consistency _ total => natWord total
  | .mode _ _ | .divZero _ | .logZero | .illegal _ | .poly _ | .unset _ _ => 0

/-! ### The command lifecycle -/

/-- Acceptance of a command word, one atomic step: CMD holds it, DONE, ERR, ERRCODE and ERRINFO are
cleared, and the sequencer is BUSY with the snapshot (R350). OVR is not changed. -/
def State.accept (s : State) (w : Word) : State :=
  { s with cmd := w, done := false, err := false, errcode := 0, errinfo0 := 0, errinfo1 := 0,
           phase := .busy w s.snapshot }

/-- Raising an error, the QRC's exception entry: nothing the command would have written is written;
ERRCODE and ERRINFO record the error, ERR and DONE are set, and the sequencer is IDLE (R352). There is
no vector and no handler (R354). -/
def State.raiseError (s : State) (e : CmdError) : State :=
  { s with errcode := e.code, errinfo0 := e.info0, errinfo1 := e.info1, err := true, done := true,
           phase := .idle }

/-- Normal completion, one atomic step: every write of the command's rule, DONE set, the sequencer
IDLE; ERR, ERRCODE and ERRINFO stay as they are (R353). The error record of an earlier command was
cleared at acceptance: there is no return-from-error operation (R354). -/
def State.completeOk (s : State) (w : Writes) : State :=
  { s with res := setFrom s.res 0 w.res, score := setFrom s.score 0 w.score,
           mver := w.mver.getD s.mver, field := w.field.getD s.field,
           mem := writeBytes s.mem w.mem, done := true, phase := .idle }

/-- Completion of a command, all at once: its rule answered an error or its writes (R352, R353; DEDUCED,
notes/assumptions/12.md). -/
def State.finish (s : State) : CmdResult → State
  | .error e => s.raiseError e
  | .ok w => s.completeOk w

end Sys2Proof.Machine
end

