-- ==== Sys2Proof/Machine/Flags.lean ====
section
/-! DEFINITION. The five STATUS flags, their write-one-to-clear rule and the interrupt output (R23,
R49, R360). No command computes any other flag. -/

namespace Sys2Proof.Machine

/-- STATUS.BUSY: the phase is not IDLE (R23, R47). -/
def State.busy (s : State) : Bool :=
  match s.phase with
  | .idle => false
  | .init | .busy _ _ => true

/-- STATUS.GF_READY: 0 during reset initialisation, 1 at every other time (R23). -/
def State.gfReady (s : State) : Bool :=
  match s.phase with
  | .init => false
  | .idle | .busy _ _ => true

/-- A flag at bit `k` of a register. -/
def flagBit (b : Bool) (k : Nat) : Word := if b then BitVec.ofNat 32 (2 ^ k) else 0

/-- What STATUS reads as: bit 0 BUSY, 1 DONE, 2 ERR, 3 GF_READY, 4 OVR, bits [31:5] zero (R23). -/
def State.statusWord (s : State) : Word :=
  flagBit s.busy 0 ||| flagBit s.done 1 ||| flagBit s.err 2 ||| flagBit s.gfReady 3 |||
    flagBit s.ovr 4

/-- A host write to STATUS: writing 1 clears DONE, ERR or OVR, writing 0 has no effect, and BUSY and
GF_READY ignore it (R23). -/
def State.writeStatus (s : State) (d : Word) : State :=
  { s with done := s.done && !d.getLsbD 1, err := s.err && !d.getLsbD 2,
           ovr := s.ovr && !d.getLsbD 4 }

/-- The interrupt output: `CTRL.IE ∧ STATUS.DONE` (R360). -/
def State.irq (s : State) : Bool := s.ie && s.done

end Sys2Proof.Machine
end

