-- ==== Sys2Proof/Machine/Operands.lean ====
section
/-! DEFINITION. The operand forms of R101 as the commands read them from the accept snapshot (R102),
with the range checks and defaults that several commands share (R105, R106, R356, R357). -/

namespace Sys2Proof.Machine

/-- VER as a number. -/
def Snapshot.ver (x : Snapshot) : Nat := x.ops.ver.toNat
/-- LEN as a number. -/
def Snapshot.len (x : Snapshot) : Nat := x.ops.len.toNat
/-- MINV as a number. -/
def Snapshot.minv (x : Snapshot) : Nat := x.ops.minv.toNat
/-- MAXV as a number. -/
def Snapshot.maxv (x : Snapshot) : Nat := x.ops.maxv.toNat
/-- MVER as a number (R30). -/
def Snapshot.mverNat (x : Snapshot) : Nat := x.mver.toNat

/-- The default of MINV: 0 means 1 (R106). -/
def lowBound (minv : Nat) : Nat := if minv = 0 then 1 else minv
/-- The default of MAXV: 0 means 40 (R106). -/
def highBound (maxv : Nat) : Nat := if maxv = 0 then 40 else maxv

/-- A version outside 1 to 40 (R356, field codes 1 and 7). -/
def badVersion (v : Nat) : Bool := decide (v < 1) || decide (40 < v)

/-- The size of IN_BUF, the largest LEN of a command that reads it (R8, R356 field code 5). -/
def inBufSize : Nat := 8192
/-- The size of DATA_BUF, ECC_BUF and ILV_BUF (R8, R356 field code 6). -/
def cwBufSize : Nat := 4096

/-- The concrete mode of a MODE field that names one (R105). -/
def concreteMode : ModeField → Option Mode
  | .byte => some .byte
  | .alnum => some .alnum
  | .auto | .unsupported => none

/-- The error of a MODE value that is itself refused (R356: offset 0xFFFF). -/
def modeRefused (m : ModeField) : CmdError := .mode 0xFFFF (modeCode m)

/-- The input of a command: `IN_BUF[0 .. LEN-1]` (R36). -/
def Snapshot.input (x : Snapshot) : List Byte := readBytes x.mem inBase x.len

end Sys2Proof.Machine
end

