-- ==== Sys2Proof/Machine/Capacity.lean ====
section
/-! DEFINITION. The version and capacity metadata (42_capacity.md): the capacity ROM (R46, R180 to
R183), its derived functions (R184), the fit predicate (R186), the search (R188), and the commands
CAP_QUERY, FIT_CHECK and SELECT_VERSION. -/

namespace Sys2Proof.Machine

/-! ### The capacity ROM, indexed by version and by ECC ordinal -/

/-- TOTAL_CW(v) for v = 1 to 40 (R180; what the spec marks as general knowledge is UNVERIFIED beyond its
own cross-checks, notes/assumptions/16.md). -/
def totalCwTable : List Nat :=
  [26, 44, 70, 100, 134, 172, 196, 242, 292, 346,
   404, 466, 532, 581, 655, 733, 815, 901, 991, 1085] ++
  [1156, 1258, 1364, 1474, 1588, 1706, 1828, 1921, 2051, 2185,
   2323, 2465, 2611, 2761, 2876, 3034, 3196, 3362, 3532, 3706]

/-- ECCPB(v, e), one row a version, the levels in the order L, M, Q, H (R181). -/
def eccpbTable : List (List Nat) :=
  [[7, 10, 13, 17], [10, 16, 22, 28], [15, 26, 18, 22], [20, 18, 26, 16], [26, 24, 18, 22],
   [18, 16, 24, 28], [20, 18, 18, 26], [24, 22, 22, 26], [30, 22, 20, 24], [18, 26, 24, 28],
   [20, 30, 28, 24], [24, 22, 26, 28], [26, 22, 24, 22], [30, 24, 20, 24], [22, 24, 30, 24],
   [24, 28, 24, 30], [28, 28, 28, 28], [30, 26, 28, 28], [28, 26, 26, 26], [28, 26, 30, 28]] ++
  [[28, 26, 28, 30], [28, 28, 30, 24], [30, 28, 30, 30], [30, 28, 30, 30], [26, 28, 30, 30],
   [28, 28, 28, 30], [30, 28, 30, 30], [30, 28, 30, 30], [30, 28, 30, 30], [30, 28, 30, 30],
   [30, 28, 30, 30], [30, 28, 30, 30], [30, 28, 30, 30], [30, 28, 30, 30], [30, 28, 30, 30],
   [30, 28, 30, 30], [30, 28, 30, 30], [30, 28, 30, 30], [30, 28, 30, 30], [30, 28, 30, 30]]

/-- NB(v, e), one row a version, the levels in the order L, M, Q, H (R182). -/
def nbTable : List (List Nat) :=
  [[1, 1, 1, 1], [1, 1, 1, 1], [1, 1, 2, 2], [1, 2, 2, 4], [1, 2, 4, 4],
   [2, 4, 4, 4], [2, 4, 6, 5], [2, 4, 6, 6], [2, 5, 8, 8], [4, 5, 8, 8],
   [4, 5, 8, 11], [4, 8, 10, 11], [4, 9, 12, 16], [4, 9, 16, 16], [6, 10, 12, 18],
   [6, 10, 17, 16], [6, 11, 16, 19], [6, 13, 18, 21], [7, 14, 21, 25], [8, 16, 20, 25]] ++
  [[8, 17, 23, 25], [9, 17, 23, 34], [9, 18, 25, 30], [10, 20, 27, 32], [12, 21, 29, 35],
   [12, 23, 34, 37], [12, 25, 34, 40], [13, 26, 35, 42], [14, 28, 38, 45], [15, 29, 40, 48],
   [16, 31, 43, 51], [17, 33, 45, 54], [18, 35, 48, 57], [19, 37, 51, 60], [19, 38, 53, 63],
   [20, 40, 56, 66], [21, 43, 59, 70], [22, 45, 62, 74], [24, 47, 65, 77], [25, 49, 68, 81]]

/-- ALIGN(v) for v = 1 to 40 (R183). -/
def alignTable : List (List Nat) :=
  [[], [6, 18],
   [6, 22], [6, 26],
   [6, 30], [6, 34],
   [6, 22, 38], [6, 24, 42],
   [6, 26, 46], [6, 28, 50],
   [6, 30, 54], [6, 32, 58],
   [6, 34, 62], [6, 26, 46, 66],
   [6, 26, 48, 70], [6, 26, 50, 74],
   [6, 30, 54, 78], [6, 30, 56, 82],
   [6, 30, 58, 86], [6, 34, 62, 90]] ++
  [[6, 28, 50, 72, 94], [6, 26, 50, 74, 98],
   [6, 30, 54, 78, 102], [6, 28, 54, 80, 106],
   [6, 32, 58, 84, 110], [6, 30, 58, 86, 114],
   [6, 34, 62, 90, 118], [6, 26, 50, 74, 98, 122],
   [6, 30, 54, 78, 102, 126], [6, 26, 52, 78, 104, 130],
   [6, 30, 56, 82, 108, 134], [6, 34, 60, 86, 112, 138],
   [6, 30, 58, 86, 114, 142], [6, 34, 62, 90, 118, 146],
   [6, 30, 54, 78, 102, 126, 150], [6, 24, 50, 76, 102, 128, 154],
   [6, 28, 54, 80, 106, 132, 158], [6, 32, 58, 84, 110, 136, 162],
   [6, 26, 54, 82, 110, 138, 166], [6, 30, 58, 86, 114, 142, 170]]

/-- SIZE(v) (R8, R184). -/
def symbolSize (v : Nat) : Nat := 17 + 4 * v
/-- TOTAL_CW(v) (R180). -/
def totalCw (v : Nat) : Nat := totalCwTable.getD (v - 1) 0
/-- ECCPB(v, e) (R181). -/
def eccpb (v : Nat) (e : Ecc) : Nat := (eccpbTable.getD (v - 1) []).getD (eccOrdinal e) 0
/-- NB(v, e) (R182). -/
def nb (v : Nat) (e : Ecc) : Nat := (nbTable.getD (v - 1) []).getD (eccOrdinal e) 0
/-- ALIGN(v) (R183). -/
def align (v : Nat) : List Nat := alignTable.getD (v - 1) []

/-! ### Derived functions (R184) -/

/-- DATA_CW(v, e). -/
def dataCw (v : Nat) (e : Ecc) : Nat := totalCw v - eccpb v e * nb v e

/-- CCI(mode, v), the width of the character-count indicator. -/
def cci (m : Mode) (v : Nat) : Nat :=
  match m with
  | .byte => if v ≤ 9 then 8 else 16
  | .alnum => if v ≤ 9 then 9 else if v ≤ 26 then 11 else 13

/-- PAYLOAD(mode, n). -/
def payload (m : Mode) (n : Nat) : Nat :=
  match m with
  | .byte => 8 * n
  | .alnum => 11 * (n / 2) + (if n % 2 = 1 then 6 else 0)

/-- REQ(mode, n, v), the bits before the terminator. -/
def req (m : Mode) (n v : Nat) : Nat := 4 + cci m v + payload m n

/-- CAPBITS(v, e). -/
def capBits (v : Nat) (e : Ecc) : Nat := 8 * dataCw v e

/-- The length exceeds what the count indicator can hold (R186, R187). -/
def overCount (m : Mode) (n v : Nat) : Bool := decide (2 ^ cci m v - 1 < n)

/-- The fit predicate (R186). -/
def fits (m : Mode) (n v : Nat) (e : Ecc) : Bool :=
  !overCount m n v && decide (req m n v ≤ capBits v e)

/-! ### The search (R188) -/

/-- The levels in the order they are tried. -/
def allEcc : List Ecc := [.L, .M, .Q, .H]

/-- The levels a search tries: the one given, or all four in order. -/
def levelsFor : Option Ecc → List Ecc
  | some e => [e]
  | none => allEcc

/-- The first of the versions, and for it the first of the levels, that fits. -/
def firstFit (m : Mode) (n : Nat) (levels : List Ecc) : List Nat → Option (Nat × Ecc)
  | [] => none
  | v :: vs =>
    match levels.find? fun e => fits m n v e with
    | some e => some (v, e)
    | none => firstFit m n levels vs

/-- The ordinal an error records for an optional level: 0 where none is given (R188, R356). -/
def eccCode : Option Ecc → Nat
  | some e => eccOrdinal e
  | none => 0

/-- The selection function (R188). -/
def select (m : Mode) (n lo hi : Nat) (eopt : Option Ecc) : Except CmdError (Nat × Ecc) :=
  if hi < lo then .error (.range (lo + 2 ^ 8 * hi) 4)
  else
    match firstFit m n (levelsFor eopt) (List.range' lo (hi + 1 - lo)) with
    | some r => .ok r
    | none => .error (.capacity n m lo hi (eccCode eopt) eopt.isSome)

/-! ### The commands -/

/-- Four bytes as a register value, the first in bits [7:0] (R9). -/
def packBytes (a0 a1 a2 a3 : Nat) : Word :=
  natWord (a0 + 2 ^ 8 * a1 + 2 ^ 16 * a2 + 2 ^ 24 * a3)

/-- CAP_QUERY (R185). -/
def capQueryRule (x : Snapshot) : CmdResult :=
  let v := x.ver
  let e := x.ops.ecc
  if badVersion v then .error (.range v 1)
  else
    let a := align v
    .ok { res := [natWord (symbolSize v), natWord (totalCw v), natWord (dataCw v e),
            natWord (eccpb v e), natWord (nb v e),
            packBytes a.length (cci .byte v) (cci .alnum v) 0,
            packBytes (a.getD 0 0) (a.getD 1 0) (a.getD 2 0) (a.getD 3 0),
            packBytes (a.getD 4 0) (a.getD 5 0) (a.getD 6 0) 0] }

/-- FIT_CHECK (R187): a payload that does not fit is a result. -/
def fitCheckRule (x : Snapshot) : CmdResult :=
  let v := x.ver
  let e := x.ops.ecc
  let n := x.len
  if badVersion v then .error (.range v 1)
  else
    match concreteMode x.ops.mode with
    | none => .error (modeRefused x.ops.mode)
    | some m =>
      .ok { res := [if fits m n v e then 1 else 0, natWord (req m n v), natWord (capBits v e),
              if overCount m n v then 1 else 0] }

/-- SELECT_VERSION (R189). -/
def selectVersionRule (x : Snapshot) : CmdResult :=
  let lo := lowBound x.minv
  let hi := highBound x.maxv
  if 40 < x.minv then .error (.range x.minv 2)
  else if 40 < x.maxv then .error (.range x.maxv 3)
  else if hi < lo then .error (.range (lo + 2 ^ 8 * hi) 4)
  else
    match concreteMode x.ops.mode with
    | none => .error (modeRefused x.ops.mode)
    | some m =>
      match select m x.len lo hi x.ops.eccOpt with
      | .error e => .error e
      | .ok (v, e) => .ok { res := [natWord v, natWord (eccOrdinal e)] }

/-- CAP_QUERY run to completion. -/
def execCapQuery (s : State) : Host.Outcome State Fault Refusal :=
  .next (s.finish (capQueryRule s.input))
/-- FIT_CHECK run to completion. -/
def execFitCheck (s : State) : Host.Outcome State Fault Refusal :=
  .next (s.finish (fitCheckRule s.input))
/-- SELECT_VERSION run to completion. -/
def execSelectVersion (s : State) : Host.Outcome State Fault Refusal :=
  .next (s.finish (selectVersionRule s.input))

end Sys2Proof.Machine
end

