-- ==== Sys2Proof/Machine/GaloisField.lean ====
section
/-! DEFINITION. GF(256) field arithmetic (40_gf256.md): the tables, the field functions, and the
commands GF_INIT, GF_ADD, GF_SUB, GF_MUL, GF_DIV, GF_INV, GF_POW, GF_EXP and GF_LOG. -/

namespace Sys2Proof.Machine

/-! ### The tables (R130) -/

/-- One step of the table build: shift left, and reduce by `p` where bit 8 comes up (R130). -/
def timesX (p x : Poly) : Poly := if (x <<< 1).getLsbD 8 then (x <<< 1) ^^^ p else x <<< 1

/-- `x, x·α, x·α², …`, `k` of them. -/
def powersFrom (p : Poly) : Nat → Poly → List Poly
  | 0, _ => []
  | k + 1, x => x :: powersFrom p k (timesX p x)

/-- `e[0..254]` of R130. -/
def powers (p : Poly) : List Poly := powersFrom p 255 1

/-- No value occurs twice. -/
def distinct : List Poly → Bool
  | [] => true
  | x :: xs => !xs.contains x && distinct xs

/-- `p` has degree 8 and `e[0..254]` are 255 distinct values in 1..255: `p` is primitive with
generator `x` (R130). -/
def validPoly (p : Poly) : Bool :=
  p.getLsbD 8 && distinct (powers p) && (powers p).all fun x => decide (1 ≤ x.toNat ∧ x.toNat ≤ 255)

/-- `LOG[a]`: the `i` with `e[i] = a`. `LOG[0]` is never read (R45) and is 0 here. -/
def logEntry (e : List Byte) (a : Nat) : Byte :=
  if a = 0 then 0 else BitVec.ofNat 8 (e.idxOf (BitVec.ofNat 8 a))

/-- The field of a polynomial: `EXP[i] = e[i mod 255]` for i in 0..511, and LOG (R130, R45). -/
def buildField (p : Poly) : GfField :=
  let e := (powers p).map (BitVec.setWidth 8)
  ⟨p, e ++ e ++ e.take 2, (List.range 256).map (logEntry e)⟩

/-! ### The field functions (R131) -/

/-- `EXP[i]`. -/
def GfField.expAt (f : GfField) (i : Nat) : Byte := f.exp.getD i 0
/-- `LOG[a]`. -/
def GfField.logAt (f : GfField) (a : Byte) : Nat := (f.log.getD a.toNat 0).toNat

/-- `a ⊕ b`. -/
def gfadd (a b : Byte) : Byte := a ^^^ b

/-- `a ⊗ b`. -/
def gfmul (f : GfField) (a b : Byte) : Byte :=
  if a = 0 ∨ b = 0 then 0 else f.expAt (f.logAt a + f.logAt b)

/-- `a ⊘ b` for a divisor that is not 0; the zero divisor is an error of the command (R135, R136). -/
def gfdiv (f : GfField) (a b : Byte) : Byte :=
  if a = 0 then 0 else f.expAt (f.logAt a + 255 - f.logAt b)

/-- The power of a field element: `gfpow(0, 0) = 1`. -/
def gfpow (f : GfField) (a : Byte) (e : Nat) : Byte :=
  if e = 0 then 1 else if a = 0 then 0 else f.expAt (f.logAt a * e % 255)

/-- `α^i`. -/
def gfexp (f : GfField) (i : Nat) : Byte := f.expAt (i % 255)

/-! ### The commands -/

/-- GF_INIT (R130): refuse a polynomial that is not primitive, or build the field of POLY. -/
def gfInitRule (x : Snapshot) : CmdResult :=
  if validPoly x.poly then .ok { res := [1], field := some (buildField x.poly) }
  else .error (.poly x.poly)

/-- GF_ADD (R132). -/
def gfAddRule (x : Snapshot) : CmdResult := .ok { res := [(gfadd x.ops.a8 x.ops.b8).toWord] }

/-- GF_SUB (R133): subtraction is addition. -/
def gfSubRule (x : Snapshot) : CmdResult := .ok { res := [(gfadd x.ops.a8 x.ops.b8).toWord] }

/-- GF_MUL (R134). -/
def gfMulRule (x : Snapshot) : CmdResult :=
  .ok { res := [(gfmul x.field x.ops.a8 x.ops.b8).toWord] }

/-- GF_DIV (R135). -/
def gfDivRule (x : Snapshot) : CmdResult :=
  if x.ops.b8 = 0 then .error (.divZero x.ops.a8)
  else .ok { res := [(gfdiv x.field x.ops.a8 x.ops.b8).toWord] }

/-- GF_INV (R136): `div(1, a)`, and its zero case is recorded as dividend 1, divisor 0. -/
def gfInvRule (x : Snapshot) : CmdResult :=
  if x.ops.a8 = 0 then .error (.divZero 1)
  else .ok { res := [(gfdiv x.field 1 x.ops.a8).toWord] }

/-- GF_POW (R137). -/
def gfPowRule (x : Snapshot) : CmdResult :=
  .ok { res := [(gfpow x.field x.ops.a8 x.ops.e16.toNat).toWord] }

/-- GF_EXP (R138). -/
def gfExpRule (x : Snapshot) : CmdResult :=
  .ok { res := [(gfexp x.field x.ops.i16.toNat).toWord] }

/-- GF_LOG (R139). -/
def gfLogRule (x : Snapshot) : CmdResult :=
  if x.ops.a8 = 0 then .error .logZero else .ok { res := [natWord (x.field.logAt x.ops.a8)] }

/-- GF_INIT run to completion. -/
def execGfInit (s : State) : Host.Outcome State Fault Refusal := .next (s.finish (gfInitRule s.input))
/-- GF_ADD run to completion. -/
def execGfAdd (s : State) : Host.Outcome State Fault Refusal := .next (s.finish (gfAddRule s.input))
/-- GF_SUB run to completion. -/
def execGfSub (s : State) : Host.Outcome State Fault Refusal := .next (s.finish (gfSubRule s.input))
/-- GF_MUL run to completion. -/
def execGfMul (s : State) : Host.Outcome State Fault Refusal := .next (s.finish (gfMulRule s.input))
/-- GF_DIV run to completion. -/
def execGfDiv (s : State) : Host.Outcome State Fault Refusal := .next (s.finish (gfDivRule s.input))
/-- GF_INV run to completion. -/
def execGfInv (s : State) : Host.Outcome State Fault Refusal := .next (s.finish (gfInvRule s.input))
/-- GF_POW run to completion. -/
def execGfPow (s : State) : Host.Outcome State Fault Refusal := .next (s.finish (gfPowRule s.input))
/-- GF_EXP run to completion. -/
def execGfExp (s : State) : Host.Outcome State Fault Refusal := .next (s.finish (gfExpRule s.input))
/-- GF_LOG run to completion. -/
def execGfLog (s : State) : Host.Outcome State Fault Refusal := .next (s.finish (gfLogRule s.input))

end Sys2Proof.Machine
end

