-- ==== Sys2Proof/Machine/ReedSolomon.lean ====
section
/-! DEFINITION. The Reed-Solomon codec (41_reed_solomon.md): generator polynomials, the systematic
remainder, and the commands RS_GENPOLY and RS_ENCODE. Polynomials are byte lists with the
highest-degree coefficient first. -/

namespace Sys2Proof.Machine

/-- `p ⊕ q` entry by entry from the front; the longer one's remaining entries stand. -/
def xorFront : List Byte → List Byte → List Byte
  | [], q => q
  | p, [] => p
  | a :: p, b :: q => gfadd a b :: xorFront p q

/-- The product of two polynomials: entry `k` is the sum of `p[i] ⊗ q[j]` over `i + j = k` (R160). -/
def polymul (f : GfField) : List Byte → List Byte → List Byte
  | [], _ => []
  | a :: p, q => xorFront (q.map (gfmul f a)) (0 :: polymul f p q)

/-- The generator of degree `t`: the product of `(x + α^i)` for i in [0, t) (R160). -/
def gen (f : GfField) : Nat → List Byte
  | 0 => [1]
  | t + 1 => polymul f (gen f t) [1, gfexp f t]

/-- `n` elimination steps on the working buffer: each takes the leading coefficient, adds the scaled
generator to the front, and leaves that entry behind as 0 (R162). -/
def eliminate (f : GfField) (g : List Byte) : Nat → List Byte → List Byte
  | 0, w => w
  | _ + 1, [] => []
  | n + 1, c :: w =>
    eliminate f g n (if c = 0 then w else (xorFront (c :: w) (g.map fun b => gfmul f b c)).tail)

/-- The parity of `data`: the last `t` bytes of the working buffer `data ++ [0] × t` (R162). -/
def rem (f : GfField) (data : List Byte) (t : Nat) : List Byte :=
  if t = 0 then [] else eliminate f (gen f t) data.length (data ++ List.replicate t 0)

/-- RS_GENPOLY (R161). -/
def rsGenpolyRule (x : Snapshot) : CmdResult :=
  let t := x.ops.t.toNat
  .ok { res := [natWord (t + 1)], mem := bytesAt genBase (gen x.field t) }

/-- RS_ENCODE (R163). -/
def rsEncodeRule (x : Snapshot) : CmdResult :=
  let src := x.ops.src.toNat
  let n := x.ops.rlen.toNat
  let t := x.ops.t.toNat
  if cwBufSize < src + n then .error (.range (src + n) 6)
  else
    .ok { res := [natWord t],
          mem := bytesAt genBase (gen x.field t) ++
            bytesAt parBase (rem x.field (readBytes x.mem (dataBase + src) n) t) }

/-- RS_GENPOLY run to completion. -/
def execRsGenpoly (s : State) : Host.Outcome State Fault Refusal :=
  .next (s.finish (rsGenpolyRule s.input))
/-- RS_ENCODE run to completion. -/
def execRsEncode (s : State) : Host.Outcome State Fault Refusal :=
  .next (s.finish (rsEncodeRule s.input))

end Sys2Proof.Machine
end

