-- ==== Sys2Proof/Machine/Blocks.lean ====
section
/-! DEFINITION. The block assembler (44_block_assembler.md): the block split, the parity of each
block, the interleaving, and the command BLOCK_ASSEMBLE. -/

namespace Sys2Proof.Machine

/-! ### The block split (R230) -/

/-- The number of short blocks. -/
def nshort (v : Nat) (e : Ecc) : Nat := nb v e - totalCw v % nb v e
/-- The length of a short block. -/
def slen (v : Nat) (e : Ecc) : Nat := totalCw v / nb v e
/-- The length of block `b`: short blocks come first. -/
def blen (v : Nat) (e : Ecc) (b : Nat) : Nat := if b < nshort v e then slen v e else slen v e + 1
/-- The data length of block `b`. -/
def dl (v : Nat) (e : Ecc) (b : Nat) : Nat := blen v e b - eccpb v e
/-- The data lengths of all blocks. -/
def dataLens (v : Nat) (e : Ecc) : List Nat := (List.range (nb v e)).map (dl v e)

/-! ### Contents (R231) and interleaving (R232) -/

/-- Cut a sequence into consecutive pieces of the given lengths: block `b` is the slice at `off(b)`
(R230, R231). -/
def slices : List Nat → List Byte → List (List Byte)
  | [], _ => []
  | k :: ks, d => d.take k :: slices ks (d.drop k)

/-- The data of every block (R231). -/
def blockData (v : Nat) (e : Ecc) (data : List Byte) : List (List Byte) :=
  slices (dataLens v e) data

/-- The parity of every block (R231). -/
def blockParity (f : GfField) (v : Nat) (e : Ecc) (data : List Byte) : List (List Byte) :=
  (blockData v e data).map fun d => rem f d (eccpb v e)

/-- Column `i` of the blocks: the entry at position `i` of every block that has one. -/
def column (blocks : List (List Byte)) (i : Nat) : List Byte := blocks.filterMap fun d => d[i]?

/-- The first `k` columns, in order. -/
def columns (blocks : List (List Byte)) (k : Nat) : List Byte :=
  (List.range k).flatMap (column blocks)

/-- The interleaved sequence: the data columns up to `llen − t`, then the parity columns (R232). -/
def interleave (f : GfField) (v : Nat) (e : Ecc) (data : List Byte) : List Byte :=
  columns (blockData v e data) (slen v e + 1 - eccpb v e) ++
    columns (blockParity f v e data) (eccpb v e)

/-! ### The command -/

/-- The buffer writes of block assembly, shared with ENCODE: GEN_BUF, and ECC_BUF block after block,
and ILV_BUF (R231, R233). -/
def blockWrites (f : GfField) (v : Nat) (e : Ecc) (data : List Byte) : List Host.Cell :=
  bytesAt eccBase (blockParity f v e data).flatten ++ bytesAt ilvBase (interleave f v e data)

/-- BLOCK_ASSEMBLE (R233). -/
def blockAssembleRule (x : Snapshot) : CmdResult :=
  let v := x.ver
  let e := x.ops.ecc
  let t := eccpb v e
  if badVersion v then .error (.range v 1)
  else if (dataLens v e).sum ≠ dataCw v e then
    .error (.consistency (dataLens v e).sum (dataCw v e))
  else
    let data := readBytes x.mem dataBase (dataCw v e)
    .ok { res := [natWord (totalCw v), natWord (nb v e), natWord (nshort v e),
            natWord (slen v e - t), natWord t],
          mem := bytesAt genBase (gen x.field t) ++ blockWrites x.field v e data }

/-- BLOCK_ASSEMBLE run to completion. -/
def execBlockAssemble (s : State) : Host.Outcome State Fault Refusal :=
  .next (s.finish (blockAssembleRule s.input))

end Sys2Proof.Machine
end

