-- ==== Sys2Proof/Machine/DataEncoder.lean ====
section
/-! DEFINITION. The data encoder (43_data_encoder.md): the alphanumeric set, mode resolution, the
bitstream, its codewords, and the commands MODE_DETECT and BUILD_DATA. -/

namespace Sys2Proof.Machine

/-! ### Character set and mode -/

/-- The 45 bytes of the alphanumeric set in the order of their indices (R210). -/
def alnumSet : List Byte :=
  [0x30, 0x31, 0x32, 0x33, 0x34, 0x35, 0x36, 0x37, 0x38, 0x39,
   0x41, 0x42, 0x43, 0x44, 0x45, 0x46, 0x47, 0x48, 0x49, 0x4A, 0x4B, 0x4C, 0x4D,
   0x4E, 0x4F, 0x50, 0x51, 0x52, 0x53, 0x54, 0x55, 0x56, 0x57, 0x58, 0x59, 0x5A,
   0x20, 0x24, 0x25, 0x2A, 0x2B, 0x2D, 0x2E, 0x2F, 0x3A]

/-- The byte is in the set (R210). -/
def inAlnum (b : Byte) : Bool := alnumSet.contains b

/-- The index of a byte of the set (R210). -/
def alnumIndex (b : Byte) : Nat := alnumSet.idxOf b

/-- Every byte is in the set; true of the empty sequence (R211). -/
def isAlnum (s : List Byte) : Bool := s.all inAlnum

/-- The index of the first byte outside the set, or the length (R211). -/
def firstBad : List Byte → Nat
  | [] => 0
  | b :: s => if inAlnum b then firstBad s + 1 else 0

/-- Mode resolution (R212). -/
def resolve (m : ModeField) (s : List Byte) : Except CmdError Mode :=
  match m with
  | .unsupported => .error (modeRefused .unsupported)
  | .auto => .ok (if isAlnum s then .alnum else .byte)
  | .byte => .ok .byte
  | .alnum => if isAlnum s then .ok .alnum else .error (.mode (firstBad s) 2)

/-! ### Bitstream and codewords -/

/-- The `w` bits of `x`, most significant first: `put(x, w)` (R215). -/
def bitsOf (x : Nat) : Nat → List Bool
  | 0 => []
  | w + 1 => x.testBit w :: bitsOf x w

/-- Byte-mode payload: each byte as 8 bits (R215). -/
def byteBits : List Byte → List Bool
  | [] => []
  | b :: s => bitsOf b.toNat 8 ++ byteBits s

/-- Alphanumeric payload: 11 bits a pair, 6 bits for an unpaired last character (R215). -/
def alnumBits : List Byte → List Bool
  | [] => []
  | [a] => bitsOf (alnumIndex a) 6
  | a :: b :: s => bitsOf (45 * alnumIndex a + alnumIndex b) 11 ++ alnumBits s

/-- The mode indicator (R215). -/
def modeIndicator : Mode → Nat
  | .byte => 0b0100
  | .alnum => 0b0010

/-- Mode indicator, character-count indicator and payload: the bits before the terminator (R215). -/
def headBits (m : Mode) (s : List Byte) (v : Nat) : List Bool :=
  bitsOf (modeIndicator m) 4 ++ bitsOf s.length (cci m v) ++
    (match m with
      | .byte => byteBits s
      | .alnum => alnumBits s)

/-- The number of terminator bits (R215). -/
def termLen (reqBits cap : Nat) : Nat := min 4 (cap - reqBits)

/-- The zero bits to the next byte boundary (R215). -/
def alignLen (k : Nat) : Nat := (8 - k % 8) % 8

/-- The bitstream with its terminator, zero-padded to a byte boundary (R215). -/
def bitstream (m : Mode) (s : List Byte) (v : Nat) (e : Ecc) : List Bool :=
  let b := headBits m s v
  let t := termLen b.length (capBits v e)
  b ++ List.replicate t false ++ List.replicate (alignLen (b.length + t)) false

/-- The number whose binary digits are `bits`, most significant first. -/
def natOfBits : List Bool → Nat
  | [] => 0
  | b :: bs => (if b then 2 ^ bs.length else 0) + natOfBits bs

/-- `k` codewords of 8 bits each, the first bit in bit 7 (R216, R79). -/
def codewordsOf : Nat → List Bool → List Byte
  | 0, _ => []
  | k + 1, bits => BitVec.ofNat 8 (natOfBits (bits.take 8)) :: codewordsOf k (bits.drop 8)

/-- `k` pad bytes alternating 0xEC, 0x11, `even` saying which comes next (R217). -/
def padBytes : Nat → Bool → List Byte
  | 0, _ => []
  | k + 1, even => (if even then 0xEC else 0x11) :: padBytes k (!even)

/-- The codewords of the bitstream, padded to DATA_CW(v, e) (R216, R217). -/
def dataCodewords (m : Mode) (s : List Byte) (v : Nat) (e : Ecc) : List Byte :=
  let b := bitstream m s v e
  codewordsOf (b.length / 8) b ++ padBytes (dataCw v e - b.length / 8) true

/-! ### The commands -/

/-- MODE_DETECT (R213). -/
def modeDetectRule (x : Snapshot) : CmdResult :=
  if inBufSize < x.len then .error (.range x.len 5)
  else
    let s := x.input
    .ok { res := [if isAlnum s then 2 else 1, natWord (firstBad s)] }

/-- BUILD_DATA (R218). -/
def buildDataRule (x : Snapshot) : CmdResult :=
  let v := x.ver
  let e := x.ops.ecc
  let n := x.len
  if badVersion v then .error (.range v 1)
  else if inBufSize < n then .error (.range n 5)
  else
    let s := x.input
    match resolve x.ops.mode s with
    | .error err => .error err
    | .ok m =>
      if !fits m n v e then .error (.capacity n m v v (eccOrdinal e) true)
      else
        let r := (headBits m s v).length
        .ok { res := [natWord (dataCw v e), natWord (modeNumber m), natWord r,
                natWord (dataCw v e - (bitstream m s v e).length / 8),
                natWord (termLen r (capBits v e))],
              mem := bytesAt dataBase (dataCodewords m s v e) }

/-- MODE_DETECT run to completion. -/
def execModeDetect (s : State) : Host.Outcome State Fault Refusal :=
  .next (s.finish (modeDetectRule s.input))
/-- BUILD_DATA run to completion. -/
def execBuildData (s : State) : Host.Outcome State Fault Refusal :=
  .next (s.finish (buildDataRule s.input))

end Sys2Proof.Machine
end

