-- ==== Sys2Proof/Machine/Grid.lean ====
section
/-! DEFINITION. The grid of cells `[0, n)²` the matrix commands work on (R39, R250): a list of rows,
read from the matrix buffer and written back to it. -/

namespace Sys2Proof.Machine

/-- A square of cells, row 0 first (R11). -/
abbrev Grid := List (List Cell)

/-- A cell that is UNSET and not reserved. -/
def Cell.blank : Cell := ⟨.unset, false⟩

/-- The cell is UNSET. -/
def Cell.isUnset (x : Cell) : Bool := x.mod == .unset

/-- `val(r, c)` of a set cell: true for DARK (R11). -/
def Cell.val (x : Cell) : Bool := x.mod == .dark

/-- The module of a bit: DARK for 1 (R40). -/
def moduleOf (x : Bool) : Module := if x then .dark else .light

/-- What `mark(r, c, x)` makes of a cell: set to `x`, and reserved (45_matrix.md). -/
def marked (x : Bool) : Cell := ⟨moduleOf x, true⟩

/-- `cell(r, c)`. -/
def cellAt (g : Grid) (r c : Nat) : Cell := (g.getD r []).getD c Cell.blank

/-- Replace `cell(r, c)`; outside the grid nothing happens. -/
def setCell (g : Grid) (r c : Nat) (x : Cell) : Grid := g.set r ((g.getD r []).set c x)

/-- Apply `f` to every cell of a row, telling it the column. -/
def mapRow (f : Nat → Cell → Cell) : Nat → List Cell → List Cell
  | _, [] => []
  | c, x :: xs => f c x :: mapRow f (c + 1) xs

/-- Apply `f` to every row from row `r` on. -/
def mapRows (f : Nat → Nat → Cell → Cell) : Nat → Grid → Grid
  | _, [] => []
  | r, row :: rows => mapRow (f r) 0 row :: mapRows f (r + 1) rows

/-- Apply `f` to every cell, telling it its row and column. -/
def mapGrid (f : Nat → Nat → Cell → Cell) (g : Grid) : Grid := mapRows f 0 g

/-- `mark` every listed cell with its value, in order. -/
def markAll (g : Grid) : List (Nat × Nat × Bool) → Grid
  | [] => g
  | (r, c, x) :: ms => markAll (setCell g r c (marked x)) ms

/-- The allocated grid: every cell UNSET, nothing reserved (R251). -/
def blankGrid (n : Nat) : Grid := List.replicate n (List.replicate n Cell.blank)

/-- The cells of `[0, n)²` in the matrix buffer (R41, R250). -/
def gridOf (m : Memory) (n : Nat) : Grid :=
  (List.range n).map fun r => (readBytes m (cellOffset r 0) n).map Cell.ofByte

/-- The entries that store the cells of a row that `keep` selects. -/
def rowWrites (keep : Nat → Bool) (r : Nat) : Nat → List Cell → List Host.Cell
  | _, [] => []
  | c, x :: xs =>
    if keep c then (cellOffset r c, x.toByte) :: rowWrites keep r (c + 1) xs
    else rowWrites keep r (c + 1) xs

/-- The entries that store the cells that `keep` selects, in rows from row `r` on. -/
def gridWrites (keep : Nat → Nat → Bool) : Nat → Grid → List Host.Cell
  | _, [] => []
  | r, row :: rows => rowWrites (keep r) r 0 row ++ gridWrites keep (r + 1) rows

/-- The number of cells that satisfy `p`. -/
def countCells (p : Cell → Bool) (g : Grid) : Nat := (g.map (List.countP p)).sum

/-- The first UNSET cell of a row that `skip` does not exempt. -/
def firstUnsetInRow (skip : Nat → Bool) : Nat → List Cell → Option Nat
  | _, [] => none
  | c, x :: xs => if x.isUnset && !skip c then some c else firstUnsetInRow skip (c + 1) xs

/-- The first UNSET cell in row-major order that `skip` does not exempt (R289, R292). -/
def firstUnset (skip : Nat → Nat → Bool) : Nat → Grid → Option (Nat × Nat)
  | _, [] => none
  | r, row :: rows =>
    match firstUnsetInRow (skip r) 0 row with
    | some c => some (r, c)
    | none => firstUnset skip (r + 1) rows

end Sys2Proof.Machine
end

