-- ==== Sys2Proof/Machine/Matrix.lean ====
section
/-! DEFINITION. The matrix builder (45_matrix.md): the scaffold, the placement order, and the commands
SCAFFOLD and PLACE. Each scaffold step is given by what it makes of the cell (r, c). -/

namespace Sys2Proof.Machine

/-! ### The scaffold -/

/-- `|a − b|`. -/
def absDiff (a b : Nat) : Nat := (a - b) + (b - a)

/-- `max(|dr|, |dc|)`: how far (r, c) lies from the centre (r0, c0). -/
def ringOf (r0 c0 r c : Nat) : Nat := max (absDiff r r0) (absDiff c c0)

/-- One finder with its light separator, centred at (r0, c0), clipped at the grid's edges (R251). -/
def finderCell (r0 c0 r c : Nat) (x : Cell) : Cell :=
  let d := ringOf r0 c0 r c
  if d ≤ 4 then marked (decide (d ≤ 1 ∨ d = 3)) else x

/-- Step 2: the three finders; their top-left corners are (0, 0), (0, n−7), (n−7, 0) (R251). -/
def finderStep (n r c : Nat) (x : Cell) : Cell :=
  finderCell (n - 4) 3 r c (finderCell 3 (n - 4) r c (finderCell 3 3 r c x))

/-- Step 3: row 6 and column 6, where not yet reserved (R252). -/
def timingStep (r c : Nat) (x : Cell) : Cell :=
  if x.res then x
  else if r = 6 then marked (decide (c % 2 = 0))
  else if c = 6 then marked (decide (r % 2 = 0))
  else x

/-- The alignment centres: every pair of coordinates but the three at the finders (R253). -/
def alignCentres (v : Nat) : List (Nat × Nat) :=
  let a := align v
  let f := a.headD 0
  let l := a.getLastD 0
  (a.flatMap fun ar => a.map fun ac => (ar, ac)).filter fun p =>
    p != (f, f) && p != (f, l) && p != (l, f)

/-- One alignment pattern, centred at (r0, c0) (R253). -/
def alignCell (r c : Nat) (x : Cell) (centre : Nat × Nat) : Cell :=
  let d := ringOf centre.1 centre.2 r c
  if d ≤ 2 then marked (decide (d ≠ 1)) else x

/-- Step 4: the alignment patterns, written without testing `res` (R253). -/
def alignStep (centres : List (Nat × Nat)) (r c : Nat) (x : Cell) : Cell :=
  centres.foldl (alignCell r c) x

/-- Step 5: the dark module (R254). -/
def darkStep (v r c : Nat) (x : Cell) : Cell := if r = 4 * v + 9 ∧ c = 8 then marked true else x

/-- The format zone of step 6: the cross and the two bands (R254). -/
def inFormatZone (n r c : Nat) : Bool :=
  decide (r = 8 ∧ c < 9 ∧ c ≠ 6) || decide (c = 8 ∧ r < 9 ∧ r ≠ 6) ||
    decide (r = 8 ∧ n - 8 ≤ c ∧ c < n) || decide (c = 8 ∧ n - 7 ≤ r ∧ r < n)

/-- The version zone of step 7: the top-right and the bottom-left block (R254). -/
def inVersionZone (n r c : Nat) : Bool :=
  decide (r < 6 ∧ n - 11 ≤ c ∧ c < n - 8) || decide (c < 6 ∧ n - 11 ≤ r ∧ r < n - 8)

/-- `reserve(r, c)`: `res` set, `mod` unchanged. -/
def reserved (x : Cell) : Cell := { x with res := true }

/-- Steps 6 and 7: the reservation of the format zone, and of the version zone for v ≥ 7 (R254). -/
def zoneStep (v n r c : Nat) (x : Cell) : Cell :=
  if inFormatZone n r c || (decide (7 ≤ v) && inVersionZone n r c) then reserved x else x

/-- The scaffold of a version (R251 to R254, R255). -/
def scaffoldGrid (v : Nat) : Grid :=
  let n := symbolSize v
  let centres := alignCentres v
  mapGrid (fun r c x =>
    zoneStep v n r c (darkStep v r c (alignStep centres r c (timingStep r c (finderStep n r c x)))))
    (blankGrid n)

/-! ### The placement order (R257) -/

/-- The right column of each pair, in visit order, from column `x` on; `fuel` bounds their number. Column 6
is in no pair (notes/assumptions/13.md). -/
def rightsFrom : Nat → Nat → List Nat
  | 0, _ => []
  | fuel + 1, x =>
    if x < 1 then []
    else
      let y := if x = 6 then 5 else x
      y :: rightsFrom fuel (y - 2)

/-- `rights(n)`. -/
def rights (n : Nat) : List Nat := rightsFrom n (n - 1)

/-- The rows of a pair in visit order: upward or downward. -/
def rowsOf (n : Nat) (up : Bool) : List Nat :=
  if up then (List.range n).reverse else List.range n

/-- The cells of the column pairs in visit order, `up` telling which way the first pair goes. -/
def visitPairs (n : Nat) : Bool → List Nat → List (Nat × Nat)
  | _, [] => []
  | up, x :: xs => (rowsOf n up).flatMap (fun r => [(r, x), (r, x - 1)]) ++ visitPairs n (!up) xs

/-- `order(n)`: pair 0 goes upward. -/
def order (n : Nat) : List (Nat × Nat) := visitPairs n true (rights n)

/-! ### Placement (R258, R259) -/

/-- The cell receives a stream bit: UNSET and not reserved (R258). -/
def Cell.isFree (x : Cell) : Bool := x.isUnset && !x.res

/-- The state of a placement: the grid, the bits left, the bits placed and the cells zero-filled. -/
structure Placing where
  grid : Grid
  bits : List Bool
  placed : Nat
  zeros : Nat
  deriving DecidableEq, Repr

/-- One visit (R258): a free cell takes the next bit, or LIGHT once the bits are exhausted. -/
def visit (p : Placing) (r c : Nat) : Placing :=
  let x := cellAt p.grid r c
  if x.isFree then
    match p.bits with
    | b :: bs => ⟨setCell p.grid r c ⟨moduleOf b, x.res⟩, bs, p.placed + 1, p.zeros⟩
    | [] => ⟨setCell p.grid r c ⟨.light, x.res⟩, [], p.placed, p.zeros + 1⟩
  else p

/-- The visits of a list of cells, in order. -/
def visitAll (p : Placing) : List (Nat × Nat) → Placing
  | [] => p
  | (r, c) :: cs => visitAll (visit p r c) cs

/-- The placement of a codeword sequence into a grid of size `n`, most significant bit first (R257,
R259). -/
def placeInto (n : Nat) (g : Grid) (codewords : List Byte) : Placing :=
  visitAll ⟨g, byteBits codewords, 0, 0⟩ (order n)

/-! ### The commands -/

/-- SCAFFOLD (R255). -/
def scaffoldRule (x : Snapshot) : CmdResult :=
  let v := x.ver
  if badVersion v then .error (.range v 1)
  else
    let g := scaffoldGrid v
    .ok { res := [natWord (symbolSize v), natWord (countCells (fun y => !y.res) g)],
          mver := some (BitVec.ofNat 6 v),
          mem := gridWrites (fun _ _ => true) 0 g }

/-- PLACE (R259). -/
def placeRule (x : Snapshot) : CmdResult :=
  let v := x.mverNat
  if badVersion v then .error (.range v 7)
  else
    let n := symbolSize v
    let g := gridOf x.mem n
    let p := placeInto n g (readBytes x.mem ilvBase (totalCw v))
    .ok { res := [natWord p.placed, natWord p.zeros],
          mem := gridWrites (fun r c => (cellAt g r c).isFree) 0 p.grid }

/-- SCAFFOLD run to completion. -/
def execScaffold (s : State) : Host.Outcome State Fault Refusal :=
  .next (s.finish (scaffoldRule s.input))
/-- PLACE run to completion. -/
def execPlace (s : State) : Host.Outcome State Fault Refusal := .next (s.finish (placeRule s.input))

end Sys2Proof.Machine
end

