-- ==== Sys2Proof/Machine/Metadata.lean ====
section
/-! DEFINITION. The metadata encoder (47_metadata.md): the format and version words with their BCH
codes, their positions, and the commands FORMAT_ENCODE, FORMAT_STAMP, VERSION_ENCODE and
VERSION_STAMP. -/

namespace Sys2Proof.Machine

/-! ### The words -/

/-- Reduce `x` by `g` at bit positions `low + k − 1` down to `low`: at each set bit the generator,
shifted so that its leading bit meets it, is XORed in (R310, R314). -/
def bchReduce (g low : Nat) : Nat → Nat → Nat
  | 0, x => x
  | k + 1, x => bchReduce g low k (if x.testBit (low + k) then x ^^^ (g <<< k) else x)

/-- `G15` (R310). -/
def g15 : Nat := 0b10100110111
/-- `MASK15` (R310). -/
def mask15 : Nat := 0b101010000010010
/-- `G18` (R314). -/
def g18 : Nat := 0b1111100100101

/-- The ECC indicator of the format information, fixed by the standard and not the ordinal (R310). -/
def eccIndicator : Ecc → Nat
  | .L => 0b01
  | .M => 0b00
  | .Q => 0b11
  | .H => 0b10

/-- The five data bits of the format information (R310). -/
def formatData (e : Ecc) (k : MaskId) : Nat := (eccIndicator e <<< 3) ||| k.val

/-- `formatWord(e, k)`, 15 bits (R310). -/
def formatWord (e : Ecc) (k : MaskId) : Nat :=
  let d := formatData e k
  ((d <<< 10) ||| (bchReduce g15 10 5 (d <<< 10) % 2 ^ 10)) ^^^ mask15

/-- `versionWord(v)`, 18 bits, for v in 7..40 (R314). -/
def versionWord (v : Nat) : Nat :=
  (v <<< 12) ||| (bchReduce g18 12 6 (v <<< 12) % 2 ^ 12)

/-! ### The positions -/

/-- FMT1: the path around the top-left finder, for bits 14 down to 0 (R312). -/
def fmt1 : List (Nat × Nat) :=
  [(8, 0), (8, 1), (8, 2), (8, 3), (8, 4), (8, 5), (8, 7), (8, 8),
   (7, 8), (5, 8), (4, 8), (3, 8), (2, 8), (1, 8), (0, 8)]

/-- FMT2(n): up column 8 from the bottom, then along row 8 to the right, for bits 14 down to 0
(R312). -/
def fmt2 (n : Nat) : List (Nat × Nat) :=
  [(n - 1, 8), (n - 2, 8), (n - 3, 8), (n - 4, 8), (n - 5, 8), (n - 6, 8), (n - 7, 8),
   (8, n - 8), (8, n - 7), (8, n - 6), (8, n - 5), (8, n - 4), (8, n - 3), (8, n - 2), (8, n - 1)]

/-- The marks that put the bits of `w`, from bit `b` down, at the listed cells. -/
def bitMarks (w : Nat) : Nat → List (Nat × Nat) → List (Nat × Nat × Bool)
  | _, [] => []
  | b, (r, c) :: ps => (r, c, w.testBit b) :: bitMarks w (b - 1) ps

/-- `stampFormat(M, e, k)` (R312). -/
def stampFormat (n : Nat) (g : Grid) (e : Ecc) (k : MaskId) : Grid :=
  markAll g (bitMarks (formatWord e k) 14 fmt1 ++ bitMarks (formatWord e k) 14 (fmt2 n))

/-- The cell is one of the 30 format cells (R312). -/
def isFormatCell (n r c : Nat) : Bool := fmt1.contains (r, c) || (fmt2 n).contains (r, c)

/-- The cell of bit `i` in the top-right block (R316). -/
def vposTR (n i : Nat) : Nat × Nat := (i / 3, n - 11 + i % 3)
/-- The cell of bit `i` in the bottom-left block (R316). -/
def vposBL (n i : Nat) : Nat × Nat := (n - 11 + i % 3, i / 3)

/-- The marks of the version word's bit `i` (R316). -/
def versionMarks (n w i : Nat) : List (Nat × Nat × Bool) :=
  [((vposTR n i).1, (vposTR n i).2, w.testBit i), ((vposBL n i).1, (vposBL n i).2, w.testBit i)]

/-- `stampVersion(M, v)` (R316). -/
def stampVersion (n : Nat) (g : Grid) (v : Nat) : Grid :=
  markAll g ((List.range 18).flatMap (versionMarks n (versionWord v)))

/-- The cell is one of the 36 version cells (R316). -/
def isVersionCell (n r c : Nat) : Bool :=
  (List.range 18).any fun i => (r, c) == vposTR n i || (r, c) == vposBL n i

/-! ### The commands -/

/-- FORMAT_ENCODE (R311). -/
def formatEncodeRule (x : Snapshot) : CmdResult :=
  .ok { res := [natWord (formatWord x.ops.ecc x.ops.mask)] }

/-- FORMAT_STAMP (R313): it applies no data mask. -/
def formatStampRule (x : Snapshot) : CmdResult :=
  let v := x.mverNat
  let e := x.ops.ecc
  let k := x.ops.mask
  if badVersion v then .error (.range v 7)
  else
    let n := symbolSize v
    .ok { res := [natWord (formatWord e k)],
          mem := gridWrites (isFormatCell n) 0 (stampFormat n (gridOf x.mem n) e k) }

/-- VERSION_ENCODE (R315). -/
def versionEncodeRule (x : Snapshot) : CmdResult :=
  let v := x.ver
  if badVersion v then .error (.range v 1)
  else if v < 7 then .error (.range v 8)
  else .ok { res := [natWord (versionWord v)] }

/-- VERSION_STAMP (R317). -/
def versionStampRule (x : Snapshot) : CmdResult :=
  let v := x.mverNat
  if badVersion v then .error (.range v 7)
  else if v < 7 then .error (.range v 8)
  else
    let n := symbolSize v
    .ok { res := [natWord (versionWord v)],
          mem := gridWrites (isVersionCell n) 0 (stampVersion n (gridOf x.mem n) v) }

/-- FORMAT_ENCODE run to completion. -/
def execFormatEncode (s : State) : Host.Outcome State Fault Refusal :=
  .next (s.finish (formatEncodeRule s.input))
/-- FORMAT_STAMP run to completion. -/
def execFormatStamp (s : State) : Host.Outcome State Fault Refusal :=
  .next (s.finish (formatStampRule s.input))
/-- VERSION_ENCODE run to completion. -/
def execVersionEncode (s : State) : Host.Outcome State Fault Refusal :=
  .next (s.finish (versionEncodeRule s.input))
/-- VERSION_STAMP run to completion. -/
def execVersionStamp (s : State) : Host.Outcome State Fault Refusal :=
  .next (s.finish (versionStampRule s.input))

end Sys2Proof.Machine
end

