-- ==== Sys2Proof/Machine/MaskEngine.lean ====
section
/-! DEFINITION. The mask engine (46_mask_engine.md): the eight predicates, masking, the four penalty
rules, best-mask selection, and the commands MASK_APPLY, PENALTY and MASK_SELECT. -/

namespace Sys2Proof.Machine

/-! ### Predicates and masking -/

/-- The mask predicates `pred(k, r, c)` (R280). -/
def pred (k : MaskId) (r c : Nat) : Bool :=
  match k with
  | 0 => decide ((r + c) % 2 = 0)
  | 1 => decide (r % 2 = 0)
  | 2 => decide (c % 3 = 0)
  | 3 => decide ((r + c) % 3 = 0)
  | 4 => decide ((r / 2 + c / 3) % 2 = 0)
  | 5 => decide ((r * c) % 2 + (r * c) % 3 = 0)
  | 6 => decide (((r * c) % 2 + (r * c) % 3) % 2 = 0)
  | 7 => decide (((r + c) % 2 + (r * c) % 3) % 2 = 0)

/-- DARK becomes LIGHT and LIGHT becomes DARK. -/
def Module.flip : Module → Module
  | .unset => .unset
  | .light => .dark
  | .dark => .light

/-- Mask `k` inverts this cell: not reserved, set, and the predicate true (R281). -/
def inverts (k : MaskId) (r c : Nat) (x : Cell) : Bool := !x.res && !x.isUnset && pred k r c

/-- `applyMask(M, k)` (R281). -/
def applyMask (k : MaskId) (g : Grid) : Grid :=
  mapGrid (fun r c x => if inverts k r c x then { x with mod := x.mod.flip } else x) g

/-- The number of cells `applyMask(M, k)` inverts (R282). -/
def invertedCount (k : MaskId) (g : Grid) : Nat :=
  countCells (fun x => x.mod == .dark) (mapGrid (fun r c x =>
    if inverts k r c x then ⟨.dark, true⟩ else ⟨.light, true⟩) g)

/-! ### Penalty -/

/-- The rows of the grid as values (R284). -/
def rowLines (g : Grid) : List (List Bool) := g.map fun row => row.map Cell.val

/-- The columns of a list of rows of length `n`. -/
def columnLines (n : Nat) (rows : List (List Bool)) : List (List Bool) :=
  (List.range n).map fun c => rows.map fun row => row.getD c false

/-- The `2n` lines of the grid: its rows and its columns (46_mask_engine.md). -/
def linesOf (n : Nat) (g : Grid) : List (List Bool) :=
  rowLines g ++ columnLines n (rowLines g)

/-- The lengths of the maximal runs of equal values, given the value and the length so far of the
run at hand (R284). -/
def runsFrom (x : Bool) (len : Nat) : List Bool → List Nat
  | [] => [len]
  | y :: ys => if y = x then runsFrom x (len + 1) ys else len :: runsFrom y 1 ys

/-- The lengths of the maximal runs of a line. -/
def runs : List Bool → List Nat
  | [] => []
  | x :: xs => runsFrom x 1 xs

/-- What a run of a length adds (R284). -/
def runScore (len : Nat) : Nat := if 5 ≤ len then 3 + (len - 5) else 0

/-- Rule 1, runs (R284; the vector that disagrees is not followed, notes/assumptions/15.md). -/
def n1 (lines : List (List Bool)) : Nat := (lines.map fun l => ((runs l).map runScore).sum).sum

/-- The 2×2 windows of two adjacent rows whose four values are equal. -/
def blocksInRows : List Bool → List Bool → Nat
  | a :: b :: r, c :: d :: r' =>
    (if a = b ∧ a = c ∧ a = d then 1 else 0) + blocksInRows (b :: r) (d :: r')
  | _, _ => 0

/-- The 2×2 windows of the grid whose four values are equal. -/
def blockCount : List (List Bool) → Nat
  | a :: b :: rows => blocksInRows a b + blockCount (b :: rows)
  | _ => 0

/-- Rule 2, blocks (R285; notes/assumptions/15.md). -/
def n2 (rows : List (List Bool)) : Nat := 3 * blockCount rows

/-- `P` of R286. -/
def patP : List Bool := [true, false, true, true, true, false, true]
/-- `Q` of R286, the complement of `P`. -/
def patQ : List Bool := [false, true, false, false, false, true, false]
/-- Four consecutive light modules. -/
def lights4 : List Bool := [false, false, false, false]

/-- A match at the front of `rest`, with four light modules before it (`before` lists what precedes,
nearest first) or after it; cells outside the line are not light (R286). -/
def finderMatch (before rest : List Bool) : Bool :=
  (rest.take 7 == patP || rest.take 7 == patQ) &&
    (before.take 4 == lights4 || (rest.drop 7).take 4 == lights4)

/-- The matches of a line, each position once. -/
def finderMatches (before : List Bool) : List Bool → Nat
  | [] => 0
  | x :: xs =>
    (if finderMatch before (x :: xs) then 1 else 0) + finderMatches (x :: before) xs

/-- Rule 3, finder-like patterns (R286). -/
def n3 (lines : List (List Bool)) : Nat := 40 * (lines.map (finderMatches [])).sum

/-- `D`, the number of DARK cells (R287). -/
def darkCount (rows : List (List Bool)) : Nat := (rows.map (List.count true)).sum

/-- Rule 4, balance, of `d` DARK cells in a grid of size `n`, in exact arithmetic (R287). -/
def n4 (d n : Nat) : Nat := 10 * (absDiff (100 * d) (50 * (n * n)) / (5 * (n * n)))

/-- The penalty function (R288). -/
def penaltyOf (n : Nat) (g : Grid) : Nat :=
  let rows := rowLines g
  let lines := linesOf n g
  n1 lines + n2 rows + n3 lines + n4 (darkCount rows) n

/-! ### Best-mask selection -/

/-- The mask ids in the order they are tried. -/
def maskIds : List MaskId := [0, 1, 2, 3, 4, 5, 6, 7]

/-- `cand(M, e, k)`: masked, then stamped with its format information (R290). -/
def candidate (n : Nat) (g : Grid) (e : Ecc) (k : MaskId) : Grid :=
  stampFormat n (applyMask k g) e k

/-- `score[0..7]` (R291). -/
def scores (n : Nat) (g : Grid) (e : Ecc) : List Nat :=
  maskIds.map fun k => penaltyOf n (candidate n g e k)

/-- The smallest of the scores. -/
def minScore (l : List Nat) : Nat := l.tail.foldl min (l.headD 0)

/-- `best`: the smallest id of minimal score (R291). -/
def bestOf (l : List Nat) : MaskId := Fin.ofNat 8 (l.idxOf (minScore l))

/-! ### The commands -/

/-- MASK_APPLY (R282). -/
def maskApplyRule (x : Snapshot) : CmdResult :=
  let v := x.mverNat
  let k := x.ops.mask
  if badVersion v then .error (.range v 7)
  else
    let n := symbolSize v
    let g := gridOf x.mem n
    .ok { res := [natWord (invertedCount k g)],
          mem := gridWrites (fun r c => inverts k r c (cellAt g r c)) 0 (applyMask k g) }

/-- PENALTY (R289). -/
def penaltyRule (x : Snapshot) : CmdResult :=
  let v := x.mverNat
  if badVersion v then .error (.range v 7)
  else
    let n := symbolSize v
    let g := gridOf x.mem n
    match firstUnset (fun _ _ => false) 0 g with
    | some (r, c) => .error (.unset r c)
    | none =>
      let rows := rowLines g
      let lines := linesOf n g
      let d := darkCount rows
      .ok { res := [natWord (penaltyOf n g), natWord (n1 lines), natWord (n2 rows),
              natWord (n3 lines), natWord (n4 d n), natWord d] }

/-- MASK_SELECT (R292): the format cells are exempt from the check, and stamped per candidate. -/
def maskSelectRule (x : Snapshot) : CmdResult :=
  let v := x.mverNat
  let e := x.ops.ecc
  if badVersion v then .error (.range v 7)
  else
    let n := symbolSize v
    let g := gridOf x.mem n
    match firstUnset (isFormatCell n) 0 g with
    | some (r, c) => .error (.unset r c)
    | none =>
      let sc := scores n g e
      let best := bestOf sc
      .ok { res := [natWord best.val, natWord (minScore sc), natWord (formatWord e best)],
            score := sc.map natWord,
            mem := gridWrites (fun r c => inverts best r c (cellAt g r c) || isFormatCell n r c) 0
              (candidate n g e best) }

/-- MASK_APPLY run to completion. -/
def execMaskApply (s : State) : Host.Outcome State Fault Refusal :=
  .next (s.finish (maskApplyRule s.input))
/-- PENALTY run to completion. -/
def execPenalty (s : State) : Host.Outcome State Fault Refusal :=
  .next (s.finish (penaltyRule s.input))
/-- MASK_SELECT run to completion. -/
def execMaskSelect (s : State) : Host.Outcome State Fault Refusal :=
  .next (s.finish (maskSelectRule s.input))

end Sys2Proof.Machine
end

