-- ==== Sys2Proof/Machine/Pipeline.lean ====
section
/-! DEFINITION. The pipeline commands (48_pipeline.md): NOP and ENCODE. -/

namespace Sys2Proof.Machine

/-- NOP (R330): nothing is written. -/
def nopRule (_ : Snapshot) : CmdResult := .ok {}

/-- The level ENCODE uses with an explicit version: the one given, or L (R331). -/
def encodeLevel (x : Snapshot) : Ecc := x.ops.eccOpt.getD .L

/-- Step 2 of ENCODE: the explicit version where it fits, or the search (R331, R332). -/
def encodeVersion (x : Snapshot) (m : Mode) : Except CmdError (Nat × Ecc) :=
  if x.ver ≠ 0 then
    if fits m x.len x.ver (encodeLevel x) then .ok (x.ver, encodeLevel x)
    else .error (.capacity x.len m x.ver x.ver (eccOrdinal (encodeLevel x)) x.ops.eg)
  else select m x.len (lowBound x.minv) (highBound x.maxv) x.ops.eccOpt

/-- Step 5 of ENCODE: the scaffold with the codewords placed, and the version information stamped for
v ≥ 7, before the mask search (R332, R334). -/
def encodeGrid (v : Nat) (ilv : List Byte) : Grid :=
  let n := symbolSize v
  let g := (placeInto n (scaffoldGrid v) ilv).grid
  if 7 ≤ v then stampVersion n g v else g

/-- Steps 3 to 7 of ENCODE: what it writes, given the mode, version and level it works at (R332). -/
def encodeWrites (f : GfField) (m : Mode) (s : List Byte) (v : Nat) (e : Ecc) : Writes :=
  let n := symbolSize v
  let data := dataCodewords m s v e
  let g := encodeGrid v (interleave f v e data)
  let sc := scores n g e
  let best := bestOf sc
  { res := [natWord v, natWord (eccOrdinal e), natWord (modeNumber m), natWord best.val,
      natWord (formatWord e best), natWord (minScore sc), natWord (dataCw v e),
      natWord (totalCw v)],
    score := sc.map natWord,
    mver := some (BitVec.ofNat 6 v),
    mem := bytesAt genBase (gen f (eccpb v e)) ++ bytesAt dataBase data ++
      blockWrites f v e data ++ gridWrites (fun _ _ => true) 0 (candidate n g e best) }

/-- ENCODE (R332): every option's range is checked before any computation (R331, R357). -/
def encodeRule (x : Snapshot) : CmdResult :=
  let lo := lowBound x.minv
  let hi := highBound x.maxv
  if 40 < x.ver then .error (.range x.ver 1)
  else if 40 < x.minv then .error (.range x.minv 2)
  else if 40 < x.maxv then .error (.range x.maxv 3)
  else if hi < lo then .error (.range (lo + 2 ^ 8 * hi) 4)
  else if inBufSize < x.len then .error (.range x.len 5)
  else
    match resolve x.ops.mode x.input with
    | .error err => .error err
    | .ok m =>
      match encodeVersion x m with
      | .error err => .error err
      | .ok (v, e) => .ok (encodeWrites x.field m x.input v e)

/-- NOP run to completion. -/
def execNop (s : State) : Host.Outcome State Fault Refusal := .next (s.finish (nopRule s.input))
/-- ENCODE run to completion. -/
def execEncode (s : State) : Host.Outcome State Fault Refusal :=
  .next (s.finish (encodeRule s.input))

end Sys2Proof.Machine
end

