-- ==== Sys2Proof/Machine/WriteSet.lean ====
section
/-! DEFINITION. The rule of every command as one function, the write set of a running command (R83),
and the soft reset (R393). -/

namespace Sys2Proof.Machine

/-- The rule of a command, on the accept snapshot. -/
def ruleOf : Instr → Snapshot → CmdResult
  | .nop => nopRule
  | .gfInit => gfInitRule
  | .gfAdd => gfAddRule
  | .gfSub => gfSubRule
  | .gfMul => gfMulRule
  | .gfDiv => gfDivRule
  | .gfInv => gfInvRule
  | .gfPow => gfPowRule
  | .gfExp => gfExpRule
  | .gfLog => gfLogRule
  | .rsGenpoly => rsGenpolyRule
  | .rsEncode => rsEncodeRule
  | .capQuery => capQueryRule
  | .fitCheck => fitCheckRule
  | .selectVersion => selectVersionRule
  | .modeDetect => modeDetectRule
  | .buildData => buildDataRule
  | .blockAssemble => blockAssembleRule
  | .scaffold => scaffoldRule
  | .place => placeRule
  | .maskApply => maskApplyRule
  | .penalty => penaltyRule
  | .maskSelect => maskSelectRule
  | .formatEncode => formatEncodeRule
  | .formatStamp => formatStampRule
  | .versionEncode => versionEncodeRule
  | .versionStamp => versionStampRule
  | .encode => encodeRule

/-- What an accepted word evaluates to on its snapshot: E_ILLEGAL where it does not decode, before
every other error (R351), else the answer of its command's rule. -/
def resultOf (w : Word) (x : Snapshot) : CmdResult :=
  match decode w with
  | .ok i => ruleOf i x
  | .error _ => .error (.illegal w)

/-- The offsets of the buffer bytes and matrix cells a running command writes; none where it raises an
error, which writes none of its outputs (R83, R352; DEDUCED, notes/assumptions/8.md). -/
def writeSet (w : Word) (x : Snapshot) : List Nat :=
  match resultOf w x with
  | .ok ws => ws.mem.map Prod.fst
  | .error _ => []

/-- The write set of the running command; none while no command runs. -/
def State.writeSet (s : State) : List Nat :=
  match s.phase with
  | .busy w x => Machine.writeSet w x
  | .init | .idle => []

/-- Entries that put free bytes, from the `k`-th on, at the listed offsets; a matrix cell takes a legal
encoding (R393, R41). -/
def freeEntries : Nat → List Nat → List Host.Cell
  | _, [] => []
  | k, a :: as => (a, storedByte a (Config.freeByte k)) :: freeEntries (k + 1) as

/-- Soft reset, in any phase: a running command is aborted and every byte of its write set becomes
unspecified, every other byte keeps its value, every register takes its reset value, and reset
initialisation starts again (R393). -/
def State.softReset (s : State) : State :=
  { State.resetHolding (writeBytes s.mem (freeEntries s.freeCount s.writeSet)) with
    events := s.events, resp := s.resp, freeCount := s.freeCount + s.writeSet.length }

end Sys2Proof.Machine
end

