-- ==== Sys2Proof/Machine/Bus.lean ====
section
/-! DEFINITION. Host bus accesses (20_memory.md, 10_state.md §2): which are refused (R74 to R76), what
the registers read as and do when written (R21 to R34), the buffers and the matrix (R35, R41, R78), and
what a running command changes about all that (R82, R83). -/

namespace Sys2Proof.Machine

/-! ### Where an access goes -/

/-- The window offset of an address on the host's bus, where it lies in the window (R70, R73; the base is
opaque, notes/assumptions/14.md). -/
def offsetOfBusAddress (addr : Nat) : Option Nat :=
  if Config.qrcBase ≤ addr ∧ addr < Config.qrcBase + windowSize then some (addr - Config.qrcBase)
  else none

end Sys2Proof.Machine

namespace Sys2Proof

open Machine

/-- The offsets of the bytes an access covers (R74). -/
def Access.covered (a : Access) : List Nat := List.range' a.offset a.width.bytes

/-- The access is not wholly inside the window (R70). -/
def Access.outside (a : Access) : Bool := decide (windowSize < a.offset + a.width.bytes)

/-- The offset is a multiple of the access width (R74). -/
def Access.aligned (a : Access) : Bool := decide (a.offset % a.width.bytes = 0)

/-- The access touches the register region. -/
def Access.touchesRegs (a : Access) : Bool := a.covered.any inRegs

/-- The access touches a buffer or the matrix. -/
def Access.touchesStorage (a : Access) : Bool := a.covered.any inStorage

/-- The access breaks R74 or R75: a register access that is not 32 bits wide or not 4-aligned, or a
misaligned access to a buffer or the matrix. Refused with a bus error (R76). An access to reserved
offsets alone is none of these (R84; DEDUCED, notes/assumptions/7.md). -/
def Access.refused (a : Access) : Bool :=
  if a.touchesRegs then decide (a.width ≠ .word) || !a.aligned
  else a.touchesStorage && !a.aligned

end Sys2Proof

namespace Sys2Proof.Machine

/-! ### The register map (10_state.md §2) -/

/-- The constant value of ID, ASCII "QRC1" (R21). -/
def idValue : Word := 0x51524331

/-- What the register at a word-aligned offset of the register region reads as; a reserved offset reads
0 (R34). -/
def State.readReg (s : State) (off : Nat) : Word :=
  match off with
  | 0x000 => idValue
  | 0x004 => flagBit s.ie 0
  | 0x008 => s.statusWord
  | 0x00C => s.cmd
  | 0x010 => s.errcode.setWidth 32
  | 0x014 => s.errinfo0
  | 0x018 => s.errinfo1
  | 0x01C => s.poly.setWidth 32
  | 0x020 => s.field.polyActive.setWidth 32
  | 0x024 => s.mver.setWidth 32
  | 0x028 => s.opa
  | 0x02C => s.opb
  | 0x030 => s.opc
  | _ =>
    if 0x040 ≤ off ∧ off < 0x060 then (s.res[(off - 0x040) / 4]?).getD 0
    else if 0x060 ≤ off ∧ off < 0x080 then (s.score[(off - 0x060) / 4]?).getD 0
    else 0

/-- The offset of the register region is reserved (R34). -/
def reservedReg (off : Nat) : Bool :=
  decide (0x034 ≤ off ∧ off < 0x040) || decide (0x080 ≤ off ∧ off < 0x100)

/-- A host write to CTRL, performed in any phase: SRST = 1 is a soft reset and the other bits of the
write are ignored; otherwise IE takes bit 0 (R22, R393). -/
def State.writeCtrl (s : State) (d : Word) : State :=
  if d.getLsbD 1 then s.softReset else { s with ie := d.getLsbD 0 }

/-- A host write to a register other than CTRL and STATUS while the sequencer is IDLE: CMD accepts a
command (R24), POLY, MVER and the operand registers store their bits (R28, R30, R31), and a read-only
register ignores it. -/
def State.writeRegIdle (s : State) (off : Nat) (d : Word) : State :=
  match off with
  | 0x00C => s.accept d
  | 0x01C => { s with poly := d.setWidth 9 }
  | 0x024 => { s with mver := d.setWidth 6 }
  | 0x028 => { s with opa := d }
  | 0x02C => { s with opb := d }
  | 0x030 => { s with opc := d }
  | _ => s

/-- A host write to a word-aligned offset of the register region. While BUSY every write but those to
CTRL, STATUS and reserved offsets is dropped and sets OVR, a read-only register's too (R82; DEDUCED,
notes/assumptions/6.md). -/
def State.writeReg (s : State) (off : Nat) (d : Word) : State :=
  if off = 0x004 then s.writeCtrl d
  else if off = 0x008 then s.writeStatus d
  else if reservedReg off then s
  else if s.busy then { s with ovr := true }
  else s.writeRegIdle off d

/-! ### Buffers and the matrix -/

/-- The entries that store the bytes of a value, little-endian, at the covered offsets; reserved bytes
among them are left out (R74, R78, R84; DEDUCED for several regions, notes/assumptions/17.md). -/
def storeEntries (d : Word) : Nat → List Nat → List Host.Cell
  | _, [] => []
  | j, a :: as =>
    let rest := storeEntries d (j + 1) as
    if inStorage a then (a, storedByte a (d.extractLsb' (8 * j) 8)) :: rest else rest

/-- A host write of buffer or matrix bytes: dropped, with OVR set, while BUSY (R82); a write that
touches reserved offsets alone has no effect, always (R84). -/
def State.writeStorage (s : State) (a : Access) (d : Word) : State :=
  if a.touchesStorage then
    if s.busy then { s with ovr := true }
    else { s with mem := writeBytes s.mem (storeEntries d 0 a.covered) }
  else s

/-- What a host read of the byte at `a` returns, the `k`-th free byte being the next: a byte of the
running command's write set is unspecified, with bits [7:3] of a matrix byte 0 as always (R83, R41;
notes/assumptions/3.md); a reserved offset reads 0 (R84); any other byte reads as stored. -/
def State.hostByte (s : State) (k a : Nat) : Byte :=
  if !inStorage a then 0
  else if s.writeSet.contains a then
    if inMatrix a then Config.freeByte k &&& 0x07 else Config.freeByte k
  else readByte s.mem a

/-- The covered bytes as one little-endian value (R78). -/
def State.hostValue (s : State) : Nat → List Nat → Nat
  | _, [] => 0
  | k, a :: as => (s.hostByte k a).toNat + 2 ^ 8 * s.hostValue (k + 1) as

/-! ### One access -/

/-- Answer the host (DESIGN CHOICE, notes/assumptions/10.md). -/
def State.respond (s : State) (data : Word) (busError : Bool) : State :=
  { s with resp := some ⟨data, busError⟩ }

/-- A host read that is not refused: no side effect on any state of the QRC (R81). A read of buffer
bytes draws one free byte a covered byte while a command runs. -/
def State.hostRead (s : State) (a : Access) : State :=
  if a.touchesRegs then s.respond (s.readReg a.offset) false
  else
    match s.phase with
    | .busy _ _ =>
      { s with freeCount := s.freeCount + a.width.bytes }.respond
        (natWord (s.hostValue s.freeCount a.covered)) false
    | .init | .idle => s.respond (natWord (s.hostValue s.freeCount a.covered)) false

/-- A host write that is not refused (R81, R82). -/
def State.hostWrite (s : State) (a : Access) (d : Word) : State :=
  if a.touchesRegs then (s.writeReg a.offset d).respond 0 false
  else (s.writeStorage a d).respond 0 false

/-- One host access: refused with a bus error, reading as 0 and changing nothing (R76), or performed.
One that leaves the window stops the model (DESIGN CHOICE, notes/assumptions/9.md). -/
def State.hostAccess (s : State) (a : Access) : Host.Outcome State Fault Refusal :=
  if a.outside then .fault (.outsideWindow a.offset)
  else if a.refused then .next (s.respond 0 true)
  else
    match a.kind with
    | .read => .next (s.hostRead a)
    | .write d => .next (s.hostWrite a d)

end Sys2Proof.Machine
end

