-- ==== Sys2Proof/Machine/Dispatch.lean ====
section
/-! DEFINITION. The dispatch: every command of the opcode map (R101) to its meaning. -/

namespace Sys2Proof.Machine

def exec (i : Instr) (s : State) : Host.Outcome State Fault Refusal :=
  match i with
  | .nop => Sys2Proof.Machine.execNop s
  | .gfInit => Sys2Proof.Machine.execGfInit s
  | .gfAdd => Sys2Proof.Machine.execGfAdd s
  | .gfSub => Sys2Proof.Machine.execGfSub s
  | .gfMul => Sys2Proof.Machine.execGfMul s
  | .gfDiv => Sys2Proof.Machine.execGfDiv s
  | .gfInv => Sys2Proof.Machine.execGfInv s
  | .gfPow => Sys2Proof.Machine.execGfPow s
  | .gfExp => Sys2Proof.Machine.execGfExp s
  | .gfLog => Sys2Proof.Machine.execGfLog s
  | .rsGenpoly => Sys2Proof.Machine.execRsGenpoly s
  | .rsEncode => Sys2Proof.Machine.execRsEncode s
  | .capQuery => Sys2Proof.Machine.execCapQuery s
  | .fitCheck => Sys2Proof.Machine.execFitCheck s
  | .selectVersion => Sys2Proof.Machine.execSelectVersion s
  | .modeDetect => Sys2Proof.Machine.execModeDetect s
  | .buildData => Sys2Proof.Machine.execBuildData s
  | .blockAssemble => Sys2Proof.Machine.execBlockAssemble s
  | .scaffold => Sys2Proof.Machine.execScaffold s
  | .place => Sys2Proof.Machine.execPlace s
  | .maskApply => Sys2Proof.Machine.execMaskApply s
  | .penalty => Sys2Proof.Machine.execPenalty s
  | .maskSelect => Sys2Proof.Machine.execMaskSelect s
  | .formatEncode => Sys2Proof.Machine.execFormatEncode s
  | .formatStamp => Sys2Proof.Machine.execFormatStamp s
  | .versionEncode => Sys2Proof.Machine.execVersionEncode s
  | .versionStamp => Sys2Proof.Machine.execVersionStamp s
  | .encode => Sys2Proof.Machine.execEncode s

end Sys2Proof.Machine
end

