-- ==== Sys2Proof/Machine/Sequencer.lean ====
section
/-! DEFINITION. What the sequencer does beside running a command (R16, R390): reset initialisation, and
the loading of one command word. -/

namespace Sys2Proof.Machine

/-- Reset initialisation, one sequencer step: the tables of 0x11D are built and the sequencer is IDLE.
It is no command: no RES register, no ERRCODE and no DONE is written (R390). -/
def State.initialise (s : State) : State := { s with field := buildField polyReset, phase := .idle }

/-- An accepted word that decodes to no command: E_ILLEGAL with the word (R100, R108, R351). -/
def State.illegal (s : State) (w : Word) : State := s.raiseError (.illegal w)

/-- The state in which a command word has just been accepted and the sequencer moves next. Where reset
initialisation has not ended, it is taken first: no command is accepted before (R394). -/
def State.withCommand (s : State) (w : Word) : State :=
  let s' := match s.phase with
    | .init => s.initialise
    | .idle | .busy _ _ => s
  { s'.accept w with events := .sequencer :: s.events }

end Sys2Proof.Machine
end

