-- ==== Sys2Proof/Machine/Step.lean ====
section
/-! DEFINITION. One step of the machine (R58): the next host access, or the sequencer's step. -/

namespace Sys2Proof.Machine

/-- The sequencer's step: reset initialisation ends (R390), or the accepted word is decoded and its
command runs to completion (R351, R353). An IDLE sequencer does nothing (R367). -/
def sequencerStep (s : State) : Host.Outcome State Fault Refusal :=
  match s.phase with
  | .init => .next s.initialise
  | .idle => .next s
  | .busy w _ =>
    match decode w with
    | .ok i => exec i s
    | .error _ => .next (s.illegal w)

/-- One step: the event at the front of the total order of R361, and, where the outside does nothing
more, the sequencer's step, so that every command completes (R401; DESIGN CHOICE,
notes/assumptions/5.md). -/
def step (s : State) : Host.Outcome State Fault Refusal :=
  match s.events with
  | [] => sequencerStep s
  | .sequencer :: es => sequencerStep { s with events := es }
  | .host a :: es => ({ s with events := es } : State).hostAccess a
  | .powerOn b :: es => .next (({ s with events := es } : State).powerOn b)

/-- The state whose very next step decodes and runs the command word `w`: it has been accepted and the
sequencer moves next (notes/assumptions/4.md). -/
def State.withFetchWord (s : State) (nbits w : Nat) : State :=
  s.withCommand (BitVec.ofNat 32 (w % 2 ^ nbits))

end Sys2Proof.Machine
end

