-- ==== Sys2Proof/Safety.lean ====
section
/-! DEFINITION. The terms the statements use: the machine's invariant, what a completion, an error and a
frame are, and the spec's own formulas for results, written without the tables, lists and folds that
the model computes with. -/

namespace Sys2Proof.Machine

/-! ### The invariant -/

/-- Memory is in its canonical form, lists only bytes of the buffers and the matrix, and holds only legal
cell encodings in the matrix (R41, R71, R391). -/
def legalMem (m : Memory) : Bool :=
  m.wf && m.all fun e => inStorage e.1 && storedByte e.1 e.2 == e.2

/-- The tables are those of POLY_ACTIVE, and POLY_ACTIVE is primitive (R45, R130). -/
structure GoodField (f : GfField) : Prop where
  valid : validPoly f.polyActive = true
  built : f = buildField f.polyActive

/-- What every state of a run satisfies. -/
structure State.Inv (s : State) : Prop where
  /-- Memory is legal (R41, R71). -/
  memory : legalMem s.mem = true
  /-- GF_READY: outside INIT the tables are those of a primitive POLY_ACTIVE (R23, R130). -/
  field : s.phase ≠ .init → GoodField s.field
  /-- During INIT POLY_ACTIVE is 0x11D, and no completion has been recorded (R390). -/
  starting : s.phase = .init →
    s.field.polyActive = polyReset ∧ s.done = false ∧ s.err = false ∧ s.errcode = 0
  /-- While a command runs, its snapshot is what the registers and buffers still hold, CMD holds its
  word, and the record of the command before is cleared (R24, R82, R350, R395). -/
  running : ∀ w x, s.phase = .busy w x →
    x = s.snapshot ∧ s.cmd = w ∧ s.done = false ∧ s.err = false ∧ s.errcode = 0 ∧
      s.errinfo0 = 0 ∧ s.errinfo1 = 0
  /-- Codes 10 to 15 are never written (R355, I11). -/
  codes : s.errcode.toNat ≤ 9
  /-- ERR is never set without a code (R352, R359). -/
  named : s.err = true → s.errcode ≠ 0

/-! ### Completions, errors and frames -/

/-- Everything of the state that no command writes keeps its value: CTRL, OVR, CMD, POLY, the operand
registers (R22, R23, R24, R28, R31), and the model's own fields. -/
structure HostSideKept (s t : State) : Prop where
  ie : t.ie = s.ie
  ovr : t.ovr = s.ovr
  cmd : t.cmd = s.cmd
  poly : t.poly = s.poly
  opa : t.opa = s.opa
  opb : t.opb = s.opb
  opc : t.opc = s.opc
  events : t.events = s.events
  resp : t.resp = s.resp
  freeCount : t.freeCount = s.freeCount

/-- Normal completion: DONE set, IDLE, ERR and the error record as they were (R353). -/
structure Completed (s t : State) : Prop extends HostSideKept s t where
  done : t.done = true
  idle : t.phase = .idle
  err : t.err = s.err
  errcode : t.errcode = s.errcode
  errinfo0 : t.errinfo0 = s.errinfo0
  errinfo1 : t.errinfo1 = s.errinfo1

/-- Every output of every command keeps its value (R352). -/
structure OutputsKept (s t : State) : Prop where
  res : t.res = s.res
  score : t.score = s.score
  mver : t.mver = s.mver
  field : t.field = s.field
  mem : t.mem = s.mem

/-- An error is raised, and nothing else happens: the code and the two information words (R352). -/
structure RaisedError (s t : State) (code : Nat) (info0 info1 : Word) : Prop
    extends HostSideKept s t, OutputsKept s t where
  errcode : t.errcode = BitVec.ofNat 4 code
  errinfo0 : t.errinfo0 = info0
  errinfo1 : t.errinfo1 = info1
  err : t.err = true
  done : t.done = true
  idle : t.phase = .idle

/-- What a command may assume: the invariant, and reset initialisation has ended (R394). An IDLE state is
among them, so that a meaning is also stated outside BUSY (notes/assumptions/11.md). -/
structure State.Ready (s : State) : Prop where
  inv : s.Inv
  started : s.phase ≠ .init

/-- The command completes by raising this error, and does nothing else (R352). -/
def Raises (i : Instr) (s : State) (code : Nat) (info0 info1 : Word) : Prop :=
  ∃ t, exec i s = .next t ∧ RaisedError s t code info0 info1

/-- RES0, RES1, … hold the listed words, and every other RESk keeps its value (R32). -/
def ResHolds (s t : State) (ws : List Word) : Prop :=
  ∀ k, (h : k < 8) → t.res[k] = (ws[k]?).getD s.res[k]

/-- Normal completion of a command that writes the listed RES registers and nothing else. -/
structure OnlyRes (s t : State) (ws : List Word) : Prop extends Completed s t where
  res : ResHolds s t ws
  score : t.score = s.score
  mver : t.mver = s.mver
  field : t.field = s.field
  mem : t.mem = s.mem

/-- Normal completion of a command that writes the listed RES registers, the bytes of memory at the
offsets of `P`, and nothing else. -/
structure OnlyResMem (s t : State) (ws : List Word) (P : Nat → Prop) : Prop extends Completed s t where
  res : ResHolds s t ws
  score : t.score = s.score
  mver : t.mver = s.mver
  field : t.field = s.field
  mem : ∀ a, ¬ P a → readByte t.mem a = readByte s.mem a

/-- The `k` bytes from offset `base` on, read one by one. -/
def bytesOf (m : Memory) (base k : Nat) : List Byte := (List.range k).map fun i => readByte m (base + i)

/-- The offset lies in the `k` bytes from `base` on. -/
def inRange (base k a : Nat) : Prop := base ≤ a ∧ a < base + k

/-- The offset is that of a cell of `[0, n)²` (R250). -/
def inSquare (n a : Nat) : Prop := ∃ r c, r < n ∧ c < n ∧ a = cellOffset r c

/-- The offset is that of a cell of `[0, n)²` that satisfies `P`. -/
def inCells (n : Nat) (P : Nat → Nat → Prop) (a : Nat) : Prop :=
  ∃ r c, r < n ∧ c < n ∧ P r c ∧ a = cellOffset r c

/-- `(r, c)` is the first cell of `[0, n)²` in row-major order that satisfies `P`. -/
structure FirstCell (n : Nat) (P : Nat → Nat → Prop) (r c : Nat) : Prop where
  row : r < n
  col : c < n
  holds : P r c
  first : ∀ r' c', r' < n → c' < n → P r' c' → r < r' ∨ r = r' ∧ c ≤ c'

/-- The state after the host has written a canonical command's operands and its word, and the word has
been accepted (R110, R350). -/
def State.loaded (s : State) (c : Command) : State :=
  ({ s with opa := c.operands.opa, opb := c.operands.opb, opc := c.operands.opc } : State).accept
    (encode c.instr)

/-- The state after a canonical command has run on what the machine holds now (R110, R350, R353). -/
def State.run (s : State) (c : Command) : State :=
  match exec c.instr (s.loaded c) with
  | .next t => t
  | _ => s

/-- A host write event of a 32-bit register (R109). -/
def wr (off : Nat) (d : Word) : Event := .host ⟨off, .word, .write d⟩

/-- The bus writes of a canonical command line (R110). -/
def busWrites (c : Command) : List Event :=
  [wr 0x028 c.operands.opa, wr 0x02C c.operands.opb, wr 0x030 c.operands.opc,
   wr 0x00C (encode c.instr)]

/-! ### GF(256) as polynomial arithmetic (R141) -/

/-- The carry-less product of two bytes (R141). -/
def clmul (a b : Nat) : Nat :=
  (List.range 8).foldl (fun r i => if b.testBit i then r ^^^ (a <<< i) else r) 0

/-- The reduction modulo a polynomial of degree 8, from bit 14 down to bit 8 (R141). -/
def reduceBy (p r : Nat) : Nat :=
  [14, 13, 12, 11, 10, 9, 8].foldl (fun r i => if r.testBit i then r ^^^ (p <<< (i - 8)) else r) r

/-- The product of two bytes as polynomials modulo `p` (R141). -/
def polyProduct (p : Poly) (a b : Byte) : Byte :=
  BitVec.ofNat 8 (reduceBy p.toNat (clmul a.toNat b.toNat))

/-- The `e`-fold product of a byte (R140). -/
def polyPower (p : Poly) (a : Byte) : Nat → Byte
  | 0 => 1
  | e + 1 => polyProduct p (polyPower p a e) a

/-- `p` has degree 8, and `x` has multiplicative order 255 modulo `p` (R130). -/
def IsPrimitive (p : Poly) : Prop :=
  p.getLsbD 8 = true ∧ polyPower p 2 255 = 1 ∧ ∀ k, 0 < k → k < 255 → polyPower p 2 k ≠ 1

/-- The tables of a polynomial: `EXP[i]` is `x^(i mod 255)`, and LOG is its inverse (R45, R130). -/
structure TablesOf (p : Poly) (f : GfField) : Prop where
  poly : f.polyActive = p
  expSize : f.exp.length = 512
  logSize : f.log.length = 256
  exp : ∀ i, i < 512 → f.exp.getD i 0 = polyPower p 2 (i % 255)
  log : ∀ i, i < 255 → f.log.getD (polyPower p 2 i).toNat 0 = BitVec.ofNat 8 i

/-- The value of a polynomial, highest-degree coefficient first, at a field element. -/
def polyEval (f : GfField) (y : Byte) (cs : List Byte) : Byte :=
  cs.foldl (fun acc c => gfadd (gfmul f acc y) c) 0

/-- `∏ (y − α^i)` over i in [0, t) (41_reed_solomon.md). -/
def rootProduct (f : GfField) (y : Byte) : Nat → Byte
  | 0 => 1
  | t + 1 => gfmul f (rootProduct f y t) (gfadd y (gfexp f t))

/-- `cs` is the generator of degree `t`: `t + 1` coefficients, monic, with the value of the product of
`(x − α^i)` everywhere (R160, R164). -/
structure IsGenerator (f : GfField) (t : Nat) (cs : List Byte) : Prop where
  length : cs.length = t + 1
  monic : cs.head? = some 1
  product : ∀ y, polyEval f y cs = rootProduct f y t

/-- `par` is Reed-Solomon parity of `data`: `t` bytes, and the codeword has the roots `α^0 … α^(t−1)`
(R164). -/
structure IsParity (f : GfField) (t : Nat) (data par : List Byte) : Prop where
  length : par.length = t
  roots : ∀ i, i < t → polyEval f (gfexp f i) (data ++ par) = 0

/-! ### Bits and cells -/

/-- Bit `i` of a codeword sequence, most significant bit of each codeword first (R79). -/
def streamBit (bs : List Byte) (i : Nat) : Bool := (bs.getD (i / 8) 0).toNat.testBit (7 - i % 8)

/-- The codewords that the bitstream itself fills, with terminator and zero bits (R215, R216). -/
def usedCw (m : Mode) (n v : Nat) (e : Ecc) : Nat :=
  (req m n v + min 4 (capBits v e - req m n v) + 7) / 8

/-- The number in the `w` bits of a codeword sequence from bit `i` on (R215). -/
def streamField (bs : List Byte) (i : Nat) : Nat → Nat
  | 0 => 0
  | w + 1 => (if streamBit bs i then 2 ^ w else 0) + streamField bs (i + 1) w

/-- The alphanumeric index of a byte, none outside the set (R210). -/
def alnumValue (b : Byte) : Option Nat :=
  let x := b.toNat
  if 0x30 ≤ x ∧ x ≤ 0x39 then some (x - 0x30)
  else if 0x41 ≤ x ∧ x ≤ 0x5A then some (x - 0x41 + 10)
  else
    match x with
    | 0x20 => some 36
    | 0x24 => some 37
    | 0x25 => some 38
    | 0x2A => some 39
    | 0x2B => some 40
    | 0x2D => some 41
    | 0x2E => some 42
    | 0x2F => some 43
    | 0x3A => some 44
    | _ => none

/-- Every byte is in the alphanumeric set (R211). -/
def AllAlnum (bs : List Byte) : Prop := ∀ b ∈ bs, alnumValue b ≠ none

/-- `k` is the index of the first byte outside the alphanumeric set (R211). -/
structure FirstBad (bs : List Byte) (k : Nat) : Prop where
  inside : k < bs.length
  bad : alnumValue (bs.getD k 0) = none
  first : ∀ j, j < k → alnumValue (bs.getD j 0) ≠ none

/-- What a MODE field resolves to on an input (R212). -/
def ResolvesTo (f : ModeField) (bs : List Byte) (m : Mode) : Prop :=
  match f with
  | .auto => AllAlnum bs ∧ m = .alnum ∨ ¬ AllAlnum bs ∧ m = .byte
  | .byte => m = .byte
  | .alnum => AllAlnum bs ∧ m = .alnum
  | .unsupported => False

/-- The fit predicate (R186). -/
def Fits (m : Mode) (n v : Nat) (e : Ecc) : Prop :=
  n ≤ 2 ^ cci m v - 1 ∧ 4 + cci m v + payload m n ≤ 8 * dataCw v e

/-- A search may try this level: any where none was requested (R188). -/
def MayTry (eopt : Option Ecc) (e : Ecc) : Prop := eopt = none ∨ eopt = some e

/-- What the search returns: the first version of `[lo, hi]`, and for it the first level, that fits (R188). -/
structure FirstFit (m : Mode) (n lo hi : Nat) (eopt : Option Ecc) (v : Nat) (e : Ecc) : Prop where
  low : lo ≤ v
  high : v ≤ hi
  level : MayTry eopt e
  fits : Fits m n v e
  first : ∀ v' e', lo ≤ v' → MayTry eopt e' → Fits m n v' e' →
    v < v' ∨ v = v' ∧ eccOrdinal e ≤ eccOrdinal e'

/-- The data codewords of a bitstream with its padding (R215 to R217), read back bit by bit. -/
structure IsDataSequence (m : Mode) (s : List Byte) (v : Nat) (e : Ecc) (out : List Byte) : Prop where
  /-- Always padded to full length. -/
  length : out.length = dataCw v e
  indicator : streamField out 0 4 = match m with | .byte => 0b0100 | .alnum => 0b0010
  count : streamField out 4 (cci m v) = s.length
  bytes : m = .byte → ∀ i, i < s.length →
    streamField out (4 + cci m v + 8 * i) 8 = (s.getD i 0).toNat
  pairs : m = .alnum → ∀ i, i < s.length / 2 →
    streamField out (4 + cci m v + 11 * i) 11 =
      45 * (alnumValue (s.getD (2 * i) 0)).getD 0 + (alnumValue (s.getD (2 * i + 1) 0)).getD 0
  last : m = .alnum → s.length % 2 = 1 →
    streamField out (4 + cci m v + 11 * (s.length / 2)) 6 =
      (alnumValue (s.getD (s.length - 1) 0)).getD 0
  /-- Terminator and zero bits, to the end of the last bitstream codeword. -/
  zeros : ∀ i, req m s.length v ≤ i → i < 8 * usedCw m s.length v e → streamBit out i = false
  pads : ∀ k, usedCw m s.length v e + k < dataCw v e →
    out.getD (usedCw m s.length v e + k) 0 = if k % 2 = 0 then 0xEC else 0x11

/-- The cell at (r, c) in the matrix buffer (R41). -/
def memCell (m : Memory) (r c : Nat) : Cell := Cell.ofByte (readByte m (cellOffset r c))

/-- Placement writes this cell: UNSET and not reserved (R258). -/
def IsFree (x : Cell) : Prop := x.mod = .unset ∧ x.res = false

/-- Mask `k` inverts this cell (R281). -/
def Inverted (k : MaskId) (r c : Nat) (x : Cell) : Prop :=
  x.res = false ∧ x.mod ≠ .unset ∧ pred k r c = true

/-- What mask `k` makes of a cell (R281). -/
def maskedCell (k : MaskId) (r c : Nat) (x : Cell) : Cell :=
  if x.res = false ∧ x.mod ≠ .unset ∧ pred k r c = true then { x with mod := x.mod.flip } else x

/-- The number of cells of `[0, n)²` that satisfy `P`. -/
def cellCount (n : Nat) (P : Nat → Nat → Bool) : Nat :=
  ∑ r ∈ Finset.range n, ∑ c ∈ Finset.range n, if P r c then 1 else 0

/-- The cell (r, c) of the scaffold, its first pattern in this order: finder with separator, alignment,
timing, dark module, format zone, version zone (R251 to R254). -/
def scaffoldSpec (v r c : Nat) : Cell :=
  let n := 17 + 4 * v
  let ring := fun (q : Nat × Nat) => max (Int.natAbs ((r : Int) - q.1)) (Int.natAbs ((c : Int) - q.2))
  if r ≤ 7 ∧ c ≤ 7 then marked (decide (ring (3, 3) ≤ 1 ∨ ring (3, 3) = 3))
  else if r ≤ 7 ∧ n - 8 ≤ c then marked (decide (ring (3, n - 4) ≤ 1 ∨ ring (3, n - 4) = 3))
  else if n - 8 ≤ r ∧ c ≤ 7 then marked (decide (ring (n - 4, 3) ≤ 1 ∨ ring (n - 4, 3) = 3))
  else
    match (alignCentres v).find? fun q => decide (ring q ≤ 2) with
    | some q => marked (decide (ring q ≠ 1))
    | none =>
      if r = 6 then marked (decide (c % 2 = 0))
      else if c = 6 then marked (decide (r % 2 = 0))
      else if r = n - 8 ∧ c = 8 then marked true
      else if r = 8 ∧ (c ≤ 8 ∨ n - 8 ≤ c) ∨ c = 8 ∧ (r ≤ 8 ∨ n - 7 ≤ r) then ⟨.unset, true⟩
      else if 7 ≤ v ∧ (r < 6 ∧ n - 11 ≤ c ∨ c < 6 ∧ n - 11 ≤ r) then ⟨.unset, true⟩
      else ⟨.unset, false⟩

/-- The cell of visit `i`: pair `i / 2n`, row `j` of it, right column first; even pairs go upward, and the
pairs past column 6 lie one column further left (R257). -/
def visitSpec (n i : Nat) : Nat × Nat :=
  let k := i / (2 * n)
  let j := i % (2 * n) / 2
  let right := if 6 < n - 1 - 2 * k then n - 1 - 2 * k else n - 2 - 2 * k
  (if k % 2 = 0 then n - 1 - j else j, right - i % 2)

/-- The cells that placement writes, in the order it visits them (R257, R258). -/
def freeVisits (m : Memory) (n : Nat) : List (Nat × Nat) :=
  ((List.range (n * (n - 1))).map (visitSpec n)).filter fun q =>
    decide ((memCell m q.1 q.2).mod = .unset ∧ (memCell m q.1 q.2).res = false)

/-- The bit of the format word that goes to (r, c), where it is a format cell (R312). -/
def formatBitAt (n r c : Nat) : Option Nat :=
  match fmt1.idxOf? (r, c) with
  | some j => some (14 - j)
  | none => ((fmt2 n).idxOf? (r, c)).map fun j => 14 - j

/-- What stamping a format word makes of the cell at (r, c) (R312). -/
def formatStamped (n : Nat) (e : Ecc) (k : MaskId) (r c : Nat) (x : Cell) : Cell :=
  match formatBitAt n r c with
  | some b => marked ((formatWord e k).testBit b)
  | none => x

/-- The bit of the version word that goes to (r, c), where it is a version cell (R316). -/
def versionBitAt (n r c : Nat) : Option Nat :=
  if r < 6 ∧ n - 11 ≤ c ∧ c < n - 8 then some (3 * r + (c - (n - 11)))
  else if c < 6 ∧ n - 11 ≤ r ∧ r < n - 8 then some (3 * c + (r - (n - 11)))
  else none

/-- What stamping the version word makes of the cell at (r, c) (R316). -/
def versionStamped (n v r c : Nat) (x : Cell) : Cell :=
  match versionBitAt n r c with
  | some b => marked ((versionWord v).testBit b)
  | none => x

/-- The cell at (r, c) of the candidate of mask `k` (R290). -/
def candidateCell (m : Memory) (n : Nat) (e : Ecc) (k : MaskId) (r c : Nat) : Cell :=
  formatStamped n e k r c (maskedCell k r c (memCell m r c))

/-! ### What a command may do (R35, R42, R357) -/

/-- The errors of a command, each with its E_RANGE field code or 0 (R355, R357; E_CONSISTENCY is
unreachable, R358). -/
def errorsOf : Instr → List (Nat × Nat)
  | .nop | .gfAdd | .gfSub | .gfMul | .gfPow | .gfExp | .rsGenpoly | .formatEncode => []
  | .gfInit => [(8, 0)]
  | .gfDiv | .gfInv => [(4, 0)]
  | .gfLog => [(5, 0)]
  | .rsEncode => [(3, 6)]
  | .capQuery | .scaffold | .blockAssemble => [(3, 1)]
  | .fitCheck => [(3, 1), (2, 0)]
  | .selectVersion => [(3, 2), (3, 3), (3, 4), (2, 0), (1, 0)]
  | .modeDetect => [(3, 5)]
  | .buildData => [(3, 1), (3, 5), (2, 0), (1, 0)]
  | .place | .maskApply | .formatStamp => [(3, 7)]
  | .penalty | .maskSelect => [(3, 7), (9, 0)]
  | .versionEncode => [(3, 1), (3, 8)]
  | .versionStamp => [(3, 7), (3, 8)]
  | .encode => [(3, 1), (3, 2), (3, 3), (3, 4), (3, 5), (2, 0), (1, 0)]

/-- The buffers and the matrix that a command may write: the "written by commands" column of R35. -/
def mayWrite (i : Instr) (a : Nat) : Prop :=
  inRange genBase 256 a ∧ i ∈ [Instr.rsGenpoly, .rsEncode, .blockAssemble, .encode] ∨
  inRange parBase 256 a ∧ i = .rsEncode ∨
  inRange dataBase 4096 a ∧ i ∈ [Instr.buildData, .encode] ∨
  (inRange eccBase 4096 a ∨ inRange ilvBase 4096 a) ∧ i ∈ [Instr.blockAssemble, .encode] ∨
  inRange matBase 31329 a ∧
    i ∈ [Instr.scaffold, .place, .maskApply, .maskSelect, .formatStamp, .versionStamp, .encode]

/-! ### ENCODE (R331, R332) -/

/-- Every option of ENCODE is in its range (R331, R357). -/
structure EncodeRanges (s : State) : Prop where
  ver : s.ops.ver.toNat ≤ 40
  minv : s.ops.minv.toNat ≤ 40
  maxv : s.ops.maxv.toNat ≤ 40
  bounds : lowBound s.ops.minv.toNat ≤ highBound s.ops.maxv.toNat
  len : s.ops.len.toNat ≤ 8192

/-- The input of a command (R36). -/
def State.inputBytes (s : State) : List Byte := bytesOf s.mem inBase s.ops.len.toNat

/-- The mode, version and level ENCODE works at: an explicit version where it fits, or the search
(R331, R332). -/
structure EncodeChoice (s : State) (m : Mode) (v : Nat) (e : Ecc) : Prop extends EncodeRanges s where
  mode : ResolvesTo s.ops.mode s.inputBytes m
  explicit : s.ops.ver.toNat ≠ 0 →
    v = s.ops.ver.toNat ∧ e = s.ops.eccOpt.getD .L ∧ Fits m s.ops.len.toNat v e
  search : s.ops.ver.toNat = 0 →
    FirstFit m s.ops.len.toNat (lowBound s.ops.minv.toNat) (highBound s.ops.maxv.toNat) s.ops.eccOpt v e

/-- The MODE field value that names a mode (R105). -/
def fieldOf : Mode → ModeField
  | .byte => .byte
  | .alnum => .alnum

/-- The component commands that ENCODE stands for, in pipeline order (48_pipeline.md). -/
def State.runComponents (s : State) (m : Mode) (n v : Nat) (e : Ecc) : State :=
  let built := (s.run (.buildData v e (fieldOf m) n)).run (.blockAssemble v e)
  let placed := (built.run (.scaffold v)).run .place
  (if 7 ≤ v then placed.run .versionStamp else placed).run (.maskSelect e)

/-- `best` is the smallest mask id of minimal score (R291). -/
structure IsBest (score : MaskId → Nat) (best : MaskId) : Prop where
  least : ∀ k, score best ≤ score k
  lowest : ∀ k, score k = score best → best ≤ k

/-! ### The penalty rules over `val(r, c)` (R284 to R288) -/

/-- Entry `j` of line `l`: the rows come first, then the columns. -/
def lineVal (n : Nat) (v : Nat → Nat → Bool) (l j : Nat) : Bool :=
  if l < n then v l j else v j (l - n)

/-- `[i, i + len)` is a maximal run of equal values of a line of length `n` (R284). -/
def maximalRun (n : Nat) (ℓ : Nat → Bool) (i len : Nat) : Bool :=
  (List.range len).all (fun j => ℓ (i + j) == ℓ i) && (decide (i = 0) || ℓ (i - 1) != ℓ i) &&
    (decide (i + len = n) || ℓ (i + len) != ℓ i)

/-- Rule 1 (R284). -/
def specN1 (n : Nat) (v : Nat → Nat → Bool) : Nat :=
  ∑ l ∈ Finset.range (2 * n), ∑ i ∈ Finset.range n, ∑ len ∈ Finset.Icc 5 (n - i),
    if maximalRun n (lineVal n v l) i len then 3 + (len - 5) else 0

/-- Rule 2 (R285). -/
def specN2 (n : Nat) (v : Nat → Nat → Bool) : Nat :=
  3 * ∑ r ∈ Finset.range (n - 1), ∑ c ∈ Finset.range (n - 1),
    if v r c = v r (c + 1) ∧ v r c = v (r + 1) c ∧ v r c = v (r + 1) (c + 1) then 1 else 0

/-- The seven values of a line from `j` on are `p`. -/
def matchesAt (ℓ : Nat → Bool) (j : Nat) (p : List Bool) : Bool :=
  (List.range 7).map (fun i => ℓ (j + i)) == p

/-- The four values of a line from `j` on are light. -/
def lightAt (ℓ : Nat → Bool) (j : Nat) : Bool := (List.range 4).all fun i => !ℓ (j + i)

/-- Rule 3 (R286). -/
def specN3 (n : Nat) (v : Nat → Nat → Bool) : Nat :=
  ∑ l ∈ Finset.range (2 * n), ∑ j ∈ Finset.range (n - 6),
    if (matchesAt (lineVal n v l) j [true, false, true, true, true, false, true] = true ∨
        matchesAt (lineVal n v l) j [false, true, false, false, false, true, false] = true) ∧
      ((4 ≤ j ∧ lightAt (lineVal n v l) (j - 4) = true) ∨
        (j + 11 ≤ n ∧ lightAt (lineVal n v l) (j + 7) = true)) then 40 else 0

/-- `D`, the number of DARK cells (R287). -/
def specDark (n : Nat) (v : Nat → Nat → Bool) : Nat := cellCount n v

/-- Rule 4 (R287). -/
def specN4 (n : Nat) (v : Nat → Nat → Bool) : Nat :=
  10 * (Int.natAbs (100 * (specDark n v : Int) - 50 * ((n : Int) * n)) / (5 * (n * n)))

/-- The penalty (R288). -/
def specPenalty (n : Nat) (v : Nat → Nat → Bool) : Nat :=
  specN1 n v + specN2 n v + specN3 n v + specN4 n v

end Sys2Proof.Machine
end

