-- ==== Sys2Proof/Certificates/Slice0/Obligations.lean ====
section
/-! DEFINITION. The statements for the provers. Each docstring names the rules of spec/ it formalises, and
the log entry where a clause is the model's own. -/

open Sys2Proof Sys2Proof.Machine

/-! ### Encoding -/

/-- The five worked encodings of R111, assembled and read back. -/
def Obligations.WorkedEncodings : Prop :=
  (assemble (.gfMul 0x53 0xCA) = ⟨⟨0x53, 0xCA, 0⟩, 0x12⟩ ∧
    disassemble ⟨⟨0x53, 0xCA, 0⟩, 0x12⟩ = .ok (.gfMul 0x53 0xCA)) ∧
  (assemble (.rsEncode 0 19 7) = ⟨⟨0, 0x13, 7⟩, 0x21⟩ ∧
    disassemble ⟨⟨0, 0x13, 7⟩, 0x21⟩ = .ok (.rsEncode 0 19 7)) ∧
  (assemble (.formatEncode .L 5) = ⟨⟨0x50000, 0, 0⟩, 0x70⟩ ∧
    disassemble ⟨⟨0x50000, 0, 0⟩, 0x70⟩ = .ok (.formatEncode .L 5)) ∧
  (assemble (.encode 5 1 (some .L) .byte 0 0) = ⟨⟨0x1401, 5, 0⟩, 0x80⟩ ∧
    disassemble ⟨⟨0x1401, 5, 0⟩, 0x80⟩ = .ok (.encode 5 1 (some .L) .byte 0 0)) ∧
  (assemble (.selectVersion .byte 18 none 1 40) = ⟨⟨0x1000, 0x12, 0x2801⟩, 0x32⟩ ∧
    disassemble ⟨⟨0x1000, 0x12, 0x2801⟩, 0x32⟩ = .ok (.selectVersion .byte 18 none 1 40))

/-- Reading back the words of a canonical command gives the command, for every operand its fields admit, and
whatever the operand registers hold reads as a well-formed command (R102, R110). -/
def Obligations.CanonicalCommandRoundTrip : Prop :=
  (∀ c : Command, c.wf = true → disassemble (assemble c) = .ok c) ∧
  ∀ (i : Instr) (o : Operands), (commandOf i o).wf = true

/-- A command's outcome depends on no operand bit outside the fields of its form (R102). -/
def Obligations.OnlyOperandFieldsMatter : Prop :=
  ∀ (s : State) (w : Word) (x : Snapshot) (i : Instr) (o : Operands), s.phase = .busy w x →
    commandOf i x.ops = commandOf i o →
    exec i s = exec i { s with phase := .busy w { x with ops := o } }

/-- An accepted word names a command exactly where bits [31:8] are 0 and the opcode is not of R108's list;
it then runs, and every other word raises E_ILLEGAL with the word, before any other check (R351). -/
def Obligations.AcceptedWordIsDecodedFirst : Prop :=
  ∀ (s : State) (w : Word) (x : Snapshot), s.phase = .busy w x → s.events = [] →
    let op := (w.extractLsb' 0 8).toNat
    (w.extractLsb' 8 24 ≠ 0 ∨ (0x02 ≤ op ∧ op ≤ 0x0F) ∨ (0x18 ≤ op ∧ op ≤ 0x1F) ∨
        (0x22 ≤ op ∧ op ≤ 0x2F) ∨ (0x33 ≤ op ∧ op ≤ 0x37) ∨ (0x3A ≤ op ∧ op ≤ 0x3F) ∨
        (0x41 ≤ op ∧ op ≤ 0x4F) ∨ (0x52 ≤ op ∧ op ≤ 0x5F) ∨ (0x63 ≤ op ∧ op ≤ 0x6F) ∨
        (0x74 ≤ op ∧ op ≤ 0x7F) ∨ (0x81 ≤ op ∧ op ≤ 0xFF) →
      ∃ t, step s = .next t ∧ RaisedError s t 7 w 0) ∧
    (¬ (w.extractLsb' 8 24 ≠ 0 ∨ (0x02 ≤ op ∧ op ≤ 0x0F) ∨ (0x18 ≤ op ∧ op ≤ 0x1F) ∨
        (0x22 ≤ op ∧ op ≤ 0x2F) ∨ (0x33 ≤ op ∧ op ≤ 0x37) ∨ (0x3A ≤ op ∧ op ≤ 0x3F) ∨
        (0x41 ≤ op ∧ op ≤ 0x4F) ∨ (0x52 ≤ op ∧ op ≤ 0x5F) ∨ (0x63 ≤ op ∧ op ≤ 0x6F) ∨
        (0x74 ≤ op ∧ op ≤ 0x7F) ∨ (0x81 ≤ op ∧ op ≤ 0xFF)) →
      ∃ i, opcodeOf i = w.extractLsb' 0 8 ∧ step s = exec i s)

/-! ### The lifecycle and the bus -/

/-- A step of a running machine, with nothing or a sequencer step next in the order of events, is the
meaning of the command its accepted word decodes to (R58, R351; the event list is the model's own,
notes/assumptions/5.md). -/
def Obligations.StepRunsTheDecodedCommand : Prop :=
  ∀ (s : State) (w : Word) (x : Snapshot) (i : Instr), s.phase = .busy w x → decode w = .ok i →
    (s.events = [] → step s = exec i s) ∧
    ∀ es, s.events = .sequencer :: es → step s = exec i { s with events := es }

/-- A write to CMD while BUSY = 0 is accepted and stored, with DONE, ERR, ERRCODE and ERRINFO cleared and the
snapshot taken; while BUSY = 1 it is dropped and sets OVR; a read returns CMD, which is 0 after reset (R24,
R350). That a write answers 0 without an error is the model's own (notes/assumptions/10.md). -/
def Obligations.CommandWordAcceptance : Prop :=
  (∀ (s : State) (w : Word) (es : List Event), s.events = wr 0x00C w :: es →
    (s.busy = false → step s = .next { s with
      events := es, resp := some ⟨0, false⟩, cmd := w, done := false, err := false, errcode := 0,
      errinfo0 := 0, errinfo1 := 0, phase := .busy w ⟨s.poly, s.field, s.mver, s.ops, s.mem⟩ }) ∧
    (s.busy = true → step s = .next { s with
      events := es, resp := some ⟨0, false⟩, ovr := true })) ∧
  (∀ (s : State) (es : List Event), s.events = .host ⟨0x00C, .word, .read⟩ :: es →
    step s = .next { s with events := es, resp := some ⟨s.cmd, false⟩ }) ∧
  State.reset.cmd = 0

/-- Host writes while BUSY: CTRL and STATUS are performed, reserved offsets ignore them, and every other one
is dropped and sets OVR (R82). That a write to a read-only register sets OVR as well is the model's reading of
"every other host write" (notes/assumptions/6.md); that an access with any buffer or matrix byte is dropped as a
whole is notes/assumptions/17.md; that a write answers 0 without an error is notes/assumptions/10.md. A CTRL write
with SRST = 1 is SoftReset's. -/
def Obligations.WritesWhileBusy : Prop :=
  ∀ (s : State) (off : Nat) (d : Word) (es : List Event), s.busy = true →
    (s.events = wr off d :: es →
      (off = 0x004 → d.getLsbD 1 = false → step s = .next { s with
        events := es, resp := some ⟨0, false⟩, ie := d.getLsbD 0 }) ∧
      (off = 0x008 → step s = .next { s with
        events := es, resp := some ⟨0, false⟩, done := s.done && !d.getLsbD 1,
        err := s.err && !d.getLsbD 2, ovr := s.ovr && !d.getLsbD 4 }) ∧
      (off % 4 = 0 → (0x034 ≤ off ∧ off < 0x040) ∨ (0x080 ≤ off ∧ off < 0x100) →
        step s = .next { s with events := es, resp := some ⟨0, false⟩ }) ∧
      (off % 4 = 0 → off = 0 ∨ (0x00C ≤ off ∧ off < 0x034) ∨ (0x040 ≤ off ∧ off < 0x080) →
        step s = .next { s with events := es, resp := some ⟨0, false⟩, ovr := true })) ∧
    ∀ wd : Width, s.events = .host ⟨off, wd, .write d⟩ :: es → 0x100 ≤ off →
      off + wd.bytes ≤ 0x10000 → off % wd.bytes = 0 →
      ((∃ a, off ≤ a ∧ a < off + wd.bytes ∧ inStorage a = true) →
        step s = .next { s with events := es, resp := some ⟨0, false⟩, ovr := true }) ∧
      ((∀ a, off ≤ a → a < off + wd.bytes → inStorage a = false) →
        step s = .next { s with events := es, resp := some ⟨0, false⟩ })

/-- An access that is a misaligned buffer access, or a register access narrower than 32 bits or not aligned
to 4, is refused: a bus error, reading as 0, and no state changes (R74 to R76). That no other access is refused, a
misaligned one to reserved offsets alone among them, is the model's reading of R84 (notes/assumptions/7.md). -/
def Obligations.RefusedAccesses : Prop :=
  ∀ (s : State) (a : Access) (es : List Event), s.events = .host a :: es →
    a.offset + a.width.bytes ≤ 0x10000 →
    (((∃ b, a.offset ≤ b ∧ b < a.offset + a.width.bytes ∧ b < 0x100) ∧
          (a.width ≠ .word ∨ a.offset % 4 ≠ 0)) ∨
        ((∃ b, a.offset ≤ b ∧ b < a.offset + a.width.bytes ∧ inStorage b = true) ∧
          a.offset % a.width.bytes ≠ 0) →
      step s = .next { s with events := es, resp := some ⟨0, true⟩ }) ∧
    (¬ (((∃ b, a.offset ≤ b ∧ b < a.offset + a.width.bytes ∧ b < 0x100) ∧
          (a.width ≠ .word ∨ a.offset % 4 ≠ 0)) ∨
        ((∃ b, a.offset ≤ b ∧ b < a.offset + a.width.bytes ∧ inStorage b = true) ∧
          a.offset % a.width.bytes ≠ 0)) →
      ∃ t d, step s = .next t ∧ t.resp = some ⟨d, false⟩)

/-- A host write of buffer or matrix bytes while IDLE: byte `j` of the value goes to offset `off + j`, a
matrix byte as the legal cell it encodes, a reserved byte nowhere, and nothing else changes (R41, R74, R78,
R84). That a write answers 0 without an error is the model's own (notes/assumptions/10.md). -/
def Obligations.HostWriteStoresLittleEndian : Prop :=
  ∀ (s : State) (off : Nat) (wd : Width) (d : Word) (es : List Event), s.Inv → s.phase = .idle →
    s.events = .host ⟨off, wd, .write d⟩ :: es → 0x100 ≤ off → off + wd.bytes ≤ 0x10000 →
    off % wd.bytes = 0 →
    ∃ m, step s = .next { s with events := es, resp := some ⟨0, false⟩, mem := m } ∧ m.wf = true ∧
      ∀ a, readByte m a =
        if off ≤ a ∧ a < off + wd.bytes ∧ inStorage a = true then
          (if inMatrix a = true then matrixByte (d.extractLsb' (8 * (a - off)) 8)
            else d.extractLsb' (8 * (a - off)) 8)
        else readByte s.mem a

/-- A host read of buffer or matrix bytes while no command runs gives them little-endian, a reserved byte as
0, and has no side effect (R74, R78, R81, R84). -/
def Obligations.HostReadIsLittleEndian : Prop :=
  ∀ (s : State) (off : Nat) (wd : Width) (es : List Event), s.Inv → (∀ w x, s.phase ≠ .busy w x) →
    s.events = .host ⟨off, wd, .read⟩ :: es → 0x100 ≤ off → off + wd.bytes ≤ 0x10000 →
    off % wd.bytes = 0 →
    ∃ d, step s = .next { s with events := es, resp := some ⟨d, false⟩ } ∧
      ∀ j, j < 4 → d.extractLsb' (8 * j) 8 =
        if j < wd.bytes ∧ inStorage (off + j) = true then readByte s.mem (off + j) else 0

/-- The matrix buffer: a byte written to cell (r, c) is stored with VAL only where SET is 1 and with bits
[7:3] zero, it stands for the cell of R40, every byte of the matrix always reads as a legal encoding, and the
matrix tail is reserved (R41). That a write answers 0 without an
error is the model's own (notes/assumptions/10.md). -/
def Obligations.MatrixBytesAreLegalCells : Prop :=
  (∀ (s : State) (r c : Nat) (b : Byte) (es : List Event), s.Inv → s.phase = .idle → r < 177 → c < 177 →
    s.events = .host ⟨0x8000 + 177 * r + c, .byte, .write (b.setWidth 32)⟩ :: es →
    ∃ t, step s = .next t ∧
      (∀ k, (readByte t.mem (0x8000 + 177 * r + c)).getLsbD k =
        if k = 0 then b.getLsbD 0 && b.getLsbD 1 else if k = 1 ∨ k = 2 then b.getLsbD k else false) ∧
      (memCell t.mem r c).mod =
        (if b.getLsbD 1 then (if b.getLsbD 0 then .dark else .light) else .unset) ∧
      (memCell t.mem r c).res = b.getLsbD 2 ∧
      ∀ a, a ≠ 0x8000 + 177 * r + c → readByte t.mem a = readByte s.mem a) ∧
  (∀ (s : State) (r c : Nat), s.Inv → r < 177 → c < 177 →
    readByte s.mem (0x8000 + 177 * r + c) ∈ [0b000#8, 0b010#8, 0b011#8, 0b100#8, 0b110#8, 0b111#8]) ∧
  ∀ (s : State) (k : Nat) (b : Byte) (es : List Event), 31329 ≤ k → k ≤ 32767 →
    (s.events = .host ⟨0x8000 + k, .byte, .write (b.setWidth 32)⟩ :: es →
      step s = .next { s with events := es, resp := some ⟨0, false⟩ }) ∧
    (s.events = .host ⟨0x8000 + k, .byte, .read⟩ :: es →
      ∃ t, step s = .next t ∧ t.resp = some ⟨0, false⟩)

/-- What the registers read as, in every phase: current values, reserved bits and offsets 0, STATUS bit by bit;
and what a register write while IDLE stores: IE, the write-1-to-clear bits, POLY[8:0], MVER[5:0] and the operand
registers, and nothing at a read-only or reserved offset (R21 to R34, R82). That a write answers 0 without an error
is the model's own (notes/assumptions/10.md); CMD is CommandWordAcceptance's and SRST is SoftReset's. -/
def Obligations.RegisterReads : Prop :=
  (∀ (s : State) (off : Nat) (es : List Event), s.events = .host ⟨off, .word, .read⟩ :: es →
    off % 4 = 0 → off < 0x100 →
    ∃ d, step s = .next { s with events := es, resp := some ⟨d, false⟩ } ∧
      (off = 0x000 → d = 0x51524331) ∧
      (off = 0x004 → ∀ k, d.getLsbD k = (decide (k = 0) && s.ie)) ∧
      (off = 0x008 → ∀ k, d.getLsbD k =
        ((decide (k = 0) && decide (s.phase ≠ .idle)) || (decide (k = 1) && s.done) ||
          (decide (k = 2) && s.err) || (decide (k = 3) && decide (s.phase ≠ .init)) ||
          (decide (k = 4) && s.ovr))) ∧
      (off = 0x00C → d = s.cmd) ∧
      (off = 0x010 → d.toNat = s.errcode.toNat) ∧
      (off = 0x014 → d = s.errinfo0) ∧
      (off = 0x018 → d = s.errinfo1) ∧
      (off = 0x01C → d.toNat = s.poly.toNat) ∧
      (off = 0x020 → d.toNat = s.field.polyActive.toNat) ∧
      (off = 0x024 → d.toNat = s.mver.toNat) ∧
      (off = 0x028 → d = s.opa) ∧ (off = 0x02C → d = s.opb) ∧ (off = 0x030 → d = s.opc) ∧
      (∀ k, (h : k < 8) → (off = 0x040 + 4 * k → d = s.res[k]) ∧ (off = 0x060 + 4 * k → d = s.score[k])) ∧
      ((0x034 ≤ off ∧ off < 0x040) ∨ 0x080 ≤ off → d = 0)) ∧
  ∀ (s : State) (off : Nat) (d : Word) (es : List Event), s.phase = .idle → s.events = wr off d :: es →
    off % 4 = 0 → off < 0x100 → off ≠ 0x00C → ¬ (off = 0x004 ∧ d.getLsbD 1 = true) →
    step s = .next { s with
      events := es, resp := some ⟨0, false⟩
      ie := if off = 0x004 then d.getLsbD 0 else s.ie
      done := if off = 0x008 then s.done && !d.getLsbD 1 else s.done
      err := if off = 0x008 then s.err && !d.getLsbD 2 else s.err
      ovr := if off = 0x008 then s.ovr && !d.getLsbD 4 else s.ovr
      poly := if off = 0x01C then d.extractLsb' 0 9 else s.poly
      mver := if off = 0x024 then d.extractLsb' 0 6 else s.mver
      opa := if off = 0x028 then d else s.opa
      opb := if off = 0x02C then d else s.opb
      opc := if off = 0x030 then d else s.opc }

/-- While a command runs, a read of buffer or matrix bytes changes no state of the QRC, and each byte outside
the write set reads as stored (R81, R83). The counter of free bytes is the model's own (notes/assumptions/3.md), and
so is that a command which will raise an error has an empty write set (notes/assumptions/8.md). -/
def Obligations.ReadsBesideTheWriteSet : Prop :=
  ∀ (s : State) (w : Word) (x : Snapshot) (off : Nat) (wd : Width) (es : List Event), s.Inv →
    s.phase = .busy w x → s.events = .host ⟨off, wd, .read⟩ :: es → 0x100 ≤ off →
    off + wd.bytes ≤ 0x10000 → off % wd.bytes = 0 →
    ∃ d k, step s = .next { s with events := es, resp := some ⟨d, false⟩, freeCount := k } ∧
      ∀ j, j < wd.bytes → off + j ∉ s.writeSet → d.extractLsb' (8 * j) 8 = readByte s.mem (off + j)

/-- The write set of a running command covers everything it changes, and is empty where it raises an error
(R83, R352; that a failing command has no write set is notes/assumptions/8.md). -/
def Obligations.WriteSetCoversTheCommand : Prop :=
  ∀ (s t : State) (w : Word) (x : Snapshot) (i : Instr), s.Inv → s.phase = .busy w x → decode w = .ok i →
    exec i s = .next t →
    (∀ a, a ∉ s.writeSet → readByte t.mem a = readByte s.mem a) ∧ (t.err = true → s.writeSet = [])

/-- The write sets of the running commands that complete: the "Writes" of their rules (R83, R161, R163,
R218, R233, R255, R259, R282, R292, R313, R317, R332). That those of PLACE, MASK_APPLY and MASK_SELECT are the cells
written on this snapshot is the model's reading (notes/assumptions/8.md). -/
def Obligations.WriteSetsByCommand : Prop :=
  ∀ (s t : State) (w : Word) (x : Snapshot) (i : Instr) (a : Nat), s.Inv → s.phase = .busy w x →
    decode w = .ok i → exec i s = .next t → t.err = false →
    let v := s.ops.ver.toNat
    let e := s.ops.ecc
    let n := symbolSize s.mver.toNat
    (a ∈ s.writeSet ↔
      match i with
      | .rsGenpoly => inRange genBase (s.ops.t.toNat + 1) a
      | .rsEncode => inRange genBase (s.ops.t.toNat + 1) a ∨ inRange parBase s.ops.t.toNat a
      | .buildData => inRange dataBase (dataCw v e) a
      | .blockAssemble => inRange genBase (eccpb v e + 1) a ∨ inRange eccBase (nb v e * eccpb v e) a ∨
          inRange ilvBase (totalCw v) a
      | .scaffold => inCells (symbolSize v) (fun _ _ => True) a
      | .place => inCells n (fun r c => IsFree (memCell s.mem r c)) a
      | .maskApply => inCells n (fun r c => Inverted s.ops.mask r c (memCell s.mem r c)) a
      | .maskSelect => inCells n (fun r c => (formatBitAt n r c).isSome = true ∨
          Inverted (maskOfBits (t.res[0].extractLsb' 0 3)) r c (memCell s.mem r c)) a
      | .formatStamp => inCells n (fun r c => (formatBitAt n r c).isSome = true) a
      | .versionStamp => inCells n (fun r c => (versionBitAt n r c).isSome = true) a
      | .encode =>
          let ve := t.res[0].toNat
          let ee := eccOfBits (t.res[1].extractLsb' 0 2)
          inRange genBase (eccpb ve ee + 1) a ∨ inRange dataBase (dataCw ve ee) a ∨
            inRange eccBase (nb ve ee * eccpb ve ee) a ∨ inRange ilvBase (totalCw ve) a ∨
            inCells (symbolSize ve) (fun _ _ => True) a
      | _ => False)

/-- A soft reset, in any phase: every register at its reset value, INIT, no completion recorded, every byte
outside the write set of an aborted command unchanged, and then the initialisation of R390 (R393). That a command
which would have raised an error has an empty write set is the model's reading (notes/assumptions/8.md), and that an
aborted matrix cell keeps a legal encoding is too (notes/assumptions/3.md). -/
def Obligations.SoftReset : Prop :=
  ∀ (s : State) (d : Word) (es : List Event), s.Inv → s.events = wr 0x004 d :: es → d.getLsbD 1 = true →
    ∃ t, step s = .next t ∧ t.phase = .init ∧ t.ie = false ∧ t.done = false ∧ t.err = false ∧
      t.ovr = false ∧ t.cmd = 0 ∧ t.errcode = 0 ∧ t.errinfo0 = 0 ∧ t.errinfo1 = 0 ∧ t.poly = 0x11D ∧
      t.field.polyActive = 0x11D ∧ t.mver = 0 ∧ t.opa = 0 ∧ t.opb = 0 ∧ t.opc = 0 ∧
      (∀ k, (h : k < 8) → t.res[k] = 0 ∧ t.score[k] = 0) ∧ t.irq = false ∧ t.events = es ∧
      legalMem t.mem = true ∧ (∀ a, a ∉ s.writeSet → readByte t.mem a = readByte s.mem a) ∧
      ((∀ w x, s.phase ≠ .busy w x) → t.mem = s.mem) ∧
      ∃ u, sequencerStep t = .next u ∧ u.phase = .idle ∧ TablesOf 0x11D u.field ∧ u.mem = t.mem

/-- Power-on reset from any contents: every register at its reset value with STATUS reading 1 and memory holding
the contents, then one sequencer step builds the tables of 0x11D and STATUS reads 8, with no result, error or
completion and `irq` low throughout (R390 to R392). Each byte given for a buffer is there, each byte given for the
matrix as the legal cell it encodes, and every legal memory is what some power-on leaves. The event that carries the
contents is the model's own (notes/assumptions/1.md, notes/assumptions/5.md). -/
def Obligations.PowerOnReset : Prop :=
  ∀ (s : State) (b : List Host.Cell) (es : List Event), s.events = .powerOn b :: es →
    ∃ t u, step s = .next t ∧ sequencerStep t = .next u ∧
      (∀ z ∈ [t, u], z.ie = false ∧ z.done = false ∧ z.err = false ∧ z.ovr = false ∧ z.cmd = 0 ∧
        z.errcode = 0 ∧ z.errinfo0 = 0 ∧ z.errinfo1 = 0 ∧ z.poly = 0x11D ∧ z.field.polyActive = 0x11D ∧
        z.mver = 0 ∧ z.opa = 0 ∧ z.opb = 0 ∧ z.opc = 0 ∧
        (∀ k, (h : k < 8) → z.res[k] = 0 ∧ z.score[k] = 0) ∧ z.irq = false ∧
        z.readReg 0x000 = 0x51524331 ∧ z.readReg 0x004 = 0) ∧
      t.phase = .init ∧ t.readReg 0x008 = 1 ∧ u.phase = .idle ∧ u.readReg 0x008 = 8 ∧
      u.mem = t.mem ∧ TablesOf 0x11D u.field ∧ legalMem t.mem = true ∧
      (legalMem b = true → t.mem = b) ∧
      ∀ a x, inStorage a = true → (a, x) ∈ b → (∀ y, (a, y) ∈ b → y = x) →
        readByte t.mem a = if inMatrix a = true then matrixByte x else x

/-- The invariant holds at reset, from any contents of the buffers and the matrix. -/
def Obligations.ResetMeetsTheInvariant : Prop :=
  State.reset.Inv ∧ ∀ (s : State) (b : List Host.Cell), (s.powerOn b).Inv

/-- Every step keeps the invariant: memory stays canonical and legal, the tables stay those of a primitive
POLY_ACTIVE, a running command's snapshot stays what the registers and buffers hold, ERRCODE stays at most 9,
and ERR is never set without a code. That an aborted matrix cell keeps a legal encoding is the model's reading
(notes/assumptions/3.md). -/
def Obligations.StepKeepsTheInvariant : Prop :=
  ∀ s t : State, s.Inv → step s = .next t → t.Inv

/-- No step is refused, and only a host access that leaves the 64 KiB window stops the machine
(notes/assumptions/9.md). -/
def Obligations.OnlyAnAccessOutsideTheWindowStops : Prop :=
  ∀ s : State, (∃ t, step s = .next t) ∨
    ∃ a es, s.events = .host a :: es ∧ 0x10000 < a.offset + a.width.bytes ∧
      step s = .fault (.outsideWindow a.offset)

/-- Completion is guaranteed: whatever finitely many accesses come first, the sequencer ends IDLE (R401; that
the sequencer moves where the outside does nothing more is notes/assumptions/5.md). -/
def Obligations.EveryCommandCompletes : Prop :=
  ∀ s : State, (∀ a, .host a ∈ s.events → a.offset + a.width.bytes ≤ 0x10000) →
    ∃ k u, Host.Core.run core k s = .next u ∧ u.phase = .idle ∧ u.events = []

/-- The interrupt line: IE and DONE (R360). Every completion, of a command or of an illegal word, raises it where
IE = 1, and no step but a completion sets DONE; writing IE and writing 1 to DONE act on it; accepting a command and any
reset lower it. -/
def Obligations.InterruptLine : Prop :=
  (∀ s : State, s.irq = true ↔ s.ie = true ∧ s.done = true) ∧
  (∀ (s : State) (w : Word) (x : Snapshot), s.phase = .busy w x →
    ∃ t, sequencerStep s = .next t ∧ t.phase = .idle ∧ t.done = true ∧ t.irq = s.ie) ∧
  (∀ (s t : State) (i : Instr), exec i s = .next t → t.irq = s.ie) ∧
  (∀ s t : State, step s = .next t → s.done = false → t.done = true →
    (∃ w x, s.phase = .busy w x) ∧ t.phase = .idle) ∧
  (∀ (s : State) (d : Word) (es : List Event), s.events = wr 0x004 d :: es →
    ∃ t, step s = .next t ∧ t.irq = (d.getLsbD 0 && !d.getLsbD 1 && s.done)) ∧
  (∀ (s : State) (d : Word) (es : List Event), s.events = wr 0x008 d :: es →
    ∃ t, step s = .next t ∧ t.irq = (s.ie && s.done && !d.getLsbD 1)) ∧
  (∀ (s : State) (d : Word) (es : List Event), s.phase = .idle → s.events = wr 0x00C d :: es →
    ∃ t, step s = .next t ∧ t.irq = false) ∧
  ∀ (s : State) (b : List Host.Cell) (es : List Event), s.events = .powerOn b :: es →
    ∃ t, step s = .next t ∧ t.irq = false

/-- Every command completes precisely: DONE and IDLE, the registers it never writes unchanged; without an
error ERR, ERRCODE and ERRINFO stay 0, and with one every output keeps its value and CMD still holds the word
(R352, R353). -/
def Obligations.CompletionIsPrecise : Prop :=
  ∀ (s : State) (w : Word) (x : Snapshot), s.Inv → s.phase = .busy w x → s.events = [] →
    ∃ t, step s = .next t ∧ HostSideKept s t ∧ t.cmd = w ∧ t.done = true ∧ t.phase = .idle ∧
      ((t.err = false ∧ t.errcode = 0 ∧ t.errinfo0 = 0 ∧ t.errinfo1 = 0) ∨
        (t.err = true ∧ t.errcode ≠ 0 ∧ OutputsKept s t))

/-- A running command raises only the errors, with the field codes, that R355 and R357 list for it. -/
def Obligations.ErrorsByCommand : Prop :=
  ∀ (s t : State) (w : Word) (x : Snapshot) (i : Instr), s.Inv → s.phase = .busy w x → decode w = .ok i →
    exec i s = .next t →
    t.err = false ∨ (t.errcode.toNat, if t.errcode = 3 then t.errinfo1.toNat else 0) ∈ errorsOf i

/-- The four bus writes of a canonical command line, then the sequencer's step, run that command on the
operands assembled from the line (R110, R350). The list of events is the model's own (notes/assumptions/5.md), and so
is that a write answers 0 without an error (notes/assumptions/10.md). -/
def Obligations.CanonicalLineRunsItsCommand : Prop :=
  ∀ (s : State) (c : Command), s.phase = .idle →
    Host.Core.run core 5 ({ s with events := busWrites c ++ [.sequencer] } : State) =
      exec c.instr (({ s with events := [], resp := some ⟨0, false⟩ } : State).loaded c)

/-- Only GF_INIT writes POLY_ACTIVE and the tables, only SCAFFOLD and ENCODE MVER, only MASK_SELECT and ENCODE
the SCORE registers; each buffer is written by the commands R35 lists, IN_BUF by none; and no command writes
CTRL, OVR, CMD, POLY or an operand register (R29 to R35). -/
def Obligations.OnlyTheNamedCommandsWrite : Prop :=
  ∀ (s t : State) (i : Instr), s.Ready → exec i s = .next t →
    HostSideKept s t ∧ (i ≠ .gfInit → t.field = s.field) ∧
    (i ∉ [Instr.scaffold, .encode] → t.mver = s.mver) ∧
    (i ∉ [Instr.maskSelect, .encode] → t.score = s.score) ∧
    ∀ a, readByte t.mem a ≠ readByte s.mem a → mayWrite i a

/-- No command but SCAFFOLD, and ENCODE which scaffolds, clears a reservation; placement writes only UNSET
unreserved cells; and masking changes no reserved cell (R42). -/
def Obligations.ReservedCellsAreKept : Prop :=
  ∀ (s t : State) (i : Instr) (r c : Nat), s.Ready → exec i s = .next t → r < 177 → c < 177 →
    (i ∉ [Instr.scaffold, .encode] → (memCell s.mem r c).res = true → (memCell t.mem r c).res = true) ∧
    (i = .place → memCell t.mem r c ≠ memCell s.mem r c → IsFree (memCell s.mem r c)) ∧
    (i = .maskApply → (memCell s.mem r c).res = true → memCell t.mem r c = memCell s.mem r c) ∧
    (i = .maskSelect → (memCell s.mem r c).res = true →
      (formatBitAt (symbolSize s.mver.toNat) r c).isSome = false → memCell t.mem r c = memCell s.mem r c)

/-! ### Field arithmetic -/

/-- GF_INIT: for a POLY of degree 8 with generator `x` of order 255, its tables and POLY_ACTIVE, and RES0 = 1;
for every other POLY, E_POLY and nothing else (R130). -/
def Obligations.GfInitBuildsTheTables : Prop :=
  ∀ s : State, s.Ready →
    (IsPrimitive s.poly → ∃ t, exec .gfInit s = .next t ∧ Completed s t ∧ ResHolds s t [1] ∧
      TablesOf s.poly t.field ∧ t.score = s.score ∧ t.mver = s.mver ∧ t.mem = s.mem) ∧
    (¬ IsPrimitive s.poly → Raises .gfInit s 8 (s.poly.setWidth 32) 0)

/-- GF_ADD and GF_SUB: RES0 is `a xor b`, and nothing else changes (R132, R133). -/
def Obligations.GfAddSubIsXor : Prop :=
  decode 0x10 = .ok .gfAdd ∧ decode 0x11 = .ok .gfSub ∧ ∀ s : State, s.Ready →
    let sum := s.opa.extractLsb' 0 8 ^^^ s.opb.extractLsb' 0 8
    (∃ t, exec .gfAdd s = .next t ∧ OnlyRes s t [sum.setWidth 32]) ∧
    ∃ t, exec .gfSub s = .next t ∧ OnlyRes s t [sum.setWidth 32]

/-- GF_MUL: RES0 is the carry-less product reduced modulo POLY_ACTIVE (R134, R141). -/
def Obligations.GfMulIsThePolynomialProduct : Prop :=
  ∀ s : State, s.Ready → ∃ t, exec .gfMul s = .next t ∧
    OnlyRes s t [(polyProduct s.field.polyActive s.ops.a8 s.ops.b8).setWidth 32]

/-- GF_DIV and GF_INV: E_DIV_ZERO with the dividend, 1 for GF_INV, where the divisor is zero; else RES0 is the
one byte whose product with the divisor is the dividend (R135, R136). -/
def Obligations.GfDivInvIsTheQuotient : Prop :=
  ∀ s : State, s.Ready →
    (s.ops.b8 = 0 → Raises .gfDiv s 4 (s.ops.a8.setWidth 32) 0) ∧
    (s.ops.b8 ≠ 0 → ∃ t q, exec .gfDiv s = .next t ∧ OnlyRes s t [Byte.toWord q] ∧
      ∀ y : Byte, polyProduct s.field.polyActive y s.ops.b8 = s.ops.a8 ↔ y = q) ∧
    (s.ops.a8 = 0 → Raises .gfInv s 4 1 0) ∧
    (s.ops.a8 ≠ 0 → ∃ t q, exec .gfInv s = .next t ∧ OnlyRes s t [Byte.toWord q] ∧
      ∀ y : Byte, polyProduct s.field.polyActive y s.ops.a8 = 1 ↔ y = q)

/-- GF_POW: RES0 is the e-fold product of `a` for every 16-bit exponent, 1 for e = 0 (R137, R140). -/
def Obligations.GfPowIsTheRepeatedProduct : Prop :=
  ∀ s : State, s.Ready → ∃ t, exec .gfPow s = .next t ∧
    OnlyRes s t [(polyPower s.field.polyActive s.ops.a8 s.ops.e16.toNat).setWidth 32]

/-- GF_EXP: RES0 is `x^i` in the field, for every 16-bit index (R138). -/
def Obligations.GfExpIsThePowerOfX : Prop :=
  ∀ s : State, s.Ready → ∃ t, exec .gfExp s = .next t ∧
    OnlyRes s t [(polyPower s.field.polyActive 2 s.ops.i16.toNat).setWidth 32]

/-- GF_LOG: E_LOG_ZERO for zero; else RES0 is the exponent below 255 that gives `a` (R139, R140). -/
def Obligations.GfLogIsTheExponent : Prop :=
  ∀ s : State, s.Ready →
    (s.ops.a8 = 0 → Raises .gfLog s 5 0 0) ∧
    (s.ops.a8 ≠ 0 → ∃ t k, exec .gfLog s = .next t ∧ OnlyRes s t [natWord k] ∧ k < 255 ∧
      polyPower s.field.polyActive 2 k = s.ops.a8)

/-- The field laws of R140, over the tables of any primitive POLY_ACTIVE. -/
def Obligations.FieldLaws : Prop :=
  ∀ f : GfField, GoodField f → ∀ a b c : Byte, ∀ m n : Nat,
    gfmul f (gfmul f a b) c = gfmul f a (gfmul f b c) ∧ gfmul f a b = gfmul f b a ∧
    gfmul f a (gfadd b c) = gfadd (gfmul f a b) (gfmul f a c) ∧
    gfadd (gfadd a b) c = gfadd a (gfadd b c) ∧ gfadd a b = gfadd b a ∧ gfadd a a = 0 ∧
    gfadd a 0 = a ∧ gfmul f 1 a = a ∧ gfmul f 0 a = 0 ∧
    (a ≠ 0 → gfmul f a (gfdiv f 1 a) = 1 ∧ gfexp f (f.logAt a) = a) ∧
    f.logAt (gfexp f n) = n % 255 ∧
    gfpow f a (m + n) = gfmul f (gfpow f a m) (gfpow f a n)

/-! ### Reed-Solomon -/

/-- RS_GENPOLY: GEN_BUF[0..t] is the monic product of `(x − α^i)`, RES0 = t + 1, and nothing else changes
(R160, R161, R164). -/
def Obligations.RsGenpolyWritesTheGenerator : Prop :=
  ∀ s : State, s.Ready →
    let t := s.ops.t.toNat
    ∃ z, exec .rsGenpoly s = .next z ∧ OnlyResMem s z [natWord (t + 1)] (inRange genBase (t + 1)) ∧
      IsGenerator s.field t (bytesOf z.mem genBase (t + 1))

/-- RS_ENCODE: E_RANGE 6 where the slice leaves DATA_BUF; else PAR_BUF[0..t−1] makes the slice a codeword with
the roots `α^0 … α^(t−1)`, GEN_BUF holds the generator, RES0 = t, and nothing else changes (R162 to R164). -/
def Obligations.RsEncodeMakesACodeword : Prop :=
  ∀ s : State, s.Ready →
    let src := s.ops.src.toNat
    let n := s.ops.rlen.toNat
    let t := s.ops.t.toNat
    (4096 < src + n → Raises .rsEncode s 3 (natWord (src + n)) 6) ∧
    (src + n ≤ 4096 → ∃ z, exec .rsEncode s = .next z ∧
      OnlyResMem s z [natWord t] (fun a => inRange genBase (t + 1) a ∨ inRange parBase t a) ∧
      IsGenerator s.field t (bytesOf z.mem genBase (t + 1)) ∧
      IsParity s.field t (bytesOf s.mem (dataBase + src) n) (bytesOf z.mem parBase t))

/-! ### Capacity -/

/-- CAP_QUERY: E_RANGE 1 outside 1 to 40, else the eight result words of R185. -/
def Obligations.CapQueryReadsTheRom : Prop :=
  decode 0x30 = .ok .capQuery ∧ ∀ s : State, s.Ready →
    let v := s.ops.ver.toNat
    let e := s.ops.ecc
    let a := fun k => (align v).getD k 0
    (v < 1 ∨ 40 < v → Raises .capQuery s 3 (natWord v) 1) ∧
    (1 ≤ v → v ≤ 40 → ∃ t, exec .capQuery s = .next t ∧ OnlyRes s t
      [natWord (17 + 4 * v), natWord (totalCw v), natWord (totalCw v - eccpb v e * nb v e),
        natWord (eccpb v e), natWord (nb v e),
        natWord ((align v).length + 256 * cci .byte v + 65536 * cci .alnum v),
        natWord (a 0 + 256 * a 1 + 65536 * a 2 + 16777216 * a 3),
        natWord (a 4 + 256 * a 5 + 65536 * a 6)])

/-- FIT_CHECK: E_RANGE 1, then E_MODE for no concrete mode; else whether the payload fits, the bits it needs,
the bits there are, and whether the count is too large (R186, R187). -/
def Obligations.FitCheckReportsTheFit : Prop :=
  decode 0x31 = .ok .fitCheck ∧ ∀ s : State, s.Ready →
    let v := s.ops.ver.toNat
    let e := s.ops.ecc
    let n := s.ops.len.toNat
    (v < 1 ∨ 40 < v → Raises .fitCheck s 3 (natWord v) 1) ∧
    (1 ≤ v → v ≤ 40 → concreteMode s.ops.mode = none →
      Raises .fitCheck s 2 (natWord (0xFFFF + 65536 * modeCode s.ops.mode)) 0) ∧
    (1 ≤ v → v ≤ 40 → ∀ m, s.ops.mode = fieldOf m → ∃ t b k, exec .fitCheck s = .next t ∧
      OnlyRes s t [b, natWord (4 + cci m v + payload m n), natWord (8 * dataCw v e), k] ∧
      (Fits m n v e → b = 1) ∧ (¬ Fits m n v e → b = 0) ∧
      (2 ^ cci m v - 1 < n → k = 1) ∧ (n ≤ 2 ^ cci m v - 1 → k = 0))

/-- SELECT_VERSION: the range errors 2, 3 and 4 in that order, then E_MODE; then the smallest version in the
bounds, and for it the first level, that fits, or E_CAPACITY where none does (R188, R189). -/
def Obligations.SelectVersionTakesTheFirstFit : Prop :=
  decode 0x32 = .ok .selectVersion ∧ ∀ s : State, s.Ready →
    let n := s.ops.len.toNat
    let minv := s.ops.minv.toNat
    let maxv := s.ops.maxv.toNat
    let lo := lowBound minv
    let hi := highBound maxv
    (40 < minv → Raises .selectVersion s 3 (natWord minv) 2) ∧
    (minv ≤ 40 → 40 < maxv → Raises .selectVersion s 3 (natWord maxv) 3) ∧
    (minv ≤ 40 → maxv ≤ 40 → hi < lo → Raises .selectVersion s 3 (natWord (lo + 256 * hi)) 4) ∧
    (minv ≤ 40 → maxv ≤ 40 → lo ≤ hi → concreteMode s.ops.mode = none →
      Raises .selectVersion s 2 (natWord (0xFFFF + 65536 * modeCode s.ops.mode)) 0) ∧
    (minv ≤ 40 → maxv ≤ 40 → lo ≤ hi → ∀ m, s.ops.mode = fieldOf m →
      (∀ v e, FirstFit m n lo hi s.ops.eccOpt v e →
        ∃ t, exec .selectVersion s = .next t ∧ OnlyRes s t [natWord v, natWord (eccOrdinal e)]) ∧
      ((∀ v e, lo ≤ v → v ≤ hi → MayTry s.ops.eccOpt e → ¬ Fits m n v e) →
        Raises .selectVersion s 1 (natWord (n + 65536 * modeNumber m))
          (natWord (lo + 256 * hi + 65536 * eccOptOrdinal s.ops.eccOpt + 262144 * egOf s.ops.eccOpt))))

/-! ### Data encoder and blocks -/

/-- MODE_DETECT: E_RANGE 5 above 8192; else RES0 is 2 exactly where every input byte is alphanumeric, and RES1
is the index of the first that is not, or the length (R210, R211, R213). -/
def Obligations.ModeDetectFindsTheFirstBadByte : Prop :=
  decode 0x38 = .ok .modeDetect ∧ ∀ s : State, s.Ready →
    let n := s.ops.len.toNat
    (8192 < n → Raises .modeDetect s 3 (natWord n) 5) ∧
    (n ≤ 8192 → ∃ t b k, exec .modeDetect s = .next t ∧ OnlyRes s t [b, natWord k] ∧
      (AllAlnum s.inputBytes → b = 2 ∧ k = n) ∧
      (¬ AllAlnum s.inputBytes → b = 1 ∧ FirstBad s.inputBytes k))

/-- BUILD_DATA, where its checks pass: DATA_BUF[0..DATA_CW−1] is the padded bitstream of the input, bit by bit,
RES0 to RES4 are as R218 says, and nothing else changes (R215 to R218). -/
def Obligations.BuildDataWritesTheBitstream : Prop :=
  ∀ (s : State) (m : Mode), s.Ready →
    let v := s.ops.ver.toNat
    let e := s.ops.ecc
    let n := s.ops.len.toNat
    1 ≤ v → v ≤ 40 → n ≤ 8192 → ResolvesTo s.ops.mode s.inputBytes m → Fits m n v e →
    ∃ t, exec .buildData s = .next t ∧
      OnlyResMem s t [natWord (dataCw v e), natWord (modeNumber m), natWord (req m n v),
        natWord (dataCw v e - usedCw m n v e), natWord (min 4 (capBits v e - req m n v))]
        (inRange dataBase (dataCw v e)) ∧
      IsDataSequence m s.inputBytes v e (bytesOf t.mem dataBase (dataCw v e))

/-- BUILD_DATA, where a check fails: version, length, mode, capacity, in this order (R212, R218, R357). -/
def Obligations.BuildDataErrors : Prop :=
  ∀ s : State, s.Ready →
    let v := s.ops.ver.toNat
    let e := s.ops.ecc
    let n := s.ops.len.toNat
    (v < 1 ∨ 40 < v → Raises .buildData s 3 (natWord v) 1) ∧
    (1 ≤ v → v ≤ 40 → 8192 < n → Raises .buildData s 3 (natWord n) 5) ∧
    (1 ≤ v → v ≤ 40 → n ≤ 8192 →
      (s.ops.mode = .unsupported → Raises .buildData s 2 0x3FFFF 0) ∧
      (∀ k, s.ops.mode = .alnum → FirstBad s.inputBytes k →
        Raises .buildData s 2 (natWord (k + 0x20000)) 0) ∧
      ∀ m, ResolvesTo s.ops.mode s.inputBytes m → ¬ Fits m n v e →
        Raises .buildData s 1 (natWord (n + 65536 * modeNumber m))
          (natWord (v + 256 * v + 65536 * eccOrdinal e + 262144)))

/-- BLOCK_ASSEMBLE: E_RANGE 1 outside 1 to 40; else every block's parity makes it a codeword, the data region
of ILV_BUF is the blocks read column by column and its parity region their transpose, GEN_BUF holds the
generator, and nothing else changes; E_CONSISTENCY never arises (R230 to R234, R358). -/
def Obligations.BlockAssembleInterleavesCodewords : Prop :=
  ∀ s : State, s.Ready →
    let v := s.ops.ver.toNat
    let e := s.ops.ecc
    let t := eccpb v e
    let blocks := nb v e
    let short := totalCw v / blocks - t
    let nshort := blocks - totalCw v % blocks
    let dlen := fun b => if b < nshort then short else short + 1
    let off := fun b => ((List.range b).map dlen).sum
    (v < 1 ∨ 40 < v → Raises .blockAssemble s 3 (natWord v) 1) ∧
    (1 ≤ v → v ≤ 40 → ∃ z, exec .blockAssemble s = .next z ∧
      OnlyResMem s z [natWord (totalCw v), natWord blocks, natWord nshort, natWord short, natWord t]
        (fun a => inRange genBase (t + 1) a ∨ inRange eccBase (blocks * t) a ∨
          inRange ilvBase (totalCw v) a) ∧
      IsGenerator s.field t (bytesOf z.mem genBase (t + 1)) ∧
      off blocks = dataCw v e ∧
      ∀ b, b < blocks →
        IsParity s.field t (bytesOf s.mem (dataBase + off b) (dlen b))
          (bytesOf z.mem (eccBase + b * t) t) ∧
        (∀ i, i < dlen b →
          readByte z.mem (ilvBase + (if i < short then i * blocks + b else i * blocks + (b - nshort))) =
            readByte s.mem (dataBase + off b + i)) ∧
        ∀ i, i < t → readByte z.mem (ilvBase + dataCw v e + i * blocks + b) =
          readByte z.mem (eccBase + b * t + i))

/-! ### Matrix -/

/-- SCAFFOLD: E_RANGE 1 outside 1 to 40; else every cell of `[0, n)²` is its pattern's, MVER = v, RES0 = n and
RES1 the number of unreserved cells, and nothing else changes (R251 to R255). -/
def Obligations.ScaffoldWritesEveryPattern : Prop :=
  ∀ s : State, s.Ready →
    let v := s.ops.ver.toNat
    let n := 17 + 4 * v
    (v < 1 ∨ 40 < v → Raises .scaffold s 3 (natWord v) 1) ∧
    (1 ≤ v → v ≤ 40 → ∃ t, exec .scaffold s = .next t ∧ Completed s t ∧ t.mver = s.ops.ver ∧
      t.score = s.score ∧ t.field = s.field ∧
      ResHolds s t [natWord n, natWord (cellCount n fun r c => !(scaffoldSpec v r c).res)] ∧
      (∀ r c, r < n → c < n → memCell t.mem r c = scaffoldSpec v r c) ∧
      ∀ a, ¬ inSquare n a → readByte t.mem a = readByte s.mem a)

/-- The scaffold laws: an unreserved cell is UNSET, the reserved cells that are UNSET are the format cells and,
for v ≥ 7, the version cells, and the unreserved cells hold the codewords with 0, 3, 4 or 7 cells to spare
(R256). -/
def Obligations.ScaffoldLaws : Prop :=
  ∀ v, 1 ≤ v → v ≤ 40 →
    let n := 17 + 4 * v
    (∀ r c, r < n → c < n →
      ((scaffoldSpec v r c).res = false → (scaffoldSpec v r c).mod = .unset) ∧
      ((scaffoldSpec v r c).res = true → ((scaffoldSpec v r c).mod = .unset ↔
        (formatBitAt n r c).isSome = true ∨ 7 ≤ v ∧ (versionBitAt n r c).isSome = true))) ∧
    ∃ k ∈ [0, 3, 4, 7], cellCount n (fun r c => !(scaffoldSpec v r c).res) = 8 * totalCw v + k

/-- PLACE: E_RANGE 7 for a bad MVER; else the free cells take the bits of ILV_BUF in visit order, then LIGHT,
RES0 counts the bits and RES1 the rest, no other cell changes, and no free cell is left outside column 6, which
the order of R257 never visits (R257 to R260; notes/assumptions/13.md). -/
def Obligations.PlaceFillsTheFreeCells : Prop :=
  ∀ s : State, s.Ready →
    let v := s.mver.toNat
    let n := 17 + 4 * v
    let cells := freeVisits s.mem n
    let total := 8 * totalCw v
    (v < 1 ∨ 40 < v → Raises .place s 3 (natWord v) 7) ∧
    (1 ≤ v → v ≤ 40 → ∃ t, exec .place s = .next t ∧
      OnlyResMem s t [natWord (min total cells.length), natWord (cells.length - total)]
        (fun a => ∃ q ∈ cells, a = cellOffset q.1 q.2) ∧
      (∀ i q, cells[i]? = some q → memCell t.mem q.1 q.2 =
        ⟨moduleOf (decide (i < total) && streamBit (bytesOf s.mem ilvBase (totalCw v)) i), false⟩) ∧
      ∀ r c, r < n → c < n → c ≠ 6 → ¬ IsFree (memCell t.mem r c))

/-- MASK_APPLY: E_RANGE 7 for a bad MVER; else exactly the unreserved set cells where the predicate holds are
inverted, RES0 is their number, and nothing else changes (R280 to R282). -/
def Obligations.MaskApplyInvertsTheMaskedCells : Prop :=
  decode 0x60 = .ok .maskApply ∧ ∀ s : State, s.Ready →
    let v := s.mver.toNat
    let n := 17 + 4 * v
    let k := s.ops.mask
    (v < 1 ∨ 40 < v → Raises .maskApply s 3 (natWord v) 7) ∧
    (1 ≤ v → v ≤ 40 → ∃ t, exec .maskApply s = .next t ∧
      OnlyResMem s t [natWord (cellCount n fun r c =>
          !(memCell s.mem r c).res && (memCell s.mem r c).mod != .unset && pred k r c)]
        (inCells n fun r c => Inverted k r c (memCell s.mem r c)) ∧
      ∀ r c, r < n → c < n → memCell t.mem r c = maskedCell k r c (memCell s.mem r c))

/-- Masking twice with one mask restores the matrix buffer (R283): MASK_APPLY issued twice from IDLE, and its meaning
applied twice to any ready state, where the second application is outside BUSY (notes/assumptions/11.md). -/
def Obligations.MaskTwiceRestores : Prop :=
  (∀ (s : State) (k : MaskId), s.Inv → s.phase = .idle →
    ((s.run (.maskApply k)).run (.maskApply k)).mem = s.mem) ∧
  ∀ s t u : State, s.Ready → exec .maskApply s = .next t → exec .maskApply t = .next u → u.mem = s.mem

/-- PENALTY: E_RANGE 7 for a bad MVER, then E_UNSET at the first UNSET cell in row-major order; else RES0 to
RES5 are the penalty, its four parts and the number of DARK cells, and nothing else changes (R284 to R289). -/
def Obligations.PenaltyScoresTheGrid : Prop :=
  decode 0x61 = .ok .penalty ∧ ∀ s : State, s.Ready →
    let v := s.mver.toNat
    let n := 17 + 4 * v
    let dark := fun r c => (memCell s.mem r c).val
    (v < 1 ∨ 40 < v → Raises .penalty s 3 (natWord v) 7) ∧
    (1 ≤ v → v ≤ 40 →
      (∀ r c, FirstCell n (fun r c => (memCell s.mem r c).mod = .unset) r c →
        Raises .penalty s 9 (natWord (r + 256 * c)) 0) ∧
      ((∀ r c, r < n → c < n → (memCell s.mem r c).mod ≠ .unset) → ∃ t, exec .penalty s = .next t ∧
        OnlyRes s t [natWord (specPenalty n dark), natWord (specN1 n dark), natWord (specN2 n dark),
          natWord (specN3 n dark), natWord (specN4 n dark), natWord (specDark n dark)]))

/-- MASK_SELECT: E_RANGE 7, then E_UNSET at the first UNSET cell that is no format cell; else every candidate is
scored with its format information, the lowest id of least score is applied and stamped, SCORE, RES0, RES1 and
RES2 hold the scores, the winner, its score and its format word, and nothing else changes (R290 to R292). -/
def Obligations.MaskSelectTakesTheLowestScore : Prop :=
  decode 0x62 = .ok .maskSelect ∧ ∀ s : State, s.Ready →
    let v := s.mver.toNat
    let n := 17 + 4 * v
    let e := s.ops.ecc
    let score := fun k => specPenalty n fun r c => (candidateCell s.mem n e k r c).val
    (v < 1 ∨ 40 < v → Raises .maskSelect s 3 (natWord v) 7) ∧
    (1 ≤ v → v ≤ 40 →
      (∀ r c, FirstCell n (fun r c => (memCell s.mem r c).mod = .unset ∧ formatBitAt n r c = none) r c →
        Raises .maskSelect s 9 (natWord (r + 256 * c)) 0) ∧
      ((∀ r c, r < n → c < n → formatBitAt n r c = none → (memCell s.mem r c).mod ≠ .unset) →
        ∃ t best, exec .maskSelect s = .next t ∧ IsBest score best ∧ Completed s t ∧
          ResHolds s t [natWord best.val, natWord (score best), natWord (formatWord e best)] ∧
          (∀ k : MaskId, t.score[k.val] = natWord (score k)) ∧
          t.mver = s.mver ∧ t.field = s.field ∧
          (∀ r c, r < n → c < n → memCell t.mem r c = candidateCell s.mem n e best r c) ∧
          ∀ a, ¬ inCells n (fun r c => (formatBitAt n r c).isSome = true ∨
              Inverted best r c (memCell s.mem r c)) a →
            readByte t.mem a = readByte s.mem a))

/-! ### Metadata -/

/-- FORMAT_ENCODE: RES0 is the 15-bit word that, XORed with 0x5412, is a multiple of the generator 0x537 with
the indicator (L 01, M 00, Q 11, H 10) and the mask id on top, and nothing else changes (R310, R311, R320). -/
def Obligations.FormatEncodeIsTheBchWord : Prop :=
  ∀ s : State, s.Ready → ∃ t w q, exec .formatEncode s = .next t ∧ OnlyRes s t [natWord w] ∧
    w < 2 ^ 15 ∧ q < 2 ^ 5 ∧ w ^^^ 0x5412 = clmul 0x537 q ∧
    (w ^^^ 0x5412) / 2 ^ 10 =
      8 * (match s.ops.ecc with | .L => 1 | .M => 0 | .Q => 3 | .H => 2) + s.ops.mask.val

/-- FORMAT_STAMP: E_RANGE 7 for a bad MVER; else the 30 format cells hold the word and are reserved, RES0 is the
word, and nothing else changes (R312, R313). -/
def Obligations.FormatStampWritesTheFormatCells : Prop :=
  decode 0x71 = .ok .formatStamp ∧ ∀ s : State, s.Ready →
    let v := s.mver.toNat
    let n := 17 + 4 * v
    (v < 1 ∨ 40 < v → Raises .formatStamp s 3 (natWord v) 7) ∧
    (1 ≤ v → v ≤ 40 → ∃ t, exec .formatStamp s = .next t ∧
      OnlyResMem s t [natWord (formatWord s.ops.ecc s.ops.mask)]
        (inCells n fun r c => (formatBitAt n r c).isSome = true) ∧
      ∀ r c, r < n → c < n →
        memCell t.mem r c = formatStamped n s.ops.ecc s.ops.mask r c (memCell s.mem r c))

/-- VERSION_ENCODE: E_RANGE 1 outside 1 to 40, then 8 below 7; else RES0 is the 18-bit word that is a multiple of
the generator 0x1F25 with the version on top, and nothing else changes (R314, R315, R320). -/
def Obligations.VersionEncodeIsTheBchWord : Prop :=
  ∀ s : State, s.Ready →
    let v := s.ops.ver.toNat
    (v < 1 ∨ 40 < v → Raises .versionEncode s 3 (natWord v) 1) ∧
    (1 ≤ v → v < 7 → Raises .versionEncode s 3 (natWord v) 8) ∧
    (7 ≤ v → v ≤ 40 → ∃ t w q, exec .versionEncode s = .next t ∧ OnlyRes s t [natWord w] ∧
      q < 2 ^ 6 ∧ w = clmul 0x1F25 q ∧ w / 2 ^ 12 = v)

/-- VERSION_STAMP: E_RANGE 7 for a bad MVER, then 8 below 7; else the 36 version cells hold the word and are
reserved, RES0 is the word, and nothing else changes (R316, R317). -/
def Obligations.VersionStampWritesTheVersionCells : Prop :=
  decode 0x73 = .ok .versionStamp ∧ ∀ s : State, s.Ready →
    let v := s.mver.toNat
    let n := 17 + 4 * v
    (v < 1 ∨ 40 < v → Raises .versionStamp s 3 (natWord v) 7) ∧
    (1 ≤ v → v < 7 → Raises .versionStamp s 3 (natWord v) 8) ∧
    (7 ≤ v → v ≤ 40 → ∃ t, exec .versionStamp s = .next t ∧
      OnlyResMem s t [natWord (versionWord v)] (inCells n fun r c => (versionBitAt n r c).isSome = true) ∧
      ∀ r c, r < n → c < n → memCell t.mem r c = versionStamped n v r c (memCell s.mem r c))

/-! ### Pipeline -/

/-- NOP: nothing is written but STATUS at completion; the word 0 is NOP, and a word with opcode 0 and any bit of
[31:8] set raises E_ILLEGAL (R330). -/
def Obligations.NopWritesOnlyStatus : Prop :=
  decode 0 = .ok .nop ∧
  (∀ s : State, s.Ready → ∃ t, exec .nop s = .next t ∧ OnlyRes s t []) ∧
  ∀ (s : State) (w : Word) (x : Snapshot), s.phase = .busy w x → s.events = [] →
    w.extractLsb' 0 8 = 0 → w ≠ 0 → ∃ t, step s = .next t ∧ RaisedError s t 7 w 0

/-- ENCODE, where a check fails: the version, bound and length ranges, mode, capacity, in this order (R331, R332,
R356, R357). -/
def Obligations.EncodeErrors : Prop :=
  ∀ s : State, s.Ready →
    let ver := s.ops.ver.toNat
    let minv := s.ops.minv.toNat
    let maxv := s.ops.maxv.toNat
    let lo := lowBound minv
    let hi := highBound maxv
    let n := s.ops.len.toNat
    (40 < ver → Raises .encode s 3 (natWord ver) 1) ∧
    (ver ≤ 40 → 40 < minv → Raises .encode s 3 (natWord minv) 2) ∧
    (ver ≤ 40 → minv ≤ 40 → 40 < maxv → Raises .encode s 3 (natWord maxv) 3) ∧
    (ver ≤ 40 → minv ≤ 40 → maxv ≤ 40 → hi < lo → Raises .encode s 3 (natWord (lo + 256 * hi)) 4) ∧
    (ver ≤ 40 → minv ≤ 40 → maxv ≤ 40 → lo ≤ hi → 8192 < n → Raises .encode s 3 (natWord n) 5) ∧
    (EncodeRanges s → s.ops.mode = .unsupported → Raises .encode s 2 0x3FFFF 0) ∧
    (EncodeRanges s → ∀ k, s.ops.mode = .alnum → FirstBad s.inputBytes k →
      Raises .encode s 2 (natWord (k + 0x20000)) 0) ∧
    (EncodeRanges s → ∀ m, ResolvesTo s.ops.mode s.inputBytes m →
      (ver ≠ 0 → ¬ Fits m n ver (s.ops.eccOpt.getD .L) →
        Raises .encode s 1 (natWord (n + 65536 * modeNumber m))
          (natWord (ver + 256 * ver + 65536 * eccOptOrdinal s.ops.eccOpt +
            262144 * egOf s.ops.eccOpt))) ∧
      (ver = 0 → (∀ v e, lo ≤ v → v ≤ hi → MayTry s.ops.eccOpt e → ¬ Fits m n v e) →
        Raises .encode s 1 (natWord (n + 65536 * modeNumber m))
          (natWord (lo + 256 * hi + 65536 * eccOptOrdinal s.ops.eccOpt +
            262144 * egOf s.ops.eccOpt))))

/-- ENCODE, where its checks pass, completes: its results, MVER and SCORE, every cell of the symbol set, and
nothing changed but the buffers and cells R332 names (R332, R333, R335). SCOREk is the penalty of candidate `k`: the
final symbol with the chosen mask taken off again, mask `k` applied and its format information stamped (R290, R291). -/
def Obligations.EncodeCompletesTheGrid : Prop :=
  ∀ (s : State) (m : Mode) (v : Nat) (e : Ecc), s.Ready → EncodeChoice s m v e →
    let n := 17 + 4 * v
    ∃ t best, exec .encode s = .next t ∧ Completed s t ∧
      let score : MaskId → Nat := fun k => specPenalty n fun r c =>
        (formatStamped n e k r c (maskedCell k r c (maskedCell best r c (memCell t.mem r c)))).val
      t.mver.toNat = v ∧ t.field = s.field ∧ IsBest score best ∧
      ResHolds s t [natWord v, natWord (eccOrdinal e), natWord (modeNumber m), natWord best.val,
        natWord (formatWord e best), natWord (score best), natWord (dataCw v e), natWord (totalCw v)] ∧
      (∀ k : MaskId, t.score[k.val] = natWord (score k)) ∧
      IsDataSequence m s.inputBytes v e (bytesOf t.mem dataBase (dataCw v e)) ∧
      (∀ r c, r < n → c < n → (memCell t.mem r c).mod ≠ .unset) ∧
      score best = specPenalty n (fun r c => (memCell t.mem r c).val) ∧
      ∀ a, ¬ (inRange genBase (eccpb v e + 1) a ∨ inRange dataBase (dataCw v e) a ∨
          inRange eccBase (nb v e * eccpb v e) a ∨ inRange ilvBase (totalCw v) a ∨ inSquare n a) →
        readByte t.mem a = readByte s.mem a

/-- ENCODE is the component commands run in pipeline order at the mode, version and level it chose: BUILD_DATA,
BLOCK_ASSEMBLE, SCAFFOLD, PLACE, VERSION_STAMP for v ≥ 7, MASK_SELECT leave the same buffers, matrix, MVER, SCORE,
mask, format word and score (R332, R334). -/
def Obligations.EncodeEqualsTheComponents : Prop :=
  ∀ (s : State) (m : Mode) (v : Nat) (e : Ecc), s.Ready → EncodeChoice s m v e →
    ∃ t, exec .encode s = .next t ∧
      let u := s.runComponents m s.ops.len.toNat v e
      u.err = false ∧ t.mem = u.mem ∧ t.mver = u.mver ∧ t.score = u.score ∧
      t.res[3] = u.res[0] ∧ t.res[4] = u.res[2] ∧ t.res[5] = u.res[1]

/-- ENCODE depends only on its input bytes, the operand registers and the field in use: two states that agree on
these get the same results, the same symbol and the same bytes of every buffer it writes, or the same error (R59,
R332, R336). -/
def Obligations.EncodeDependsOnItsInputsOnly : Prop :=
  ∀ s s' t t' : State, s.Ready → s'.Ready → s.err = false → s'.err = false → s.ops = s'.ops →
    s.field = s'.field → s.inputBytes = s'.inputBytes →
    exec .encode s = .next t → exec .encode s' = .next t' →
    t.err = t'.err ∧ (t.err = true → t.errcode = t'.errcode ∧ t.errinfo0 = t'.errinfo0 ∧
      t.errinfo1 = t'.errinfo1) ∧
    (t.err = false → t.res = t'.res ∧ t.score = t'.score ∧ t.mver = t'.mver ∧
      let v := t.mver.toNat
      let e := eccOfBits (t.res[1].extractLsb' 0 2)
      ∀ a, inSquare (symbolSize v) a ∨ inRange dataBase (dataCw v e) a ∨ inRange ilvBase (totalCw v) a ∨
          inRange eccBase (nb v e * eccpb v e) a ∨ inRange genBase (eccpb v e + 1) a →
        readByte t.mem a = readByte t'.mem a)
end

