-- ==== Sys2Proof/Laws/Memory.lean ====
section
/-! SUPPORT. The memory laws: a read after a write, the canonical form and that every operation keeps it,
and that equal reads are equal memories. -/

namespace Sys2Proof.Machine

/-! ### The canonical form -/

theorem risingFrom_mono {m : Memory} : ∀ {a b : Nat}, a ≤ b → risingFrom b m = true → risingFrom a m = true := by
  cases m with
  | nil => intros; rfl
  | cons e m =>
    intro a b h
    simp only [risingFrom, Bool.and_eq_true, decide_eq_true_eq]
    exact fun ⟨h1, h2⟩ => ⟨h.trans h1, h2⟩

/-- Below its first listed offset memory lists nothing. -/
theorem readByte_below {m : Memory} {a b : Nat} (h : risingFrom b m = true) (hab : a < b) :
    readByte m a = unlisted := by
  cases m with
  | nil => rfl
  | cons e m =>
    simp only [risingFrom, Bool.and_eq_true, decide_eq_true_eq] at h
    simp only [readByte]
    rw [if_neg (by omega), if_neg (by omega)]

theorem writeByte_rising {m : Memory} {a : Nat} {x : Byte} :
    ∀ {k : Nat}, k ≤ a → risingFrom k m = true → risingFrom k (writeByte m a x) = true := by
  induction m with
  | nil =>
    intro k hk _
    simp only [writeByte]
    split <;> simp [risingFrom, hk]
  | cons e m ih =>
    obtain ⟨b, v⟩ := e
    intro k hk h
    simp only [risingFrom, Bool.and_eq_true, decide_eq_true_eq] at h
    simp only [writeByte]
    split
    · simp only [risingFrom, Bool.and_eq_true, decide_eq_true_eq]
      exact ⟨h.1, ih (by omega) h.2⟩
    · have hb : risingFrom (a + 1) (if b = a then m else (b, v) :: m) = true := by
        split
        · subst_vars; exact h.2
        · simp only [risingFrom, Bool.and_eq_true, decide_eq_true_eq]
          exact ⟨by omega, h.2⟩
      split
      · exact risingFrom_mono (by omega) hb
      · simp only [risingFrom, Bool.and_eq_true, decide_eq_true_eq]
        exact ⟨hk, hb⟩

theorem writeByte_listed {m : Memory} {a : Nat} {x : Byte} (h : m.all (fun e => e.2 != unlisted) = true) :
    (writeByte m a x).all (fun e => e.2 != unlisted) = true := by
  induction m with
  | nil => simp only [writeByte]; split <;> simp_all
  | cons e m ih =>
    obtain ⟨b, v⟩ := e
    simp only [List.all_cons, Bool.and_eq_true] at h
    simp only [writeByte]
    split
    · simp only [List.all_cons, Bool.and_eq_true]; exact ⟨h.1, ih h.2⟩
    · have hr : (if b = a then m else (b, v) :: m).all (fun e => e.2 != unlisted) = true := by
        split
        · exact h.2
        · simp only [List.all_cons, Bool.and_eq_true]; exact h
      split
      · exact hr
      · simp only [List.all_cons, Bool.and_eq_true]; exact ⟨by simp_all, hr⟩

/-- A store keeps the canonical form. -/
theorem writeByte_wf {m : Memory} (h : m.wf = true) (a : Nat) (x : Byte) : (writeByte m a x).wf = true := by
  simp only [Memory.wf, Bool.and_eq_true] at h ⊢
  exact ⟨writeByte_rising (Nat.zero_le a) h.1, writeByte_listed h.2⟩

theorem writeBytes_wf {m : Memory} (h : m.wf = true) (ws : List Host.Cell) : (writeBytes m ws).wf = true := by
  induction ws with
  | nil => exact h
  | cons e ws ih => exact writeByte_wf ih _ _

theorem powerOnMemory_wf (b : List Host.Cell) : (powerOnMemory b).wf = true := writeBytes_wf rfl _

theorem reset_mem_wf : State.reset.mem.wf = true := rfl

/-! ### Reading after writing -/

theorem readByte_writeByte_rising {m : Memory} {a b : Nat} {x : Byte} :
    ∀ {k : Nat}, risingFrom k m = true → readByte (writeByte m a x) b = if b = a then x else readByte m b := by
  induction m with
  | nil =>
    intro k _
    simp only [writeByte]
    split
    · split <;> simp_all [readByte]
    · simp only [readByte]; split_ifs <;> first | rfl | omega
  | cons e m ih =>
    obtain ⟨c, v⟩ := e
    intro k h
    simp only [risingFrom, Bool.and_eq_true, decide_eq_true_eq] at h
    have ih := ih h.2
    simp only [writeByte]
    by_cases hca : c < a
    · simp only [if_pos hca, readByte, ih]
      split_ifs <;> first | rfl | omega
    · simp only [if_neg hca]
      by_cases hb : b ≤ a
      · -- below and at `a`
        by_cases hba : b = a
        · subst hba
          by_cases hx : x = unlisted
          · simp only [if_pos hx, if_pos trivial]
            split
            · rename_i hcb; subst hcb; rw [readByte_below h.2 (by omega), hx]
            · simp only [readByte]; split_ifs; exact hx.symm
          · simp [if_neg hx, readByte]
        · have hlt : b < a := by omega
          rw [if_neg hba]
          have hr : readByte (if c = a then m else (c, v) :: m) b = unlisted := by
            split
            · exact readByte_below h.2 (by omega)
            · simp only [readByte]; split_ifs <;> first | rfl | omega
          have hl : readByte ((c, v) :: m) b = unlisted := by
            simp only [readByte]; split_ifs <;> first | rfl | omega
          split
          · rw [hr, hl]
          · rw [hl]; simp only [readByte]; split_ifs <;> first | rfl | omega
      · have hgt : a < b := by omega
        rw [if_neg (by omega : ¬ b = a)]
        have hr : readByte (if c = a then m else (c, v) :: m) b = readByte ((c, v) :: m) b := by
          split
          · rename_i hc; subst hc; simp [readByte, hgt]
          · rfl
        split
        · exact hr
        · simp only [readByte, if_pos hgt]; exact hr

/-- What a store changes, and that it changes nothing else. -/
theorem readByte_writeByte {m : Memory} (h : m.wf = true) (a b : Nat) (x : Byte) :
    readByte (writeByte m a x) b = if b = a then x else readByte m b := by
  simp only [Memory.wf, Bool.and_eq_true] at h
  exact readByte_writeByte_rising h.1

/-- A read after several stores gives the earliest entry of that offset, and elsewhere what was there. -/
theorem readByte_writeBytes {m : Memory} (h : m.wf = true) (ws : List Host.Cell) (a : Nat) :
    readByte (writeBytes m ws) a = ((ws.find? fun e => e.1 == a).map Prod.snd).getD (readByte m a) := by
  induction ws with
  | nil => rfl
  | cons e ws ih =>
    simp only [writeBytes]
    rw [readByte_writeByte (writeBytes_wf h ws), ih, List.find?_cons]
    by_cases hea : e.1 = a
    · simp [hea]
    · have hb : (e.1 == a) = false := by simpa using hea
      rw [if_neg (fun h => hea h.symm), hb]

/-- A store of several bytes leaves every offset it does not name. -/
theorem readByte_writeBytes_other {m : Memory} (h : m.wf = true) {ws : List Host.Cell} {a : Nat}
    (hn : a ∉ ws.map Prod.fst) : readByte (writeBytes m ws) a = readByte m a := by
  rw [readByte_writeBytes h, List.find?_eq_none.mpr]
  · rfl
  · intro e he hea
    exact hn (List.mem_map.mpr ⟨e, he, by simpa using hea⟩)

/-! ### Reading several bytes -/

/-- What power-on leaves at each offset: the first entry for it as the storage holds it, and nothing at a reserved
offset (R391). -/
theorem readByte_powerOnMemory (b : List Host.Cell) (a : Nat) :
    readByte (powerOnMemory b) a =
      if inStorage a then ((b.find? fun e => e.1 == a).map fun e => storedByte a e.2).getD unlisted else unlisted := by
  rw [powerOnMemory, readByte_writeBytes rfl]
  induction b with
  | nil => simp [readByte]
  | cons e b ih =>
    obtain ⟨c, x⟩ := e
    by_cases h : c = a
    · subst h
      cases hs : inStorage c <;> simp_all
    · have h' : (c == a) = false := by simpa using h
      cases hs : inStorage c <;> simp_all

theorem readByte_dropBelow (m : Memory) {a b : Nat} (h : a ≤ b) : readByte (dropBelow m a) b = readByte m b := by
  induction m with
  | nil => rfl
  | cons e m ih =>
    simp only [dropBelow]
    split
    · rw [ih]; simp only [readByte]; rw [if_pos (by omega)]
    · rfl

/-- One walk over memory reads what separate reads give. -/
theorem readBytes_eq (m : Memory) (a k : Nat) : readBytes m a k = (List.range k).map fun i => readByte m (a + i) := by
  induction k generalizing m a with
  | zero => rfl
  | succ k ih =>
    rw [readBytes, ih, List.range_succ_eq_map, List.map_cons, List.map_map, readByte_dropBelow m (le_refl a)]
    refine congrArg _ (List.map_congr_left fun i _ => ?_)
    rw [readByte_dropBelow m (by omega)]
    simp only [Function.comp, Nat.add_assoc, Nat.succ_eq_add_one, Nat.add_comm 1 i]

@[simp] theorem readBytes_length (m : Memory) (a k : Nat) : (readBytes m a k).length = k := by simp [readBytes_eq]

theorem mem_bytesAt {bs : List Byte} {a : Nat} {e : Host.Cell} (h : e ∈ bytesAt a bs) :
    a ≤ e.1 ∧ e.1 < a + bs.length := by
  induction bs generalizing a with
  | nil => simp [bytesAt] at h
  | cons b bs ih =>
    simp only [bytesAt, List.mem_cons] at h
    rcases h with rfl | h
    · simp
    · have := ih h; simp only [List.length_cons]; omega

/-- What the entries of a run of bytes hold at an offset. -/
theorem find_bytesAt (bs : List Byte) (base a : Nat) :
    ((bytesAt base bs).find? fun e => e.1 == a).map Prod.snd = if base ≤ a then bs[a - base]? else none := by
  induction bs generalizing base with
  | nil => simp [bytesAt]
  | cons b bs ih =>
    simp only [bytesAt, List.find?_cons]
    by_cases h : base = a
    · subst h; simp
    · have hb : (base == a) = false := by simpa using h
      simp only [hb, ih]
      by_cases hle : base ≤ a
      · rw [if_pos hle, if_pos (by omega), show a - base = (a - (base + 1)) + 1 by omega,
          List.getElem?_cons_succ]
      · rw [if_neg hle, if_neg (by omega)]

/-! ### Equality -/

theorem eq_of_readByte_rising : ∀ {m m' : Memory} {k : Nat}, risingFrom k m = true → risingFrom k m' = true →
    m.all (fun e => e.2 != unlisted) = true → m'.all (fun e => e.2 != unlisted) = true →
    (∀ a, readByte m a = readByte m' a) → m = m' := by
  intro m
  induction m with
  | nil =>
    intro m' k _ h' _ l' e
    cases m' with
    | nil => rfl
    | cons c m' =>
      have := e c.1
      simp only [List.all_cons, Bool.and_eq_true] at l'
      simp [readByte] at this
      rw [← this] at l'; simp at l'
  | cons c m ih =>
    intro m' k h h' l l' e
    obtain ⟨b, v⟩ := c
    cases m' with
    | nil =>
      have := e b
      simp only [List.all_cons, Bool.and_eq_true] at l
      simp [readByte] at this
      rw [this] at l; simp at l
    | cons c' m' =>
      obtain ⟨b', v'⟩ := c'
      simp only [risingFrom, Bool.and_eq_true, decide_eq_true_eq] at h h'
      simp only [List.all_cons, Bool.and_eq_true, bne_iff_ne] at l l'
      have hbb : b = b' := by
        rcases Nat.lt_trichotomy b b' with hl | hl | hl
        · have := e b; simp only [readByte, lt_irrefl, if_false, if_true] at this
          rw [if_neg (by omega), if_neg (by omega)] at this
          exact absurd this l.1
        · exact hl
        · have := e b'; simp only [readByte, lt_irrefl, if_false, if_true] at this
          rw [if_neg (by omega), if_neg (by omega)] at this
          exact absurd this.symm l'.1
      subst hbb
      have hv : v = v' := by simpa [readByte] using e b
      subst hv
      refine congrArg _ (ih h.2 h'.2 ?_ ?_ fun a => ?_)
      · simpa using l.2
      · simpa using l'.2
      · by_cases ha : b < a
        · simpa [readByte, ha] using e a
        · rw [readByte_below h.2 (by omega), readByte_below h'.2 (by omega)]

/-- Equal reads are equal memories: the form is canonical. -/
theorem eq_of_readByte {m m' : Memory} (h : m.wf = true) (h' : m'.wf = true)
    (e : ∀ a, readByte m a = readByte m' a) : m = m' := by
  simp only [Memory.wf, Bool.and_eq_true] at h h'
  exact eq_of_readByte_rising h.1 h'.1 h.2 h'.2 e

end Sys2Proof.Machine
end

