-- ==== Sys2Proof/Laws/State.lean ====
section
/-! SUPPORT. One lemma per field of the state per shared update of it, so that no proof unfolds a record
update. -/

namespace Sys2Proof.Machine

/-! ### `State.resetHolding` -/

@[simp] theorem State.resetHolding_ie (m : Memory) : (State.resetHolding m).ie = false := rfl
@[simp] theorem State.resetHolding_done (m : Memory) : (State.resetHolding m).done = false := rfl
@[simp] theorem State.resetHolding_err (m : Memory) : (State.resetHolding m).err = false := rfl
@[simp] theorem State.resetHolding_ovr (m : Memory) : (State.resetHolding m).ovr = false := rfl
@[simp] theorem State.resetHolding_cmd (m : Memory) : (State.resetHolding m).cmd = 0 := rfl
@[simp] theorem State.resetHolding_errcode (m : Memory) : (State.resetHolding m).errcode = 0 := rfl
@[simp] theorem State.resetHolding_errinfo0 (m : Memory) :
    (State.resetHolding m).errinfo0 = 0 := rfl
@[simp] theorem State.resetHolding_errinfo1 (m : Memory) :
    (State.resetHolding m).errinfo1 = 0 := rfl
@[simp] theorem State.resetHolding_poly (m : Memory) :
    (State.resetHolding m).poly = polyReset := rfl
@[simp] theorem State.resetHolding_field (m : Memory) :
    (State.resetHolding m).field = GfField.reset := rfl
@[simp] theorem State.resetHolding_mver (m : Memory) : (State.resetHolding m).mver = 0 := rfl
@[simp] theorem State.resetHolding_opa (m : Memory) : (State.resetHolding m).opa = 0 := rfl
@[simp] theorem State.resetHolding_opb (m : Memory) : (State.resetHolding m).opb = 0 := rfl
@[simp] theorem State.resetHolding_opc (m : Memory) : (State.resetHolding m).opc = 0 := rfl
@[simp] theorem State.resetHolding_res (m : Memory) :
    (State.resetHolding m).res = Vector.replicate 8 0 := rfl
@[simp] theorem State.resetHolding_score (m : Memory) :
    (State.resetHolding m).score = Vector.replicate 8 0 := rfl
@[simp] theorem State.resetHolding_mem (m : Memory) : (State.resetHolding m).mem = m := rfl
@[simp] theorem State.resetHolding_phase (m : Memory) : (State.resetHolding m).phase = .init := rfl
@[simp] theorem State.resetHolding_events (m : Memory) : (State.resetHolding m).events = [] := rfl
@[simp] theorem State.resetHolding_resp (m : Memory) : (State.resetHolding m).resp = none := rfl
@[simp] theorem State.resetHolding_freeCount (m : Memory) :
    (State.resetHolding m).freeCount = 0 := rfl

/-! ### `State.powerOn` -/

@[simp] theorem State.powerOn_ie (s : State) (b : List Host.Cell) : (s.powerOn b).ie = false := rfl
@[simp] theorem State.powerOn_done (s : State) (b : List Host.Cell) :
    (s.powerOn b).done = false := rfl
@[simp] theorem State.powerOn_err (s : State) (b : List Host.Cell) :
    (s.powerOn b).err = false := rfl
@[simp] theorem State.powerOn_ovr (s : State) (b : List Host.Cell) :
    (s.powerOn b).ovr = false := rfl
@[simp] theorem State.powerOn_cmd (s : State) (b : List Host.Cell) : (s.powerOn b).cmd = 0 := rfl
@[simp] theorem State.powerOn_errcode (s : State) (b : List Host.Cell) :
    (s.powerOn b).errcode = 0 := rfl
@[simp] theorem State.powerOn_errinfo0 (s : State) (b : List Host.Cell) :
    (s.powerOn b).errinfo0 = 0 := rfl
@[simp] theorem State.powerOn_errinfo1 (s : State) (b : List Host.Cell) :
    (s.powerOn b).errinfo1 = 0 := rfl
@[simp] theorem State.powerOn_poly (s : State) (b : List Host.Cell) :
    (s.powerOn b).poly = polyReset := rfl
@[simp] theorem State.powerOn_field (s : State) (b : List Host.Cell) :
    (s.powerOn b).field = GfField.reset := rfl
@[simp] theorem State.powerOn_mver (s : State) (b : List Host.Cell) : (s.powerOn b).mver = 0 := rfl
@[simp] theorem State.powerOn_opa (s : State) (b : List Host.Cell) : (s.powerOn b).opa = 0 := rfl
@[simp] theorem State.powerOn_opb (s : State) (b : List Host.Cell) : (s.powerOn b).opb = 0 := rfl
@[simp] theorem State.powerOn_opc (s : State) (b : List Host.Cell) : (s.powerOn b).opc = 0 := rfl
@[simp] theorem State.powerOn_res (s : State) (b : List Host.Cell) :
    (s.powerOn b).res = Vector.replicate 8 0 := rfl
@[simp] theorem State.powerOn_score (s : State) (b : List Host.Cell) :
    (s.powerOn b).score = Vector.replicate 8 0 := rfl
@[simp] theorem State.powerOn_mem (s : State) (b : List Host.Cell) :
    (s.powerOn b).mem = powerOnMemory b := rfl
@[simp] theorem State.powerOn_phase (s : State) (b : List Host.Cell) :
    (s.powerOn b).phase = .init := rfl
@[simp] theorem State.powerOn_events (s : State) (b : List Host.Cell) :
    (s.powerOn b).events = s.events := rfl
@[simp] theorem State.powerOn_resp (s : State) (b : List Host.Cell) :
    (s.powerOn b).resp = s.resp := rfl
@[simp] theorem State.powerOn_freeCount (s : State) (b : List Host.Cell) :
    (s.powerOn b).freeCount = s.freeCount := rfl

/-! ### `State.softReset` -/

@[simp] theorem State.softReset_ie (s : State) : (s.softReset).ie = false := rfl
@[simp] theorem State.softReset_done (s : State) : (s.softReset).done = false := rfl
@[simp] theorem State.softReset_err (s : State) : (s.softReset).err = false := rfl
@[simp] theorem State.softReset_ovr (s : State) : (s.softReset).ovr = false := rfl
@[simp] theorem State.softReset_cmd (s : State) : (s.softReset).cmd = 0 := rfl
@[simp] theorem State.softReset_errcode (s : State) : (s.softReset).errcode = 0 := rfl
@[simp] theorem State.softReset_errinfo0 (s : State) : (s.softReset).errinfo0 = 0 := rfl
@[simp] theorem State.softReset_errinfo1 (s : State) : (s.softReset).errinfo1 = 0 := rfl
@[simp] theorem State.softReset_poly (s : State) : (s.softReset).poly = polyReset := rfl
@[simp] theorem State.softReset_field (s : State) : (s.softReset).field = GfField.reset := rfl
@[simp] theorem State.softReset_mver (s : State) : (s.softReset).mver = 0 := rfl
@[simp] theorem State.softReset_opa (s : State) : (s.softReset).opa = 0 := rfl
@[simp] theorem State.softReset_opb (s : State) : (s.softReset).opb = 0 := rfl
@[simp] theorem State.softReset_opc (s : State) : (s.softReset).opc = 0 := rfl
@[simp] theorem State.softReset_res (s : State) : (s.softReset).res = Vector.replicate 8 0 := rfl
@[simp] theorem State.softReset_score (s : State) :
    (s.softReset).score = Vector.replicate 8 0 := rfl
@[simp] theorem State.softReset_mem (s : State) :
    (s.softReset).mem = writeBytes s.mem (freeEntries s.freeCount s.writeSet) := rfl
@[simp] theorem State.softReset_phase (s : State) : (s.softReset).phase = .init := rfl
@[simp] theorem State.softReset_events (s : State) : (s.softReset).events = s.events := rfl
@[simp] theorem State.softReset_resp (s : State) : (s.softReset).resp = s.resp := rfl
@[simp] theorem State.softReset_freeCount (s : State) :
    (s.softReset).freeCount = s.freeCount + s.writeSet.length := rfl

/-! ### `State.accept` -/

@[simp] theorem State.accept_ie (s : State) (w : Word) : (s.accept w).ie = s.ie := rfl
@[simp] theorem State.accept_done (s : State) (w : Word) : (s.accept w).done = false := rfl
@[simp] theorem State.accept_err (s : State) (w : Word) : (s.accept w).err = false := rfl
@[simp] theorem State.accept_ovr (s : State) (w : Word) : (s.accept w).ovr = s.ovr := rfl
@[simp] theorem State.accept_cmd (s : State) (w : Word) : (s.accept w).cmd = w := rfl
@[simp] theorem State.accept_errcode (s : State) (w : Word) : (s.accept w).errcode = 0 := rfl
@[simp] theorem State.accept_errinfo0 (s : State) (w : Word) : (s.accept w).errinfo0 = 0 := rfl
@[simp] theorem State.accept_errinfo1 (s : State) (w : Word) : (s.accept w).errinfo1 = 0 := rfl
@[simp] theorem State.accept_poly (s : State) (w : Word) : (s.accept w).poly = s.poly := rfl
@[simp] theorem State.accept_field (s : State) (w : Word) : (s.accept w).field = s.field := rfl
@[simp] theorem State.accept_mver (s : State) (w : Word) : (s.accept w).mver = s.mver := rfl
@[simp] theorem State.accept_opa (s : State) (w : Word) : (s.accept w).opa = s.opa := rfl
@[simp] theorem State.accept_opb (s : State) (w : Word) : (s.accept w).opb = s.opb := rfl
@[simp] theorem State.accept_opc (s : State) (w : Word) : (s.accept w).opc = s.opc := rfl
@[simp] theorem State.accept_res (s : State) (w : Word) : (s.accept w).res = s.res := rfl
@[simp] theorem State.accept_score (s : State) (w : Word) : (s.accept w).score = s.score := rfl
@[simp] theorem State.accept_mem (s : State) (w : Word) : (s.accept w).mem = s.mem := rfl
@[simp] theorem State.accept_phase (s : State) (w : Word) :
    (s.accept w).phase = .busy w s.snapshot := rfl
@[simp] theorem State.accept_events (s : State) (w : Word) : (s.accept w).events = s.events := rfl
@[simp] theorem State.accept_resp (s : State) (w : Word) : (s.accept w).resp = s.resp := rfl
@[simp] theorem State.accept_freeCount (s : State) (w : Word) :
    (s.accept w).freeCount = s.freeCount := rfl

/-! ### `State.raiseError` -/

@[simp] theorem State.raiseError_ie (s : State) (e : CmdError) : (s.raiseError e).ie = s.ie := rfl
@[simp] theorem State.raiseError_done (s : State) (e : CmdError) :
    (s.raiseError e).done = true := rfl
@[simp] theorem State.raiseError_err (s : State) (e : CmdError) : (s.raiseError e).err = true := rfl
@[simp] theorem State.raiseError_ovr (s : State) (e : CmdError) :
    (s.raiseError e).ovr = s.ovr := rfl
@[simp] theorem State.raiseError_cmd (s : State) (e : CmdError) :
    (s.raiseError e).cmd = s.cmd := rfl
@[simp] theorem State.raiseError_errcode (s : State) (e : CmdError) :
    (s.raiseError e).errcode = e.code := rfl
@[simp] theorem State.raiseError_errinfo0 (s : State) (e : CmdError) :
    (s.raiseError e).errinfo0 = e.info0 := rfl
@[simp] theorem State.raiseError_errinfo1 (s : State) (e : CmdError) :
    (s.raiseError e).errinfo1 = e.info1 := rfl
@[simp] theorem State.raiseError_poly (s : State) (e : CmdError) :
    (s.raiseError e).poly = s.poly := rfl
@[simp] theorem State.raiseError_field (s : State) (e : CmdError) :
    (s.raiseError e).field = s.field := rfl
@[simp] theorem State.raiseError_mver (s : State) (e : CmdError) :
    (s.raiseError e).mver = s.mver := rfl
@[simp] theorem State.raiseError_opa (s : State) (e : CmdError) :
    (s.raiseError e).opa = s.opa := rfl
@[simp] theorem State.raiseError_opb (s : State) (e : CmdError) :
    (s.raiseError e).opb = s.opb := rfl
@[simp] theorem State.raiseError_opc (s : State) (e : CmdError) :
    (s.raiseError e).opc = s.opc := rfl
@[simp] theorem State.raiseError_res (s : State) (e : CmdError) :
    (s.raiseError e).res = s.res := rfl
@[simp] theorem State.raiseError_score (s : State) (e : CmdError) :
    (s.raiseError e).score = s.score := rfl
@[simp] theorem State.raiseError_mem (s : State) (e : CmdError) :
    (s.raiseError e).mem = s.mem := rfl
@[simp] theorem State.raiseError_phase (s : State) (e : CmdError) :
    (s.raiseError e).phase = .idle := rfl
@[simp] theorem State.raiseError_events (s : State) (e : CmdError) :
    (s.raiseError e).events = s.events := rfl
@[simp] theorem State.raiseError_resp (s : State) (e : CmdError) :
    (s.raiseError e).resp = s.resp := rfl
@[simp] theorem State.raiseError_freeCount (s : State) (e : CmdError) :
    (s.raiseError e).freeCount = s.freeCount := rfl

/-! ### `State.completeOk` -/

@[simp] theorem State.completeOk_ie (s : State) (w : Writes) : (s.completeOk w).ie = s.ie := rfl
@[simp] theorem State.completeOk_done (s : State) (w : Writes) : (s.completeOk w).done = true := rfl
@[simp] theorem State.completeOk_err (s : State) (w : Writes) : (s.completeOk w).err = s.err := rfl
@[simp] theorem State.completeOk_ovr (s : State) (w : Writes) : (s.completeOk w).ovr = s.ovr := rfl
@[simp] theorem State.completeOk_cmd (s : State) (w : Writes) : (s.completeOk w).cmd = s.cmd := rfl
@[simp] theorem State.completeOk_errcode (s : State) (w : Writes) :
    (s.completeOk w).errcode = s.errcode := rfl
@[simp] theorem State.completeOk_errinfo0 (s : State) (w : Writes) :
    (s.completeOk w).errinfo0 = s.errinfo0 := rfl
@[simp] theorem State.completeOk_errinfo1 (s : State) (w : Writes) :
    (s.completeOk w).errinfo1 = s.errinfo1 := rfl
@[simp] theorem State.completeOk_poly (s : State) (w : Writes) :
    (s.completeOk w).poly = s.poly := rfl
@[simp] theorem State.completeOk_field (s : State) (w : Writes) :
    (s.completeOk w).field = w.field.getD s.field := rfl
@[simp] theorem State.completeOk_mver (s : State) (w : Writes) :
    (s.completeOk w).mver = w.mver.getD s.mver := rfl
@[simp] theorem State.completeOk_opa (s : State) (w : Writes) : (s.completeOk w).opa = s.opa := rfl
@[simp] theorem State.completeOk_opb (s : State) (w : Writes) : (s.completeOk w).opb = s.opb := rfl
@[simp] theorem State.completeOk_opc (s : State) (w : Writes) : (s.completeOk w).opc = s.opc := rfl
@[simp] theorem State.completeOk_res (s : State) (w : Writes) :
    (s.completeOk w).res = setFrom s.res 0 w.res := rfl
@[simp] theorem State.completeOk_score (s : State) (w : Writes) :
    (s.completeOk w).score = setFrom s.score 0 w.score := rfl
@[simp] theorem State.completeOk_mem (s : State) (w : Writes) :
    (s.completeOk w).mem = writeBytes s.mem w.mem := rfl
@[simp] theorem State.completeOk_phase (s : State) (w : Writes) :
    (s.completeOk w).phase = .idle := rfl
@[simp] theorem State.completeOk_events (s : State) (w : Writes) :
    (s.completeOk w).events = s.events := rfl
@[simp] theorem State.completeOk_resp (s : State) (w : Writes) :
    (s.completeOk w).resp = s.resp := rfl
@[simp] theorem State.completeOk_freeCount (s : State) (w : Writes) :
    (s.completeOk w).freeCount = s.freeCount := rfl

/-! ### `State.writeStatus` -/

@[simp] theorem State.writeStatus_ie (s : State) (d : Word) : (s.writeStatus d).ie = s.ie := rfl
@[simp] theorem State.writeStatus_done (s : State) (d : Word) :
    (s.writeStatus d).done = (s.done && !d.getLsbD 1) := rfl
@[simp] theorem State.writeStatus_err (s : State) (d : Word) :
    (s.writeStatus d).err = (s.err && !d.getLsbD 2) := rfl
@[simp] theorem State.writeStatus_ovr (s : State) (d : Word) :
    (s.writeStatus d).ovr = (s.ovr && !d.getLsbD 4) := rfl
@[simp] theorem State.writeStatus_cmd (s : State) (d : Word) : (s.writeStatus d).cmd = s.cmd := rfl
@[simp] theorem State.writeStatus_errcode (s : State) (d : Word) :
    (s.writeStatus d).errcode = s.errcode := rfl
@[simp] theorem State.writeStatus_errinfo0 (s : State) (d : Word) :
    (s.writeStatus d).errinfo0 = s.errinfo0 := rfl
@[simp] theorem State.writeStatus_errinfo1 (s : State) (d : Word) :
    (s.writeStatus d).errinfo1 = s.errinfo1 := rfl
@[simp] theorem State.writeStatus_poly (s : State) (d : Word) :
    (s.writeStatus d).poly = s.poly := rfl
@[simp] theorem State.writeStatus_field (s : State) (d : Word) :
    (s.writeStatus d).field = s.field := rfl
@[simp] theorem State.writeStatus_mver (s : State) (d : Word) :
    (s.writeStatus d).mver = s.mver := rfl
@[simp] theorem State.writeStatus_opa (s : State) (d : Word) : (s.writeStatus d).opa = s.opa := rfl
@[simp] theorem State.writeStatus_opb (s : State) (d : Word) : (s.writeStatus d).opb = s.opb := rfl
@[simp] theorem State.writeStatus_opc (s : State) (d : Word) : (s.writeStatus d).opc = s.opc := rfl
@[simp] theorem State.writeStatus_res (s : State) (d : Word) : (s.writeStatus d).res = s.res := rfl
@[simp] theorem State.writeStatus_score (s : State) (d : Word) :
    (s.writeStatus d).score = s.score := rfl
@[simp] theorem State.writeStatus_mem (s : State) (d : Word) : (s.writeStatus d).mem = s.mem := rfl
@[simp] theorem State.writeStatus_phase (s : State) (d : Word) :
    (s.writeStatus d).phase = s.phase := rfl
@[simp] theorem State.writeStatus_events (s : State) (d : Word) :
    (s.writeStatus d).events = s.events := rfl
@[simp] theorem State.writeStatus_resp (s : State) (d : Word) :
    (s.writeStatus d).resp = s.resp := rfl
@[simp] theorem State.writeStatus_freeCount (s : State) (d : Word) :
    (s.writeStatus d).freeCount = s.freeCount := rfl

/-! ### `State.initialise` -/

@[simp] theorem State.initialise_ie (s : State) : (s.initialise).ie = s.ie := rfl
@[simp] theorem State.initialise_done (s : State) : (s.initialise).done = s.done := rfl
@[simp] theorem State.initialise_err (s : State) : (s.initialise).err = s.err := rfl
@[simp] theorem State.initialise_ovr (s : State) : (s.initialise).ovr = s.ovr := rfl
@[simp] theorem State.initialise_cmd (s : State) : (s.initialise).cmd = s.cmd := rfl
@[simp] theorem State.initialise_errcode (s : State) : (s.initialise).errcode = s.errcode := rfl
@[simp] theorem State.initialise_errinfo0 (s : State) : (s.initialise).errinfo0 = s.errinfo0 := rfl
@[simp] theorem State.initialise_errinfo1 (s : State) : (s.initialise).errinfo1 = s.errinfo1 := rfl
@[simp] theorem State.initialise_poly (s : State) : (s.initialise).poly = s.poly := rfl
@[simp] theorem State.initialise_field (s : State) :
    (s.initialise).field = buildField polyReset := rfl
@[simp] theorem State.initialise_mver (s : State) : (s.initialise).mver = s.mver := rfl
@[simp] theorem State.initialise_opa (s : State) : (s.initialise).opa = s.opa := rfl
@[simp] theorem State.initialise_opb (s : State) : (s.initialise).opb = s.opb := rfl
@[simp] theorem State.initialise_opc (s : State) : (s.initialise).opc = s.opc := rfl
@[simp] theorem State.initialise_res (s : State) : (s.initialise).res = s.res := rfl
@[simp] theorem State.initialise_score (s : State) : (s.initialise).score = s.score := rfl
@[simp] theorem State.initialise_mem (s : State) : (s.initialise).mem = s.mem := rfl
@[simp] theorem State.initialise_phase (s : State) : (s.initialise).phase = .idle := rfl
@[simp] theorem State.initialise_events (s : State) : (s.initialise).events = s.events := rfl
@[simp] theorem State.initialise_resp (s : State) : (s.initialise).resp = s.resp := rfl
@[simp] theorem State.initialise_freeCount (s : State) :
    (s.initialise).freeCount = s.freeCount := rfl

/-! ### `State.respond` -/

@[simp] theorem State.respond_ie (s : State) (d : Word) (e : Bool) :
    (s.respond d e).ie = s.ie := rfl
@[simp] theorem State.respond_done (s : State) (d : Word) (e : Bool) :
    (s.respond d e).done = s.done := rfl
@[simp] theorem State.respond_err (s : State) (d : Word) (e : Bool) :
    (s.respond d e).err = s.err := rfl
@[simp] theorem State.respond_ovr (s : State) (d : Word) (e : Bool) :
    (s.respond d e).ovr = s.ovr := rfl
@[simp] theorem State.respond_cmd (s : State) (d : Word) (e : Bool) :
    (s.respond d e).cmd = s.cmd := rfl
@[simp] theorem State.respond_errcode (s : State) (d : Word) (e : Bool) :
    (s.respond d e).errcode = s.errcode := rfl
@[simp] theorem State.respond_errinfo0 (s : State) (d : Word) (e : Bool) :
    (s.respond d e).errinfo0 = s.errinfo0 := rfl
@[simp] theorem State.respond_errinfo1 (s : State) (d : Word) (e : Bool) :
    (s.respond d e).errinfo1 = s.errinfo1 := rfl
@[simp] theorem State.respond_poly (s : State) (d : Word) (e : Bool) :
    (s.respond d e).poly = s.poly := rfl
@[simp] theorem State.respond_field (s : State) (d : Word) (e : Bool) :
    (s.respond d e).field = s.field := rfl
@[simp] theorem State.respond_mver (s : State) (d : Word) (e : Bool) :
    (s.respond d e).mver = s.mver := rfl
@[simp] theorem State.respond_opa (s : State) (d : Word) (e : Bool) :
    (s.respond d e).opa = s.opa := rfl
@[simp] theorem State.respond_opb (s : State) (d : Word) (e : Bool) :
    (s.respond d e).opb = s.opb := rfl
@[simp] theorem State.respond_opc (s : State) (d : Word) (e : Bool) :
    (s.respond d e).opc = s.opc := rfl
@[simp] theorem State.respond_res (s : State) (d : Word) (e : Bool) :
    (s.respond d e).res = s.res := rfl
@[simp] theorem State.respond_score (s : State) (d : Word) (e : Bool) :
    (s.respond d e).score = s.score := rfl
@[simp] theorem State.respond_mem (s : State) (d : Word) (e : Bool) :
    (s.respond d e).mem = s.mem := rfl
@[simp] theorem State.respond_phase (s : State) (d : Word) (e : Bool) :
    (s.respond d e).phase = s.phase := rfl
@[simp] theorem State.respond_events (s : State) (d : Word) (e : Bool) :
    (s.respond d e).events = s.events := rfl
@[simp] theorem State.respond_resp (s : State) (d : Word) (e : Bool) :
    (s.respond d e).resp = some ⟨d, e⟩ := rfl
@[simp] theorem State.respond_freeCount (s : State) (d : Word) (e : Bool) :
    (s.respond d e).freeCount = s.freeCount := rfl

/-! ### What a command reads -/

@[simp] theorem State.snapshot_poly (s : State) : s.snapshot.poly = s.poly := rfl
@[simp] theorem State.snapshot_field (s : State) : s.snapshot.field = s.field := rfl
@[simp] theorem State.snapshot_mver (s : State) : s.snapshot.mver = s.mver := rfl
@[simp] theorem State.snapshot_ops (s : State) : s.snapshot.ops = s.ops := rfl
@[simp] theorem State.snapshot_mem (s : State) : s.snapshot.mem = s.mem := rfl
@[simp] theorem State.ops_opa (s : State) : s.ops.opa = s.opa := rfl
@[simp] theorem State.ops_opb (s : State) : s.ops.opb = s.opb := rfl
@[simp] theorem State.ops_opc (s : State) : s.ops.opc = s.opc := rfl

@[simp] theorem State.finish_error (s : State) (e : CmdError) : s.finish (.error e) = s.raiseError e := rfl
@[simp] theorem State.finish_ok (s : State) (w : Writes) : s.finish (.ok w) = s.completeOk w := rfl

end Sys2Proof.Machine
end

