-- ==== Sys2Proof/Laws/Ops.lean ====
section
/-! SUPPORT. What each shared operation does, said once: the register writes, the completion of a command,
a command's meaning through its rule, and the cases of a step. -/

namespace Sys2Proof.Machine

/-! ### Register writes -/

/-- The listed registers take the listed words, and every other one keeps its value (R32). -/
theorem setFrom_get (v : Vector Word 8) (k : Nat) (ws : List Word) (i : Nat) (h : i < 8) :
    (setFrom v k ws)[i] = if k ≤ i then (ws[i - k]?).getD v[i] else v[i] := by
  induction ws generalizing v k with
  | nil => simp [setFrom]
  | cons w ws ih =>
    rw [setFrom, ih]
    by_cases hk : k = i
    · subst hk; simp
    · have hv : (v.setIfInBounds k w)[i] = v[i] := by simp [hk]
      rw [hv]
      by_cases hle : k ≤ i
      · rw [if_pos hle, if_pos (by omega), show i - k = (i - (k + 1)) + 1 by omega, List.getElem?_cons_succ]
      · rw [if_neg hle, if_neg (by omega)]

theorem resHolds_completeOk (s : State) (w : Writes) : ResHolds s (s.completeOk w) w.res := by
  intro k h
  simp only [State.completeOk_res]
  rw [setFrom_get s.res 0 w.res k h]; simp

@[simp] theorem setFrom_nil (v : Vector Word 8) (k : Nat) : setFrom v k [] = v := rfl

/-! ### Completion -/

theorem hostSideKept_finish (s : State) (r : CmdResult) : HostSideKept s (s.finish r) := by
  cases r <;> constructor <;> rfl

/-- A command that answers its writes completes (R353). -/
theorem completed_completeOk (s : State) (w : Writes) : Completed s (s.completeOk w) :=
  { hostSideKept_finish s (.ok w) with
    done := rfl, idle := rfl, err := rfl, errcode := rfl, errinfo0 := rfl, errinfo1 := rfl }

/-- A command whose rule writes only result registers. -/
theorem onlyRes_completeOk (s : State) (ws : List Word) : OnlyRes s (s.completeOk { res := ws }) ws :=
  { completed_completeOk s { res := ws } with
    res := resHolds_completeOk s _, score := rfl, mver := rfl, field := rfl, mem := rfl }

/-- A command whose rule writes result registers and the listed bytes. -/
theorem onlyResMem_completeOk {s : State} (hm : s.mem.wf = true) (ws : List Word) (m : List Host.Cell)
    {P : Nat → Prop} (hP : ∀ e ∈ m, P e.1) : OnlyResMem s (s.completeOk { res := ws, mem := m }) ws P :=
  { completed_completeOk s { res := ws, mem := m } with
    res := resHolds_completeOk s _, score := rfl, mver := rfl, field := rfl
    mem := fun a ha => readByte_writeBytes_other hm fun h => by
      obtain ⟨e, he, rfl⟩ := List.mem_map.mp h
      exact ha (hP e he) }

/-- A command that answers an error raises it, and does nothing else (R352). -/
theorem raisedError_raiseError (s : State) (e : CmdError) :
    RaisedError s (s.raiseError e) e.code.toNat e.info0 e.info1 :=
  { hostSideKept_finish s (.error e) with
    res := rfl, score := rfl, mver := rfl, field := rfl, mem := rfl
    errcode := by simp, errinfo0 := rfl, errinfo1 := rfl, err := rfl, done := rfl, idle := rfl }

/-! ### A command's meaning -/

/-- Every command runs its rule on its snapshot, and completes. -/
theorem exec_finish (i : Instr) (s : State) : exec i s = .next (s.finish (ruleOf i s.input)) := by
  cases i <;> rfl

/-- While a command runs, what it reads is what the registers and buffers still hold. -/
theorem State.Inv.input_eq {s : State} (h : s.Inv) : s.input = s.snapshot := by
  unfold State.input
  split
  · rename_i w x hp; exact (h.running w x hp).1
  · rfl

/-! ### The legality of memory -/

theorem legalMem_wf {m : Memory} (h : legalMem m = true) : m.wf = true := by
  simp only [legalMem, Bool.and_eq_true] at h; exact h.1

theorem all_writeByte {p : Host.Cell → Bool} {m : Memory} {a : Nat} {x : Byte} (h : m.all p = true)
    (hx : p (a, x) = true) : (writeByte m a x).all p = true := by
  induction m with
  | nil => simp only [writeByte]; split <;> simp [hx]
  | cons e m ih =>
    obtain ⟨b, v⟩ := e
    simp only [List.all_cons, Bool.and_eq_true] at h
    simp only [writeByte]
    split
    · simp only [List.all_cons, Bool.and_eq_true]; exact ⟨h.1, ih h.2⟩
    · have hr : (if b = a then m else (b, v) :: m).all p = true := by
        split
        · exact h.2
        · simp only [List.all_cons, Bool.and_eq_true]; exact h
      split
      · exact hr
      · simp only [List.all_cons, Bool.and_eq_true]; exact ⟨hx, hr⟩

/-- A store of legal bytes at existing offsets keeps memory legal. -/
theorem legalMem_writeBytes {m : Memory} (h : legalMem m = true) {ws : List Host.Cell}
    (hw : ∀ e ∈ ws, inStorage e.1 = true ∧ storedByte e.1 e.2 = e.2) : legalMem (writeBytes m ws) = true := by
  simp only [legalMem, Bool.and_eq_true] at h ⊢
  refine ⟨writeBytes_wf h.1 ws, ?_⟩
  induction ws with
  | nil => exact h.2
  | cons e ws ih =>
    refine all_writeByte (ih fun e he => hw e (List.mem_cons_of_mem _ he)) ?_
    have := hw e List.mem_cons_self
    simp [this.1, this.2]

theorem storedByte_idem (a : Nat) (b : Byte) : storedByte a (storedByte a b) = storedByte a b := by
  unfold storedByte
  split
  · revert b; decide
  · rfl

theorem powerOnMemory_legal (b : List Host.Cell) : legalMem (powerOnMemory b) = true := by
  refine legalMem_writeBytes rfl fun e he => ?_
  obtain ⟨e', he', rfl⟩ := List.mem_map.mp he
  exact ⟨(List.mem_filter.mp he').2, storedByte_idem _ _⟩

/-! ### The cases of a step -/

/-- The sequencer's step: initialisation ends, a command runs, a word is refused, or nothing happens. -/
theorem sequencerStep_cases {s t : State} (h : sequencerStep s = .next t) :
    (s.phase = .init ∧ t = s.initialise) ∨ (s.phase = .idle ∧ t = s) ∨
    (∃ w x i, s.phase = .busy w x ∧ decode w = .ok i ∧ t = s.finish (ruleOf i s.input)) ∨
    (∃ w x e, s.phase = .busy w x ∧ decode w = .error e ∧ t = s.illegal w) := by
  unfold sequencerStep at h
  split at h
  · exact .inl ⟨‹_›, by simpa using h.symm⟩
  · exact .inr (.inl ⟨‹_›, by simpa using h.symm⟩)
  · rename_i w x hp
    split at h
    · rename_i i hd
      rw [exec_finish] at h
      exact .inr (.inr (.inl ⟨w, x, i, hp, hd, by simpa using h.symm⟩))
    · rename_i e hd
      exact .inr (.inr (.inr ⟨w, x, e, hp, hd, by simpa using h.symm⟩))

/-- A host access answers with a bus error, a read or a write. -/
theorem hostAccess_cases {s t : State} {a : Access} (h : s.hostAccess a = .next t) :
    a.outside = false ∧ ((a.refused = true ∧ t = s.respond 0 true) ∨
      (a.refused = false ∧ a.kind = .read ∧ t = s.hostRead a) ∨
      (a.refused = false ∧ ∃ d, a.kind = .write d ∧ t = s.hostWrite a d)) := by
  unfold State.hostAccess at h
  split at h
  · cases h
  · rename_i ho
    refine ⟨by simpa using ho, ?_⟩
    split at h
    · exact .inl ⟨‹_›, by simpa using h.symm⟩
    · rename_i hr
      split at h
      · exact .inr (.inl ⟨by simpa using hr, ‹_›, by simpa using h.symm⟩)
      · rename_i d hk
        exact .inr (.inr ⟨by simpa using hr, d, hk, by simpa using h.symm⟩)

/-- A step is the event at the front, or the sequencer's where there is none. -/
theorem step_cases {s t : State} (h : step s = .next t) :
    (s.events = [] ∧ sequencerStep s = .next t) ∨
    (∃ es, s.events = .sequencer :: es ∧ sequencerStep { s with events := es } = .next t) ∨
    (∃ a es, s.events = .host a :: es ∧ ({ s with events := es } : State).hostAccess a = .next t) ∨
    (∃ b es, s.events = .powerOn b :: es ∧ t = ({ s with events := es } : State).powerOn b) := by
  unfold step at h
  split at h
  · exact .inl ⟨‹_›, h⟩
  · exact .inr (.inl ⟨_, ‹_›, h⟩)
  · exact .inr (.inr (.inl ⟨_, _, ‹_›, h⟩))
  · exact .inr (.inr (.inr ⟨_, _, ‹_›, by simpa using h.symm⟩))

end Sys2Proof.Machine
end

