-- ==== Sys2Proof/Laws/Grid.lean ====
section
/-! SUPPORT. The grid laws: what one cell is after a grid is mapped, a cell is set, or the grid is read
from memory, and what storing a grid writes. -/

namespace Sys2Proof.Machine

/-- A grid of `n` rows of `n` cells. -/
def IsSquare (n : Nat) (g : Grid) : Prop := g.length = n ∧ ∀ row ∈ g, row.length = n

/-! ### One row -/

theorem mapRow_length (f : Nat → Cell → Cell) (c : Nat) (xs : List Cell) : (mapRow f c xs).length = xs.length := by
  induction xs generalizing c with
  | nil => rfl
  | cons x xs ih => simp [mapRow, ih]

theorem mapRow_get (f : Nat → Cell → Cell) (c : Nat) (xs : List Cell) (j : Nat) :
    (mapRow f c xs)[j]? = (xs[j]?).map (f (c + j)) := by
  induction xs generalizing c j with
  | nil => simp [mapRow]
  | cons x xs ih =>
    cases j with
    | zero => simp [mapRow]
    | succ j => simp [mapRow, ih, Nat.add_assoc, Nat.add_comm 1 j]

theorem mapRows_get (f : Nat → Nat → Cell → Cell) (r : Nat) (g : Grid) (i : Nat) :
    (mapRows f r g)[i]? = (g[i]?).map (mapRow (f (r + i)) 0) := by
  induction g generalizing r i with
  | nil => simp [mapRows]
  | cons row g ih =>
    cases i with
    | zero => simp [mapRows]
    | succ i => simp [mapRows, ih, Nat.add_assoc, Nat.add_comm 1 i]

theorem mapRows_length (f : Nat → Nat → Cell → Cell) (r : Nat) (g : Grid) : (mapRows f r g).length = g.length := by
  induction g generalizing r with
  | nil => rfl
  | cons row g ih => simp [mapRows, ih]

/-! ### Squares -/

theorem IsSquare.row {n : Nat} {g : Grid} (h : IsSquare n g) {r : Nat} (hr : r < n) :
    ∃ row, g[r]? = some row ∧ row.length = n := by
  have hg : r < g.length := h.1 ▸ hr
  exact ⟨g[r], List.getElem?_eq_getElem hg, h.2 _ (List.getElem_mem hg)⟩

theorem isSquare_mapGrid {n : Nat} {g : Grid} (h : IsSquare n g) (f : Nat → Nat → Cell → Cell) :
    IsSquare n (mapGrid f g) := by
  refine ⟨(mapRows_length f 0 g).trans h.1, fun row hrow => ?_⟩
  obtain ⟨i, hi, rfl⟩ := List.getElem_of_mem hrow
  have hg := mapRows_get f 0 g i
  rw [mapGrid] at hi
  rw [List.getElem?_eq_getElem hi] at hg
  rw [mapRows_length] at hi
  rw [List.getElem?_eq_getElem hi] at hg
  simp only [Option.map_some, Option.some.injEq] at hg
  simp only [mapGrid, hg, mapRow_length]
  exact h.2 _ (List.getElem_mem hi)

theorem isSquare_blankGrid (n : Nat) : IsSquare n (blankGrid n) := by
  refine ⟨by simp [blankGrid], fun row h => ?_⟩
  rw [List.eq_of_mem_replicate h]; simp

theorem isSquare_gridOf (m : Memory) (n : Nat) : IsSquare n (gridOf m n) := by
  refine ⟨by simp [gridOf], fun row h => ?_⟩
  obtain ⟨r, _, rfl⟩ := List.mem_map.mp h
  simp

theorem isSquare_setCell {n : Nat} {g : Grid} (h : IsSquare n g) (r c : Nat) (x : Cell) :
    IsSquare n (setCell g r c x) := by
  refine ⟨by simp [setCell, h.1], fun row hrow => ?_⟩
  by_cases hr : r < n
  · rcases List.mem_or_eq_of_mem_set hrow with hm | rfl
    · exact h.2 _ hm
    · obtain ⟨row', h1, h2⟩ := h.row hr
      simp [List.getD_eq_getElem?_getD, h1, h2]
  · rw [setCell, List.set_eq_of_length_le (by rw [h.1]; omega)] at hrow
    exact h.2 _ hrow

/-! ### One cell -/

/-- One cell of a mapped grid. -/
theorem cellAt_mapGrid {n : Nat} {g : Grid} (h : IsSquare n g) (f : Nat → Nat → Cell → Cell) {r c : Nat}
    (hr : r < n) (hc : c < n) : cellAt (mapGrid f g) r c = f r c (cellAt g r c) := by
  obtain ⟨row, h1, h2⟩ := h.row hr
  simp only [cellAt, mapGrid, List.getD_eq_getElem?_getD, mapRows_get, h1, Option.map_some, Option.getD_some,
    mapRow_get, Nat.zero_add, List.getElem?_eq_getElem (h2 ▸ hc : c < row.length)]

/-- One cell after another has been set. -/
theorem cellAt_setCell {n : Nat} {g : Grid} (h : IsSquare n g) (r c r' c' : Nat) (x : Cell) (hr : r < n)
    (hc : c < n) : cellAt (setCell g r c x) r' c' = if r' = r ∧ c' = c then x else cellAt g r' c' := by
  obtain ⟨row, h1, h2⟩ := h.row hr
  have hg : r < g.length := h.1 ▸ hr
  simp only [cellAt, setCell, List.getD_eq_getElem?_getD, h1, Option.getD_some, List.getElem?_set]
  by_cases hrr : r = r'
  · subst hrr
    rw [if_pos rfl, if_pos hg, Option.getD_some, List.getElem?_set, h1, Option.getD_some]
    by_cases hcc : c = c'
    · subst hcc; simp [h2 ▸ hc]
    · rw [if_neg hcc, if_neg (fun e => hcc e.2.symm)]
  · rw [if_neg hrr, if_neg (fun e => hrr e.1.symm)]

theorem cellAt_blankGrid {n r c : Nat} (hr : r < n) (hc : c < n) : cellAt (blankGrid n) r c = Cell.blank := by
  simp [cellAt, blankGrid, List.getD_eq_getElem?_getD, hr, hc]

/-- One cell of the grid read from the matrix buffer (R41). -/
theorem cellAt_gridOf (m : Memory) {n r c : Nat} (hr : r < n) (hc : c < n) :
    cellAt (gridOf m n) r c = memCell m r c := by
  simp [cellAt, gridOf, List.getD_eq_getElem?_getD, readBytes_eq, hr, hc, memCell, cellOffset]

/-! ### Storing a grid -/

/-- Cells of the matrix have distinct offsets (R41). -/
theorem cellOffset_inj {r c r' c' : Nat} (hc : c < 177) (hc' : c' < 177) (h : cellOffset r c = cellOffset r' c') :
    r = r' ∧ c = c' := by
  unfold cellOffset mstride at h; omega

theorem cell_roundTrip (x : Cell) : Cell.ofByte x.toByte = x := by
  obtain ⟨m, r⟩ := x; cases m <;> cases r <;> rfl

theorem matrixByte_toByte (x : Cell) : matrixByte x.toByte = x.toByte := by
  rw [matrixByte, cell_roundTrip]

theorem mem_rowWrites {keep : Nat → Bool} {r c : Nat} {xs : List Cell} {e : Host.Cell}
    (h : e ∈ rowWrites keep r c xs) :
    ∃ j x, xs[j]? = some x ∧ keep (c + j) = true ∧ e = (cellOffset r (c + j), x.toByte) := by
  induction xs generalizing c with
  | nil => simp [rowWrites] at h
  | cons x xs ih =>
    have tail : e ∈ rowWrites keep r (c + 1) xs → ∃ j y, (x :: xs)[j]? = some y ∧ keep (c + j) = true ∧
        e = (cellOffset r (c + j), y.toByte) := fun h => by
      obtain ⟨j, y, h1, h2, h3⟩ := ih h
      exact ⟨j + 1, y, by simpa using h1, by rw [← h2]; congr 1; omega, by rw [h3, show c + 1 + j = c + (j + 1) by omega]⟩
    simp only [rowWrites] at h
    split at h
    · rcases List.mem_cons.mp h with rfl | h
      · exact ⟨0, x, rfl, ‹_›, rfl⟩
      · exact tail h
    · exact tail h

/-- Every entry of a stored grid is a kept cell of it. -/
theorem mem_gridWrites {keep : Nat → Nat → Bool} {k n : Nat} {g : Grid} {e : Host.Cell}
    (hg : ∀ row ∈ g, row.length = n) (h : e ∈ gridWrites keep k g) :
    ∃ i c, i < g.length ∧ c < n ∧ keep (k + i) c = true ∧ e = (cellOffset (k + i) c, (cellAt g i c).toByte) := by
  induction g generalizing k with
  | nil => simp [gridWrites] at h
  | cons row g ih =>
    simp only [gridWrites, List.mem_append] at h
    rcases h with h | h
    · obtain ⟨j, x, h1, h2, h3⟩ := mem_rowWrites h
      have hj := (List.getElem?_eq_some_iff.mp h1).1
      rw [Nat.zero_add] at h2 h3
      refine ⟨0, j, by simp, hg row List.mem_cons_self ▸ hj, h2, ?_⟩
      rw [h3]; simp [cellAt, List.getD_eq_getElem?_getD, h1]
    · obtain ⟨i, c, h1, h2, h3, h4⟩ := ih (fun r hr => hg r (List.mem_cons_of_mem _ hr)) h
      refine ⟨i + 1, c, by simpa using h1, h2, ?_, ?_⟩
      · rw [← h3]; congr 1; omega
      · rw [h4, show k + 1 + i = k + (i + 1) by omega]; simp [cellAt]

theorem rowWrites_mem {keep : Nat → Bool} {r c j : Nat} {xs : List Cell} {x : Cell} (h : xs[j]? = some x)
    (hk : keep (c + j) = true) : (cellOffset r (c + j), x.toByte) ∈ rowWrites keep r c xs := by
  induction xs generalizing c j with
  | nil => simp at h
  | cons y xs ih =>
    simp only [rowWrites]
    cases j with
    | zero =>
      simp only [List.getElem?_cons_zero, Option.some.injEq] at h
      rw [Nat.add_zero] at hk ⊢
      rw [if_pos hk, h]; exact List.mem_cons_self
    | succ j =>
      rw [List.getElem?_cons_succ] at h
      rw [show c + (j + 1) = c + 1 + j by omega] at hk ⊢
      split
      · exact List.mem_cons_of_mem _ (ih h hk)
      · exact ih h hk

/-- Every kept cell of a stored grid is an entry. -/
theorem gridWrites_mem {keep : Nat → Nat → Bool} {k n i c : Nat} {g : Grid} (hg : IsSquare n g) (hi : i < n)
    (hc : c < n) (hk : keep (k + i) c = true) :
    (cellOffset (k + i) c, (cellAt g i c).toByte) ∈ gridWrites keep k g := by
  obtain ⟨row, h1, h2⟩ := hg.row hi
  have hcell : row[c]? = some (cellAt g i c) := by
    simp [cellAt, List.getD_eq_getElem?_getD, h1, List.getElem?_eq_getElem (h2 ▸ hc : c < row.length)]
  clear hg hi h2
  induction g generalizing k i with
  | nil => simp at h1
  | cons row' g ih =>
    simp only [gridWrites, List.mem_append]
    cases i with
    | zero =>
      simp only [List.getElem?_cons_zero, Option.some.injEq] at h1
      left
      have := rowWrites_mem (r := k) (c := 0) hcell (keep := keep k) (by simpa using hk)
      simpa [h1] using this
    | succ i =>
      right
      rw [show k + (i + 1) = k + 1 + i by omega] at hk ⊢
      have e : cellAt (row' :: g) (i + 1) c = cellAt g i c := by simp [cellAt]
      rw [e] at hcell ⊢
      exact ih hk (by simpa using h1) hcell

theorem find_of_unique {ws : List Host.Cell} {a : Nat} {x : Byte} (h : (a, x) ∈ ws)
    (hu : ∀ e ∈ ws, e.1 = a → e.2 = x) : (ws.find? fun e => e.1 == a).map Prod.snd = some x := by
  cases hf : ws.find? fun e => e.1 == a with
  | none => exact absurd (List.find?_eq_none.mp hf _ h) (by simp)
  | some e =>
    have h1 := List.find?_some hf
    simp only [beq_iff_eq] at h1
    simp [hu e (List.mem_of_find?_eq_some hf) h1]

/-- A cell of the matrix after kept cells of a grid have been stored. -/
theorem memCell_gridWrites {m : Memory} (hm : m.wf = true) {keep : Nat → Nat → Bool} {n r c : Nat} {g : Grid}
    (hg : IsSquare n g) (hn : n ≤ 177) (hr : r < n) (hc : c < n) :
    memCell (writeBytes m (gridWrites keep 0 g)) r c = if keep r c then cellAt g r c else memCell m r c := by
  have uniq : ∀ e ∈ gridWrites keep 0 g, e.1 = cellOffset r c →
      e.2 = (cellAt g r c).toByte ∧ keep r c = true := fun e he ha => by
    obtain ⟨i, c', h1, h2, h3, rfl⟩ := mem_gridWrites hg.2 he
    have := cellOffset_inj (by omega) (by omega) ha
    simp only [Nat.zero_add] at this h3
    obtain ⟨rfl, rfl⟩ := this
    exact ⟨rfl, h3⟩
  unfold memCell
  split
  · rename_i hk
    have hmem := gridWrites_mem (k := 0) hg hr hc (keep := keep) (by simpa using hk)
    rw [Nat.zero_add] at hmem
    rw [readByte_writeBytes hm, find_of_unique hmem fun e he ha => (uniq e he ha).1]
    simp [cell_roundTrip]
  · rename_i hk
    rw [readByte_writeBytes_other hm fun h => ?_]
    obtain ⟨e, he, ha⟩ := List.mem_map.mp h
    exact hk (uniq e he ha).2

end Sys2Proof.Machine
end

