-- ==== Sys2Proof/Laws/PerInstr.lean ====
section
/-! SUPPORT. The statements about every instruction as syntax, one lemma per constructor. -/

namespace Sys2Proof.Laws

/-- Decoding the encoding of an instruction gives it back. -/
def RoundTrip.Statement (i : Instr) : Prop := decode (encode i) = .ok i

theorem RoundTrip.nop : RoundTrip.Statement .nop := rfl
theorem RoundTrip.gfInit : RoundTrip.Statement .gfInit := rfl
theorem RoundTrip.gfAdd : RoundTrip.Statement .gfAdd := rfl
theorem RoundTrip.gfSub : RoundTrip.Statement .gfSub := rfl
theorem RoundTrip.gfMul : RoundTrip.Statement .gfMul := rfl
theorem RoundTrip.gfDiv : RoundTrip.Statement .gfDiv := rfl
theorem RoundTrip.gfInv : RoundTrip.Statement .gfInv := rfl
theorem RoundTrip.gfPow : RoundTrip.Statement .gfPow := rfl
theorem RoundTrip.gfExp : RoundTrip.Statement .gfExp := rfl
theorem RoundTrip.gfLog : RoundTrip.Statement .gfLog := rfl
theorem RoundTrip.rsGenpoly : RoundTrip.Statement .rsGenpoly := rfl
theorem RoundTrip.rsEncode : RoundTrip.Statement .rsEncode := rfl
theorem RoundTrip.capQuery : RoundTrip.Statement .capQuery := rfl
theorem RoundTrip.fitCheck : RoundTrip.Statement .fitCheck := rfl
theorem RoundTrip.selectVersion : RoundTrip.Statement .selectVersion := rfl
theorem RoundTrip.modeDetect : RoundTrip.Statement .modeDetect := rfl
theorem RoundTrip.buildData : RoundTrip.Statement .buildData := rfl
theorem RoundTrip.blockAssemble : RoundTrip.Statement .blockAssemble := rfl
theorem RoundTrip.scaffold : RoundTrip.Statement .scaffold := rfl
theorem RoundTrip.place : RoundTrip.Statement .place := rfl
theorem RoundTrip.maskApply : RoundTrip.Statement .maskApply := rfl
theorem RoundTrip.penalty : RoundTrip.Statement .penalty := rfl
theorem RoundTrip.maskSelect : RoundTrip.Statement .maskSelect := rfl
theorem RoundTrip.formatEncode : RoundTrip.Statement .formatEncode := rfl
theorem RoundTrip.formatStamp : RoundTrip.Statement .formatStamp := rfl
theorem RoundTrip.versionEncode : RoundTrip.Statement .versionEncode := rfl
theorem RoundTrip.versionStamp : RoundTrip.Statement .versionStamp := rfl
theorem RoundTrip.encode : RoundTrip.Statement .encode := rfl

end Sys2Proof.Laws
end

