-- ==== Sys2Proof/Tests/Slice0.lean ====
section
/-! SUPPORT. The model's own tests: ill-formed commands, decoding of words written out from R100 and R101, one
step of every command against the examples of spec/, and a witness for the hypotheses of every statement. -/

namespace Sys2Proof.Tests

set_option maxRecDepth 100000
set_option Elab.async false

open Machine

/-! ### Ill-formed commands (R102): one for each check, just above its field -/

theorem test_wf_a8 : (Command.gfAdd 256 0).wf = false ∧ (Command.gfInv 256).wf = false := by decide
theorem test_wf_b8 : (Command.gfDiv 0 256).wf = false := by decide
theorem test_wf_a8_pow : (Command.gfPow 256 0).wf = false := by decide
theorem test_wf_e16 : (Command.gfPow 0 65536).wf = false := by decide
theorem test_wf_i16 : (Command.gfExp 65536).wf = false := by decide
theorem test_wf_t : (Command.rsGenpoly 256).wf = false := by decide
theorem test_wf_src : (Command.rsEncode 4096 0 0).wf = false := by decide
theorem test_wf_rlen : (Command.rsEncode 0 8192 0).wf = false := by decide
theorem test_wf_rs_t : (Command.rsEncode 0 0 256).wf = false := by decide
theorem test_wf_ver : (Command.capQuery 64 .L).wf = false ∧ (Command.scaffold 64).wf = false := by decide
theorem test_wf_ver_len : (Command.fitCheck 64 .L .byte 0).wf = false ∧
    (Command.buildData 1 .L .byte 65536).wf = false := by decide
theorem test_wf_select : (Command.selectVersion .byte 65536 none 0 0).wf = false ∧
    (Command.selectVersion .byte 0 none 64 0).wf = false ∧
    (Command.selectVersion .byte 0 none 0 64).wf = false := by decide
theorem test_wf_len : (Command.modeDetect 65536).wf = false := by decide
theorem test_wf_encode : (Command.encode 65536 0 none .auto 0 0).wf = false ∧
    (Command.encode 0 64 none .auto 0 0).wf = false ∧ (Command.encode 0 0 none .auto 64 0).wf = false ∧
    (Command.encode 0 0 none .auto 0 64).wf = false := by decide

/-! ### Decoding, one word a family, written out from the opcode map (R101) -/

theorem test_decode_pipeline : decode 0b00000000000000000000000010000000#32 = .ok .encode ∧
    decode 0b00000000000000000000000000000000#32 = .ok .nop := by decide
theorem test_decode_gf : decode 0b00000000000000000000000000010011#32 = .ok .gfDiv ∧
    decode 0b00000000000000000000000000000001#32 = .ok .gfInit := by decide
theorem test_decode_rs : decode 0b00000000000000000000000000100001#32 = .ok .rsEncode := by decide
theorem test_decode_capacity : decode 0b00000000000000000000000000110010#32 = .ok .selectVersion := by decide
theorem test_decode_data : decode 0b00000000000000000000000000111001#32 = .ok .buildData := by decide
theorem test_decode_block : decode 0b00000000000000000000000001000000#32 = .ok .blockAssemble := by decide
theorem test_decode_matrix : decode 0b00000000000000000000000001010001#32 = .ok .place := by decide
theorem test_decode_mask : decode 0b00000000000000000000000001100010#32 = .ok .maskSelect := by decide
theorem test_decode_metadata : decode 0b00000000000000000000000001110001#32 = .ok .formatStamp := by decide
theorem test_decode_reserved : decode 0x81 = .error (.reservedOpcode 0x81) ∧
    decode 0x100 = .error (.reservedBits 0x100) := by decide
/-- Every constructor, with the opcode column of R101 written out. -/
theorem test_decode_every_opcode :
    [0x00, 0x01, 0x10, 0x11, 0x12, 0x13, 0x14, 0x15, 0x16, 0x17, 0x20, 0x21, 0x30, 0x31, 0x32, 0x38, 0x39,
      0x40, 0x50, 0x51, 0x60, 0x61, 0x62, 0x70, 0x71, 0x72, 0x73, 0x80].map (decodeTableWord 32) =
    [Instr.nop, .gfInit, .gfAdd, .gfSub, .gfMul, .gfDiv, .gfInv, .gfPow, .gfExp, .gfLog, .rsGenpoly, .rsEncode,
      .capQuery, .fitCheck, .selectVersion, .modeDetect, .buildData, .blockAssemble, .scaffold, .place, .maskApply,
      .penalty, .maskSelect, .formatEncode, .formatStamp, .versionEncode, .versionStamp, .encode].map some := by
  decide
/-- `ENCODE 5, ver=1, ecc=L, mode=byte` of R111, field by field. -/
theorem test_operand_fields : commandOf .encode ⟨0x1401, 5, 0⟩ = .encode 5 1 (some .L) .byte 0 0 := by decide

/-! ### The state of the tests: IDLE, the field of 0x11D, chosen operands, MVER and memory -/

/-- The powers of `x` modulo 0x11D. -/
def expTable : List Byte :=
  [1, 2, 4, 8, 16, 32, 64, 128, 29, 58, 116, 232, 205, 135, 19, 38] ++
   [76, 152, 45, 90, 180, 117, 234, 201, 143, 3, 6, 12, 24, 48, 96, 192] ++
   [157, 39, 78, 156, 37, 74, 148, 53, 106, 212, 181, 119, 238, 193, 159, 35] ++
   [70, 140, 5, 10, 20, 40, 80, 160, 93, 186, 105, 210, 185, 111, 222, 161] ++
   [95, 190, 97, 194, 153, 47, 94, 188, 101, 202, 137, 15, 30, 60, 120, 240] ++
   [253, 231, 211, 187, 107, 214, 177, 127, 254, 225, 223, 163, 91, 182, 113, 226] ++
   [217, 175, 67, 134, 17, 34, 68, 136, 13, 26, 52, 104, 208, 189, 103, 206] ++
   [129, 31, 62, 124, 248, 237, 199, 147, 59, 118, 236, 197, 151, 51, 102, 204] ++
   [133, 23, 46, 92, 184, 109, 218, 169, 79, 158, 33, 66, 132, 21, 42, 84] ++
   [168, 77, 154, 41, 82, 164, 85, 170, 73, 146, 57, 114, 228, 213, 183, 115] ++
   [230, 209, 191, 99, 198, 145, 63, 126, 252, 229, 215, 179, 123, 246, 241, 255] ++
   [227, 219, 171, 75, 150, 49, 98, 196, 149, 55, 110, 220, 165, 87, 174, 65] ++
   [130, 25, 50, 100, 200, 141, 7, 14, 28, 56, 112, 224, 221, 167, 83, 166] ++
   [81, 162, 89, 178, 121, 242, 249, 239, 195, 155, 43, 86, 172, 69, 138, 9] ++
   [18, 36, 72, 144, 61, 122, 244, 245, 247, 243, 251, 235, 203, 139, 11, 22] ++
   [44, 88, 176, 125, 250, 233, 207, 131, 27, 54, 108, 216, 173, 71, 142]

/-- The logarithms of 0x11D; the entry of 0 is never read. -/
def logTable : List Byte :=
  [0, 0, 1, 25, 2, 50, 26, 198, 3, 223, 51, 238, 27, 104, 199, 75] ++
   [4, 100, 224, 14, 52, 141, 239, 129, 28, 193, 105, 248, 200, 8, 76, 113] ++
   [5, 138, 101, 47, 225, 36, 15, 33, 53, 147, 142, 218, 240, 18, 130, 69] ++
   [29, 181, 194, 125, 106, 39, 249, 185, 201, 154, 9, 120, 77, 228, 114, 166] ++
   [6, 191, 139, 98, 102, 221, 48, 253, 226, 152, 37, 179, 16, 145, 34, 136] ++
   [54, 208, 148, 206, 143, 150, 219, 189, 241, 210, 19, 92, 131, 56, 70, 64] ++
   [30, 66, 182, 163, 195, 72, 126, 110, 107, 58, 40, 84, 250, 133, 186, 61] ++
   [202, 94, 155, 159, 10, 21, 121, 43, 78, 212, 229, 172, 115, 243, 167, 87] ++
   [7, 112, 192, 247, 140, 128, 99, 13, 103, 74, 222, 237, 49, 197, 254, 24] ++
   [227, 165, 153, 119, 38, 184, 180, 124, 17, 68, 146, 217, 35, 32, 137, 46] ++
   [55, 63, 209, 91, 149, 188, 207, 205, 144, 135, 151, 178, 220, 252, 190, 97] ++
   [242, 86, 211, 171, 20, 42, 93, 158, 132, 60, 57, 83, 71, 109, 65, 162] ++
   [31, 45, 67, 216, 183, 123, 164, 118, 196, 23, 73, 236, 127, 12, 111, 246] ++
   [108, 161, 59, 82, 41, 157, 85, 170, 251, 96, 134, 177, 187, 204, 62, 90] ++
   [203, 89, 95, 176, 156, 169, 160, 81, 11, 245, 22, 235, 122, 117, 44, 215] ++
   [79, 174, 213, 233, 230, 231, 173, 232, 116, 214, 244, 234, 168, 80, 88, 175]

/-- The field of 0x11D as literal tables. -/
def field11D : GfField := ⟨0x11D, expTable ++ expTable ++ expTable.take 2, logTable⟩

theorem field11D_built : buildField polyReset = field11D := by decide +kernel

/-- An IDLE machine. -/
def st (a b c : Word) (mver : BitVec 6) (m : Memory) : State :=
  { State.resetHolding m with opa := a, opb := b, opc := c, mver := mver, field := field11D, phase := .idle }

theorem goodField11D : GoodField field11D :=
  ⟨by decide +kernel, by rw [show field11D.polyActive = polyReset from rfl, field11D_built]⟩

theorem st_ready (a b c : Word) (v : BitVec 6) {m : Memory} (h : legalMem m = true) : (st a b c v m).Ready :=
  ⟨⟨h, fun _ => goodField11D, nofun, nofun, (by decide : (0 : BitVec 4).toNat ≤ 9), nofun⟩, nofun⟩

/-- The same machine just after it has accepted a word. -/
def running (a b c : Word) (v : BitVec 6) (m : Memory) (w : Word) : State := (st a b c v m).accept w

theorem running_inv (a b c : Word) (v : BitVec 6) {m : Memory} (w : Word) (h : legalMem m = true) :
    (running a b c v m w).Inv :=
  ⟨h, fun _ => goodField11D, nofun, fun _ _ hp => (by injection hp with h1 h2; subst h1 h2; exact ⟨rfl, rfl, rfl, rfl, rfl, rfl, rfl⟩),
    (by decide : (0 : BitVec 4).toNat ≤ 9), nofun⟩

theorem running_ready (a b c : Word) (v : BitVec 6) {m : Memory} (w : Word) (h : legalMem m = true) :
    (running a b c v m w).Ready := ⟨running_inv a b c v w h, nofun⟩

/-- The state after a command. -/
def after (i : Instr) (s : State) : State :=
  match exec i s with
  | .next t => t
  | _ => s

/-- Bytes of IN_BUF from the start. -/
def input (bs : List Byte) : Memory := writeBytes [] (bytesAt inBase bs)
/-- Bytes of DATA_BUF from the start. -/
def data (bs : List Byte) : Memory := writeBytes [] (bytesAt dataBase bs)
/-- A version-1 matrix. -/
def matrix (f : Nat → Nat → Cell) : Memory :=
  writeBytes [] (gridWrites (fun _ _ => true) 0 (mapGrid (fun r c _ => f r c) (blankGrid 21)))

/-- "HELLO". -/
def hello : List Byte := [0x48, 0x45, 0x4C, 0x4C, 0x4F]
/-- The 19 data codewords of "HELLO" at 1-L in byte mode (R163, R218). -/
def helloData : List Byte :=
  [0x40, 0x54, 0x84, 0x54, 0xC4, 0xC4, 0xF0, 0xEC, 0x11, 0xEC, 0x11, 0xEC, 0x11, 0xEC, 0x11, 0xEC, 0x11, 0xEC, 0x11]
/-- Its seven parity codewords (R163). -/
def helloParity : List Byte := [77, 42, 211, 187, 159, 32, 132]

/-! ### One step of every command, against the examples of its rule -/

/-- R330. -/
theorem test_nop : (after .nop (st 0 0 0 0 [])).done = true ∧ (after .nop (st 0 0 0 0 [])).errcode = 0 := by decide
/-- R130: 0x11B is refused. -/
theorem test_gfInit_refuses : (after .gfInit { st 0 0 0 0 [] with poly := 0x11B }).errcode = 8 ∧
    (after .gfInit { st 0 0 0 0 [] with poly := 0x11B }).errinfo0 = 0x11B := by decide +kernel
/-- R130: 0x12B is taken. -/
theorem test_gfInit_takes : (after .gfInit { st 0 0 0 0 [] with poly := 0x12B }).field.polyActive = 0x12B := by
  decide +kernel
/-- R132. -/
theorem test_gfAdd : (after .gfAdd (st 0x53 0xCA 0 0 [])).res[0] = 0x99 := by decide
/-- R133. -/
theorem test_gfSub : (after .gfSub (st 0x01 0x80 0 0 [])).res[0] = 0x81 := by decide
/-- R134. -/
theorem test_gfMul : (after .gfMul (st 0x53 0xCA 0 0 [])).res[0] = 0x8F ∧
    (after .gfMul (st 0xFF 0xFF 0 0 [])).res[0] = 0xE2 := by decide +kernel
/-- R135. -/
theorem test_gfDiv : (after .gfDiv (st 0x53 0xCA 0 0 [])).res[0] = 0x6D := by decide +kernel
/-- R135: a zero divisor. -/
theorem test_gfDiv_zero : (after .gfDiv (st 5 0 0 0 [])).errcode = 4 ∧
    (after .gfDiv (st 5 0 0 0 [])).errinfo0 = 5 := by decide
/-- R136. -/
theorem test_gfInv : (after .gfInv (st 0x53 0 0 0 [])).res[0] = 0x8C := by decide +kernel
/-- R136: the inverse of zero is recorded as 1 / 0. -/
theorem test_gfInv_zero : (after .gfInv (st 0 0 0 0 [])).errinfo0 = 1 := by decide
/-- R137. -/
theorem test_gfPow : (after .gfPow (st 2 8 0 0 [])).res[0] = 0x1D ∧
    (after .gfPow (st 0x53 65535 0 0 [])).res[0] = 1 := by decide +kernel
/-- R137. -/
theorem test_gfPow_zero : (after .gfPow (st 0 0 0 0 [])).res[0] = 1 ∧
    (after .gfPow (st 0 1 0 0 [])).res[0] = 0 := by decide
/-- R138. -/
theorem test_gfExp : (after .gfExp (st 254 0 0 0 [])).res[0] = 0x8E ∧
    (after .gfExp (st 256 0 0 0 [])).res[0] = 2 := by decide +kernel
/-- R139. -/
theorem test_gfLog : (after .gfLog (st 0x53 0 0 0 [])).res[0] = 206 ∧
    (after .gfLog (st 0 0 0 0 [])).errcode = 5 := by decide +kernel
/-- R161. -/
theorem test_rsGenpoly : bytesOf (after .rsGenpoly (st 0 0 2 0 [])).mem genBase 3 = [1, 3, 2] ∧
    (after .rsGenpoly (st 0 0 2 0 [])).res[0] = 3 := by decide +kernel
/-- R163: the parity of "HELLO". -/
theorem test_rsEncode : bytesOf (after .rsEncode (st 0 19 7 0 (data helloData))).mem parBase 7 = helloParity := by
  decide +kernel
/-- R163: the slice leaves DATA_BUF. -/
theorem test_rsEncode_range : (after .rsEncode (st 4095 2 7 0 [])).errinfo0 = 4097 ∧
    (after .rsEncode (st 4095 2 7 0 [])).errinfo1 = 6 := by decide +kernel
/-- R185: `CAP_QUERY 7, M`. -/
theorem test_capQuery : (after .capQuery (st 0x107 0 0 0 [])).res.toList =
    [45, 196, 124, 18, 4, 0x00090803, 0x00261606, 0] := by decide +kernel
/-- R187: `FIT_CHECK 1, L, byte, 17`. -/
theorem test_fitCheck : (after .fitCheck (st 0x1001 17 0 0 [])).res.toList.take 4 = [1, 148, 152, 0] := by
  decide +kernel
/-- R187: 256 bytes exceed the count as well. -/
theorem test_fitCheck_count : (after .fitCheck (st 0x1001 256 0 0 [])).res.toList.take 4 = [0, 2060, 152, 1] := by
  decide +kernel
/-- R189: `SELECT_VERSION byte, 18, ecc=H`. -/
theorem test_selectVersion : (after .selectVersion (st 0x1700 18 0 0 [])).res.toList.take 2 = [3, 3] := by
  decide +kernel
/-- R189: `SELECT_VERSION byte, 18, maxv=1`. -/
theorem test_selectVersion_capacity : (after .selectVersion (st 0x1000 18 0x100 0 [])).errinfo0 = 0x00010012 ∧
    (after .selectVersion (st 0x1000 18 0x100 0 [])).errinfo1 = 0x00000101 := by decide +kernel
/-- R213: "AC-42". -/
theorem test_modeDetect : (after .modeDetect (st 0 5 0 0 (input [0x41, 0x43, 0x2D, 0x34, 0x32]))).res.toList.take 2 =
    [2, 5] := by decide +kernel
/-- R213: "hello". -/
theorem test_modeDetect_lower : (after .modeDetect (st 0 5 0 0 (input [0x68, 0x65, 0x6C, 0x6C, 0x6F]))).res.toList.take 2 =
    [1, 0] := by decide +kernel
/-- R218: "HELLO". -/
theorem test_buildData : bytesOf (after .buildData (st 0x1001 5 0 0 (input hello))).mem dataBase 19 = helloData ∧
    (after .buildData (st 0x1001 5 0 0 (input hello))).res.toList.take 5 = [19, 1, 52, 12, 4] := by decide +kernel
/-- R218: 17 bytes leave no pad byte. -/
theorem test_buildData_full : (after .buildData (st 0x1001 17 0 0 [])).res.toList.take 5 = [19, 1, 148, 0, 4] := by
  decide +kernel
/-- R233: a single block is data then parity. -/
theorem test_blockAssemble :
    bytesOf (after .blockAssemble (st 1 0 0 0 (data helloData))).mem ilvBase 26 = helloData ++ helloParity := by
  decide +kernel
/-- R255: `SCAFFOLD 1`. -/
theorem test_scaffold : (after .scaffold (st 1 0 0 0 [])).res.toList.take 2 = [21, 208] ∧
    memCell (after .scaffold (st 1 0 0 0 [])).mem 13 8 = ⟨.dark, true⟩ := by decide +kernel
/-- R259: after `SCAFFOLD 1` all 208 free cells take bits. -/
theorem test_place :
    (after .place (after .scaffold (st 1 0 0 0 [(ilvBase, 0x80)]))).res.toList.take 2 = [208, 0] := by decide +kernel
/-- R282: an unreserved light grid of version 1 has 221 cells with `r + c` even; a reserved one none. -/
theorem test_maskApply : (after .maskApply (st 0 0 0 1 (matrix fun _ _ => ⟨.light, false⟩))).res[0] = 221 ∧
    (after .maskApply (st 0 0 0 1 (matrix fun _ _ => ⟨.light, true⟩))).res[0] = 0 := by decide +kernel
/-- R289: all LIGHT but row 10 = 1 0 1 1 1 0 1 in columns 0 to 6. -/
theorem test_penalty : (after .penalty (st 0 0 0 1 (matrix fun r c =>
    ⟨if r = 10 ∧ c ∈ [0, 2, 3, 4, 6] then .dark else .light, false⟩))).res.toList.take 6 =
      [2064, 776, 1158, 40, 90, 5] := by decide +kernel
/-- R289: straight after SCAFFOLD the first UNSET cell is (0, 8). -/
theorem test_penalty_unset : (after .penalty (after .scaffold (st 1 0 0 0 []))).errinfo0 = 0x800 := by
  decide +kernel
/-- R292: the cells of an unreserved UNSET matrix; (0, 8) is a format cell and exempt, (0, 0) is not. -/
theorem test_maskSelect_unset : (after .maskSelect (st 0 0 0 1 [])).errcode = 9 ∧
    (after .maskSelect (st 0 0 0 1 [])).errinfo0 = 0 := by decide +kernel
/-- R292, R295: SCORE3 of "HELLO" byte 1-L. -/
theorem test_maskSelect : (after .maskSelect (after .place (after .scaffold
    (st 1 0 0 0 (writeBytes [] (bytesAt ilvBase (helloData ++ helloParity))))))).score[3] = 301 := by decide +kernel
/-- R311: `FORMAT_ENCODE L, 5`. -/
theorem test_formatEncode : (after .formatEncode (st 0x50000 0 0 0 [])).res[0] = 0x6318 := by decide
/-- R313: `FORMAT_STAMP L, 0` on version 1. -/
theorem test_formatStamp : (after .formatStamp (st 0 0 0 1 [])).res[0] = 0x77C4 ∧
    memCell (after .formatStamp (st 0 0 0 1 [])).mem 8 2 = ⟨.dark, true⟩ ∧
    memCell (after .formatStamp (st 0 0 0 1 [])).mem 8 3 = ⟨.light, true⟩ := by decide +kernel
/-- R315. -/
theorem test_versionEncode : (after .versionEncode (st 7 0 0 0 [])).res[0] = 0x07C94 ∧
    (after .versionEncode (st 6 0 0 0 [])).errinfo1 = 8 := by decide
/-- R317: version 7. -/
theorem test_versionStamp : memCell (after .versionStamp (st 0 0 0 7 [])).mem 0 36 = ⟨.dark, true⟩ := by
  decide +kernel
/-- R332: `ENCODE 5` of "HELLO". -/
theorem test_encode : (after .encode (st 0 5 0 0 (input hello))).res[0] = 1 ∧
    (after .encode (st 0 5 0 0 (input hello))).res[2] = 2 ∧
    (after .encode (st 0 5 0 0 (input hello))).res[7] = 26 := by decide +kernel
/-- R332: an explicit version that is too small, 18 bytes at 1-L. -/
theorem test_encode_capacity : (after .encode (st 0x1001 18 0 0 [])).errcode = 1 ∧
    (after .encode (st 0x1001 18 0 0 [])).errinfo1 = 0x101 := by decide +kernel

/-! ### The bus and the lifecycle -/

/-- R23: STATUS reads 1 in INIT and 8 after it. -/
theorem test_status : State.reset.readReg 0x008 = 1 ∧ State.reset.initialise.readReg 0x008 = 8 := by decide
/-- R78: a 32-bit write puts bits [7:0] lowest. -/
theorem test_littleEndian : (match (st 0 0 0 0 []).hostAccess ⟨0x1000, .word, .write 0x04030201⟩ with
    | .next t => bytesOf t.mem 0x1000 4 | _ => []) = [1, 2, 3, 4] := by decide +kernel
/-- R41: 0b01 is never stored. -/
theorem test_matrixByte : matrixByte 0xFD = 0x04 ∧ matrixByte 0xFF = 0x07 := by decide
/-- R76: an unaligned buffer access is a bus error. -/
theorem test_refused : (match (st 0 0 0 0 []).hostAccess ⟨0x1001, .half, .read⟩ with
    | .next t => t.resp | _ => none) = some ⟨0, true⟩ := by decide
/-- The very first step after reset runs a command word placed for it. -/
theorem test_withFetchWord : (match step (State.reset.withFetchWord 32 0x50) with
    | .next t => t.errcode | _ => 0) = 3 := by decide +kernel

/-! ### Witnesses: concrete states that meet the hypotheses of each statement, one a clause, at the ends of
their ranges -/

theorem inv_events {s : State} (h : s.Inv) (es : List Event) : ({ s with events := es } : State).Inv :=
  ⟨h.memory, h.field, h.starting, h.running, h.codes, h.named⟩

theorem ready_poly (p : Poly) : ({ st 0 0 0 0 [] with poly := p } : State).Ready :=
  ⟨⟨rfl, fun _ => goodField11D, nofun, nofun, (by decide : (0 : BitVec 4).toNat ≤ 9), nofun⟩, nofun⟩

/-- Every operand at the top of its field. -/
theorem witness_CanonicalCommandRoundTrip :
    (Command.encode 65535 63 (some .H) .unsupported 63 63).wf = true ∧ (Command.rsEncode 4095 8191 255).wf = true ∧
    (Command.gfPow 255 65535).wf = true := by decide

theorem witness_OnlyOperandFieldsMatter : ∃ s w x i o, State.phase s = .busy w x ∧ x.ops ≠ o ∧
    commandOf i x.ops = commandOf i o :=
  ⟨running 0x53 0xCA 0 0 [] 0x12, 0x12, _, .gfMul, ⟨0xFF53, 0xFFCA, 7⟩, rfl, by decide, by decide⟩

theorem witness_AcceptedWordIsDecodedFirst :
    (∀ w ∈ [0x02#32, 0x0F, 0x18, 0x1F, 0x22, 0x2F, 0x33, 0x37, 0x3A, 0x3F, 0x41, 0x4F, 0x52, 0x5F, 0x63, 0x6F, 0x74,
        0x7F, 0x81, 0xFF, 0x100, 0x80000000],
      (∃ e, decode w = .error e) ∧ ∃ x, (running 0 0 0 0 [] w).phase = .busy w x ∧ (running 0 0 0 0 [] w).events = []) ∧
    ∀ w ∈ [0x00#32, 0x01, 0x10, 0x17, 0x20, 0x21, 0x30, 0x32, 0x38, 0x39, 0x40, 0x50, 0x51, 0x60, 0x62, 0x70, 0x73,
        0x80],
      (∃ i, decode w = .ok i) ∧ ∃ x, (running 0 0 0 0 [] w).phase = .busy w x ∧ (running 0 0 0 0 [] w).events = [] := by
  constructor <;> intro w hw <;> refine ⟨?_, _, rfl, rfl⟩ <;>
    simp only [List.mem_cons, List.not_mem_nil, or_false] at hw <;> rcases hw with h | hw <;> subst_vars <;>
    first | exact ⟨_, rfl⟩ | (repeat' (rcases hw with h | hw)) <;> subst_vars <;> exact ⟨_, rfl⟩

theorem witness_StepRunsTheDecodedCommand :
    (∃ s w x i, State.phase s = .busy w x ∧ decode w = .ok i ∧ s.events = []) ∧
    ∃ s w x i es, State.phase s = .busy w x ∧ decode w = .ok i ∧ s.events = .sequencer :: es :=
  ⟨⟨running 0 0 0 0 [] 0x80, 0x80, _, .encode, rfl, rfl, rfl⟩,
    ⟨{ running 0 0 0 0 [] 0x80 with events := [.sequencer] }, 0x80, _, .encode, [], rfl, rfl, rfl⟩⟩

theorem witness_CommandWordAcceptance :
    (∃ s : State, s.events = [wr 0x00C 0x80] ∧ s.busy = false) ∧ (∃ s : State, s.events = [wr 0x00C 0x80] ∧ s.busy = true) ∧
    ∃ s : State, s.events = [.host ⟨0x00C, .word, .read⟩] :=
  ⟨⟨{ st 0 0 0 0 [] with events := [wr 0x00C 0x80] }, rfl, rfl⟩, ⟨{ State.reset with events := [wr 0x00C 0x80] }, rfl, rfl⟩,
    ⟨{ st 0 0 0 0 [] with events := [.host ⟨0x00C, .word, .read⟩] }, rfl⟩⟩

/-- Each kind of write, at the ends of each range of offsets. -/
theorem witness_WritesWhileBusy :
    (∀ off ∈ [0x000, 0x004, 0x008, 0x00C, 0x030, 0x034, 0x03C, 0x040, 0x07C, 0x080, 0x0FC], ∀ d : Word,
      ∃ s : State, s.busy = true ∧ s.events = [wr off d]) ∧
    (∀ off ∈ [0x100, 0x2FF, 0x1000, 0x5FFF, 0x8000, 0xFA60], inStorage off = true) ∧
    (∀ off ∈ [0x300, 0xFFF, 0x6000, 0x7FFF, 0xFA61, 0xFFFF], inStorage off = false) ∧
    ∀ (off : Nat) (d : Word), ∃ s : State, s.busy = true ∧ s.events = [.host ⟨off, .byte, .write d⟩] :=
  ⟨fun off _ d => ⟨{ running 0 0 0 0 [] 0 with events := [wr off d] }, rfl, rfl⟩, by decide, by decide,
    fun off d => ⟨{ running 0 0 0 0 [] 0 with events := [.host ⟨off, .byte, .write d⟩] }, rfl, rfl⟩⟩

/-- Refused: narrow, misaligned register, misaligned buffer; not refused: the edges of the window, and reserved
offsets. -/
theorem witness_RefusedAccesses :
    (Access.mk 0xFF .byte .read).refused = true ∧ (Access.mk 0xFE .word .read).refused = true ∧
    (Access.mk 0x1001 .half .read).refused = true ∧ (Access.mk 0xFA5E .word .read).refused = true ∧
    (Access.mk 0xFC .word .read).refused = false ∧ (Access.mk 0x5FFC .word .read).refused = false ∧
    (Access.mk 0xFFFC .word .read).refused = false ∧ (Access.mk 0x6001 .word .read).refused = false ∧
    ∀ a : Access, ∃ s : State, s.events = [.host a] :=
  ⟨by decide, by decide, by decide, by decide, by decide, by decide, by decide, by decide,
    fun a => ⟨{ st 0 0 0 0 [] with events := [.host a] }, rfl⟩⟩

theorem witness_HostWriteStoresLittleEndian : ∀ off ∈ [0x100, 0x1000, 0x5FFC, 0x8000, 0xFA60, 0xFFFC],
    ∃ s : State, s.Inv ∧ s.phase = .idle ∧ s.events = [.host ⟨off, .word, .write 0x04030201⟩] ∧ 0x100 ≤ off ∧
      off + Width.word.bytes ≤ 0x10000 ∧ off % Width.word.bytes = 0 := by
  intro off h
  refine ⟨{ st 0 0 0 0 [] with events := _ }, inv_events (st_ready 0 0 0 0 rfl).inv _, rfl, rfl, ?_⟩
  revert off; decide

theorem witness_HostReadIsLittleEndian : ∀ off ∈ [0x100, 0x1000, 0x5FFC, 0x8000, 0xFA60, 0xFFFC],
    ∃ s : State, s.Inv ∧ (∀ w x, s.phase ≠ .busy w x) ∧ s.events = [.host ⟨off, .word, .read⟩] ∧ 0x100 ≤ off ∧
      off + Width.word.bytes ≤ 0x10000 ∧ off % Width.word.bytes = 0 := by
  intro off h
  refine ⟨{ st 0 0 0 0 [] with events := _ }, inv_events (st_ready 0 0 0 0 rfl).inv _, nofun, rfl, ?_⟩
  revert off; decide

theorem witness_MatrixBytesAreLegalCells :
    (∀ q ∈ [(0, 0), (0, 176), (176, 0), (176, 176)], ∃ s : State, s.Inv ∧ s.phase = .idle ∧ q.1 < 177 ∧ q.2 < 177 ∧
      s.events = [.host ⟨0x8000 + 177 * q.1 + q.2, .byte, .write ((0xFD : Byte).setWidth 32)⟩]) ∧
    ∀ k ∈ [31329, 32767], ∃ s : State, s.events = [.host ⟨0x8000 + k, .byte, .read⟩] := by
  refine ⟨fun q h => ⟨{ st 0 0 0 0 [] with events := _ }, inv_events (st_ready 0 0 0 0 rfl).inv _, rfl, ?_, ?_, rfl⟩,
    fun k _ => ⟨{ st 0 0 0 0 [] with events := _ }, rfl⟩⟩ <;> revert q <;> decide

theorem witness_RegisterReads : ∀ off ∈ [0x000, 0x004, 0x008, 0x00C, 0x010, 0x014, 0x018, 0x01C, 0x020, 0x024, 0x028,
      0x02C, 0x030, 0x034, 0x03C, 0x040, 0x05C, 0x060, 0x07C, 0x080, 0x0FC],
    off % 4 = 0 ∧ off < 0x100 ∧ (∃ s : State, s.events = [.host ⟨off, .word, .read⟩]) ∧
      ∃ s : State, s.phase = .idle ∧ s.events = [wr off 0x7FFFFFFD] ∧ (0x7FFFFFFD#32).getLsbD 1 = false :=
  fun off h => ⟨by revert off; decide, by revert off; decide, ⟨{ st 0 0 0 0 [] with events := _ }, rfl⟩,
    { st 0 0 0 0 [] with events := _ }, rfl, rfl, by decide⟩

/-- A running RS_GENPOLY of degree 0 writes GEN_BUF[0] alone. -/
theorem witness_ReadsBesideTheWriteSet : ∃ (s : State) (w : Word) (x : Snapshot), s.Inv ∧ s.phase = .busy w x ∧
    s.events = [.host ⟨0x100, .half, .read⟩] ∧ 0x100 ∈ s.writeSet ∧ 0x101 ∉ s.writeSet :=
  ⟨{ running 0 0 0 0 [] 0x20 with events := _ }, 0x20, _, inv_events (running_inv 0 0 0 0 _ rfl) _, rfl, rfl,
    by decide, by decide⟩

theorem witness_WriteSetCoversTheCommand :
    (∃ s t w x i, State.Inv s ∧ s.phase = .busy w x ∧ decode w = .ok i ∧ exec i s = .next t) ∧
    ∃ s t w x i, State.Inv s ∧ s.phase = .busy w x ∧ decode w = .ok i ∧ exec i s = .next t ∧ t.err = true :=
  ⟨⟨running 0 0 0 0 [] 0x20, _, 0x20, _, .rsGenpoly, running_inv 0 0 0 0 _ rfl, rfl, rfl, rfl⟩,
    ⟨running 0 0 0 0 [] 0x14, _, 0x14, _, .gfInv, running_inv 0 0 0 0 _ rfl, rfl, rfl, rfl, by decide⟩⟩

/-- A completing command of each kind that writes bytes, and one that writes none. -/
theorem witness_WriteSetsByCommand :
    (∀ p ∈ [(0x20#32, Instr.rsGenpoly), (0x21, .rsEncode), (0x39, .buildData), (0x40, .blockAssemble), (0x50, .scaffold),
        (0x51, .place), (0x60, .maskApply), (0x71, .formatStamp), (0x80, .encode), (0x00, .nop)],
      decode p.1 = .ok p.2 ∧ (after p.2 (running 0x1001 0 0 1 [] p.1)).err = false) ∧
    (decode 0x73 = .ok .versionStamp ∧ (after .versionStamp (running 0 0 0 40 [] 0x73)).err = false) ∧
    (decode 0x62 = .ok .maskSelect ∧
      (after .maskSelect (running 0 0 0 1 (matrix fun _ _ => ⟨.light, true⟩) 0x62)).err = false) ∧
    (∀ w, (running 0x1001 0 0 1 [] w).Inv) ∧ (running 0 0 0 40 [] 0x73).Inv ∧
    (running 0 0 0 1 (matrix fun _ _ => ⟨.light, true⟩) 0x62).Inv :=
  ⟨by decide +kernel, by decide +kernel, by decide +kernel, fun w => running_inv _ _ _ _ w rfl, running_inv _ _ _ _ _ rfl,
    running_inv _ _ _ _ _ (by decide +kernel)⟩

theorem witness_SoftReset :
    (∃ s : State, s.Inv ∧ s.events = [wr 0x004 3] ∧ ∃ w x, s.phase = .busy w x) ∧
    (∃ s : State, s.Inv ∧ s.events = [wr 0x004 2] ∧ ∀ w x, s.phase ≠ .busy w x) ∧ (2 : Word).getLsbD 1 = true ∧
    (3 : Word).getLsbD 1 = true :=
  ⟨⟨{ running 0 0 0 0 [] 0x20 with events := _ }, inv_events (running_inv 0 0 0 0 _ rfl) _, rfl, _, _, rfl⟩,
    ⟨{ st 0 0 0 0 [] with events := _ }, inv_events (st_ready 0 0 0 0 rfl).inv _, rfl, nofun⟩, by decide, by decide⟩

/-- Contents in any order with a byte of both kinds, and contents that are a legal memory. -/
theorem witness_PowerOnReset :
    (∃ s : State, s.events = [.powerOn [(0x8000, 0xFF), (0x1000, 1)]] ∧ inStorage 0x8000 = true ∧ inMatrix 0x8000 = true ∧
      (0x8000, 0xFF) ∈ [((0x8000, 0xFF) : Host.Cell), (0x1000, 1)] ∧ inStorage 0x1000 = true ∧ inMatrix 0x1000 = false ∧
      ∀ y, (0x8000, y) ∈ [((0x8000, 0xFF) : Host.Cell), (0x1000, 1)] → y = 0xFF) ∧
    legalMem [(0x1000, 1), (0x8000, 7)] = true ∧ ∃ s : State, s.events = [.powerOn [(0x1000, 1), (0x8000, 7)]] :=
  ⟨⟨{ st 0 0 0 0 [] with events := _ }, rfl, by decide, by decide, by decide, by decide, by decide, fun y h => by
      simpa using h⟩, by decide, { st 0 0 0 0 [] with events := _ }, rfl⟩

theorem witness_StepKeepsTheInvariant :
    (∃ s t : State, s.Inv ∧ step s = .next t ∧ s.phase = .idle) ∧
    (∃ s t w x, State.Inv s ∧ step s = .next t ∧ s.phase = .busy w x) ∧
    ∃ s t : State, s.Inv ∧ step s = .next t ∧ s.events = [wr 0x00C 0x80] :=
  ⟨⟨st 0 0 0 0 [], _, (st_ready 0 0 0 0 rfl).inv, rfl, rfl⟩,
    ⟨running 0 0 0 0 [] 0x20, _, 0x20, _, running_inv 0 0 0 0 _ rfl, rfl, rfl⟩,
    ⟨{ st 0 0 0 0 [] with events := _ }, _, inv_events (st_ready 0 0 0 0 rfl).inv _, rfl, rfl⟩⟩

theorem witness_EveryCommandCompletes : ∃ s : State, s.phase ≠ .idle ∧ s.events = [wr 0x00C 0x80, .sequencer] ∧
    ∀ a, Event.host a ∈ s.events → a.offset + a.width.bytes ≤ 0x10000 :=
  ⟨{ State.reset with events := [wr 0x00C 0x80, .sequencer] }, nofun, rfl, fun a h => by
    simp only [wr, List.mem_cons, Event.host.injEq, reduceCtorEq, List.not_mem_nil, or_false] at h
    subst h; decide⟩

theorem witness_InterruptLine :
    (∀ w ∈ [0x10#32, 0x14, 0x81], ∃ s x, State.ie s = true ∧ s.phase = .busy w x) ∧
    (∃ s t, step s = .next t ∧ State.done s = false ∧ State.done t = true) ∧
    (∃ s t i, exec i s = .next t ∧ State.ie s = true) ∧ (∃ s : State, s.done = true ∧ s.events = [wr 0x004 1]) ∧
    (∃ s : State, s.ie = true ∧ s.done = true ∧ s.events = [wr 0x008 2]) ∧
    (∃ s : State, s.phase = .idle ∧ s.ie = true ∧ s.done = true ∧ s.events = [wr 0x00C 0]) ∧
    ∃ s : State, s.ie = true ∧ s.done = true ∧ s.events = [.powerOn []] :=
  ⟨fun w _ => ⟨{ running 0 0 0 0 [] w with ie := true }, _, rfl, rfl⟩,
    ⟨running 0 0 0 0 [] 0x10, _, rfl, rfl, rfl⟩,
    ⟨{ st 0 0 0 0 [] with ie := true }, _, .nop, rfl, rfl⟩,
    ⟨{ st 0 0 0 0 [] with done := true, events := _ }, rfl, rfl⟩,
    ⟨{ st 0 0 0 0 [] with ie := true, done := true, events := _ }, rfl, rfl, rfl⟩,
    ⟨{ st 0 0 0 0 [] with ie := true, done := true, events := _ }, rfl, rfl, rfl, rfl⟩,
    ⟨{ st 0 0 0 0 [] with ie := true, done := true, events := _ }, rfl, rfl, rfl⟩⟩

theorem witness_CompletionIsPrecise : ∀ w ∈ [0x10#32, 0x14, 0x81], ∃ (s : State) (x : Snapshot), s.Inv ∧
    s.phase = .busy w x ∧ s.events = [] :=
  fun w _ => ⟨running 0 0 0 0 [] w, _, running_inv 0 0 0 0 w rfl, rfl, rfl⟩

theorem witness_ErrorsByCommand : ∃ s t w x i, State.Inv s ∧ s.phase = .busy w x ∧ decode w = .ok i ∧
    exec i s = .next t ∧ t.err = true :=
  ⟨running 0 0 0 0 [] 0x73, _, 0x73, _, .versionStamp, running_inv 0 0 0 0 _ rfl, rfl, rfl, rfl, by decide⟩

theorem witness_CanonicalLineRunsItsCommand : ∃ s : State, s.phase = .idle := ⟨st 0 0 0 0 [], rfl⟩

theorem witness_OnlyTheNamedCommandsWrite : ∃ s t : State, s.Ready ∧ exec .rsGenpoly s = .next t ∧
    readByte t.mem genBase ≠ readByte s.mem genBase :=
  ⟨st 0 0 0 0 [], _, st_ready 0 0 0 0 rfl, rfl, by decide⟩

theorem witness_ReservedCellsAreKept :
    (∀ i ∈ [Instr.formatStamp, .place, .maskApply], ∃ s t : State, s.Ready ∧ exec i s = .next t ∧
      (memCell s.mem 20 20).res = true) ∧
    ∃ s t : State, s.Ready ∧ exec .place s = .next t ∧ memCell t.mem 20 20 ≠ memCell s.mem 20 20 :=
  ⟨fun i _ => ⟨st 0 0 0 1 [(cellOffset 20 20, 7)], _, st_ready 0 0 0 1 rfl, exec_finish i _, rfl⟩,
    ⟨st 0 0 0 1 [], _, st_ready 0 0 0 1 rfl, rfl, by decide +kernel⟩⟩

/-- `k` products by `x` from `a` on, none of them 1. -/
def neverOne (p : Poly) : Nat → Byte → Bool
  | 0, _ => true
  | k + 1, a => polyProduct p a 2 != 1 && neverOne p k (polyProduct p a 2)

theorem neverOne_spec (p : Poly) : ∀ (k j : Nat), neverOne p k (polyPower p 2 j) = true →
    ∀ i, j < i → i ≤ j + k → polyPower p 2 i ≠ 1
  | 0, _, _ => fun _ _ _ => by omega
  | k + 1, j, h => fun i h1 h2 => by
    simp only [neverOne, Bool.and_eq_true, bne_iff_ne] at h
    by_cases hi : i = j + 1
    · subst hi; exact h.1
    · exact neverOne_spec p k (j + 1) h.2 i (by omega) (by omega)

theorem witness_GfInitBuildsTheTables : (∃ s : State, s.Ready ∧ IsPrimitive s.poly) ∧
    ∀ p ∈ [(0 : Poly), 0x11B], ∃ s : State, s.Ready ∧ s.poly = p ∧ ¬ IsPrimitive s.poly :=
  ⟨⟨st 0 0 0 0 [], st_ready 0 0 0 0 rfl, by decide, by decide +kernel, fun k h1 h2 =>
      neverOne_spec polyReset 254 0 (by decide +kernel) k h1 (by omega)⟩,
    fun p hp => by
      refine ⟨{ st 0 0 0 0 [] with poly := p }, ready_poly p, rfl, fun h => ?_⟩
      simp only [List.mem_cons, List.not_mem_nil, or_false] at hp
      rcases hp with rfl | rfl
      · exact absurd h.1 (by decide)
      · exact h.2.2 51 (by decide) (by decide) (by decide +kernel)⟩

/-- Ready states with any operand registers, for GfAddSubIsXor, GfMulIsThePolynomialProduct, GfPowIsTheRepeatedProduct,
GfExpIsThePowerOfX, RsGenpolyWritesTheGenerator and FormatEncodeIsTheBchWord. -/
theorem witness_GfArithmetic : ∀ a b c : Word, ∃ s : State, s.Ready ∧ s.opa = a ∧ s.opb = b ∧ s.opc = c :=
  fun a b c => ⟨st a b c 0 [], st_ready a b c 0 rfl, rfl, rfl, rfl⟩

theorem witness_GfDivInvIsTheQuotient : (∃ s : State, s.Ready ∧ s.ops.b8 = 0 ∧ s.ops.a8 = 0) ∧
    ∃ s : State, s.Ready ∧ s.ops.b8 ≠ 0 ∧ s.ops.a8 ≠ 0 :=
  ⟨⟨st 0 0 0 0 [], st_ready 0 0 0 0 rfl, by decide, by decide⟩, ⟨st 255 255 0 0 [], st_ready _ _ 0 0 rfl, by decide, by decide⟩⟩

theorem witness_GfLogIsTheExponent : (∃ s : State, s.Ready ∧ s.ops.a8 = 0) ∧ ∃ s : State, s.Ready ∧ s.ops.a8 ≠ 0 :=
  ⟨⟨st 0 0 0 0 [], st_ready 0 0 0 0 rfl, by decide⟩, ⟨st 255 0 0 0 [], st_ready _ 0 0 0 rfl, by decide⟩⟩

theorem witness_FieldLaws : GoodField field11D := goodField11D

theorem witness_RsEncodeMakesACodeword : (∃ s : State, s.Ready ∧ s.ops.src.toNat + s.ops.rlen.toNat = 4097) ∧
    ∃ s : State, s.Ready ∧ s.ops.src.toNat + s.ops.rlen.toNat = 4096 ∧ s.ops.t.toNat = 255 :=
  ⟨⟨st 0 4097 0 0 [], st_ready _ _ _ _ rfl, by decide⟩, ⟨st 0 4096 255 0 [], st_ready _ _ _ _ rfl, by decide, by decide⟩⟩

/-- VER and MVER at 0, 1, 6, 7, 40, 41 and 63: the ends of every range that a version is checked against, for CapQueryReadsTheRom, BlockAssembleInterleavesCodewords, ScaffoldWritesEveryPattern,
ScaffoldLaws, PlaceFillsTheFreeCells, MaskApplyInvertsTheMaskedCells, FormatStampWritesTheFormatCells,
VersionEncodeIsTheBchWord and VersionStampWritesTheVersionCells. -/
theorem witness_versions : ∀ v ∈ [0, 1, 6, 7, 40, 41, 63], ∃ s : State, s.Ready ∧ s.ops.ver.toNat = v ∧
    s.mver.toNat = v := by
  intro v h
  refine ⟨st (BitVec.ofNat 32 v) 0 0 (BitVec.ofNat 6 v) [], st_ready _ _ _ _ rfl, ?_⟩
  revert v; decide

/-- FIT_CHECK: no mode, a fitting payload, one too long, and one too long to count. -/
theorem witness_FitCheckReportsTheFit :
    (∃ s : State, s.Ready ∧ s.ops.ver.toNat = 1 ∧ s.ops.mode = .auto) ∧
    (∃ s : State, s.Ready ∧ s.ops.ver.toNat = 40 ∧ s.ops.mode = .unsupported) ∧
    (∃ s : State, s.Ready ∧ s.ops.ver.toNat = 1 ∧ s.ops.mode = fieldOf .byte ∧ s.ops.len.toNat = 17 ∧ Fits .byte 17 1 .L) ∧
    (∃ s : State, s.Ready ∧ s.ops.ver.toNat = 1 ∧ s.ops.mode = fieldOf .byte ∧ s.ops.len.toNat = 18 ∧ ¬ Fits .byte 18 1 .L) ∧
    ∃ s : State, s.Ready ∧ s.ops.ver.toNat = 1 ∧ s.ops.mode = fieldOf .alnum ∧ s.ops.len.toNat = 512 ∧
      2 ^ cci .alnum 1 - 1 < 512 := by
  exact ⟨⟨st 1 0 0 0 [], st_ready _ _ _ _ rfl, by decide, by decide⟩,
    ⟨st 0x3028 0 0 0 [], st_ready _ _ _ _ rfl, by decide, by decide⟩,
    ⟨st 0x1001 17 0 0 [], st_ready _ _ _ _ rfl, by decide, by decide, by decide, by unfold Fits; decide⟩,
    ⟨st 0x1001 18 0 0 [], st_ready _ _ _ _ rfl, by decide, by decide, by decide, by unfold Fits; decide⟩,
    ⟨st 0x2001 512 0 0 [], st_ready _ _ _ _ rfl, by decide, by decide, by decide, by decide⟩⟩

theorem firstFit_17 : FirstFit .byte 17 1 40 none 1 .L :=
  ⟨by decide, by decide, .inl rfl, by unfold Fits; decide, fun v' e' h _ _ => by
    have : eccOrdinal .L = 0 := rfl
    omega⟩

theorem not_fits_long (m : Mode) (v : Nat) (e : Ecc) (h : v ≤ 40) : ¬ Fits m 65535 v e := by
  unfold Fits
  intro ⟨_, h2⟩
  have h3 : dataCw v e ≤ 3706 := by
    interval_cases v <;> cases e <;> decide
  have : 65535 ≤ payload m 65535 := by cases m <;> decide
  omega

/-- SELECT_VERSION: each bound out of range, both in the wrong order, no mode, a payload that fits at once, and one
that fits nowhere. -/
theorem witness_SelectVersionTakesTheFirstFit :
    (∃ s : State, s.Ready ∧ s.ops.minv.toNat = 41) ∧ (∃ s : State, s.Ready ∧ s.ops.minv.toNat = 40 ∧ s.ops.maxv.toNat = 41) ∧
    (∃ s : State, s.Ready ∧ s.ops.minv.toNat = 40 ∧ s.ops.maxv.toNat = 39) ∧
    (∃ s : State, s.Ready ∧ s.ops.minv.toNat = 40 ∧ s.ops.maxv.toNat = 40 ∧ concreteMode s.ops.mode = none) ∧
    (∃ s : State, s.Ready ∧ s.ops.minv.toNat = 0 ∧ s.ops.maxv.toNat = 0 ∧ s.ops.mode = fieldOf .byte ∧
      FirstFit .byte s.ops.len.toNat (lowBound 0) (highBound 0) s.ops.eccOpt 1 .L) ∧
    ∃ s : State, s.Ready ∧ s.ops.minv.toNat = 0 ∧ s.ops.maxv.toNat = 0 ∧ s.ops.mode = fieldOf .byte ∧
      ∀ v e, 1 ≤ v → v ≤ 40 → MayTry s.ops.eccOpt e → ¬ Fits .byte s.ops.len.toNat v e :=
  ⟨⟨st 0 0 41 0 [], st_ready _ _ _ _ rfl, by decide⟩, ⟨st 0 0 0x2928 0 [], st_ready _ _ _ _ rfl, by decide, by decide⟩,
    ⟨st 0 0 0x2728 0 [], st_ready _ _ _ _ rfl, by decide, by decide⟩,
    ⟨st 0 0 0x2828 0 [], st_ready _ _ _ _ rfl, by decide, by decide, by decide⟩,
    ⟨st 0x1000 17 0 0 [], st_ready _ _ _ _ rfl, by decide, by decide, by decide, firstFit_17⟩,
    ⟨st 0x1000 0xFFFF 0 0 [], st_ready _ _ _ _ rfl, by decide, by decide, by decide,
      fun v e _ h _ => not_fits_long .byte v e h⟩⟩

/-- MODE_DETECT: LEN 8193, LEN 8192, an empty input that is alphanumeric, and a byte 0 that is not. -/
theorem witness_ModeDetectFindsTheFirstBadByte : (∃ s : State, s.Ready ∧ s.ops.len.toNat = 8193) ∧ (∃ s : State, s.Ready ∧ s.ops.len.toNat = 8192) ∧
    (∃ s : State, s.Ready ∧ s.ops.len.toNat = 0 ∧ AllAlnum s.inputBytes) ∧
    ∃ s : State, s.Ready ∧ s.ops.len.toNat = 1 ∧ ¬ AllAlnum s.inputBytes :=
  ⟨⟨st 0 8193 0 0 [], st_ready _ _ _ _ rfl, by decide⟩, ⟨st 0 8192 0 0 [], st_ready _ _ _ _ rfl, by decide⟩,
    ⟨st 0 0 0 0 [], st_ready _ _ _ _ rfl, by decide, fun _ h => nomatch h⟩,
    ⟨st 0 1 0 0 [], st_ready _ _ _ _ rfl, by decide, fun h => h 0 (by decide) (by decide)⟩⟩

theorem witness_BuildDataWritesTheBitstream :
    (∃ s : State, s.Ready ∧ s.ops.ver.toNat = 1 ∧ s.ops.len.toNat = 17 ∧ ResolvesTo s.ops.mode s.inputBytes .byte ∧
      Fits .byte 17 1 s.ops.ecc) ∧
    ∃ s : State, s.Ready ∧ s.ops.ver.toNat = 40 ∧ s.ops.len.toNat = 0 ∧ ResolvesTo s.ops.mode s.inputBytes .alnum ∧
      Fits .alnum 0 40 s.ops.ecc :=
  ⟨⟨st 0x1001 17 0 0 [], st_ready _ _ _ _ rfl, by decide, by decide, rfl, by unfold Fits; decide⟩,
    ⟨st 40 0 0 0 [], st_ready _ _ _ _ rfl, by decide, by decide, .inl ⟨nofun, rfl⟩, by unfold Fits; decide⟩⟩

/-- BUILD_DATA and ENCODE: the refused mode, a byte outside the set, and 18 bytes at 1-L. -/
theorem witness_BuildDataErrors :
    (∃ s : State, s.Ready ∧ s.ops.ver.toNat = 1 ∧ s.ops.len.toNat = 8193) ∧
    (∃ s : State, s.Ready ∧ s.ops.ver.toNat = 1 ∧ s.ops.len.toNat = 8192 ∧ s.ops.mode = .unsupported) ∧
    (∃ s : State, s.Ready ∧ s.ops.ver.toNat = 40 ∧ s.ops.len.toNat = 1 ∧ s.ops.mode = .alnum ∧ FirstBad s.inputBytes 0) ∧
    ∃ s : State, s.Ready ∧ s.ops.ver.toNat = 1 ∧ s.ops.len.toNat = 18 ∧ ResolvesTo s.ops.mode s.inputBytes .byte ∧
      ¬ Fits .byte 18 1 s.ops.ecc :=
  ⟨⟨st 1 8193 0 0 [], st_ready _ _ _ _ rfl, by decide, by decide⟩,
    ⟨st 0x3001 8192 0 0 [], st_ready _ _ _ _ rfl, by decide, by decide, by decide⟩,
    ⟨st 0x2028 1 0 0 [], st_ready _ _ _ _ rfl, by decide, by decide, by decide, by decide, by decide, fun _ h => nomatch h⟩,
    ⟨st 0x1001 18 0 0 [], st_ready _ _ _ _ rfl, by decide, by decide, rfl, by unfold Fits; decide⟩⟩

theorem memCell_matrix (f : Nat → Nat → Cell) {r c : Nat} (hr : r < 21) (hc : c < 21) :
    memCell (matrix f) r c = f r c := by
  rw [matrix, memCell_gridWrites rfl (isSquare_mapGrid (isSquare_blankGrid 21) _) (by decide) hr hc, if_pos rfl,
    cellAt_mapGrid (isSquare_blankGrid 21) _ hr hc]

theorem light_set : ∀ r < 21, ∀ c < 21, (memCell (matrix fun _ _ => ⟨.light, false⟩) r c).mod ≠ .unset :=
  fun r hr c hc => by rw [memCell_matrix _ hr hc]; decide

theorem matrix_legal : legalMem (matrix fun _ _ => ⟨.light, false⟩) = true := by decide +kernel

/-- PENALTY and MASK_SELECT: an all-LIGHT grid, and one with UNSET cells. -/
theorem witness_PenaltyScoresTheGrid :
    (∃ s : State, s.Ready ∧ s.mver.toNat = 1 ∧ ∀ r c, r < 21 → c < 21 → (memCell s.mem r c).mod ≠ .unset) ∧
    ∃ s : State, s.Ready ∧ s.mver.toNat = 40 ∧ FirstCell 177 (fun r c => (memCell s.mem r c).mod = .unset) 0 0 :=
  ⟨⟨st 0 0 0 1 _, st_ready _ _ _ _ matrix_legal, by decide, fun r c hr hc => light_set r hr c hc⟩,
    ⟨st 0 0 0 40 [], st_ready _ _ _ _ rfl, by decide, by decide, by decide, by decide, fun r' c' _ _ _ => by omega⟩⟩

theorem witness_MaskSelectTakesTheLowestScore :
    (∃ s : State, s.Ready ∧ s.mver.toNat = 1 ∧
      ∀ r c, r < 21 → c < 21 → formatBitAt 21 r c = none → (memCell s.mem r c).mod ≠ .unset) ∧
    ∃ s : State, s.Ready ∧ s.mver.toNat = 40 ∧
      FirstCell 177 (fun r c => (memCell s.mem r c).mod = .unset ∧ formatBitAt 177 r c = none) 0 0 :=
  ⟨⟨st 0 0 0 1 _, st_ready _ _ _ _ matrix_legal, by decide, fun r c hr hc _ => light_set r hr c hc⟩,
    ⟨st 0 0 0 40 [], st_ready _ _ _ _ rfl, by decide, by decide, by decide, by decide, fun r' c' _ _ _ => by omega⟩⟩

theorem witness_MaskTwiceRestores :
    (∃ s : State, s.Inv ∧ s.phase = .idle ∧ s.mver = 1 ∧ (memCell s.mem 0 0).mod ≠ .unset) ∧
    ∃ s t u : State, s.Ready ∧ exec .maskApply s = .next t ∧ exec .maskApply t = .next u ∧ s.mver = 1 :=
  ⟨⟨st 0 0 0 1 _, (st_ready _ _ _ _ matrix_legal).inv, rfl, rfl, light_set 0 (by decide) 0 (by decide)⟩,
    st 0 0 0 1 _, _, _, st_ready _ _ _ _ matrix_legal, rfl, rfl, rfl⟩

theorem witness_NopWritesOnlyStatus : ∃ (s : State) (w : Word) (x : Snapshot), s.phase = .busy w x ∧ s.events = [] ∧
    w.extractLsb' 0 8 = 0 ∧ w ≠ 0 :=
  ⟨running 0 0 0 0 [] 0x100, 0x100, _, rfl, rfl, by decide, by decide⟩

theorem encodeChoice_auto : EncodeChoice (st 0 0 0 0 []) .alnum 1 .L :=
  { ver := by decide, minv := by decide, maxv := by decide, bounds := by decide, len := by decide
    mode := .inl ⟨nofun, rfl⟩
    explicit := fun h => absurd rfl h
    search := fun _ => ⟨by decide, by decide, .inl rfl, by unfold Fits; decide, fun v' e' h _ _ => by
      have h1 : eccOrdinal .L = 0 := rfl
      have h2 : lowBound (st 0 0 0 0 []).ops.minv.toNat = 1 := rfl
      omega⟩ }

theorem encodeChoice_explicit : EncodeChoice (st 0x1028 17 0 0 []) .byte 40 .L :=
  { ver := by decide, minv := by decide, maxv := by decide, bounds := by decide, len := by decide
    mode := rfl
    explicit := fun _ => ⟨by decide, by decide, by unfold Fits; decide⟩
    search := fun h => absurd h (by decide) }

/-- ENCODE with its checks passed: the empty input at 1-L by search, and an explicit version 40. -/
theorem witness_EncodeCompletesTheGrid : (∃ s : State, s.Ready ∧ EncodeChoice s .alnum 1 .L) ∧
    ∃ s : State, s.Ready ∧ EncodeChoice s .byte 40 .L :=
  ⟨⟨_, st_ready _ _ _ _ rfl, encodeChoice_auto⟩, ⟨_, st_ready _ _ _ _ rfl, encodeChoice_explicit⟩⟩

theorem witness_EncodeEqualsTheComponents : ∃ (s : State) (m : Mode) (v : Nat) (e : Ecc), s.Ready ∧ EncodeChoice s m v e :=
  ⟨_, .alnum, 1, .L, st_ready _ _ _ _ rfl, encodeChoice_auto⟩

/-- ENCODE with each check failing in turn. -/
theorem witness_EncodeErrors :
    (∃ s : State, s.Ready ∧ s.ops.ver.toNat = 41) ∧ (∃ s : State, s.Ready ∧ s.ops.ver.toNat = 40 ∧ s.ops.minv.toNat = 41) ∧
    (∃ s : State, s.Ready ∧ s.ops.minv.toNat = 40 ∧ s.ops.maxv.toNat = 41) ∧
    (∃ s : State, s.Ready ∧ s.ops.minv.toNat = 2 ∧ s.ops.maxv.toNat = 1) ∧
    (∃ s : State, s.Ready ∧ lowBound s.ops.minv.toNat = 1 ∧ highBound s.ops.maxv.toNat = 40 ∧ s.ops.len.toNat = 8193) ∧
    (∃ s : State, s.Ready ∧ EncodeRanges s ∧ s.ops.mode = .unsupported ∧ s.ops.len.toNat = 8192) ∧
    (∃ s : State, s.Ready ∧ EncodeRanges s ∧ s.ops.mode = .alnum ∧ FirstBad s.inputBytes 0) ∧
    (∃ s : State, s.Ready ∧ EncodeRanges s ∧ ResolvesTo s.ops.mode s.inputBytes .byte ∧ s.ops.ver.toNat = 1 ∧
      ¬ Fits .byte s.ops.len.toNat 1 (s.ops.eccOpt.getD .L)) ∧
    ∃ s : State, s.Ready ∧ EncodeRanges s ∧ ResolvesTo s.ops.mode s.inputBytes .byte ∧ s.ops.ver.toNat = 0 ∧
      ∀ v e, 1 ≤ v → v ≤ 1 → MayTry s.ops.eccOpt e → ¬ Fits .byte s.ops.len.toNat v e :=
  ⟨⟨st 41 0 0 0 [], st_ready _ _ _ _ rfl, by decide⟩, ⟨st 40 0 41 0 [], st_ready _ _ _ _ rfl, by decide, by decide⟩,
    ⟨st 0 0 0x2928 0 [], st_ready _ _ _ _ rfl, by decide, by decide⟩,
    ⟨st 0 0 0x102 0 [], st_ready _ _ _ _ rfl, by decide, by decide⟩,
    ⟨st 0 8193 0 0 [], st_ready _ _ _ _ rfl, by decide, by decide, by decide⟩,
    ⟨st 0x3000 8192 0 0 [], st_ready _ _ _ _ rfl, ⟨by decide, by decide, by decide, by decide, by decide⟩, by decide, by decide⟩,
    ⟨st 0x2000 1 0 0 [], st_ready _ _ _ _ rfl, ⟨by decide, by decide, by decide, by decide, by decide⟩, by decide,
      by decide, by decide, fun _ h => nomatch h⟩,
    ⟨st 0x1001 18 0 0 [], st_ready _ _ _ _ rfl, ⟨by decide, by decide, by decide, by decide, by decide⟩, rfl, by decide,
      by unfold Fits; decide⟩,
    ⟨st 0x1000 18 0x100 0 [], st_ready _ _ _ _ rfl, ⟨by decide, by decide, by decide, by decide, by decide⟩, rfl, by decide,
      fun v e h1 h2 _ => by
        obtain rfl : v = 1 := by omega
        show ¬ Fits .byte 18 1 e
        unfold Fits; cases e <;> decide⟩⟩

/-- Two states that differ in a buffer ENCODE overwrites and in MVER. -/
theorem witness_EncodeDependsOnItsInputsOnly : ∃ s s' t t' : State, s.Ready ∧ s'.Ready ∧ s.err = false ∧ s'.err = false ∧
    s.ops = s'.ops ∧ s.field = s'.field ∧ s.inputBytes = s'.inputBytes ∧ exec .encode s = .next t ∧
    exec .encode s' = .next t' ∧ s.mem ≠ s'.mem ∧ s.mver ≠ s'.mver := by
  have h : ∀ s, ∃ t, exec .encode s = .next t := fun s => ⟨_, exec_finish _ s⟩
  obtain ⟨t, ht⟩ := h (st 0 0 0 0 [])
  obtain ⟨t', ht'⟩ := h (st 0 0 0 7 [(dataBase, 1)])
  exact ⟨st 0 0 0 0 [], st 0 0 0 7 [(dataBase, 1)], t, t', st_ready _ _ _ _ rfl, st_ready _ _ _ _ rfl, rfl, rfl, rfl, rfl,
    (by decide : (st 0 0 0 0 []).inputBytes = (st 0 0 0 7 [(dataBase, 1)]).inputBytes), ht, ht', by decide, by decide⟩

end Sys2Proof.Tests
end

/-! SUPPORT. How long the sequences are that the commands compute, and the facts of the capacity ROM that they rest on. -/

namespace Sys2Proof.Machine

/-! ### How long the computed byte sequences are -/

theorem xorFront_length (p q : List Byte) : (xorFront p q).length = max p.length q.length := by
  induction p generalizing q with
  | nil => simp [xorFront]
  | cons a p ih =>
    cases q with
    | nil => simp [xorFront]
    | cons b q => simp [xorFront, ih, Nat.add_max_add_right]

theorem polymul_length (f : GfField) (a : Byte) (p : List Byte) {q : List Byte} (hq : 1 ≤ q.length) :
    (polymul f (a :: p) q).length = p.length + q.length := by
  induction p generalizing a with
  | nil => simp [polymul, xorFront_length, hq]
  | cons b p ih =>
    rw [polymul, xorFront_length]
    simp only [List.length_map, List.length_cons, ih b]
    omega

/-- A generator of degree `t` has `t + 1` coefficients (R160). -/
@[simp] theorem gen_length (f : GfField) (t : Nat) : (gen f t).length = t + 1 := by
  induction t with
  | zero => rfl
  | succ t ih =>
    obtain ⟨a, p, hp⟩ := List.exists_cons_of_length_eq_add_one ih
    rw [gen, hp, polymul_length f a p (by simp)]
    rw [hp] at ih
    simpa using ih

/-- Each elimination step drops one entry of the working buffer (R162). -/
theorem eliminate_length (f : GfField) {g : List Byte} {t : Nat} (hg : g.length = t + 1) (n : Nat) (w : List Byte)
    (hw : w.length = n + t) : (eliminate f g n w).length = t := by
  induction n generalizing w with
  | zero => simpa [eliminate] using hw
  | succ n ih =>
    cases w with
    | nil => simp only [List.length_nil] at hw; omega
    | cons c w =>
      simp only [List.length_cons] at hw
      refine ih _ ?_
      split
      · omega
      · simp only [List.length_tail, xorFront_length, List.length_cons, List.length_map, hg]; omega

/-- The parity of a sequence has `t` bytes (R162). -/
@[simp] theorem rem_length (f : GfField) (data : List Byte) (t : Nat) : (rem f data t).length = t := by
  unfold rem
  split
  · simp_all
  · exact eliminate_length f (gen_length f t) _ _ (by simp)

@[simp] theorem bitsOf_length (x w : Nat) : (bitsOf x w).length = w := by
  induction w with
  | zero => rfl
  | succ w ih => simp [bitsOf, ih]

@[simp] theorem byteBits_length (s : List Byte) : (byteBits s).length = 8 * s.length := by
  induction s with
  | nil => rfl
  | cons b s ih => simp [byteBits, ih]; omega

@[simp] theorem alnumBits_length (s : List Byte) : (alnumBits s).length = payload .alnum s.length := by
  induction s using alnumBits.induct with
  | case1 => rfl
  | case2 a => simp [alnumBits, payload]
  | case3 a b s ih =>
    simp only [alnumBits, List.length_append, bitsOf_length, ih, List.length_cons, payload]
    split_ifs <;> omega

/-- The bits before the terminator are as many as REQ says (R184, R215). -/
@[simp] theorem headBits_length (m : Mode) (s : List Byte) (v : Nat) : (headBits m s v).length = req m s.length v := by
  cases m <;> simp [headBits, req, payload] <;> omega

/-- The bitstream ends at a byte boundary, inside the capacity where its head does (R215). -/
theorem bitstream_length_le (m : Mode) (s : List Byte) (v : Nat) (e : Ecc) (h : req m s.length v ≤ capBits v e) :
    (bitstream m s v e).length / 8 ≤ dataCw v e := by
  simp only [bitstream, List.length_append, List.length_replicate, headBits_length, termLen, alignLen]
  unfold capBits at h ⊢
  omega

@[simp] theorem codewordsOf_length (k : Nat) (bits : List Bool) : (codewordsOf k bits).length = k := by
  induction k generalizing bits with
  | zero => rfl
  | succ k ih => simp [codewordsOf, ih]

@[simp] theorem padBytes_length (k : Nat) (even : Bool) : (padBytes k even).length = k := by
  induction k generalizing even with
  | zero => rfl
  | succ k ih => simp [padBytes, ih]

theorem req_le_capBits_of_fits {m : Mode} {n v : Nat} {e : Ecc} (h : fits m n v e = true) :
    req m n v ≤ capBits v e := by
  simp only [fits, Bool.and_eq_true, decide_eq_true_eq] at h
  exact h.2

/-- An input that fits becomes exactly the data codewords of its version and level (R216, R217). -/
theorem dataCodewords_length {m : Mode} {s : List Byte} {v : Nat} {e : Ecc} (h : fits m s.length v e = true) :
    (dataCodewords m s v e).length = dataCw v e := by
  have := bitstream_length_le m s v e (req_le_capBits_of_fits h)
  simp only [dataCodewords, List.length_append, codewordsOf_length, padBytes_length]
  omega

/-! ### The block split -/

theorem slices_lengths (ks : List Nat) (d : List Byte) (h : ks.sum ≤ d.length) :
    (slices ks d).map List.length = ks := by
  induction ks generalizing d with
  | nil => rfl
  | cons k ks ih =>
    simp only [List.sum_cons] at h
    simp only [slices, List.map_cons, List.length_take, ih (d.drop k) (by simp; omega)]
    rw [Nat.min_eq_left (by omega)]

theorem column_length (blocks : List (List Byte)) (i : Nat) :
    (column blocks i).length = blocks.countP fun d => decide (i < d.length) := by
  induction blocks with
  | nil => rfl
  | cons d blocks ih =>
    rw [List.countP_cons, ← ih]
    by_cases h : i < d.length <;> simp [column, h]

theorem columns_succ (blocks : List (List Byte)) (k : Nat) :
    columns blocks (k + 1) = columns blocks k ++ column blocks k := by
  simp [columns, List.range_succ]

theorem sum_min_succ (blocks : List (List Byte)) (k : Nat) :
    (blocks.map fun d => min d.length (k + 1)).sum =
      (blocks.map fun d => min d.length k).sum + blocks.countP fun d => decide (k < d.length) := by
  induction blocks with
  | nil => rfl
  | cons d blocks ih =>
    simp only [List.map_cons, List.sum_cons, List.countP_cons, decide_eq_true_eq, ih]
    split_ifs <;> omega

/-- The first `k` columns hold every byte of the blocks at a position below `k`. -/
theorem columns_length (blocks : List (List Byte)) (k : Nat) :
    (columns blocks k).length = (blocks.map fun d => min d.length k).sum := by
  induction k with
  | zero => simp [columns]
  | succ k ih => rw [columns_succ, List.length_append, ih, column_length, sum_min_succ]

/-- Enough columns hold every byte of the blocks. -/
theorem columns_length_eq_sum {blocks : List (List Byte)} {k : Nat} (h : ∀ d ∈ blocks, d.length ≤ k) :
    (columns blocks k).length = (blocks.map List.length).sum := by
  rw [columns_length]
  exact congrArg List.sum (List.map_congr_left fun d hd => Nat.min_eq_left (h d hd))

/-! ### The capacity ROM on the versions 1 to 40 -/

/-- The blocks of every version and level share out exactly its data codewords (R230, R358). -/
theorem dataLens_sum {v : Nat} (h1 : 1 ≤ v) (h40 : v ≤ 40) (e : Ecc) : (dataLens v e).sum = dataCw v e := by
  have table : ∀ v < 41, 1 ≤ v → ∀ e ∈ allEcc, (dataLens v e).sum = dataCw v e := by decide +kernel
  exact table v (by omega) h1 e (by cases e <;> decide)

theorem parityTotal_le_totalCw {v : Nat} (h40 : v ≤ 40) (e : Ecc) : eccpb v e * nb v e ≤ totalCw v := by
  have table : ∀ v < 41, ∀ e ∈ allEcc, eccpb v e * nb v e ≤ totalCw v := by decide +kernel
  exact table v (by omega) e (by cases e <;> decide)

/-- Every symbol's codewords fit in a codeword buffer (R8, R180). -/
theorem totalCw_le (v : Nat) : totalCw v ≤ 4096 := by
  have table : ∀ n ∈ totalCwTable, n ≤ 4096 := by decide
  unfold totalCw
  rw [List.getD_eq_getElem?_getD]
  cases h : totalCwTable[v - 1]? with
  | none => simp
  | some n => exact table n (List.mem_of_getElem? h)

theorem dataCw_le (v : Nat) (e : Ecc) : dataCw v e ≤ 4096 := (Nat.sub_le _ _).trans (totalCw_le v)

theorem parityTotal_le {v : Nat} (h40 : v ≤ 40) (e : Ecc) : nb v e * eccpb v e ≤ 4096 := by
  rw [Nat.mul_comm]; exact (parityTotal_le_totalCw h40 e).trans (totalCw_le v)

theorem eccpb_le {v : Nat} (h40 : v ≤ 40) (e : Ecc) : eccpb v e ≤ 30 := by
  have table : ∀ v < 41, ∀ e ∈ allEcc, eccpb v e ≤ 30 := by decide +kernel
  exact table v (by omega) e (by cases e <;> decide)

/-- The side of a symbol fits in the matrix buffer (R8, R39). -/
theorem symbolSize_le {v : Nat} (h40 : v ≤ 40) : symbolSize v ≤ 177 := by unfold symbolSize; omega

/-! ### The contents of the blocks -/

theorem dataLens_length (v : Nat) (e : Ecc) : (dataLens v e).length = nb v e := by simp [dataLens]

theorem mem_dataLens_le {v : Nat} {e : Ecc} {k : Nat} (h : k ∈ dataLens v e) : k ≤ slen v e + 1 - eccpb v e := by
  obtain ⟨b, _, rfl⟩ := List.mem_map.mp h
  unfold dl blen
  split <;> omega

theorem map_length_blockData {v : Nat} {e : Ecc} {data : List Byte} (h : (dataLens v e).sum ≤ data.length) :
    (blockData v e data).map List.length = dataLens v e := slices_lengths _ _ h

theorem map_length_blockParity (f : GfField) {v : Nat} {e : Ecc} {data : List Byte}
    (h : (dataLens v e).sum ≤ data.length) :
    (blockParity f v e data).map List.length = List.replicate (nb v e) (eccpb v e) := by
  have hn : (blockData v e data).length = nb v e := by
    rw [← dataLens_length v e, ← map_length_blockData h, List.length_map]
  simp [blockParity, Function.comp_def, hn]

/-- The parity of all blocks (R231). -/
theorem blockParity_flatten_length (f : GfField) {v : Nat} {e : Ecc} {data : List Byte}
    (h : (dataLens v e).sum ≤ data.length) : (blockParity f v e data).flatten.length = nb v e * eccpb v e := by
  simp [List.length_flatten, map_length_blockParity f h]

/-- The interleaved sequence holds every data and parity byte once (R232). -/
theorem interleave_length (f : GfField) {v : Nat} (h1 : 1 ≤ v) (h40 : v ≤ 40) {e : Ecc} {data : List Byte}
    (h : data.length = dataCw v e) : (interleave f v e data).length = totalCw v := by
  have hs : (dataLens v e).sum ≤ data.length := by rw [dataLens_sum h1 h40, h]
  have hdata : (columns (blockData v e data) (slen v e + 1 - eccpb v e)).length = dataCw v e := by
    rw [columns_length_eq_sum, map_length_blockData hs, dataLens_sum h1 h40]
    intro d hd
    exact mem_dataLens_le (map_length_blockData hs ▸ List.mem_map_of_mem hd)
  have hpar : (columns (blockParity f v e data) (eccpb v e)).length = nb v e * eccpb v e := by
    rw [columns_length_eq_sum, map_length_blockParity f hs, List.sum_replicate, smul_eq_mul]
    intro d hd
    obtain ⟨d', _, rfl⟩ := List.mem_map.mp hd
    exact (rem_length f d' _).le
  have := parityTotal_le_totalCw h40 e
  rw [interleave, List.length_append, hdata, hpar, dataCw, Nat.mul_comm (nb v e)]
  omega

end Sys2Proof.Machine

/-! SUPPORT. What each rule answers when it completes: the grids it stores, and the writes it makes. -/

namespace Sys2Proof.Machine

/-! ### The grids the matrix commands store are squares -/

theorem isSquare_markAll {n : Nat} (ms : List (Nat × Nat × Bool)) {g : Grid} (h : IsSquare n g) :
    IsSquare n (markAll g ms) := by
  induction ms generalizing g with
  | nil => exact h
  | cons m ms ih => exact ih (isSquare_setCell h _ _ _)

theorem isSquare_visit {n : Nat} {p : Placing} (h : IsSquare n p.grid) (r c : Nat) : IsSquare n (visit p r c).grid := by
  unfold visit
  dsimp only
  split
  · split <;> exact isSquare_setCell h _ _ _
  · exact h

theorem isSquare_visitAll {n : Nat} (cs : List (Nat × Nat)) {p : Placing} (h : IsSquare n p.grid) :
    IsSquare n (visitAll p cs).grid := by
  induction cs generalizing p with
  | nil => exact h
  | cons c cs ih => exact ih (isSquare_visit h _ _)

theorem isSquare_placeInto {n : Nat} {g : Grid} (h : IsSquare n g) (cw : List Byte) :
    IsSquare n (placeInto n g cw).grid := isSquare_visitAll _ h

theorem isSquare_scaffoldGrid (v : Nat) : IsSquare (symbolSize v) (scaffoldGrid v) :=
  isSquare_mapGrid (isSquare_blankGrid _) _

theorem isSquare_stampFormat {n : Nat} {g : Grid} (h : IsSquare n g) (e : Ecc) (k : MaskId) :
    IsSquare n (stampFormat n g e k) := isSquare_markAll _ h

theorem isSquare_stampVersion {n : Nat} {g : Grid} (h : IsSquare n g) (v : Nat) :
    IsSquare n (stampVersion n g v) := isSquare_markAll _ h

theorem isSquare_applyMask {n : Nat} {g : Grid} (h : IsSquare n g) (k : MaskId) : IsSquare n (applyMask k g) :=
  isSquare_mapGrid h _

theorem isSquare_candidate {n : Nat} {g : Grid} (h : IsSquare n g) (e : Ecc) (k : MaskId) :
    IsSquare n (candidate n g e k) := isSquare_stampFormat (isSquare_applyMask h k) e k

theorem isSquare_encodeGrid (v : Nat) (ilv : List Byte) : IsSquare (symbolSize v) (encodeGrid v ilv) := by
  have h := isSquare_placeInto (isSquare_scaffoldGrid v) ilv
  unfold encodeGrid
  dsimp only
  split
  · exact isSquare_stampVersion h v
  · exact h

/-! ### Regions of the address map (R71) -/

/-- An offset below the matrix holds whatever byte is written to it. -/
theorem storedByte_of_lt {a : Nat} (h : a < matBase) (b : Byte) : storedByte a b = b := by
  simp [storedByte, inMatrix, Nat.not_le.mpr h]

theorem inMatrix_iff {a : Nat} : inMatrix a = true ↔ inRange matBase 31329 a := by
  unfold inMatrix inRange mstride
  exact decide_eq_true_iff

theorem cellOffset_inRange {r c : Nat} (hr : r < 177) (hc : c < 177) : inRange matBase 31329 (cellOffset r c) := by
  unfold inRange cellOffset mstride; omega

theorem inMatrix_cellOffset {r c : Nat} (hr : r < 177) (hc : c < 177) : inMatrix (cellOffset r c) = true :=
  inMatrix_iff.mpr (cellOffset_inRange hr hc)

/-- Every byte a command may write is a byte of a buffer or of the matrix (R35). -/
theorem inStorage_of_mayWrite {i : Instr} {a : Nat} (h : mayWrite i a) : inStorage a = true := by
  have buffer : (0x0100 ≤ a ∧ a < 0x0300) ∨ (0x1000 ≤ a ∧ a < 0x6000) → inStorage a = true := fun h => by
    simp [inStorage, inBuffer, h]
  unfold mayWrite at h
  rcases h with ⟨h, _⟩ | ⟨h, _⟩ | ⟨h, _⟩ | ⟨h, _⟩ | ⟨h, _⟩
  all_goals unfold inRange at h
  · exact buffer (by unfold genBase at h; omega)
  · exact buffer (by unfold parBase at h; omega)
  · exact buffer (by unfold dataBase at h; omega)
  · exact buffer (by unfold eccBase ilvBase at h; omega)
  · rw [inStorage, inMatrix_iff.mpr h, Bool.or_true]

/-! ### The errors of the shared checks -/

theorem badVersion_eq_false {v : Nat} : badVersion v = false ↔ 1 ≤ v ∧ v ≤ 40 := by
  simp [badVersion]; omega

theorem version_of_not_bad {v : Nat} (h : ¬ badVersion v = true) : 1 ≤ v ∧ v ≤ 40 :=
  badVersion_eq_false.mp (by simpa using h)

/-! ### What a rule's writes are -/

/-- An entry that instruction `i` may store: at an offset R35 gives it, and a byte that the offset can hold. -/
def MayStore (i : Instr) (e : Host.Cell) : Prop := mayWrite i e.1 ∧ storedByte e.1 e.2 = e.2

/-- What R29 to R35 let the writes of an instruction be. -/
structure LawfulWrites (i : Instr) (w : Writes) : Prop where
  mem : ∀ e ∈ w.mem, MayStore i e
  field : ∀ f, w.field = some f → i = .gfInit ∧ GoodField f
  mver : i ∉ [Instr.scaffold, .encode] → w.mver = none
  score : i ∉ [Instr.maskSelect, .encode] → w.score = []

/-- A run of bytes in a buffer is stored as it is, where the buffer is one the command may write. -/
theorem mayStore_bytesAt {i : Instr} {base k : Nat} {bs : List Byte} (hk : bs.length ≤ k)
    (hbase : base + k ≤ matBase) (hi : ∀ a, inRange base k a → mayWrite i a) :
    ∀ e ∈ bytesAt base bs, MayStore i e := fun e he => by
  obtain ⟨h1, h2⟩ := mem_bytesAt he
  exact ⟨hi e.1 ⟨h1, by omega⟩, storedByte_of_lt (by omega) e.2⟩

/-- Cells of a grid are stored as legal encodings in the matrix. -/
theorem mayStore_gridWrites {i : Instr} {keep : Nat → Nat → Bool} {n : Nat} {g : Grid} (hg : IsSquare n g)
    (hn : n ≤ 177) (hi : ∀ a, inRange matBase 31329 a → mayWrite i a) :
    ∀ e ∈ gridWrites keep 0 g, MayStore i e := fun e he => by
  obtain ⟨r, c, hr, hc, _, rfl⟩ := mem_gridWrites hg.2 he
  have hr : 0 + r < 177 := by have := hg.1; omega
  have hc : c < 177 := by omega
  refine ⟨hi _ (cellOffset_inRange hr hc), ?_⟩
  rw [storedByte, if_pos (inMatrix_cellOffset hr hc), matrixByte_toByte]

theorem mayStore_append {i : Instr} {ws ws' : List Host.Cell} (h : ∀ e ∈ ws, MayStore i e)
    (h' : ∀ e ∈ ws', MayStore i e) : ∀ e ∈ ws ++ ws', MayStore i e := fun e he =>
  (List.mem_append.mp he).elim (h e) (h' e)

/-- Writes of result registers and bytes alone. -/
theorem lawfulWrites_resMem {i : Instr} (res : List Word) {ws : List Host.Cell} (h : ∀ e ∈ ws, MayStore i e) :
    LawfulWrites i { res := res, mem := ws } := ⟨h, nofun, fun _ => rfl, fun _ => rfl⟩

theorem lawfulWrites_res (i : Instr) (res : List Word) : LawfulWrites i { res := res } :=
  lawfulWrites_resMem res nofun

/-! ### Each rule that writes more than result registers -/

variable {x : Snapshot} {w : Writes}

theorem gfInitRule_ok (h : gfInitRule x = .ok w) :
    validPoly x.poly = true ∧ w = { res := [1], field := some (buildField x.poly) } := by
  unfold gfInitRule at h
  split at h
  · exact ⟨‹_›, by simpa using h.symm⟩
  · cases h

theorem rsEncodeRule_ok (h : rsEncodeRule x = .ok w) : ∃ data,
    w = { res := [natWord x.ops.t.toNat],
          mem := bytesAt genBase (gen x.field x.ops.t.toNat) ++ bytesAt parBase (rem x.field data x.ops.t.toNat) } := by
  unfold rsEncodeRule at h
  dsimp only at h
  split at h
  · cases h
  · exact ⟨_, by simpa using h.symm⟩

theorem buildDataRule_ok (h : buildDataRule x = .ok w) : ∃ m res, fits m x.len x.ver x.ops.ecc = true ∧
    w = { res := res, mem := bytesAt dataBase (dataCodewords m x.input x.ver x.ops.ecc) } := by
  unfold buildDataRule at h
  dsimp only at h
  split at h
  · cases h
  split at h
  · cases h
  split at h
  · cases h
  rename_i m _
  split at h
  · cases h
  · rename_i hf
    exact ⟨m, _, by simpa using hf, by simpa using h.symm⟩

theorem blockAssembleRule_ok (h : blockAssembleRule x = .ok w) : ∃ res,
    1 ≤ x.ver ∧ x.ver ≤ 40 ∧
    w = { res := res,
          mem := bytesAt genBase (gen x.field (eccpb x.ver x.ops.ecc)) ++
            blockWrites x.field x.ver x.ops.ecc (readBytes x.mem dataBase (dataCw x.ver x.ops.ecc)) } := by
  unfold blockAssembleRule at h
  dsimp only at h
  split at h
  · cases h
  rename_i hv
  split at h
  · cases h
  obtain ⟨h1, h40⟩ := version_of_not_bad hv
  exact ⟨_, h1, h40, by simpa using h.symm⟩

theorem scaffoldRule_ok (h : scaffoldRule x = .ok w) : ∃ res, x.ver ≤ 40 ∧
    w = { res := res, mver := some (BitVec.ofNat 6 x.ver),
          mem := gridWrites (fun _ _ => true) 0 (scaffoldGrid x.ver) } := by
  unfold scaffoldRule at h
  dsimp only at h
  split at h
  · cases h
  · rename_i hv
    exact ⟨_, (version_of_not_bad hv).2, by simpa using h.symm⟩

theorem placeRule_ok (h : placeRule x = .ok w) : ∃ res cw, x.mverNat ≤ 40 ∧
    w = { res := res,
          mem := gridWrites (fun r c => (cellAt (gridOf x.mem (symbolSize x.mverNat)) r c).isFree) 0
            (placeInto (symbolSize x.mverNat) (gridOf x.mem (symbolSize x.mverNat)) cw).grid } := by
  unfold placeRule at h
  dsimp only at h
  split at h
  · cases h
  · rename_i hv
    exact ⟨_, _, (version_of_not_bad hv).2, by simpa using h.symm⟩

theorem formatStampRule_ok (h : formatStampRule x = .ok w) : ∃ res, x.mverNat ≤ 40 ∧
    w = { res := res,
          mem := gridWrites (isFormatCell (symbolSize x.mverNat)) 0
            (stampFormat (symbolSize x.mverNat) (gridOf x.mem (symbolSize x.mverNat)) x.ops.ecc x.ops.mask) } := by
  unfold formatStampRule at h
  dsimp only at h
  split at h
  · cases h
  · rename_i hv
    exact ⟨_, (version_of_not_bad hv).2, by simpa using h.symm⟩

theorem versionStampRule_ok (h : versionStampRule x = .ok w) : ∃ res, x.mverNat ≤ 40 ∧
    w = { res := res,
          mem := gridWrites (isVersionCell (symbolSize x.mverNat)) 0
            (stampVersion (symbolSize x.mverNat) (gridOf x.mem (symbolSize x.mverNat)) x.mverNat) } := by
  unfold versionStampRule at h
  dsimp only at h
  split at h
  · cases h
  rename_i hv
  split at h
  · cases h
  · exact ⟨_, (version_of_not_bad hv).2, by simpa using h.symm⟩

theorem maskApplyRule_ok (h : maskApplyRule x = .ok w) : ∃ res, x.mverNat ≤ 40 ∧
    w = { res := res,
          mem := gridWrites (fun r c => inverts x.ops.mask r c (cellAt (gridOf x.mem (symbolSize x.mverNat)) r c)) 0
            (applyMask x.ops.mask (gridOf x.mem (symbolSize x.mverNat))) } := by
  unfold maskApplyRule at h
  dsimp only at h
  split at h
  · cases h
  · rename_i hv
    exact ⟨_, (version_of_not_bad hv).2, by simpa using h.symm⟩

theorem maskSelectRule_ok (h : maskSelectRule x = .ok w) : ∃ res score best, x.mverNat ≤ 40 ∧
    w = { res := res, score := score,
          mem := gridWrites (fun r c => inverts best r c (cellAt (gridOf x.mem (symbolSize x.mverNat)) r c) ||
              isFormatCell (symbolSize x.mverNat) r c) 0
            (candidate (symbolSize x.mverNat) (gridOf x.mem (symbolSize x.mverNat)) x.ops.ecc best) } := by
  unfold maskSelectRule at h
  dsimp only at h
  split at h
  · cases h
  rename_i hv
  split at h
  · cases h
  · exact ⟨_, _, _, (version_of_not_bad hv).2, by simpa using h.symm⟩

/-- What the search returns lies within the bounds and fits (R188). -/
theorem firstFit_some {m : Mode} {n : Nat} {levels : List Ecc} {vs : List Nat} {v : Nat} {e : Ecc}
    (h : firstFit m n levels vs = some (v, e)) : v ∈ vs ∧ fits m n v e = true := by
  induction vs with
  | nil => cases h
  | cons v' vs ih =>
    simp only [firstFit] at h
    split at h
    · rename_i e' he
      obtain ⟨rfl, rfl⟩ : v' = v ∧ e' = e := by simpa using h
      exact ⟨List.mem_cons_self, by simpa using List.find?_some he⟩
    · obtain ⟨hv, hf⟩ := ih h
      exact ⟨List.mem_cons_of_mem _ hv, hf⟩

theorem select_ok {m : Mode} {n lo hi : Nat} {eopt : Option Ecc} {v : Nat} {e : Ecc}
    (h : select m n lo hi eopt = .ok (v, e)) : lo ≤ v ∧ v ≤ hi ∧ fits m n v e = true := by
  unfold select at h
  split at h
  · cases h
  split at h
  · rename_i r hr
    obtain rfl : r = (v, e) := by simpa using h
    obtain ⟨hv, hf⟩ := firstFit_some hr
    rw [List.mem_range'_1] at hv
    exact ⟨hv.1, by omega, hf⟩
  · cases h

/-- ENCODE works at a version from 1 to 40 that its input fits (R331, R332). -/
theorem encodeVersion_ok {m : Mode} {v : Nat} {e : Ecc} (hver : x.ver ≤ 40) (hmax : x.maxv ≤ 40)
    (h : encodeVersion x m = .ok (v, e)) : 1 ≤ v ∧ v ≤ 40 ∧ fits m x.len v e = true := by
  unfold encodeVersion at h
  split at h
  · rename_i hne
    split at h
    · rename_i hf
      obtain ⟨rfl, rfl⟩ : x.ver = v ∧ encodeLevel x = e := by simpa using h
      exact ⟨by omega, hver, hf⟩
    · cases h
  · obtain ⟨hlo, hhi, hf⟩ := select_ok h
    unfold lowBound at hlo
    unfold highBound at hhi
    exact ⟨by split at hlo <;> omega, by split at hhi <;> omega, hf⟩

/-- An ENCODE that completes writes a symbol of a version from 1 to 40 that its input fits (R332). -/
theorem encodeRule_ok (h : encodeRule x = .ok w) : ∃ m v e, 1 ≤ v ∧ v ≤ 40 ∧ fits m x.input.length v e = true ∧
    w = encodeWrites x.field m x.input v e := by
  unfold encodeRule at h
  dsimp only at h
  split at h
  · cases h
  rename_i hver
  split at h
  · cases h
  split at h
  · cases h
  rename_i hmax
  split at h
  · cases h
  split at h
  · cases h
  split at h
  · cases h
  rename_i m _
  split at h
  · cases h
  rename_i v e hv
  obtain ⟨h1, h40, hf⟩ := encodeVersion_ok (by omega) (by omega) hv
  exact ⟨m, v, e, h1, h40, by rwa [Snapshot.input, readBytes_length], by simpa using h.symm⟩

end Sys2Proof.Machine

/-! SUPPORT. The writes of every rule are those that R29 to R35 give its command. -/

namespace Sys2Proof.Machine

variable {x : Snapshot} {w : Writes}

/-! ### Every rule's writes are lawful -/

/-- Where the result is a list of writes, they satisfy `P`. -/
def Answers (P : Writes → Prop) (r : CmdResult) : Prop := ∀ w, r = .ok w → P w

@[simp] theorem answers_ok (P : Writes → Prop) (w : Writes) : Answers P (.ok w) ↔ P w := by
  simp [Answers]

@[simp] theorem answers_error (P : Writes → Prop) (e : CmdError) : Answers P (.error e) := nofun

/-- The writes are result registers alone. -/
def ResOnly (w : Writes) : Prop := ∃ res, w = { res := res }

@[simp] theorem resOnly_mk (res : List Word) : ResOnly { res := res } := ⟨res, rfl⟩

theorem resOnly_gfDivRule (x : Snapshot) : Answers ResOnly (gfDivRule x) := by
  unfold gfDivRule; split <;> simp

theorem resOnly_gfInvRule (x : Snapshot) : Answers ResOnly (gfInvRule x) := by
  unfold gfInvRule; split <;> simp

theorem resOnly_gfLogRule (x : Snapshot) : Answers ResOnly (gfLogRule x) := by
  unfold gfLogRule; split <;> simp

theorem resOnly_capQueryRule (x : Snapshot) : Answers ResOnly (capQueryRule x) := by
  unfold capQueryRule; dsimp only; split <;> simp

theorem resOnly_fitCheckRule (x : Snapshot) : Answers ResOnly (fitCheckRule x) := by
  unfold fitCheckRule
  dsimp only
  split
  · simp
  · split <;> simp

theorem resOnly_selectVersionRule (x : Snapshot) : Answers ResOnly (selectVersionRule x) := by
  unfold selectVersionRule
  dsimp only
  iterate 3
    split
    · simp
  split
  · simp
  · split <;> simp

theorem resOnly_modeDetectRule (x : Snapshot) : Answers ResOnly (modeDetectRule x) := by
  unfold modeDetectRule; split <;> simp

theorem resOnly_penaltyRule (x : Snapshot) : Answers ResOnly (penaltyRule x) := by
  unfold penaltyRule
  dsimp only
  split
  · simp
  · split <;> simp

theorem resOnly_versionEncodeRule (x : Snapshot) : Answers ResOnly (versionEncodeRule x) := by
  unfold versionEncodeRule
  dsimp only
  split
  · simp
  · split <;> simp

theorem LawfulWrites.of_resOnly {i : Instr} (h : ResOnly w) : LawfulWrites i w := by
  obtain ⟨res, rfl⟩ := h
  exact lawfulWrites_res i res

theorem mayWrite_gen {i : Instr} (hi : i ∈ [Instr.rsGenpoly, .rsEncode, .blockAssemble, .encode]) :
    ∀ a, inRange genBase 256 a → mayWrite i a := fun _ h => .inl ⟨h, hi⟩

theorem mayWrite_data {i : Instr} (hi : i ∈ [Instr.buildData, .encode]) :
    ∀ a, inRange dataBase 4096 a → mayWrite i a := fun _ h => .inr (.inr (.inl ⟨h, hi⟩))

theorem mayWrite_ecc {i : Instr} (hi : i ∈ [Instr.blockAssemble, .encode]) :
    ∀ a, inRange eccBase 4096 a → mayWrite i a := fun _ h => .inr (.inr (.inr (.inl ⟨.inl h, hi⟩)))

theorem mayWrite_ilv {i : Instr} (hi : i ∈ [Instr.blockAssemble, .encode]) :
    ∀ a, inRange ilvBase 4096 a → mayWrite i a := fun _ h => .inr (.inr (.inr (.inl ⟨.inr h, hi⟩)))

theorem mayWrite_matrix {i : Instr}
    (hi : i ∈ [Instr.scaffold, .place, .maskApply, .maskSelect, .formatStamp, .versionStamp, .encode]) :
    ∀ a, inRange matBase 31329 a → mayWrite i a := fun _ h => .inr (.inr (.inr (.inr ⟨h, hi⟩)))

theorem mayStore_gen {i : Instr} (hi : i ∈ [Instr.rsGenpoly, .rsEncode, .blockAssemble, .encode]) (f : GfField)
    {t : Nat} (ht : t < 256) : ∀ e ∈ bytesAt genBase (gen f t), MayStore i e :=
  mayStore_bytesAt (by rw [gen_length]; exact ht) (by decide) (mayWrite_gen hi)

/-- Block assembly stores inside ECC_BUF and ILV_BUF (R233). -/
theorem mayStore_blockWrites {i : Instr} (hi : i ∈ [Instr.blockAssemble, .encode]) (f : GfField) {v : Nat} {e : Ecc}
    {data : List Byte} (h1 : 1 ≤ v) (h40 : v ≤ 40) (h : data.length = dataCw v e) :
    ∀ c ∈ blockWrites f v e data, MayStore i c := by
  refine mayStore_append (mayStore_bytesAt ?_ (by decide) (mayWrite_ecc hi))
    (mayStore_bytesAt ?_ (by decide) (mayWrite_ilv hi))
  · rw [blockParity_flatten_length f (by rw [dataLens_sum h1 h40, h])]; exact parityTotal_le h40 e
  · rw [interleave_length f h1 h40 h]; exact totalCw_le v

theorem mayStore_encodeWrites (f : GfField) {m : Mode} {s : List Byte} {v : Nat} {e : Ecc} (h1 : 1 ≤ v) (h40 : v ≤ 40)
    (hf : fits m s.length v e = true) : ∀ c ∈ (encodeWrites f m s v e).mem, MayStore .encode c := by
  have hlen := dataCodewords_length hf
  have hecc := eccpb_le h40 e
  exact mayStore_append (mayStore_append (mayStore_append
    (mayStore_gen (by decide) f (by omega))
    (mayStore_bytesAt (hlen.trans_le (dataCw_le v e)) (by decide) (mayWrite_data (by decide))))
    (mayStore_blockWrites (by decide) f h1 h40 hlen))
    (mayStore_gridWrites (isSquare_candidate (isSquare_encodeGrid v _) _ _) (symbolSize_le h40)
      (mayWrite_matrix (by decide)))

/-- Whatever a command's rule answers, its writes are those R29 to R35 give the command. -/
theorem ruleOf_lawful (i : Instr) (h : ruleOf i x = .ok w) : LawfulWrites i w := by
  cases i
  case nop => exact .of_resOnly ⟨_, (Except.ok.inj h).symm⟩
  case gfInit =>
    obtain ⟨hv, rfl⟩ := gfInitRule_ok h
    exact ⟨nofun, fun f hf => ⟨rfl, by cases hf; exact ⟨hv, rfl⟩⟩, fun _ => rfl, fun _ => rfl⟩
  case gfAdd => exact .of_resOnly ⟨_, (Except.ok.inj h).symm⟩
  case gfSub => exact .of_resOnly ⟨_, (Except.ok.inj h).symm⟩
  case gfMul => exact .of_resOnly ⟨_, (Except.ok.inj h).symm⟩
  case gfDiv => exact .of_resOnly (resOnly_gfDivRule x w h)
  case gfInv => exact .of_resOnly (resOnly_gfInvRule x w h)
  case gfPow => exact .of_resOnly ⟨_, (Except.ok.inj h).symm⟩
  case gfExp => exact .of_resOnly ⟨_, (Except.ok.inj h).symm⟩
  case gfLog => exact .of_resOnly (resOnly_gfLogRule x w h)
  case rsGenpoly =>
    obtain rfl : _ = w := by simpa [ruleOf, rsGenpolyRule] using h
    exact lawfulWrites_resMem _ (mayStore_gen (by decide) _ x.ops.t.isLt)
  case rsEncode =>
    obtain ⟨data, rfl⟩ := rsEncodeRule_ok h
    exact lawfulWrites_resMem _ (mayStore_append (mayStore_gen (by decide) _ x.ops.t.isLt)
      (mayStore_bytesAt (k := 256) (by rw [rem_length]; exact x.ops.t.isLt.le) (by decide)
        fun a ha => .inr (.inl ⟨ha, rfl⟩)))
  case capQuery => exact .of_resOnly (resOnly_capQueryRule x w h)
  case fitCheck => exact .of_resOnly (resOnly_fitCheckRule x w h)
  case selectVersion => exact .of_resOnly (resOnly_selectVersionRule x w h)
  case modeDetect => exact .of_resOnly (resOnly_modeDetectRule x w h)
  case buildData =>
    obtain ⟨m, res, hf, rfl⟩ := buildDataRule_ok h
    refine lawfulWrites_resMem _ (mayStore_bytesAt (k := 4096) ?_ (by decide) (mayWrite_data (by decide)))
    rw [dataCodewords_length (by rwa [Snapshot.input, readBytes_length])]
    exact dataCw_le _ _
  case blockAssemble =>
    obtain ⟨res, h1, h40, rfl⟩ := blockAssembleRule_ok h
    have hecc := eccpb_le h40 x.ops.ecc
    exact lawfulWrites_resMem _ (mayStore_append (mayStore_gen (by decide) _ (by omega))
      (mayStore_blockWrites (by decide) _ h1 h40 (readBytes_length _ _ _)))
  case scaffold =>
    obtain ⟨res, h40, rfl⟩ := scaffoldRule_ok h
    exact ⟨mayStore_gridWrites (isSquare_scaffoldGrid _) (symbolSize_le h40) (mayWrite_matrix (by decide)),
      nofun, fun hn => absurd (by decide) hn, fun _ => rfl⟩
  case place =>
    obtain ⟨res, cw, h40, rfl⟩ := placeRule_ok h
    exact lawfulWrites_resMem _ (mayStore_gridWrites (isSquare_placeInto (isSquare_gridOf _ _) cw) (symbolSize_le h40)
      (mayWrite_matrix (by decide)))
  case maskApply =>
    obtain ⟨res, h40, rfl⟩ := maskApplyRule_ok h
    exact lawfulWrites_resMem _ (mayStore_gridWrites (isSquare_applyMask (isSquare_gridOf _ _) _) (symbolSize_le h40)
      (mayWrite_matrix (by decide)))
  case penalty => exact .of_resOnly (resOnly_penaltyRule x w h)
  case maskSelect =>
    obtain ⟨res, score, best, h40, rfl⟩ := maskSelectRule_ok h
    have hg := isSquare_candidate (isSquare_gridOf x.mem (symbolSize x.mverNat)) x.ops.ecc best
    refine ⟨?_, nofun, fun _ => rfl, fun hn => absurd (by decide) hn⟩
    dsimp only
    exact mayStore_gridWrites hg (symbolSize_le h40) (mayWrite_matrix (by decide))
  case formatEncode => exact .of_resOnly ⟨_, (Except.ok.inj h).symm⟩
  case formatStamp =>
    obtain ⟨res, h40, rfl⟩ := formatStampRule_ok h
    exact lawfulWrites_resMem _ (mayStore_gridWrites (isSquare_stampFormat (isSquare_gridOf _ _) _ _) (symbolSize_le h40)
      (mayWrite_matrix (by decide)))
  case versionEncode => exact .of_resOnly (resOnly_versionEncodeRule x w h)
  case versionStamp =>
    obtain ⟨res, h40, rfl⟩ := versionStampRule_ok h
    exact lawfulWrites_resMem _ (mayStore_gridWrites (isSquare_stampVersion (isSquare_gridOf _ _) _) (symbolSize_le h40)
      (mayWrite_matrix (by decide)))
  case encode =>
    obtain ⟨m, v, e, h1, h40, hf, rfl⟩ := encodeRule_ok h
    exact ⟨mayStore_encodeWrites _ h1 h40 hf, nofun, fun hn => absurd (by decide) hn, fun hn => absurd (by decide) hn⟩

end Sys2Proof.Machine

/-! The invariant: each operation of a step keeps it. -/

namespace Sys2Proof.Machine

/-! ### The invariant is kept by each operation of a step -/

variable {s t : State}

/-- The invariant says nothing of what still reaches the machine. -/
theorem State.Inv.withEvents (h : s.Inv) (es : List Event) : ({ s with events := es } : State).Inv :=
  ⟨h.memory, h.field, h.starting, h.running, h.codes, h.named⟩

theorem State.Inv.withFreeCount (h : s.Inv) (k : Nat) : ({ s with freeCount := k } : State).Inv :=
  ⟨h.memory, h.field, h.starting, h.running, h.codes, h.named⟩

theorem State.Inv.respond (h : s.Inv) (d : Word) (e : Bool) : (s.respond d e).Inv :=
  ⟨h.memory, h.field, h.starting, h.running, h.codes, h.named⟩

/-- What a command stores is legal in memory. -/
theorem MayStore.legal {i : Instr} {e : Host.Cell} (h : MayStore i e) :
    inStorage e.1 = true ∧ storedByte e.1 e.2 = e.2 := ⟨inStorage_of_mayWrite h.1, h.2⟩

/-- Every error has a code from 1 to 9 (R355). -/
theorem CmdError.code_range (e : CmdError) : e.code.toNat ≤ 9 ∧ e.code ≠ 0 := by
  cases e <;> simp [CmdError.code]

theorem State.Inv.raiseError (h : s.Inv) (hp : s.phase ≠ .init) (e : CmdError) : (s.raiseError e).Inv :=
  ⟨h.memory, fun _ => h.field hp, nofun, nofun, e.code_range.1, fun _ => e.code_range.2⟩

theorem State.Inv.completeOk (h : s.Inv) (hp : s.phase ≠ .init) {i : Instr} {w : Writes} (hw : LawfulWrites i w) :
    (s.completeOk w).Inv where
  memory := legalMem_writeBytes h.memory fun e he => (hw.mem e he).legal
  field _ := by
    rw [State.completeOk_field]
    cases hf : w.field with
    | none => exact h.field hp
    | some f => exact (hw.field f hf).2
  starting := nofun
  running := nofun
  codes := h.codes
  named := h.named

theorem State.Inv.finish_ruleOf (h : s.Inv) (hp : s.phase ≠ .init) (i : Instr) (x : Snapshot) :
    (s.finish (ruleOf i x)).Inv := by
  cases hr : ruleOf i x with
  | error e => exact h.raiseError hp e
  | ok w => exact h.completeOk hp (ruleOf_lawful i hr)

/-- 0x11D is primitive (R130). -/
theorem validPoly_polyReset : validPoly polyReset = true := by decide +kernel

/-- Initialisation leaves a good field (R390). -/
theorem goodField_polyReset : GoodField (buildField polyReset) := ⟨validPoly_polyReset, rfl⟩

theorem State.Inv.initialise (h : s.Inv) : s.initialise.Inv where
  memory := h.memory
  field _ := goodField_polyReset
  starting := nofun
  running := nofun
  codes := h.codes
  named := h.named

theorem State.Inv.accept (h : s.Inv) (hp : s.phase ≠ .init) (w : Word) : (s.accept w).Inv where
  memory := h.memory
  field _ := h.field hp
  starting := nofun
  running w' x hx := by
    obtain ⟨rfl, rfl⟩ : w = w' ∧ s.snapshot = x := by simpa using hx
    exact ⟨rfl, rfl, rfl, rfl, rfl, rfl, rfl⟩
  codes := (by decide : (0 : BitVec 4).toNat ≤ 9)
  named := nofun

/-- At a reset nothing but memory has to be looked at (R390). -/
theorem inv_resetHolding {m : Memory} (h : legalMem m = true) : (State.resetHolding m).Inv :=
  ⟨h, fun hp => absurd rfl hp, fun _ => ⟨rfl, rfl, rfl, rfl⟩, nofun, (by decide : (0 : BitVec 4).toNat ≤ 9), nofun⟩

theorem inv_powerOn (s : State) (b : List Host.Cell) : (s.powerOn b).Inv :=
  have h := inv_resetHolding (powerOnMemory_legal b)
  ⟨h.memory, h.field, h.starting, h.running, h.codes, h.named⟩

/-- A running command's write set is bytes of the buffers and the matrix. -/
theorem inStorage_of_mem_writeSet {w : Word} {x : Snapshot} {a : Nat} (h : a ∈ writeSet w x) :
    inStorage a = true := by
  unfold writeSet resultOf at h
  cases hd : decode w with
  | error e => simp [hd] at h
  | ok i =>
    cases hr : ruleOf i x with
    | error e => simp [hd, hr] at h
    | ok ws =>
      simp only [hd, hr, List.mem_map] at h
      obtain ⟨e, he, rfl⟩ := h
      exact ((ruleOf_lawful i hr).mem e he).legal.1

theorem State.inStorage_of_mem_writeSet {a : Nat} (h : a ∈ s.writeSet) : inStorage a = true := by
  unfold State.writeSet at h
  split at h
  · exact Machine.inStorage_of_mem_writeSet h
  · cases h
  · cases h

/-- The free bytes of an aborted write set are held as each offset holds bytes (R393, R41). -/
theorem mem_freeEntries {k : Nat} {as : List Nat} {e : Host.Cell} (h : e ∈ freeEntries k as) :
    e.1 ∈ as ∧ storedByte e.1 e.2 = e.2 := by
  induction as generalizing k with
  | nil => cases h
  | cons a as ih =>
    rcases List.mem_cons.mp h with rfl | h
    · exact ⟨List.mem_cons_self, storedByte_idem _ _⟩
    · exact ⟨List.mem_cons_of_mem _ (ih h).1, (ih h).2⟩

theorem State.Inv.softReset (h : s.Inv) : s.softReset.Inv :=
  have hm := legalMem_writeBytes h.memory fun _ he =>
    ⟨s.inStorage_of_mem_writeSet (mem_freeEntries he).1, (mem_freeEntries he).2⟩
  have h' := inv_resetHolding hm
  ⟨h'.memory, h'.field, h'.starting, h'.running, h'.codes, h'.named⟩

/-! ### Host accesses -/

theorem State.Inv.writeStatus (h : s.Inv) (d : Word) : (s.writeStatus d).Inv where
  memory := h.memory
  field := h.field
  starting hp := by
    obtain ⟨hpoly, hdone, herr, hcode⟩ := h.starting hp
    exact ⟨hpoly, by simp [hdone], by simp [herr], hcode⟩
  running w x hp := by
    obtain ⟨hx, hcmd, hdone, herr, hrest⟩ := h.running w x hp
    exact ⟨hx, hcmd, by simp [hdone], by simp [herr], hrest⟩
  codes := h.codes
  named he := h.named (by simp at he; exact he.1)

theorem State.Inv.writeCtrl (h : s.Inv) (d : Word) : (s.writeCtrl d).Inv := by
  unfold State.writeCtrl
  split
  · exact h.softReset
  · exact ⟨h.memory, h.field, h.starting, h.running, h.codes, h.named⟩

theorem State.Inv.overrun (h : s.Inv) : ({ s with ovr := true } : State).Inv :=
  ⟨h.memory, h.field, h.starting, h.running, h.codes, h.named⟩

theorem State.busy_eq_false_iff : s.busy = false ↔ s.phase = .idle := by
  unfold State.busy; split <;> simp [*]

/-- While IDLE the registers a host writes are bound by nothing. -/
theorem inv_of_idle (h : s.Inv) (hs : s.phase = .idle) (ht : t.phase = .idle) (hm : legalMem t.mem = true)
    (hf : t.field = s.field) (hc : t.errcode = s.errcode) (he : t.err = s.err) : t.Inv where
  memory := hm
  field _ := hf ▸ h.field (by simp [hs])
  starting hp := by simp [ht] at hp
  running w x hp := by simp [ht] at hp
  codes := hc ▸ h.codes
  named he' := by rw [hc]; exact h.named (he ▸ he')

theorem State.Inv.writeRegIdle (h : s.Inv) (hp : s.phase = .idle) (off : Nat) (d : Word) :
    (s.writeRegIdle off d).Inv := by
  unfold State.writeRegIdle
  split
  · exact h.accept (by simp [hp]) d
  all_goals exact inv_of_idle h hp hp h.memory rfl rfl rfl

theorem State.Inv.writeReg (h : s.Inv) (off : Nat) (d : Word) : (s.writeReg off d).Inv := by
  unfold State.writeReg
  split
  · exact h.writeCtrl d
  split
  · exact h.writeStatus d
  split
  · exact h
  split
  · exact h.overrun
  · rename_i hb
    exact h.writeRegIdle (State.busy_eq_false_iff.mp (by simpa using hb)) off d

/-- A host write stores only at covered offsets of the storage, and what they can hold (R41, R84). -/
theorem mem_storeEntries {d : Word} {j : Nat} {as : List Nat} {e : Host.Cell} (h : e ∈ storeEntries d j as) :
    inStorage e.1 = true ∧ storedByte e.1 e.2 = e.2 := by
  induction as generalizing j with
  | nil => cases h
  | cons a as ih =>
    simp only [storeEntries] at h
    split at h
    · rcases List.mem_cons.mp h with rfl | h
      · exact ⟨‹_›, storedByte_idem _ _⟩
      · exact ih h
    · exact ih h

theorem State.Inv.writeStorage (h : s.Inv) (a : Access) (d : Word) : (s.writeStorage a d).Inv := by
  unfold State.writeStorage
  split
  · split
    · exact h.overrun
    · rename_i hb
      have hp : s.phase = .idle := State.busy_eq_false_iff.mp (by simpa using hb)
      exact inv_of_idle h hp hp (legalMem_writeBytes h.memory fun _ => mem_storeEntries) rfl rfl rfl
  · exact h

theorem State.Inv.hostRead (h : s.Inv) (a : Access) : (s.hostRead a).Inv := by
  unfold State.hostRead
  split
  · exact h.respond _ _
  · split
    · exact (h.withFreeCount _).respond _ _
    all_goals exact h.respond _ _

theorem State.Inv.hostWrite (h : s.Inv) (a : Access) (d : Word) : (s.hostWrite a d).Inv := by
  unfold State.hostWrite
  split
  · exact (h.writeReg _ d).respond _ _
  · exact (h.writeStorage a d).respond _ _

theorem State.Inv.hostAccess (h : s.Inv) {a : Access} (ha : s.hostAccess a = .next t) : t.Inv := by
  obtain ⟨_, ⟨_, rfl⟩ | ⟨_, _, rfl⟩ | ⟨_, d, _, rfl⟩⟩ := hostAccess_cases ha
  · exact h.respond _ _
  · exact h.hostRead a
  · exact h.hostWrite a d

theorem State.Inv.sequencerStep (h : s.Inv) (hs : sequencerStep s = .next t) : t.Inv := by
  obtain ⟨_, rfl⟩ | ⟨_, rfl⟩ | ⟨w, x, i, hp, _, rfl⟩ | ⟨w, x, e, hp, _, rfl⟩ := sequencerStep_cases hs
  · exact h.initialise
  · exact h
  · exact h.finish_ruleOf (by simp [hp]) i _
  · exact h.raiseError (by simp [hp]) _

/-- Settles O19: each event of a step, and the sequencer's own step, keeps the invariant. -/
theorem stepKeepsTheInvariant : Obligations.StepKeepsTheInvariant := by
  intro s t h hs
  obtain ⟨_, hq⟩ | ⟨es, _, hq⟩ | ⟨a, es, _, ha⟩ | ⟨b, es, _, rfl⟩ := step_cases hs
  · exact h.sequencerStep hq
  · exact (h.withEvents es).sequencerStep hq
  · exact (h.withEvents es).hostAccess ha
  · exact inv_powerOn _ b

end Sys2Proof.Machine

/-! Register accesses: what they read and store, and the acceptance of a command word. -/

namespace Sys2Proof

open Machine

/-! ### Which accesses are performed (R74 to R76) -/

theorem Width.bytes_pos (wd : Width) : 0 < wd.bytes := by cases wd <;> decide

namespace Access

theorem mem_covered {a : Access} {b : Nat} : b ∈ a.covered ↔ a.offset ≤ b ∧ b < a.offset + a.width.bytes := by
  rw [covered, List.mem_range'_1]

/-- An access touches the register region where its first byte does. -/
theorem touchesRegs_iff {a : Access} : a.touchesRegs = true ↔ a.offset < 0x100 := by
  have hpos := a.width.bytes_pos
  simp only [touchesRegs, inRegs, List.any_eq_true, mem_covered, decide_eq_true_eq]
  exact ⟨fun ⟨b, hb, hr⟩ => by omega, fun h => ⟨a.offset, by omega, h⟩⟩

theorem touchesRegs_eq_false {a : Access} (h : 0x100 ≤ a.offset) : a.touchesRegs = false := by
  rw [← Bool.not_eq_true, touchesRegs_iff]; omega

/-- An aligned access is refused only where it is a narrow access to a register. -/
theorem refused_eq_false {a : Access} (ha : a.offset % a.width.bytes = 0) (hr : a.offset < 0x100 → a.width = .word) :
    a.refused = false := by
  have haligned : a.aligned = true := by simpa [aligned] using ha
  unfold refused
  split
  · rename_i ht
    simp [haligned, hr (touchesRegs_iff.mp ht)]
  · simp [haligned]

theorem outside_eq_false {a : Access} (h : a.offset + a.width.bytes ≤ 0x10000) : a.outside = false :=
  decide_eq_false (Nat.not_lt.mpr h)

end Access

end Sys2Proof

namespace Sys2Proof.Machine

variable {s : State} {es : List Event}

theorem step_host {a : Access} (h : s.events = .host a :: es) :
    step s = ({ s with events := es } : State).hostAccess a := by
  simp [step, h]

/-- A read that is inside the window and not refused is performed. -/
theorem hostAccess_read (s : State) {off : Nat} {wd : Width} (ho : (Access.mk off wd .read).outside = false)
    (hr : (Access.mk off wd .read).refused = false) :
    s.hostAccess ⟨off, wd, .read⟩ = .next (s.hostRead ⟨off, wd, .read⟩) := by
  simp [State.hostAccess, ho, hr]

/-- A write that is inside the window and not refused is performed. -/
theorem hostAccess_write (s : State) {off : Nat} {wd : Width} {d : Word}
    (ho : (Access.mk off wd (.write d)).outside = false) (hr : (Access.mk off wd (.write d)).refused = false) :
    s.hostAccess ⟨off, wd, .write d⟩ = .next (s.hostWrite ⟨off, wd, .write d⟩ d) := by
  simp [State.hostAccess, ho, hr]

/-! ### Register accesses (R75) -/

theorem outside_register {off : Nat} (h : off < 0x100) (k : AccessKind) : (Access.mk off .word k).outside = false :=
  Access.outside_eq_false (by simp only [Width.bytes]; omega)

theorem refused_register {off : Nat} (h4 : off % 4 = 0) (k : AccessKind) : (Access.mk off .word k).refused = false :=
  Access.refused_eq_false h4 fun _ => rfl

theorem touchesRegs_register {off : Nat} {wd : Width} (h : off < 0x100) (k : AccessKind) :
    (Access.mk off wd k).touchesRegs = true := Access.touchesRegs_iff.mpr h

theorem hostAccess_readReg (s : State) {off : Nat} (h4 : off % 4 = 0) (h : off < 0x100) :
    s.hostAccess ⟨off, .word, .read⟩ = .next (s.respond (s.readReg off) false) := by
  rw [hostAccess_read s (outside_register h _) (refused_register h4 _), State.hostRead,
    if_pos (touchesRegs_register h _)]

theorem hostAccess_writeReg (s : State) {off : Nat} (d : Word) (h4 : off % 4 = 0) (h : off < 0x100) :
    s.hostAccess ⟨off, .word, .write d⟩ = .next ((s.writeReg off d).respond 0 false) := by
  rw [hostAccess_write s (outside_register h _) (refused_register h4 _), State.hostWrite,
    if_pos (touchesRegs_register h _)]

theorem writeReg_cmd_of_idle (hs : s.busy = false) (w : Word) : s.writeReg 0x00C w = s.accept w := by
  simp [State.writeReg, reservedReg, hs, State.writeRegIdle]

theorem writeReg_cmd_of_busy (hs : s.busy = true) (w : Word) : s.writeReg 0x00C w = { s with ovr := true } := by
  simp [State.writeReg, reservedReg, hs]

/-- Settles O5: `step` is the sequencer's step, which is `exec` of the decoded command. -/
theorem stepRunsTheDecodedCommand : Obligations.StepRunsTheDecodedCommand := by
  intro s w x i hp hd
  have hseq : ∀ s' : State, s'.phase = .busy w x → sequencerStep s' = exec i s' := fun s' hp' => by
    simp [sequencerStep, hp', hd]
  refine ⟨fun he => ?_, fun es he => ?_⟩
  · simpa [step, he] using hseq s hp
  · simpa [step, he] using hseq { s with events := es } hp

/-- Settles O6: a CMD write is the register write of `State.writeReg`, which accepts or drops. -/
theorem commandWordAcceptance : Obligations.CommandWordAcceptance := by
  refine ⟨fun s w es he => ⟨fun hb => ?_, fun hb => ?_⟩, fun s es he => ?_, rfl⟩
  · rw [step_host he, hostAccess_writeReg _ w rfl (by decide), writeReg_cmd_of_idle (s := { s with events := es }) hb]
    rfl
  · rw [step_host he, hostAccess_writeReg _ w rfl (by decide), writeReg_cmd_of_busy (s := { s with events := es }) hb]
    rfl
  · rw [step_host he, hostAccess_readReg _ rfl (by decide)]
    rfl

/-! ### What the registers read as (R21 to R34) -/

theorem flagBit_getLsbD (b : Bool) {k : Nat} (hk : k < 32) (i : Nat) :
    (flagBit b k).getLsbD i = (decide (i = k) && b) := by
  cases b
  · simp [flagBit]
  · rw [flagBit, if_pos rfl, BitVec.getLsbD_ofNat, Nat.testBit_two_pow]
    by_cases h : i = k
    · simp [h, hk]
    · simp [h, Ne.symm h]

theorem busy_eq (s : State) : s.busy = decide (s.phase ≠ .idle) := by
  unfold State.busy; split <;> simp [*]

theorem gfReady_eq (s : State) : s.gfReady = decide (s.phase ≠ .init) := by
  unfold State.gfReady; split <;> simp [*]

theorem statusWord_getLsbD (s : State) (k : Nat) : s.statusWord.getLsbD k =
    ((decide (k = 0) && decide (s.phase ≠ .idle)) || (decide (k = 1) && s.done) || (decide (k = 2) && s.err) ||
      (decide (k = 3) && decide (s.phase ≠ .init)) || (decide (k = 4) && s.ovr)) := by
  simp only [State.statusWord, BitVec.getLsbD_or, flagBit_getLsbD _ (by decide : 0 < 32),
    flagBit_getLsbD _ (by decide : 1 < 32), flagBit_getLsbD _ (by decide : 2 < 32),
    flagBit_getLsbD _ (by decide : 3 < 32), flagBit_getLsbD _ (by decide : 4 < 32), busy_eq, gfReady_eq]

theorem readReg_res (s : State) {k : Nat} (h : k < 8) : s.readReg (0x040 + 4 * k) = s.res[k] := by
  interval_cases k <;> simp [State.readReg]

theorem readReg_score (s : State) {k : Nat} (h : k < 8) : s.readReg (0x060 + 4 * k) = s.score[k] := by
  interval_cases k <;> simp [State.readReg]

theorem readReg_reserved (s : State) {off : Nat} (h : (0x034 ≤ off ∧ off < 0x040) ∨ 0x080 ≤ off) :
    s.readReg off = 0 := by
  have hres : ¬ (0x040 ≤ off ∧ off < 0x060) := by omega
  have hscore : ¬ (0x060 ≤ off ∧ off < 0x080) := by omega
  unfold State.readReg
  split
  case h_14 => rw [if_neg hres, if_neg hscore]
  all_goals omega

/-! ### What a register write while IDLE stores (R22 to R34) -/

/-- The state after a register write while IDLE, field by field; CMD and a soft reset apart. -/
theorem writeReg_of_idle (hp : s.phase = .idle) {off : Nat} (d : Word) (hcmd : off ≠ 0x00C)
    (hsrst : ¬ (off = 0x004 ∧ d.getLsbD 1 = true)) : s.writeReg off d = { s with
      ie := if off = 0x004 then d.getLsbD 0 else s.ie
      done := if off = 0x008 then s.done && !d.getLsbD 1 else s.done
      err := if off = 0x008 then s.err && !d.getLsbD 2 else s.err
      ovr := if off = 0x008 then s.ovr && !d.getLsbD 4 else s.ovr
      poly := if off = 0x01C then d.extractLsb' 0 9 else s.poly
      mver := if off = 0x024 then d.extractLsb' 0 6 else s.mver
      opa := if off = 0x028 then d else s.opa
      opb := if off = 0x02C then d else s.opb
      opc := if off = 0x030 then d else s.opc } := by
  unfold State.writeReg
  split
  · rename_i h; subst h
    rw [State.writeCtrl, if_neg fun h => hsrst ⟨rfl, h⟩]
    rfl
  split
  · rename_i h; subst h
    simp [State.writeStatus]
  split
  · rename_i h4 h8 hres
    have hne : ∀ k, (k < 0x034 → off ≠ k) := fun k hk => by
      simp [reservedReg] at hres; omega
    simp [hne]
  rw [if_neg (by simp [State.busy, hp])]
  clear hp
  unfold State.writeRegIdle
  split
  · exact absurd rfl hcmd
  case h_7 _ _ h1C h24 h28 h2C h30 =>
    simp only [if_neg h1C, if_neg h24, if_neg h28, if_neg h2C, if_neg h30]
  all_goals simp [← BitVec.setWidth_eq_extractLsb']

/-- Settles O12: the two lemmas on `readReg` and `writeReg` through the one on a register access. -/
theorem registerReads : Obligations.RegisterReads := by
  refine ⟨fun s off es he h4 h => ?_, fun s off d es hp he h4 h hcmd hsrst => ?_⟩
  · refine ⟨s.readReg off, ?_, ?_⟩
    · rw [step_host he, hostAccess_readReg _ h4 h]
      rfl
    refine ⟨?_, ?_, ?_, ?_, ?_, ?_, ?_, ?_, ?_, ?_, ?_, ?_, ?_, fun k hk => ⟨?_, ?_⟩, fun hr => readReg_reserved s hr⟩
    all_goals intro hoff; subst hoff
    · rfl
    · exact flagBit_getLsbD s.ie (by decide)
    · exact statusWord_getLsbD s
    · rfl
    · exact BitVec.toNat_setWidth_of_le (by decide)
    · rfl
    · rfl
    · exact BitVec.toNat_setWidth_of_le (by decide)
    · exact BitVec.toNat_setWidth_of_le (by decide)
    · exact BitVec.toNat_setWidth_of_le (by decide)
    · rfl
    · rfl
    · rfl
    · exact readReg_res s hk
    · exact readReg_score s hk
  · rw [step_host he, hostAccess_writeReg _ d h4 h, writeReg_of_idle (s := { s with events := es }) hp d hcmd hsrst]
    rfl

end Sys2Proof.Machine

/-! Buffer and matrix accesses: what a host write stores and a host read returns. -/

namespace Sys2Proof.Machine

variable {s : State}

/-! ### Buffer and matrix accesses (R74, R78, R84) -/

/-- A storage access performed as R74 asks: at 0x0100 and above, inside the window, aligned. -/
theorem hostAccess_writeStorage (s : State) {off : Nat} {wd : Width} (d : Word) (h : 0x100 ≤ off)
    (hin : off + wd.bytes ≤ 0x10000) (ha : off % wd.bytes = 0) :
    s.hostAccess ⟨off, wd, .write d⟩ = .next ((s.writeStorage ⟨off, wd, .write d⟩ d).respond 0 false) := by
  rw [hostAccess_write s (Access.outside_eq_false hin) (Access.refused_eq_false ha fun hlt => absurd h (Nat.not_le.mpr hlt)),
    State.hostWrite, Access.touchesRegs_eq_false h, if_neg Bool.false_ne_true]

theorem hostAccess_readStorage (s : State) {off : Nat} {wd : Width} (h : 0x100 ≤ off)
    (hin : off + wd.bytes ≤ 0x10000) (ha : off % wd.bytes = 0) : ∃ t,
    s.hostAccess ⟨off, wd, .read⟩ = .next t ∧
      t.resp = some ⟨natWord (s.hostValue s.freeCount (Access.mk off wd .read).covered), false⟩ := by
  rw [hostAccess_read s (Access.outside_eq_false hin) (Access.refused_eq_false ha fun hlt => absurd h (Nat.not_le.mpr hlt)),
    State.hostRead, Access.touchesRegs_eq_false h, if_neg Bool.false_ne_true]
  split <;> exact ⟨_, rfl, rfl⟩

theorem storeEntries_of_reserved {d : Word} {as : List Nat} (h : as.any inStorage = false) (j : Nat) :
    storeEntries d j as = [] := by
  induction as generalizing j with
  | nil => rfl
  | cons a as ih =>
    simp only [List.any_cons, Bool.or_eq_false_iff] at h
    simp [storeEntries, h.1, ih h.2]

/-- A write of reserved bytes alone has no effect (R84). -/
theorem writeStorage_of_reserved {a : Access} (h : a.touchesStorage = false) (d : Word) : s.writeStorage a d = s := by
  simp [State.writeStorage, h]

/-- While IDLE the bytes of the storage among those covered are stored, and nothing else happens. -/
theorem writeStorage_of_idle (hp : s.phase = .idle) (a : Access) (d : Word) :
    s.writeStorage a d = { s with mem := writeBytes s.mem (storeEntries d 0 a.covered) } := by
  unfold State.writeStorage
  split
  · rw [State.busy_eq_false_iff.mpr hp, if_neg Bool.false_ne_true]
  · rename_i h
    rw [storeEntries_of_reserved (by simpa [Access.touchesStorage] using h)]
    rfl

/-- The entry of a host write for one offset: its byte of the value, as the offset holds bytes (R41, R78). -/
theorem find_storeEntries (d : Word) (j off k a : Nat) :
    ((storeEntries d j (List.range' off k)).find? fun e => e.1 == a).map Prod.snd =
      if off ≤ a ∧ a < off + k ∧ inStorage a = true then some (storedByte a (d.extractLsb' (8 * (j + (a - off))) 8))
      else none := by
  induction k generalizing j off with
  | zero => rw [if_neg (by omega)]; rfl
  | succ k ih =>
    rw [List.range'_succ]
    by_cases hoff : off = a
    · subst hoff
      cases hs : inStorage off with
      | true => simp [storeEntries, hs]
      | false => simp [storeEntries, hs, ih]
    · have hskip : ((storeEntries d j (off :: List.range' (off + 1) k)).find? fun e => e.1 == a) =
          (storeEntries d (j + 1) (List.range' (off + 1) k)).find? fun e => e.1 == a := by
        simp only [storeEntries]
        split
        · exact List.find?_cons_of_neg (by simpa using hoff)
        · rfl
      rw [hskip, ih]
      by_cases hin : off + 1 ≤ a ∧ a < off + 1 + k ∧ inStorage a = true
      · rw [if_pos hin, if_pos ⟨by omega, by omega, hin.2.2⟩, show j + 1 + (a - (off + 1)) = j + (a - off) by omega]
      · rw [if_neg hin, if_neg fun h => hin ⟨by omega, by omega, h.2.2⟩]

/-- What memory holds after a host write (R41, R74, R78). -/
theorem readByte_writeBytes_storeEntries {m : Memory} (hm : m.wf = true) (d : Word) (off k a : Nat) :
    readByte (writeBytes m (storeEntries d 0 (List.range' off k))) a =
      if off ≤ a ∧ a < off + k ∧ inStorage a = true then storedByte a (d.extractLsb' (8 * (a - off)) 8)
      else readByte m a := by
  rw [readByte_writeBytes hm, find_storeEntries, Nat.zero_add]
  split <;> rfl

/-- Settles O9: the write stores `storeEntries`, which `readByte_writeBytes_storeEntries` reads back. -/
theorem hostWriteStoresLittleEndian : Obligations.HostWriteStoresLittleEndian := by
  intro s off wd d es hinv hp he h hin ha
  have hwf := legalMem_wf hinv.memory
  refine ⟨writeBytes s.mem (storeEntries d 0 (List.range' off wd.bytes)), ?_, writeBytes_wf hwf _, fun a => ?_⟩
  · rw [step_host he, hostAccess_writeStorage _ d h hin ha, writeStorage_of_idle (s := { s with events := es }) hp]
    rfl
  · rw [readByte_writeBytes_storeEntries hwf]
    rfl

/-! ### Matrix bytes (R40, R41) -/

/-- The matrix tail is reserved (R41). -/
theorem inStorage_tail {k : Nat} (h1 : 31329 ≤ k) (h2 : k ≤ 32767) : inStorage (0x8000 + k) = false := by
  have hm : inMatrix (0x8000 + k) = false := by
    rw [← Bool.not_eq_true, inMatrix_iff, inRange, matBase]
    omega
  have hb : inBuffer (0x8000 + k) = false := by
    simp only [inBuffer, Bool.or_eq_false_iff, decide_eq_false_iff_not]
    omega
  rw [inStorage, hm, hb]; rfl

theorem storedByte_unlisted (a : Nat) : storedByte a unlisted = unlisted := by
  unfold storedByte
  split
  · decide
  · rfl

/-- A byte of memory is one that its offset can hold, where memory is legal. -/
theorem storedByte_readByte {m : Memory} (h : legalMem m = true) (a : Nat) :
    storedByte a (readByte m a) = readByte m a := by
  simp only [legalMem, Bool.and_eq_true] at h
  obtain ⟨-, h⟩ := h
  induction m with
  | nil => exact storedByte_unlisted a
  | cons e m ih =>
    obtain ⟨b, v⟩ := e
    simp only [List.all_cons, Bool.and_eq_true, beq_iff_eq] at h
    simp only [readByte]
    split_ifs with hlt heq
    · exact ih h.2
    · exact heq ▸ h.1.2
    · exact storedByte_unlisted a

theorem matrixByte_legal (b : Byte) : matrixByte b ∈ [0b000#8, 0b010#8, 0b011#8, 0b100#8, 0b110#8, 0b111#8] := by
  revert b; decide

theorem matrixByte_getLsbD (b : Byte) (k : Nat) : (matrixByte b).getLsbD k =
    if k = 0 then b.getLsbD 0 && b.getLsbD 1 else if k = 1 ∨ k = 2 then b.getLsbD k else false := by
  by_cases hk : k < 8
  · revert b
    interval_cases k <;> decide
  · rw [BitVec.getLsbD_of_ge _ _ (by omega), if_neg (by omega), if_neg (by omega)]

theorem inStorage_of_inMatrix {a : Nat} (h : inMatrix a = true) : inStorage a = true := by
  rw [inStorage, h, Bool.or_true]

/-- The byte a one-byte access carries is the byte that was given. -/
theorem extractLsb'_setWidth_byte (b : Byte) : (b.setWidth 32).extractLsb' 0 8 = b := by
  rw [← BitVec.setWidth_eq_extractLsb' (by decide), BitVec.setWidth_setWidth_of_le _ (by decide), BitVec.setWidth_eq]

/-- A byte written to cell (r, c) while IDLE: the cell holds `matrixByte` of it, every other offset its byte. -/
theorem step_writeCell {r c : Nat} {b : Byte} {es : List Event} (hinv : s.Inv) (hp : s.phase = .idle) (hr : r < 177)
    (hc : c < 177) (he : s.events = .host ⟨0x8000 + 177 * r + c, .byte, .write (b.setWidth 32)⟩ :: es) :
    ∃ t, step s = .next t ∧ readByte t.mem (0x8000 + 177 * r + c) = matrixByte b ∧
      ∀ a, a ≠ 0x8000 + 177 * r + c → readByte t.mem a = readByte s.mem a := by
  have hm : inMatrix (0x8000 + 177 * r + c) = true := inMatrix_cellOffset hr hc
  obtain ⟨m, hstep, -, hread⟩ := hostWriteStoresLittleEndian s _ .byte _ es hinv hp he (by omega)
    (by simp only [Width.bytes]; omega) (Nat.mod_one _)
  refine ⟨_, hstep, ?_, fun a ha => ?_⟩
  · rw [hread, if_pos ⟨le_refl _, Nat.lt_succ_self _, inStorage_of_inMatrix hm⟩, if_pos hm, Nat.sub_self, Nat.mul_zero,
      extractLsb'_setWidth_byte]
  · rw [hread, if_neg]
    simp only [Width.bytes]
    omega

theorem memCell_of_readByte {m : Memory} {r c : Nat} {b : Byte}
    (h : readByte m (0x8000 + 177 * r + c) = matrixByte b) : memCell m r c = Cell.ofByte b := by
  rw [memCell, show cellOffset r c = 0x8000 + 177 * r + c from rfl, h, matrixByte, cell_roundTrip]

/-- Legal memory holds a legal encoding in every cell (R41). -/
theorem readByte_cell_legal {m : Memory} (h : legalMem m = true) {r c : Nat} (hr : r < 177) (hc : c < 177) :
    readByte m (cellOffset r c) ∈ [0b000#8, 0b010#8, 0b011#8, 0b100#8, 0b110#8, 0b111#8] := by
  have hst := storedByte_readByte h (cellOffset r c)
  rw [storedByte, if_pos (inMatrix_cellOffset hr hc)] at hst
  exact hst ▸ matrixByte_legal _

theorem step_writeTail {k : Nat} {d : Word} {es : List Event} (h1 : 31329 ≤ k) (h2 : k ≤ 32767)
    (he : s.events = .host ⟨0x8000 + k, .byte, .write d⟩ :: es) :
    step s = .next { s with events := es, resp := some ⟨0, false⟩ } := by
  rw [step_host he, hostAccess_writeStorage _ _ (by omega) (by simp only [Width.bytes]; omega) (Nat.mod_one _),
    writeStorage_of_reserved]
  · rfl
  · simpa [Access.touchesStorage, Access.covered, Width.bytes] using inStorage_tail h1 h2

theorem step_readTail {k : Nat} {es : List Event} (h1 : 31329 ≤ k) (h2 : k ≤ 32767)
    (he : s.events = .host ⟨0x8000 + k, .byte, .read⟩ :: es) :
    ∃ t, step s = .next t ∧ t.resp = some ⟨0, false⟩ := by
  obtain ⟨t, ht, hresp⟩ := hostAccess_readStorage ({ s with events := es } : State) (off := 0x8000 + k) (wd := .byte)
    (by omega) (by simp only [Width.bytes]; omega) (Nat.mod_one _)
  refine ⟨t, (step_host he).trans ht, hresp.trans ?_⟩
  simp [Access.covered, Width.bytes, State.hostValue, State.hostByte, inStorage_tail h1 h2]

/-- Settles O11: a written cell holds `matrixByte` of the byte, memory is legal, and the tail is no storage. -/
theorem matrixBytesAreLegalCells : Obligations.MatrixBytesAreLegalCells := by
  refine ⟨fun s r c b es hinv hp hr hc he => ?_, fun s r c hinv hr hc => readByte_cell_legal hinv.memory hr hc,
    fun s k b es h1 h2 => ⟨step_writeTail h1 h2, step_readTail h1 h2⟩⟩
  obtain ⟨t, hstep, hbyte, hother⟩ := step_writeCell hinv hp hr hc he
  have hcell := memCell_of_readByte hbyte
  exact ⟨t, hstep, fun k => by rw [hbyte, matrixByte_getLsbD], by rw [hcell]; rfl, by rw [hcell]; rfl, hother⟩

end Sys2Proof.Machine

/-! What the commands leave unchanged: registers, buffers and reserved cells. -/

namespace Sys2Proof.Machine

variable {s t : State}

/-! ### What a command leaves unchanged (R29 to R35, R42) -/

theorem eq_finish_of_exec {i : Instr} (h : exec i s = .next t) : t = s.finish (ruleOf i s.input) := by
  rw [exec_finish] at h
  exact (Host.Outcome.next.inj h).symm

/-- A command changes memory only where its writes name the offset. -/
theorem readByte_completeOk_other (hm : s.mem.wf = true) {w : Writes} {a : Nat} (h : ∀ e ∈ w.mem, e.1 ≠ a) :
    readByte (s.completeOk w).mem a = readByte s.mem a := by
  rw [State.completeOk_mem, readByte_writeBytes_other hm]
  intro ha
  obtain ⟨e, he, rfl⟩ := List.mem_map.mp ha
  exact h e he rfl

/-- Settles O26: an error writes nothing, and every rule's writes are lawful. -/
theorem onlyTheNamedCommandsWrite : Obligations.OnlyTheNamedCommandsWrite := by
  intro s t i hs h
  obtain rfl := eq_finish_of_exec h
  refine ⟨hostSideKept_finish s _, ?_⟩
  cases hr : ruleOf i s.input with
  | error e => exact ⟨fun _ => rfl, fun _ => rfl, fun _ => rfl, fun a ha => absurd rfl ha⟩
  | ok w =>
    have hw := ruleOf_lawful i hr
    refine ⟨fun hi => ?_, fun hi => ?_, fun hi => ?_, fun a ha => ?_⟩
    · cases hf : w.field with
      | none => simp [hf]
      | some f => exact absurd (hw.field f hf).1 hi
    · simp [hw.mver hi]
    · simp [hw.score hi]
    · by_contra hn
      exact ha (readByte_completeOk_other (legalMem_wf hs.inv.memory) fun e he hea => hn (hea ▸ (hw.mem e he).1))

/-! ### Reservations (R42) -/

/-- A cell of the matrix that no listed cell names keeps its byte. -/
theorem memCell_of_not_written (hm : s.mem.wf = true) {w : Writes} {r c : Nat}
    (h : ∀ e ∈ w.mem, e.1 ≠ cellOffset r c) : memCell (s.completeOk w).mem r c = memCell s.mem r c := by
  rw [memCell, readByte_completeOk_other hm h, ← memCell]

/-- Outside the square of a stored grid the matrix keeps its cells. -/
theorem memCell_gridWrites_outside {m : Memory} (hm : m.wf = true) {keep : Nat → Nat → Bool} {n r c : Nat} {g : Grid}
    (hg : IsSquare n g) (hn : n ≤ 177) (hc : c < 177) (h : ¬ (r < n ∧ c < n)) :
    memCell (writeBytes m (gridWrites keep 0 g)) r c = memCell m r c := by
  unfold memCell
  rw [readByte_writeBytes_other hm]
  intro ha
  obtain ⟨e, he, hea⟩ := List.mem_map.mp ha
  obtain ⟨i, j, hi, hj, _, rfl⟩ := mem_gridWrites hg.2 he
  obtain ⟨rfl, rfl⟩ := cellOffset_inj (by omega) hc hea
  exact h ⟨by have := hg.1; omega, hj⟩

/-- A cell of the matrix after a grid read from it has been worked on, and kept cells of it stored: what the work
made of it where it is kept, and else what it was. -/
theorem memCell_storeGrid {m : Memory} (hm : m.wf = true) {keep : Nat → Nat → Bool} {n r c : Nat} {g : Grid}
    (hg : IsSquare n g) (hn : n ≤ 177) (hc : c < 177) :
    memCell (writeBytes m (gridWrites keep 0 g)) r c =
      if r < n ∧ c < n ∧ keep r c = true then cellAt g r c else memCell m r c := by
  by_cases h : r < n ∧ c < n
  · rw [memCell_gridWrites hm hg hn h.1 h.2]
    simp [h]
  · rw [memCell_gridWrites_outside hm hg hn hc h, if_neg fun h' => h ⟨h'.1, h'.2.1⟩]

/-- Setting a cell leaves each cell as it was, or makes it the one that is set. -/
theorem cellAt_setCell_cases (g : Grid) (r' c' r c : Nat) (x : Cell) :
    cellAt (setCell g r' c' x) r c = x ∨ cellAt (setCell g r' c' x) r c = cellAt g r c := by
  simp only [cellAt, setCell, List.getD_eq_getElem?_getD, List.getElem?_set]
  by_cases hr : r' = r
  · subst hr
    by_cases hg : r' < g.length
    · rw [if_pos rfl, if_pos hg, Option.getD_some, List.getElem?_set]
      by_cases hc : c' = c
      · subst hc
        rw [if_pos rfl]
        split
        · exact .inl rfl
        · rename_i hrow
          exact .inr (by simp [List.getElem?_eq_none (Nat.not_lt.mp hrow)])
      · rw [if_neg hc]; exact .inr rfl
    · exact .inr (by simp [hg])
  · rw [if_neg hr]; exact .inr rfl

/-- Marking cells never clears a reservation. -/
theorem res_markAll (ms : List (Nat × Nat × Bool)) {g : Grid} {r c : Nat} (h : (cellAt g r c).res = true) :
    (cellAt (markAll g ms) r c).res = true := by
  induction ms generalizing g with
  | nil => exact h
  | cons m ms ih =>
    obtain ⟨r', c', x⟩ := m
    refine ih ?_
    obtain hset | hset := cellAt_setCell_cases g r' c' r c (marked x)
    · rw [hset]; rfl
    · rw [hset]; exact h

/-- Masking leaves every reservation as it is (R281). -/
theorem res_applyMask {n : Nat} {g : Grid} (hg : IsSquare n g) (k : MaskId) {r c : Nat} (hr : r < n) (hc : c < n) :
    (cellAt (applyMask k g) r c).res = (cellAt g r c).res := by
  rw [applyMask, cellAt_mapGrid hg _ hr hc]
  split <;> rfl

theorem isFree_iff {x : Cell} : x.isFree = true ↔ IsFree x := by
  simp [Cell.isFree, Cell.isUnset, IsFree]

theorem inverts_of_res {k : MaskId} {r c : Nat} {x : Cell} (h : x.res = true) : inverts k r c x = false := by
  simp [inverts, h]

/-- The model's test for a format cell is that a bit of the format word goes there (R312). -/
theorem isFormatCell_eq (n r c : Nat) : isFormatCell n r c = (formatBitAt n r c).isSome := by
  unfold isFormatCell formatBitAt
  cases h : fmt1.idxOf? (r, c) with
  | none =>
    have hn : fmt1.contains (r, c) = false := by
      simpa using List.idxOf?_eq_none_iff.mp h
    rw [hn, Bool.false_or, Option.isSome_map, Bool.eq_iff_iff, List.isSome_idxOf?, List.contains_iff_mem]
  | some j =>
    have hc : fmt1.contains (r, c) = true := by
      rw [List.contains_iff_mem, ← List.isSome_idxOf?, h]; rfl
    rw [hc, Bool.true_or]; rfl

/-! ### What each matrix command makes of a cell of the matrix -/

variable {w : Writes} {r c : Nat}

/-- The matrix after a command has stored cells of a grid it made from the matrix itself. -/
theorem memCell_completeOk_storeGrid (hm : s.mem.wf = true) {keep : Nat → Nat → Bool} {v : Nat} {g : Grid}
    (hg : IsSquare (symbolSize v) g) (hv : v ≤ 40) (hc : c < 177) (hw : w.mem = gridWrites keep 0 g) :
    memCell (s.completeOk w).mem r c =
      if r < symbolSize v ∧ c < symbolSize v ∧ keep r c = true then cellAt g r c else memCell s.mem r c := by
  rw [State.completeOk_mem, hw, memCell_storeGrid hm hg (symbolSize_le hv) hc]

/-- PLACE changes free cells alone (R258). -/
theorem isFree_of_place (hm : s.mem.wf = true) (h : placeRule s.snapshot = .ok w) (hc : c < 177)
    (hne : memCell (s.completeOk w).mem r c ≠ memCell s.mem r c) : IsFree (memCell s.mem r c) := by
  obtain ⟨res, cw, hv, hw⟩ := placeRule_ok h
  rw [memCell_completeOk_storeGrid hm (isSquare_placeInto (isSquare_gridOf _ _) cw) hv hc (by rw [hw])] at hne
  split at hne
  · rename_i hin
    obtain ⟨hr, hc, hk⟩ := hin
    rw [cellAt_gridOf _ hr hc] at hk
    exact isFree_iff.mp hk
  · exact absurd rfl hne

/-- MASK_APPLY changes no reserved cell (R281). -/
theorem memCell_maskApply_of_res (hm : s.mem.wf = true) (h : maskApplyRule s.snapshot = .ok w) (hc : c < 177)
    (hres : (memCell s.mem r c).res = true) : memCell (s.completeOk w).mem r c = memCell s.mem r c := by
  obtain ⟨res, hv, hw⟩ := maskApplyRule_ok h
  rw [memCell_completeOk_storeGrid hm (isSquare_applyMask (isSquare_gridOf _ _) _) hv hc (by rw [hw]), if_neg]
  rintro ⟨hr, hc, hk⟩
  rw [cellAt_gridOf _ hr hc, State.snapshot_mem, inverts_of_res hres] at hk
  cases hk

/-- MASK_SELECT changes no reserved cell but the format cells (R281, R292). -/
theorem memCell_maskSelect_of_res (hm : s.mem.wf = true) (h : maskSelectRule s.snapshot = .ok w) (hc : c < 177)
    (hres : (memCell s.mem r c).res = true) (hf : (formatBitAt (symbolSize s.mver.toNat) r c).isSome = false) :
    memCell (s.completeOk w).mem r c = memCell s.mem r c := by
  obtain ⟨res, score, best, hv, hw⟩ := maskSelectRule_ok h
  rw [memCell_completeOk_storeGrid hm (isSquare_candidate (isSquare_gridOf _ _) _ _) hv hc (by rw [hw]), if_neg]
  rintro ⟨hr, hc, hk⟩
  rw [cellAt_gridOf _ hr hc, State.snapshot_mem, inverts_of_res hres, Bool.false_or, isFormatCell_eq] at hk
  exact Bool.false_ne_true (hf.symm.trans hk)

theorem res_maskSelect (hm : s.mem.wf = true) (h : maskSelectRule s.snapshot = .ok w) (hc : c < 177)
    (hres : (memCell s.mem r c).res = true) : (memCell (s.completeOk w).mem r c).res = true := by
  obtain ⟨res, score, best, hv, hw⟩ := maskSelectRule_ok h
  have hg := isSquare_gridOf s.snapshot.mem (symbolSize s.snapshot.mverNat)
  rw [memCell_completeOk_storeGrid hm (isSquare_candidate hg _ _) hv hc (by rw [hw])]
  split
  · rename_i hin
    obtain ⟨hr, hc, _⟩ := hin
    refine res_markAll _ ?_
    rwa [res_applyMask hg _ hr hc, cellAt_gridOf _ hr hc]
  · exact hres

theorem res_formatStamp (hm : s.mem.wf = true) (h : formatStampRule s.snapshot = .ok w) (hc : c < 177)
    (hres : (memCell s.mem r c).res = true) : (memCell (s.completeOk w).mem r c).res = true := by
  obtain ⟨res, hv, hw⟩ := formatStampRule_ok h
  rw [memCell_completeOk_storeGrid hm (isSquare_stampFormat (isSquare_gridOf _ _) _ _) hv hc (by rw [hw])]
  split
  · rename_i hin
    obtain ⟨hr, hc, _⟩ := hin
    exact res_markAll _ (by rwa [cellAt_gridOf _ hr hc])
  · exact hres

theorem res_versionStamp (hm : s.mem.wf = true) (h : versionStampRule s.snapshot = .ok w) (hc : c < 177)
    (hres : (memCell s.mem r c).res = true) : (memCell (s.completeOk w).mem r c).res = true := by
  obtain ⟨res, hv, hw⟩ := versionStampRule_ok h
  rw [memCell_completeOk_storeGrid hm (isSquare_stampVersion (isSquare_gridOf _ _) _) hv hc (by rw [hw])]
  split
  · rename_i hin
    obtain ⟨hr, hc, _⟩ := hin
    exact res_markAll _ (by rwa [cellAt_gridOf _ hr hc])
  · exact hres

/-- The commands that may write the matrix (R35). -/
theorem mem_of_mayWrite_cell {i : Instr} (hr : r < 177) (hc : c < 177) (h : mayWrite i (cellOffset r c)) :
    i ∈ [Instr.scaffold, .place, .maskApply, .maskSelect, .formatStamp, .versionStamp, .encode] := by
  obtain ⟨hlo, -⟩ := cellOffset_inRange hr hc
  unfold mayWrite inRange genBase parBase dataBase eccBase ilvBase at h
  unfold matBase at hlo
  rcases h with ⟨h, _⟩ | ⟨h, _⟩ | ⟨h, _⟩ | ⟨h, _⟩ | ⟨_, hi⟩
  · omega
  · omega
  · omega
  · omega
  · exact hi

/-- No command but SCAFFOLD and ENCODE clears a reservation (R42). -/
theorem res_completeOk (hm : s.mem.wf = true) {i : Instr} (h : ruleOf i s.snapshot = .ok w) (hr : r < 177)
    (hc : c < 177) (hi : i ∉ [Instr.scaffold, .encode]) (hres : (memCell s.mem r c).res = true) :
    (memCell (s.completeOk w).mem r c).res = true := by
  by_cases hmat : mayWrite i (cellOffset r c)
  · have hmem := mem_of_mayWrite_cell hr hc hmat
    simp only [List.mem_cons, List.not_mem_nil, or_false] at hmem
    rcases hmem with rfl | rfl | rfl | rfl | rfl | rfl | rfl
    · exact absurd (by decide) hi
    · by_contra hn
      have hfree := isFree_of_place hm h hc fun he => hn (he ▸ hres)
      exact absurd hres (by simp [hfree.2])
    · rw [memCell_maskApply_of_res hm h hc hres]; exact hres
    · exact res_maskSelect hm h hc hres
    · exact res_formatStamp hm h hc hres
    · exact res_versionStamp hm h hc hres
    · exact absurd (by decide) hi
  · rw [memCell_of_not_written hm fun e he hea => hmat (hea ▸ ((ruleOf_lawful i h).mem e he).1)]
    exact hres

/-- Settles O27: an error writes nothing, and each matrix command's stored cells are known. -/
theorem reservedCellsAreKept : Obligations.ReservedCellsAreKept := by
  intro s t i r c hs h hr hc
  have hm := legalMem_wf hs.inv.memory
  obtain rfl := eq_finish_of_exec h
  rw [hs.inv.input_eq]
  cases hrule : ruleOf i s.snapshot with
  | error e => exact ⟨fun _ hres => hres, fun _ hne => absurd rfl hne, fun _ _ => rfl, fun _ _ _ => rfl⟩
  | ok w =>
    refine ⟨fun hi => res_completeOk hm hrule hr hc hi, ?_, ?_, ?_⟩
    · rintro rfl; exact isFree_of_place hm hrule hc
    · rintro rfl; exact memCell_maskApply_of_res hm hrule hc
    · rintro rfl; exact memCell_maskSelect_of_res hm hrule hc

end Sys2Proof.Machine

/-! What ENCODE depends on. -/

namespace Sys2Proof.Machine

/-! ### What ENCODE reads (R59, R332, R336) -/

theorem snapshot_input (s : State) : s.snapshot.input = s.inputBytes := readBytes_eq _ _ _

/-- ENCODE reads the operand registers, the field in use and its input bytes. -/
theorem encodeRule_congr {x y : Snapshot} (hops : x.ops = y.ops) (hfield : x.field = y.field)
    (hinput : x.input = y.input) : encodeRule x = encodeRule y := by
  have hversion : ∀ m, encodeVersion x m = encodeVersion y m := fun m => by
    unfold encodeVersion encodeLevel Snapshot.ver Snapshot.minv Snapshot.maxv Snapshot.len
    rw [hops]
  unfold encodeRule Snapshot.ver Snapshot.minv Snapshot.maxv Snapshot.len
  rw [hops, hfield, hinput, funext hversion]

/-! ### Writes that leave nothing of what was there -/

/-- Eight words written from RES0 on leave no register as it was. -/
theorem setFrom_eq_of_length (v v' : Vector Word 8) {ws : List Word} (h : ws.length = 8) :
    setFrom v 0 ws = setFrom v' 0 ws := by
  refine Vector.ext fun i hi => ?_
  rw [setFrom_get v 0 ws i hi, setFrom_get v' 0 ws i hi]
  simp [h, hi]

/-- A listed offset reads the same whatever the memory held. -/
theorem readByte_writeBytes_listed {m m' : Memory} (hm : m.wf = true) (hm' : m'.wf = true) {ws : List Host.Cell} {a : Nat}
    (h : a ∈ ws.map Prod.fst) : readByte (writeBytes m ws) a = readByte (writeBytes m' ws) a := by
  obtain ⟨e, he, rfl⟩ := List.mem_map.mp h
  obtain ⟨e', he'⟩ := Option.isSome_iff_exists.mp
    (List.find?_isSome.mpr ⟨e, he, beq_self_eq_true _⟩ : (ws.find? fun x => x.1 == e.1).isSome = true)
  rw [readByte_writeBytes hm, readByte_writeBytes hm', he']
  rfl

theorem map_fst_bytesAt (base : Nat) (bs : List Byte) :
    (bytesAt base bs).map Prod.fst = List.range' base bs.length := by
  induction bs generalizing base with
  | nil => rfl
  | cons b bs ih => simp [bytesAt, ih, List.range'_succ]

/-- A run of `k` bytes names every offset of its range. -/
theorem mem_map_fst_bytesAt {base k a : Nat} {bs : List Byte} (hk : bs.length = k) (h : inRange base k a) :
    a ∈ (bytesAt base bs).map Prod.fst := by
  rw [map_fst_bytesAt, List.mem_range'_1, hk]
  exact h

/-- A whole grid stored names every cell of its square. -/
theorem mem_map_fst_gridWrites {n a : Nat} {g : Grid} (hg : IsSquare n g) (h : inSquare n a) :
    a ∈ (gridWrites (fun _ _ => true) 0 g).map Prod.fst := by
  obtain ⟨r, c, hr, hc, rfl⟩ := h
  have := gridWrites_mem (k := 0) hg hr hc (keep := fun _ _ => true) rfl
  rw [Nat.zero_add] at this
  exact List.mem_map_of_mem this

/-- ENCODE writes the whole symbol, the data, the interleaved codewords, the parity and the generator (R332). -/
theorem mem_map_fst_encodeWrites (f : GfField) {m : Mode} {s : List Byte} {v : Nat} {e : Ecc} {a : Nat} (h1 : 1 ≤ v)
    (h40 : v ≤ 40) (hf : fits m s.length v e = true)
    (h : inSquare (symbolSize v) a ∨ inRange dataBase (dataCw v e) a ∨ inRange ilvBase (totalCw v) a ∨
      inRange eccBase (nb v e * eccpb v e) a ∨ inRange genBase (eccpb v e + 1) a) :
    a ∈ (encodeWrites f m s v e).mem.map Prod.fst := by
  have hdata := dataCodewords_length hf
  have hparity := blockParity_flatten_length f (data := dataCodewords m s v e) (by rw [dataLens_sum h1 h40, hdata])
  simp only [encodeWrites, blockWrites, List.map_append, List.mem_append]
  rcases h with h | h | h | h | h
  · exact .inr (mem_map_fst_gridWrites (isSquare_candidate (isSquare_encodeGrid v _) _ _) h)
  · exact .inl (.inl (.inr (mem_map_fst_bytesAt hdata h)))
  · exact .inl (.inr (.inr (mem_map_fst_bytesAt (interleave_length f h1 h40 hdata) h)))
  · exact .inl (.inr (.inl (mem_map_fst_bytesAt hparity h)))
  · exact .inl (.inl (.inl (mem_map_fst_bytesAt (gen_length f _) h)))

/-! ### The version and level ENCODE reports -/

theorem eccOfBits_eccOrdinal (e : Ecc) : eccOfBits ((natWord (eccOrdinal e)).extractLsb' 0 2) = e := by
  cases e <;> decide

theorem mver_encodeWrites (t : State) (f : GfField) (m : Mode) (s : List Byte) {v : Nat} (e : Ecc) (h40 : v ≤ 40) :
    (t.completeOk (encodeWrites f m s v e)).mver.toNat = v := by
  simp only [State.completeOk_mver, encodeWrites, Option.getD_some, BitVec.toNat_ofNat]
  omega

theorem level_encodeWrites (t : State) (f : GfField) (m : Mode) (s : List Byte) (v : Nat) (e : Ecc) :
    eccOfBits ((t.completeOk (encodeWrites f m s v e)).res[1].extractLsb' 0 2) = e := by
  rw [resHolds_completeOk t _ 1 (by decide)]
  exact eccOfBits_eccOrdinal e

/-- Settles O60: both states run the same rule on the same inputs, and its writes cover all that is compared. -/
theorem encodeDependsOnItsInputsOnly : Obligations.EncodeDependsOnItsInputsOnly := by
  intro s s' t t' hs hs' herr herr' hops hfield hinput ht ht'
  have hrule : encodeRule s'.input = encodeRule s.input := by
    rw [hs.inv.input_eq, hs'.inv.input_eq]
    exact encodeRule_congr hops.symm hfield.symm (by rw [snapshot_input, snapshot_input, hinput])
  have hfin : t = s.finish (encodeRule s.input) := eq_finish_of_exec ht
  have hfin' : t' = s'.finish (encodeRule s.input) := (eq_finish_of_exec ht').trans (congrArg s'.finish hrule)
  cases hr : encodeRule s.input with
  | error e =>
    rw [hr] at hfin hfin'
    subst hfin hfin'
    exact ⟨rfl, fun _ => ⟨rfl, rfl, rfl⟩, nofun⟩
  | ok w =>
    obtain ⟨m, v, e, h1, h40, hf, rfl⟩ := encodeRule_ok hr
    rw [hr, State.finish_ok] at hfin hfin'
    subst hfin hfin'
    simp only [mver_encodeWrites s _ m _ e h40, level_encodeWrites]
    refine ⟨herr.trans herr'.symm, fun h => absurd (herr.symm.trans h) Bool.false_ne_true, fun _ =>
      ⟨setFrom_eq_of_length _ _ rfl, setFrom_eq_of_length _ _ rfl, rfl, fun a ha => ?_⟩⟩
    exact readByte_writeBytes_listed (legalMem_wf hs.inv.memory) (legalMem_wf hs'.inv.memory)
      (mem_map_fst_encodeWrites _ h1 h40 hf ha)

end Sys2Proof.Machine

/-! Which accesses are refused, what a host write does while BUSY, and which steps stop the machine. -/

namespace Sys2Proof

open Machine

namespace Access

variable {a : Access}

theorem touchesRegs_iff_exists :
    a.touchesRegs = true ↔ ∃ b, a.offset ≤ b ∧ b < a.offset + a.width.bytes ∧ b < 0x100 := by
  simp [touchesRegs, inRegs, mem_covered, and_assoc]

theorem touchesStorage_iff :
    a.touchesStorage = true ↔ ∃ b, a.offset ≤ b ∧ b < a.offset + a.width.bytes ∧ inStorage b = true := by
  simp [touchesStorage, mem_covered, and_assoc]

theorem touchesStorage_eq_false_iff :
    a.touchesStorage = false ↔ ∀ b, a.offset ≤ b → b < a.offset + a.width.bytes → inStorage b = false := by
  simp [touchesStorage, mem_covered]

theorem aligned_iff : a.aligned = true ↔ a.offset % a.width.bytes = 0 := decide_eq_true_iff

/-- The refused accesses: a narrow or misaligned one of a register, a misaligned one of the storage (R74 to R76). -/
theorem refused_iff : a.refused = true ↔
    (a.touchesRegs = true ∧ (a.width ≠ .word ∨ a.offset % 4 ≠ 0)) ∨
      (a.touchesStorage = true ∧ a.offset % a.width.bytes ≠ 0) := by
  have halign : (!a.aligned) = true ↔ a.offset % a.width.bytes ≠ 0 := by
    rw [Bool.not_eq_true', ← Bool.not_eq_true, aligned_iff]
  unfold refused
  split
  · rename_i hregs
    by_cases hw : a.width = .word
    · have hbytes : a.width.bytes = 4 := by rw [hw]; rfl
      rw [hbytes] at halign
      simp [hregs, hw, halign, Width.bytes]
    · simp [hregs, hw]
  · rename_i hregs
    rw [Bool.and_eq_true, halign]
    simp [hregs]

end Access

end Sys2Proof

namespace Sys2Proof.Machine

variable {s : State} {a : Access}

/-! ### Refused and performed accesses (R74 to R76) -/

theorem hostAccess_of_refused (s : State) (ho : a.outside = false) (hr : a.refused = true) :
    s.hostAccess a = .next (s.respond 0 true) := by
  simp [State.hostAccess, ho, hr]

theorem hostRead_resp (s : State) (a : Access) : ∃ d, (s.hostRead a).resp = some ⟨d, false⟩ := by
  unfold State.hostRead
  split
  · exact ⟨_, rfl⟩
  · split <;> exact ⟨_, rfl⟩

theorem hostWrite_resp (s : State) (a : Access) (d : Word) : (s.hostWrite a d).resp = some ⟨0, false⟩ := by
  unfold State.hostWrite
  split <;> rfl

/-- An access that is inside the window and not refused is performed, without a bus error. -/
theorem hostAccess_of_not_refused (s : State) (ho : a.outside = false) (hr : a.refused = false) :
    ∃ t d, s.hostAccess a = .next t ∧ t.resp = some ⟨d, false⟩ := by
  obtain ⟨off, wd, kind⟩ := a
  cases kind with
  | read =>
    obtain ⟨d, hd⟩ := hostRead_resp s ⟨off, wd, .read⟩
    exact ⟨_, d, hostAccess_read s ho hr, hd⟩
  | write d => exact ⟨_, 0, hostAccess_write s ho hr, hostWrite_resp s _ d⟩

/-- Settles O8: `Access.refused_iff` says which accesses are refused, and each other one is performed. -/
theorem refusedAccesses : Obligations.RefusedAccesses := by
  intro s a es he hin
  have ho := Access.outside_eq_false hin
  rw [← Access.touchesRegs_iff_exists, ← Access.touchesStorage_iff, ← Access.refused_iff, step_host he,
    Bool.not_eq_true]
  exact ⟨hostAccess_of_refused _ ho, hostAccess_of_not_refused _ ho⟩

/-! ### Which steps stop the machine (R70) -/

theorem hostAccess_of_outside (s : State) (ho : a.outside = true) :
    s.hostAccess a = .fault (.outsideWindow a.offset) := by
  simp [State.hostAccess, ho]

/-- An access inside the window stops nothing. -/
theorem hostAccess_of_inside (s : State) (ho : a.outside = false) : ∃ t, s.hostAccess a = .next t := by
  cases hr : a.refused with
  | true => exact ⟨_, hostAccess_of_refused s ho hr⟩
  | false =>
    obtain ⟨t, _, ht, _⟩ := hostAccess_of_not_refused s ho hr
    exact ⟨t, ht⟩

theorem sequencerStep_next (s : State) : ∃ t, sequencerStep s = .next t := by
  unfold sequencerStep
  split
  · exact ⟨_, rfl⟩
  · exact ⟨_, rfl⟩
  · split
    · exact ⟨_, exec_finish _ _⟩
    · exact ⟨_, rfl⟩

/-- Settles O20: of the events of a step only a host access can stop the machine, and only outside the window. -/
theorem onlyAnAccessOutsideTheWindowStops : Obligations.OnlyAnAccessOutsideTheWindowStops := by
  intro s
  unfold step
  split
  · exact .inl (sequencerStep_next s)
  · exact .inl (sequencerStep_next _)
  · rename_i a es he
    cases ho : a.outside with
    | false => exact .inl (hostAccess_of_inside _ ho)
    | true => exact .inr ⟨a, es, he, of_decide_eq_true ho, hostAccess_of_outside _ ho⟩
  · exact .inl ⟨_, rfl⟩

/-! ### Writes while BUSY (R82) -/

theorem writeReg_ctrl (s : State) {d : Word} (h : d.getLsbD 1 = false) :
    s.writeReg 0x004 d = { s with ie := d.getLsbD 0 } := by
  rw [State.writeReg, if_pos rfl, State.writeCtrl, h, if_neg Bool.false_ne_true]

theorem writeReg_status (s : State) (d : Word) : s.writeReg 0x008 d = s.writeStatus d := rfl

theorem reservedReg_iff {off : Nat} :
    reservedReg off = true ↔ (0x034 ≤ off ∧ off < 0x040) ∨ (0x080 ≤ off ∧ off < 0x100) := by
  simp [reservedReg]

theorem writeReg_reserved (s : State) {off : Nat} (d : Word) (h : reservedReg off = true) : s.writeReg off d = s := by
  have hoff := reservedReg_iff.mp h
  rw [State.writeReg, if_neg (by omega), if_neg (by omega), if_pos h]

/-- While BUSY a write to any register but CTRL and STATUS is dropped. -/
theorem writeReg_of_busy (hb : s.busy = true) {off : Nat} (d : Word) (hctrl : off ≠ 0x004) (hstatus : off ≠ 0x008)
    (hr : reservedReg off = false) : s.writeReg off d = { s with ovr := true } := by
  rw [State.writeReg, if_neg hctrl, if_neg hstatus, hr, hb]
  rfl

theorem writeStorage_of_busy (hb : s.busy = true) (ha : a.touchesStorage = true) (d : Word) :
    s.writeStorage a d = { s with ovr := true } := by
  simp [State.writeStorage, ha, hb]

/-- A register write as R75 asks for it is performed. -/
theorem step_writeReg {off : Nat} {d : Word} {es : List Event} (he : s.events = wr off d :: es) (h4 : off % 4 = 0)
    (h : off < 0x100) : step s = .next ((({ s with events := es } : State).writeReg off d).respond 0 false) :=
  (step_host he).trans (hostAccess_writeReg _ d h4 h)

/-- A write of the storage as R74 asks for it is performed. -/
theorem step_writeStorage {off : Nat} {wd : Width} {d : Word} {es : List Event}
    (he : s.events = .host ⟨off, wd, .write d⟩ :: es) (h : 0x100 ≤ off) (hin : off + wd.bytes ≤ 0x10000)
    (ha : off % wd.bytes = 0) :
    step s = .next ((({ s with events := es } : State).writeStorage ⟨off, wd, .write d⟩ d).respond 0 false) :=
  (step_host he).trans (hostAccess_writeStorage _ d h hin ha)

/-- Settles O7: `writeReg` and `writeStorage` while BUSY, by the offset of the write. -/
theorem writesWhileBusy : Obligations.WritesWhileBusy := by
  intro s off d es hs
  have hb : ({ s with events := es } : State).busy = true := hs
  refine ⟨fun he => ⟨?_, ?_, fun h4 hr => ?_, fun h4 hoff => ?_⟩,
    fun wd he h hin ha => ⟨fun htouch => ?_, fun hnone => ?_⟩⟩
  · rintro rfl hsrst
    rw [step_writeReg he rfl (by decide), writeReg_ctrl _ hsrst]
    rfl
  · rintro rfl
    rw [step_writeReg he rfl (by decide), writeReg_status]
    rfl
  · rw [step_writeReg he h4 (by omega), writeReg_reserved _ d (reservedReg_iff.mpr hr)]
    rfl
  · have hr : reservedReg off = false := by rw [← Bool.not_eq_true, reservedReg_iff]; omega
    rw [step_writeReg he h4 (by omega), writeReg_of_busy hb d (by omega) (by omega) hr]
    rfl
  · rw [step_writeStorage he h hin ha, writeStorage_of_busy hb (Access.touchesStorage_iff.mpr htouch)]
    rfl
  · rw [step_writeStorage he h hin ha, writeStorage_of_reserved (Access.touchesStorage_eq_false_iff.mpr hnone)]
    rfl

end Sys2Proof.Machine

/-! Host reads of the storage, while a command runs and while none does. -/

namespace Sys2Proof

theorem Width.bytes_le (wd : Width) : wd.bytes ≤ 4 := by cases wd <;> decide

end Sys2Proof

namespace Sys2Proof.Machine

variable {s : State} {a : Nat}

/-! ### Reads of the storage (R74, R78, R81, R83, R84) -/

/-- A read returns what an unlisted offset reads as, or a byte that memory lists. -/
theorem readByte_eq_unlisted_or_mem (m : Memory) (a : Nat) : readByte m a = unlisted ∨ (a, readByte m a) ∈ m := by
  induction m with
  | nil => exact .inl rfl
  | cons e m ih =>
    obtain ⟨b, v⟩ := e
    simp only [readByte]
    split_ifs with hlt heq
    · exact ih.imp_right (List.mem_cons_of_mem _)
    · exact .inr (heq ▸ List.mem_cons_self)
    · exact .inl rfl

/-- Legal memory holds nothing at a reserved offset (R84). -/
theorem readByte_of_reserved {m : Memory} (h : legalMem m = true) (ha : inStorage a = false) :
    readByte m a = 0 := by
  refine (readByte_eq_unlisted_or_mem m a).resolve_right fun hmem => ?_
  simp only [legalMem, Bool.and_eq_true, List.all_eq_true] at h
  exact Bool.false_ne_true (ha.symm.trans (h.2 _ hmem).1)

/-- Outside the write set a host reads the stored byte, and 0 at a reserved offset (R83, R84). -/
theorem hostByte_of_not_mem_writeSet (k : Nat) (h : a ∉ s.writeSet) :
    s.hostByte k a = if inStorage a = true then readByte s.mem a else 0 := by
  cases hst : inStorage a <;> simp [State.hostByte, hst, h]

/-- Byte `j` of a value read is the byte at the offset covered in place `j` (R78). -/
theorem hostValue_byte (s : State) (j k : Nat) (as : List Nat) :
    s.hostValue k as / 2 ^ (8 * j) % 2 ^ 8 = (((as[j]?).map (s.hostByte (k + j))).getD 0).toNat := by
  induction j generalizing k as with
  | zero =>
    cases as with
    | nil => simp [State.hostValue]
    | cons a as =>
      have := (s.hostByte k a).isLt
      simp only [State.hostValue, List.getElem?_cons_zero, Option.map_some, Option.getD_some, Nat.add_zero]
      omega
  | succ j ih =>
    cases as with
    | nil => simp [State.hostValue]
    | cons a as =>
      have := (s.hostByte k a).isLt
      have hdrop : s.hostValue k (a :: as) / 2 ^ 8 = s.hostValue (k + 1) as := by
        simp only [State.hostValue]; omega
      rw [Nat.mul_succ, Nat.add_comm (8 * j), Nat.pow_add, ← Nat.div_div_eq_div_mul, hdrop, ih,
        List.getElem?_cons_succ, Nat.add_assoc, Nat.add_comm 1 j]

/-- A byte of a register value is that byte of the number it stands for. -/
theorem extractLsb'_natWord {j : Nat} (hj : j < 4) (n : Nat) :
    ((natWord n).extractLsb' (8 * j) 8).toNat = n / 2 ^ (8 * j) % 2 ^ 8 := by
  rw [BitVec.extractLsb'_toNat, BitVec.toNat_ofNat, Nat.shiftRight_eq_div_pow]
  interval_cases j <;> omega

/-- Byte `j` of the value that a read of `k` bytes from `off` on returns (R78). -/
theorem extractLsb'_hostValue (s : State) {j : Nat} (hj : j < 4) (f off k : Nat) :
    (natWord (s.hostValue f (List.range' off k))).extractLsb' (8 * j) 8 =
      if j < k then s.hostByte (f + j) (off + j) else 0 := by
  refine BitVec.eq_of_toNat_eq ?_
  rw [extractLsb'_natWord hj, hostValue_byte]
  by_cases hk : j < k
  · rw [if_pos hk, List.getElem?_range' hk, Nat.one_mul]
    rfl
  · rw [if_neg hk, List.getElem?_eq_none (by simpa using hk)]
    rfl

/-- Where no command runs there is no write set. -/
theorem writeSet_of_not_running (h : ∀ w x, s.phase ≠ .busy w x) : s.writeSet = [] := by
  unfold State.writeSet
  split
  · exact absurd ‹_› (h _ _)
  · rfl
  · rfl

/-- A read of the storage as R74 asks for it is performed. -/
theorem step_readStorage {off : Nat} {wd : Width} {es : List Event} (he : s.events = .host ⟨off, wd, .read⟩ :: es)
    (h : 0x100 ≤ off) (hin : off + wd.bytes ≤ 0x10000) (ha : off % wd.bytes = 0) :
    step s = .next (({ s with events := es } : State).hostRead ⟨off, wd, .read⟩) := by
  rw [step_host he, hostAccess_read _ (Access.outside_eq_false hin)
    (Access.refused_eq_false ha fun hlt => absurd h (Nat.not_le.mpr hlt))]

/-- With no command running a read of the storage has no effect but its response (R81). -/
theorem hostRead_of_not_running (hs : ∀ w x, s.phase ≠ .busy w x) {a : Access} (ha : a.touchesRegs = false) :
    s.hostRead a = { s with resp := some ⟨natWord (s.hostValue s.freeCount a.covered), false⟩ } := by
  rw [State.hostRead, ha, if_neg Bool.false_ne_true]
  split
  · exact absurd ‹_› (hs _ _)
  · rfl
  · rfl

/-- While a command runs a read of the storage draws one free byte a covered byte besides (R83). -/
theorem hostRead_of_running {w : Word} {x : Snapshot} (hs : s.phase = .busy w x) {a : Access}
    (ha : a.touchesRegs = false) : s.hostRead a = { s with
      resp := some ⟨natWord (s.hostValue s.freeCount a.covered), false⟩
      freeCount := s.freeCount + a.width.bytes } := by
  rw [State.hostRead, ha, if_neg Bool.false_ne_true, hs]
  rfl

/-- Settles O10: the value read is `hostValue`, and with no write set each of its bytes is the stored one. -/
theorem hostReadIsLittleEndian : Obligations.HostReadIsLittleEndian := by
  intro s off wd es _ hs he h hin ha
  have hstep := step_readStorage he h hin ha
  rw [hostRead_of_not_running (s := { s with events := es }) hs (Access.touchesRegs_eq_false h)] at hstep
  refine ⟨_, hstep, fun j hj => ?_⟩
  have hempty : ({ s with events := es } : State).writeSet = [] := writeSet_of_not_running hs
  rw [Access.covered, extractLsb'_hostValue _ hj,
    hostByte_of_not_mem_writeSet _ (by rw [hempty]; exact List.not_mem_nil), ite_and]

/-- Settles O13: the value read is `hostValue`; outside the write set each of its bytes is the stored one, and legal
memory stores 0 at a reserved offset. -/
theorem readsBesideTheWriteSet : Obligations.ReadsBesideTheWriteSet := by
  intro s w x off wd es hinv hs he h hin ha
  have hstep := step_readStorage he h hin ha
  rw [hostRead_of_running (s := { s with events := es }) hs (Access.touchesRegs_eq_false h)] at hstep
  refine ⟨_, _, hstep, fun j hj hmem => ?_⟩
  rw [Access.covered, extractLsb'_hostValue _ (hj.trans_le wd.bytes_le), if_pos hj,
    hostByte_of_not_mem_writeSet (s := { s with events := es }) _ hmem]
  split
  · rfl
  · rename_i hst
    exact (readByte_of_reserved hinv.memory (by simpa using hst)).symm

end Sys2Proof.Machine

/-! The write set of a running command: what it covers, and what it is for each command. -/

namespace Sys2Proof.Machine

variable {s : State} {w : Word} {x : Snapshot} {ws : Writes} {i : Instr} {a : Nat}

/-! ### The write set and the command's rule (R83, R352) -/

theorem input_of_running (hp : s.phase = .busy w x) : s.input = x := by
  rw [State.input, hp]

theorem resultOf_of_decode (hd : decode w = .ok i) (x : Snapshot) : resultOf w x = ruleOf i x := by
  rw [resultOf, hd]

/-- A command whose rule completes has the offsets of its writes as its write set. -/
theorem writeSet_of_ok (hp : s.phase = .busy w x) (hd : decode w = .ok i)
    (hr : ruleOf i s.input = .ok ws) : s.writeSet = ws.mem.map Prod.fst := by
  rw [input_of_running hp] at hr
  rw [State.writeSet, hp]
  simp only [writeSet, resultOf_of_decode hd, hr]

/-- A command whose rule answers an error has no write set. -/
theorem writeSet_of_error (hp : s.phase = .busy w x) (hd : decode w = .ok i) {e : CmdError}
    (hr : ruleOf i s.input = .error e) : s.writeSet = [] := by
  rw [input_of_running hp] at hr
  rw [State.writeSet, hp]
  simp only [writeSet, resultOf_of_decode hd, hr]

/-- Settles O14: a command changes only the offsets of its writes, which are its write set. -/
theorem writeSetCoversTheCommand : Obligations.WriteSetCoversTheCommand := by
  intro s t w x i hinv hp hd h
  obtain rfl := eq_finish_of_exec h
  obtain ⟨-, -, -, herr, -⟩ := hinv.running w x hp
  cases hr : ruleOf i s.input with
  | error e => exact ⟨fun _ _ => rfl, fun _ => writeSet_of_error hp hd hr⟩
  | ok ws =>
    rw [writeSet_of_ok hp hd hr]
    refine ⟨fun a ha => readByte_writeBytes_other (legalMem_wf hinv.memory) ha, fun ht => ?_⟩
    exact absurd (herr.symm.trans ht) Bool.false_ne_true

/-! ### The offsets that a run of bytes and a grid name -/

theorem mem_map_fst_bytesAt_iff {base k : Nat} {bs : List Byte} (hk : bs.length = k) :
    a ∈ (bytesAt base bs).map Prod.fst ↔ inRange base k a := by
  rw [map_fst_bytesAt, List.mem_range'_1, hk, inRange]

theorem inCells_congr {n : Nat} {P Q : Nat → Nat → Prop} (h : ∀ r c, r < n → c < n → (P r c ↔ Q r c)) :
    inCells n P a ↔ inCells n Q a :=
  ⟨fun ⟨r, c, hr, hc, hP, ha⟩ => ⟨r, c, hr, hc, (h r c hr hc).mp hP, ha⟩,
    fun ⟨r, c, hr, hc, hQ, ha⟩ => ⟨r, c, hr, hc, (h r c hr hc).mpr hQ, ha⟩⟩

/-- Storing the kept cells of a square names the offsets of just these cells. -/
theorem mem_map_fst_gridWrites_iff {keep : Nat → Nat → Bool} {n : Nat} {g : Grid} (hg : IsSquare n g) :
    a ∈ (gridWrites keep 0 g).map Prod.fst ↔ inCells n (fun r c => keep r c = true) a := by
  rw [List.mem_map]
  constructor
  · rintro ⟨e, he, rfl⟩
    obtain ⟨r, c, hr, hc, hk, rfl⟩ := mem_gridWrites hg.2 he
    rw [Nat.zero_add] at hk ⊢
    exact ⟨r, c, hg.1 ▸ hr, hc, hk, rfl⟩
  · rintro ⟨r, c, hr, hc, hk, rfl⟩
    have := gridWrites_mem (k := 0) hg hr hc (keep := keep) (by rwa [Nat.zero_add])
    rw [Nat.zero_add] at this
    exact ⟨_, this, rfl⟩

theorem inverts_iff {k : MaskId} {r c : Nat} {y : Cell} : inverts k r c y = true ↔ Inverted k r c y := by
  simp [inverts, Inverted, Cell.isUnset, and_assoc]

/-- The model's test for a version cell is that a bit of the version word goes there (R316). -/
theorem isVersionCell_eq {n : Nat} (hn : 11 ≤ n) (r c : Nat) : isVersionCell n r c = (versionBitAt n r c).isSome := by
  rw [Bool.eq_iff_iff]
  simp only [isVersionCell, List.any_eq_true, List.mem_range, Bool.or_eq_true, beq_iff_eq, vposTR, vposBL,
    Prod.mk.injEq, versionBitAt]
  constructor
  · rintro ⟨i, hi, ⟨hr, hc⟩ | ⟨hr, hc⟩⟩
    · rw [if_pos (by omega)]; rfl
    · split
      · rfl
      · rw [if_pos (by omega)]; rfl
  · intro h
    split at h
    · exact ⟨3 * r + (c - (n - 11)), by omega, .inl (by omega)⟩
    · split at h
      · exact ⟨3 * c + (r - (n - 11)), by omega, .inr (by omega)⟩
      · cases h

/-! ### What each rule writes -/

/-- A command that R35 gives no byte to writes none. -/
theorem not_mem_map_fst_of_not_mayWrite (h : ruleOf i x = .ok ws) (hi : ¬ mayWrite i a) :
    a ∉ ws.mem.map Prod.fst := by
  intro ha
  obtain ⟨e, he, rfl⟩ := List.mem_map.mp ha
  exact hi ((ruleOf_lawful i h).mem e he).1

/-- The commands that write bytes of the buffers or the matrix (R35). -/
def byteWriters : List Instr :=
  [.rsGenpoly, .rsEncode, .buildData, .blockAssemble, .scaffold, .place, .maskApply, .maskSelect, .formatStamp,
    .versionStamp, .encode]

theorem mem_byteWriters_of_mayWrite (h : mayWrite i a) : i ∈ byteWriters := by
  unfold mayWrite at h
  rcases h with ⟨_, h⟩ | ⟨_, rfl⟩ | ⟨_, h⟩ | ⟨_, h⟩ | ⟨_, h⟩
  · exact List.Sublist.subset (by decide) h
  · decide
  · exact List.Sublist.subset (by decide) h
  · exact List.Sublist.subset (by decide) h
  · exact List.Sublist.subset (by decide) h

theorem mem_writes_rsGenpoly (h : rsGenpolyRule x = .ok ws) :
    a ∈ ws.mem.map Prod.fst ↔ inRange genBase (x.ops.t.toNat + 1) a := by
  obtain rfl := Except.ok.inj h
  exact mem_map_fst_bytesAt_iff (gen_length _ _)

theorem mem_writes_rsEncode (h : rsEncodeRule x = .ok ws) :
    a ∈ ws.mem.map Prod.fst ↔ inRange genBase (x.ops.t.toNat + 1) a ∨ inRange parBase x.ops.t.toNat a := by
  obtain ⟨data, rfl⟩ := rsEncodeRule_ok h
  rw [List.map_append, List.mem_append, mem_map_fst_bytesAt_iff (gen_length _ _),
    mem_map_fst_bytesAt_iff (rem_length _ _ _)]

theorem mem_writes_buildData (h : buildDataRule x = .ok ws) :
    a ∈ ws.mem.map Prod.fst ↔ inRange dataBase (dataCw x.ver x.ops.ecc) a := by
  obtain ⟨m, res, hf, rfl⟩ := buildDataRule_ok h
  exact mem_map_fst_bytesAt_iff (dataCodewords_length (by rwa [Snapshot.input, readBytes_length]))

/-- Block assembly stores the parity and the interleaved codewords (R233). -/
theorem mem_map_fst_blockWrites_iff (f : GfField) {v : Nat} {e : Ecc} {data : List Byte} (h1 : 1 ≤ v) (h40 : v ≤ 40)
    (h : data.length = dataCw v e) : a ∈ (blockWrites f v e data).map Prod.fst ↔
      inRange eccBase (nb v e * eccpb v e) a ∨ inRange ilvBase (totalCw v) a := by
  rw [blockWrites, List.map_append, List.mem_append,
    mem_map_fst_bytesAt_iff (blockParity_flatten_length f (by rw [dataLens_sum h1 h40, h])),
    mem_map_fst_bytesAt_iff (interleave_length f h1 h40 h)]

theorem mem_writes_blockAssemble (h : blockAssembleRule x = .ok ws) : a ∈ ws.mem.map Prod.fst ↔
    inRange genBase (eccpb x.ver x.ops.ecc + 1) a ∨ inRange eccBase (nb x.ver x.ops.ecc * eccpb x.ver x.ops.ecc) a ∨
      inRange ilvBase (totalCw x.ver) a := by
  obtain ⟨res, h1, h40, rfl⟩ := blockAssembleRule_ok h
  rw [List.map_append, List.mem_append, mem_map_fst_bytesAt_iff (gen_length _ _),
    mem_map_fst_blockWrites_iff _ h1 h40 (readBytes_length _ _ _)]

theorem mem_writes_scaffold (h : scaffoldRule x = .ok ws) :
    a ∈ ws.mem.map Prod.fst ↔ inCells (symbolSize x.ver) (fun _ _ => True) a := by
  obtain ⟨res, -, rfl⟩ := scaffoldRule_ok h
  rw [mem_map_fst_gridWrites_iff (isSquare_scaffoldGrid _)]
  exact inCells_congr fun _ _ _ _ => iff_of_true rfl trivial

theorem mem_writes_place (h : placeRule x = .ok ws) :
    a ∈ ws.mem.map Prod.fst ↔ inCells (symbolSize x.mverNat) (fun r c => IsFree (memCell x.mem r c)) a := by
  obtain ⟨res, cw, -, rfl⟩ := placeRule_ok h
  rw [mem_map_fst_gridWrites_iff (isSquare_placeInto (isSquare_gridOf _ _) cw)]
  exact inCells_congr fun r c hr hc => by rw [cellAt_gridOf _ hr hc, isFree_iff]

theorem mem_writes_maskApply (h : maskApplyRule x = .ok ws) : a ∈ ws.mem.map Prod.fst ↔
    inCells (symbolSize x.mverNat) (fun r c => Inverted x.ops.mask r c (memCell x.mem r c)) a := by
  obtain ⟨res, -, rfl⟩ := maskApplyRule_ok h
  rw [mem_map_fst_gridWrites_iff (isSquare_applyMask (isSquare_gridOf _ _) _)]
  exact inCells_congr fun r c hr hc => by rw [cellAt_gridOf _ hr hc, inverts_iff]

/-- MASK_SELECT reports the mask it chose, and stores the format cells and the cells that mask inverts (R292). -/
theorem mem_writes_maskSelect (h : maskSelectRule x = .ok ws) : ∃ best rest,
    ws.res = natWord (Fin.val (n := 8) best) :: rest ∧ (a ∈ ws.mem.map Prod.fst ↔
      inCells (symbolSize x.mverNat) (fun r c => (formatBitAt (symbolSize x.mverNat) r c).isSome = true ∨
        Inverted best r c (memCell x.mem r c)) a) := by
  unfold maskSelectRule at h
  dsimp only at h
  split at h
  · cases h
  split at h
  · cases h
  · obtain rfl := Except.ok.inj h
    refine ⟨_, _, rfl, ?_⟩
    rw [mem_map_fst_gridWrites_iff (isSquare_candidate (isSquare_gridOf _ _) _ _)]
    refine inCells_congr fun r c hr hc => ?_
    rw [cellAt_gridOf _ hr hc, Bool.or_eq_true, inverts_iff, isFormatCell_eq, or_comm]

theorem mem_writes_formatStamp (h : formatStampRule x = .ok ws) : a ∈ ws.mem.map Prod.fst ↔
    inCells (symbolSize x.mverNat) (fun r c => (formatBitAt (symbolSize x.mverNat) r c).isSome = true) a := by
  obtain ⟨res, -, rfl⟩ := formatStampRule_ok h
  rw [mem_map_fst_gridWrites_iff (isSquare_stampFormat (isSquare_gridOf _ _) _ _)]
  exact inCells_congr fun r c _ _ => by rw [isFormatCell_eq]

theorem mem_writes_versionStamp (h : versionStampRule x = .ok ws) : a ∈ ws.mem.map Prod.fst ↔
    inCells (symbolSize x.mverNat) (fun r c => (versionBitAt (symbolSize x.mverNat) r c).isSome = true) a := by
  obtain ⟨res, -, rfl⟩ := versionStampRule_ok h
  rw [mem_map_fst_gridWrites_iff (isSquare_stampVersion (isSquare_gridOf _ _) _)]
  exact inCells_congr fun r c _ _ => by rw [isVersionCell_eq (by unfold symbolSize; omega)]

theorem mem_map_fst_encodeWrites_iff (f : GfField) {m : Mode} {bs : List Byte} {v : Nat} {e : Ecc} (h1 : 1 ≤ v)
    (h40 : v ≤ 40) (hf : fits m bs.length v e = true) : a ∈ (encodeWrites f m bs v e).mem.map Prod.fst ↔
      inRange genBase (eccpb v e + 1) a ∨ inRange dataBase (dataCw v e) a ∨ inRange eccBase (nb v e * eccpb v e) a ∨
        inRange ilvBase (totalCw v) a ∨ inCells (symbolSize v) (fun _ _ => True) a := by
  have hdata := dataCodewords_length hf
  rw [encodeWrites]
  dsimp only
  rw [List.map_append, List.map_append, List.map_append, List.mem_append, List.mem_append, List.mem_append,
    mem_map_fst_bytesAt_iff (gen_length f _), mem_map_fst_bytesAt_iff hdata, mem_map_fst_blockWrites_iff f h1 h40 hdata,
    mem_map_fst_gridWrites_iff (isSquare_candidate (isSquare_encodeGrid v _) _ _),
    inCells_congr (Q := fun _ _ => True) fun _ _ _ _ => iff_of_true rfl trivial, or_assoc, or_assoc, or_assoc]

/-! ### The mask and the version that the results report -/

theorem maskOfBits_natWord (k : MaskId) : maskOfBits ((natWord k.val).extractLsb' 0 3) = k := by
  revert k; decide

theorem mask_completeOk {best : MaskId} {rest : List Word} (h : ws.res = natWord best.val :: rest) :
    maskOfBits ((s.completeOk ws).res[0].extractLsb' 0 3) = best := by
  rw [resHolds_completeOk s ws 0 (by decide), h]
  exact maskOfBits_natWord best

theorem version_encodeWrites (t : State) (f : GfField) (m : Mode) (bs : List Byte) {v : Nat} (e : Ecc)
    (h40 : v ≤ 40) : (t.completeOk (encodeWrites f m bs v e)).res[0].toNat = v := by
  rw [resHolds_completeOk t _ 0 (by decide)]
  simp only [encodeWrites, List.getElem?_cons_zero, Option.getD_some, BitVec.toNat_ofNat]
  omega

/-- Settles O15: the command completed, so its write set is the offsets of its rule's writes. -/
theorem writeSetsByCommand : Obligations.WriteSetsByCommand := by
  intro s t w x i a hinv hp hd h herr
  obtain rfl := eq_finish_of_exec h
  cases hr : ruleOf i s.input with
  | error e =>
    rw [hr] at herr
    cases herr
  | ok ws =>
    rw [writeSet_of_ok hp hd hr, State.finish_ok]
    rw [hinv.input_eq] at hr
    clear h herr hd
    cases i
    case rsGenpoly => exact mem_writes_rsGenpoly (x := s.snapshot) hr
    case rsEncode => exact mem_writes_rsEncode (x := s.snapshot) hr
    case buildData => exact mem_writes_buildData (x := s.snapshot) hr
    case blockAssemble => exact mem_writes_blockAssemble (x := s.snapshot) hr
    case scaffold => exact mem_writes_scaffold (x := s.snapshot) hr
    case place => exact mem_writes_place (x := s.snapshot) hr
    case maskApply => exact mem_writes_maskApply (x := s.snapshot) hr
    case maskSelect =>
      obtain ⟨best, rest, hres, hmem⟩ := mem_writes_maskSelect (a := a) hr
      dsimp only
      rw [mask_completeOk hres]
      exact hmem
    case formatStamp => exact mem_writes_formatStamp (x := s.snapshot) hr
    case versionStamp => exact mem_writes_versionStamp (x := s.snapshot) hr
    case encode =>
      obtain ⟨m, v, e, h1, h40, hf, rfl⟩ := encodeRule_ok hr
      dsimp only
      rw [version_encodeWrites _ _ _ _ _ h40, level_encodeWrites]
      exact mem_map_fst_encodeWrites_iff _ h1 h40 hf
    all_goals exact iff_of_false (not_mem_map_fst_of_not_mayWrite hr fun hmay =>
      absurd (mem_byteWriters_of_mayWrite hmay) (by decide)) not_false

end Sys2Proof.Machine

/-! Reading back a canonical command: the fields of its assembled operand words, and the round trip. -/

namespace Sys2Proof

/-! ### The fields of the assembled operand words (R102, R104 to R107) -/

/-- A field of a register value is a slice of its binary digits. -/
theorem extractLsb'_natWord_toNat {lo k : Nat} (h : lo + k ≤ 32) (n : Nat) :
    ((natWord n).extractLsb' lo k).toNat = n / 2 ^ lo % 2 ^ k := by
  obtain ⟨j, hj⟩ := Nat.exists_eq_add_of_le h
  rw [BitVec.extractLsb'_toNat, BitVec.toNat_ofNat, Nat.shiftRight_eq_div_pow, hj, Nat.add_assoc, pow_add,
    Nat.mod_mul_right_div_self, Nat.mod_mod_of_dvd _ (pow_dvd_pow 2 (Nat.le_add_right k j))]

/-- The lowest field of a register value that fits in it. -/
theorem extractLsb'_natWord_of_lt {k n : Nat} (hk : k ≤ 32) (hn : n < 2 ^ k) :
    ((natWord n).extractLsb' 0 k).toNat = n := by
  rw [extractLsb'_natWord_toNat (by omega), pow_zero, Nat.div_one, Nat.mod_eq_of_lt hn]

theorem eccOrdinal_lt (e : Ecc) : eccOrdinal e < 4 := by cases e <;> decide

theorem eccOptOrdinal_lt (e : Option Ecc) : eccOptOrdinal e < 4 := by
  cases e with
  | none => decide
  | some e => exact eccOrdinal_lt e

theorem egOf_lt (e : Option Ecc) : egOf e < 2 := by cases e <;> simp [egOf]

theorem modeCode_lt (m : ModeField) : modeCode m < 4 := by cases m <;> decide

/-- A field that holds the ordinal of a level names the level (R104). -/
theorem eccOfBits_of_toNat {b : BitVec 2} {e : Ecc} (h : b.toNat = eccOrdinal e) : eccOfBits b = e := by
  rw [eccOfBits, h]
  cases e <;> rfl

/-- A field that holds the code of a mode names the mode (R105). -/
theorem modeOfBits_of_toNat {b : BitVec 2} {m : ModeField} (h : b.toNat = modeCode m) : modeOfBits b = m := by
  rw [modeOfBits, h]
  cases m <;> rfl

namespace Operands

section
variable {ver ecc eg mode mask : Nat} {b c : Word}

theorem ver_opaOf (hv : ver < 64) : (Operands.mk (opaOf ver ecc eg mode mask) b c).ver.toNat = ver := by
  simp only [Operands.ver, opaOf, extractLsb'_natWord_toNat (by decide : 0 + 6 ≤ 32)]
  omega

theorem ecc_opaOf (hv : ver < 64) (e : Ecc) :
    (Operands.mk (opaOf ver (eccOrdinal e) eg mode mask) b c).ecc = e := by
  have he := eccOrdinal_lt e
  refine eccOfBits_of_toNat ?_
  simp only [Operands.eccBits, opaOf, extractLsb'_natWord_toNat (by decide : 8 + 2 ≤ 32)]
  omega

theorem eg_opaOf (hv : ver < 64) (he : ecc < 4) (hg : eg < 2) :
    (Operands.mk (opaOf ver ecc eg mode mask) b c).eg = decide (eg = 1) := by
  simp only [Operands.eg, opaOf, beq_eq_decide, ← BitVec.toNat_inj, decide_eq_decide, BitVec.toNat_ofNat,
    extractLsb'_natWord_toNat (by decide : 10 + 1 ≤ 32)]
  omega

/-- Where no level is given, EG and ECC are 0 (R106). -/
theorem eccOpt_opaOf (hv : ver < 64) (e : Option Ecc) :
    (Operands.mk (opaOf ver (eccOptOrdinal e) (egOf e) mode mask) b c).eccOpt = e := by
  cases e with
  | none => rw [eccOpt, eccOptOrdinal, egOf, eg_opaOf hv (by decide) (by decide)]; rfl
  | some e => rw [eccOpt, eccOptOrdinal, egOf, eg_opaOf hv (eccOrdinal_lt e) (by decide), ecc_opaOf hv]; rfl

theorem mode_opaOf (hv : ver < 64) (he : ecc < 4) (hg : eg < 2) (m : ModeField) :
    (Operands.mk (opaOf ver ecc eg (modeCode m) mask) b c).mode = m := by
  have hm := modeCode_lt m
  refine modeOfBits_of_toNat ?_
  simp only [Operands.modeBits, opaOf, extractLsb'_natWord_toNat (by decide : 12 + 2 ≤ 32)]
  omega

theorem mask_opaOf (hv : ver < 64) (he : ecc < 4) (hg : eg < 2) (hm : mode < 4) (k : MaskId) :
    (Operands.mk (opaOf ver ecc eg mode k.val) b c).mask = k := by
  refine Fin.ext (a := maskOfBits _) ?_
  show (Operands.mk (opaOf ver ecc eg mode k.val) b c).maskBits.toNat = k.val
  simp only [Operands.maskBits, opaOf, extractLsb'_natWord_toNat (by decide : 16 + 3 ≤ 32)]
  omega

end

theorem minv_opcOf {a b : Word} {minv maxv : Nat} (h : minv < 64) :
    (Operands.mk a b (opcOf minv maxv)).minv.toNat = minv := by
  simp only [Operands.minv, opcOf, extractLsb'_natWord_toNat (by decide : 0 + 6 ≤ 32)]
  omega

theorem maxv_opcOf {a b : Word} {minv maxv : Nat} (h : minv < 64) (h' : maxv < 64) :
    (Operands.mk a b (opcOf minv maxv)).maxv.toNat = maxv := by
  simp only [Operands.maxv, opcOf, extractLsb'_natWord_toNat (by decide : 8 + 6 ≤ 32)]
  omega

/-- An ECC level is requested exactly where EG = 1 (R106). -/
theorem isSome_eccOpt (o : Operands) : o.eccOpt.isSome = o.eg := by
  rw [eccOpt]
  cases o.eg <;> rfl

end Operands

/-! ### Commands and their words (R101, R102, R110) -/

/-- Every command word decodes to its command (R100, R101). -/
theorem decode_encode (i : Instr) : decode (encode i) = .ok i := by cases i <;> rfl

theorem disassemble_of_decode {w : Word} {i : Instr} (h : decode w = .ok i) (o : Operands) :
    disassemble ⟨o, w⟩ = .ok (commandOf i o) := by
  rw [disassemble, h]

open Operands in
/-- The operand words of a well-formed command hold its operands, each in the field that is read back (R102, R110). -/
theorem commandOf_operands {c : Command} (h : c.wf = true) : commandOf c.instr c.operands = c := by
  cases c <;> simp only [Command.wf, Bool.and_eq_true, decide_eq_true_eq] at h <;>
    simp only [Command.instr, Command.operands, commandOf]
  case gfAdd | gfSub | gfMul | gfDiv =>
    rw [a8, b8, extractLsb'_natWord_of_lt (by decide) h.1, extractLsb'_natWord_of_lt (by decide) h.2]
  case gfInv | gfLog => rw [a8, extractLsb'_natWord_of_lt (by decide) h]
  case gfPow => rw [a8, e16, extractLsb'_natWord_of_lt (by decide) h.1, extractLsb'_natWord_of_lt (by decide) h.2]
  case gfExp => rw [i16, extractLsb'_natWord_of_lt (by decide) h]
  case rsGenpoly => rw [t, extractLsb'_natWord_of_lt (by decide) h]
  case rsEncode =>
    obtain ⟨⟨hsrc, hlen⟩, ht⟩ := h
    rw [src, rlen, t, extractLsb'_natWord_of_lt (by decide) hsrc, extractLsb'_natWord_of_lt (by decide) hlen,
      extractLsb'_natWord_of_lt (by decide) ht]
  case capQuery | blockAssemble => rw [ver_opaOf h, ecc_opaOf h]
  case fitCheck e m n | buildData e m n =>
    obtain ⟨hv, hn⟩ := h
    rw [ver_opaOf hv, ecc_opaOf hv, mode_opaOf hv (eccOrdinal_lt e) (by decide), len,
      extractLsb'_natWord_of_lt (by decide) hn]
  case selectVersion m n e minv maxv =>
    obtain ⟨⟨hn, hmin⟩, hmax⟩ := h
    rw [mode_opaOf (by decide) (eccOptOrdinal_lt e) (egOf_lt e), len, extractLsb'_natWord_of_lt (by decide) hn,
      eccOpt_opaOf (by decide), minv_opcOf hmin, maxv_opcOf hmin hmax]
  case modeDetect => rw [len, extractLsb'_natWord_of_lt (by decide) h]
  case scaffold | versionEncode => rw [ver_opaOf h]
  case maskApply => rw [mask_opaOf] <;> decide
  case maskSelect => rw [ecc_opaOf (by decide)]
  case formatEncode e k | formatStamp e k =>
    rw [ecc_opaOf (by decide), mask_opaOf (by decide) (eccOrdinal_lt e) (by decide) (by decide)]
  case encode n ver e m minv maxv =>
    obtain ⟨⟨⟨hn, hver⟩, hmin⟩, hmax⟩ := h
    rw [len, extractLsb'_natWord_of_lt (by decide) hn, ver_opaOf hver, eccOpt_opaOf hver,
      mode_opaOf hver (eccOptOrdinal_lt e) (egOf_lt e), minv_opcOf hmin, maxv_opcOf hmin hmax]

/-- Every operand read through a field fits in the field (R102). -/
theorem wf_commandOf (i : Instr) (o : Operands) : (commandOf i o).wf = true := by
  cases i <;> simp only [commandOf, Command.wf, Bool.and_eq_true, decide_eq_true_eq] <;> omega

/-- Settles O2: the command word decodes to the command, and the operand words hold its operands. -/
theorem canonicalCommandRoundTrip : Obligations.CanonicalCommandRoundTrip := by
  refine ⟨fun c h => ?_, wf_commandOf⟩
  rw [assemble, disassemble_of_decode (decode_encode c.instr), commandOf_operands h]

/-- Settles O1: the five commands are well formed, so their words read back. -/
theorem workedEncodings : Obligations.WorkedEncodings := by
  have hread : ∀ {c : Command} {w : Assembled}, c.wf = true → assemble c = w →
      assemble c = w ∧ disassemble w = .ok c := fun hc hw => ⟨hw, hw ▸ canonicalCommandRoundTrip.1 _ hc⟩
  exact ⟨hread (by decide) (by decide), hread (by decide) (by decide), hread (by decide) (by decide),
    hread (by decide) (by decide), hread (by decide) (by decide)⟩

end Sys2Proof

/-! What a command reads of its operands, and a canonical line on the bus. -/

namespace Sys2Proof.Machine

/-! ### What a command reads of its operands (R102, R106) -/

/-- A rule reads of the operands what the canonical command holds: the fields of its form. -/
theorem ruleOf_congr_operands {i : Instr} {x : Snapshot} {o : Operands} (h : commandOf i x.ops = commandOf i o) :
    ruleOf i x = ruleOf i { x with ops := o } := by
  cases i <;> simp only [commandOf, Command.gfAdd.injEq, Command.gfSub.injEq, Command.gfMul.injEq, Command.gfDiv.injEq,
    Command.gfInv.injEq, Command.gfPow.injEq, Command.gfExp.injEq, Command.gfLog.injEq, Command.rsGenpoly.injEq,
    Command.rsEncode.injEq, Command.capQuery.injEq, Command.fitCheck.injEq, Command.selectVersion.injEq,
    Command.modeDetect.injEq, Command.buildData.injEq, Command.blockAssemble.injEq, Command.scaffold.injEq,
    Command.maskApply.injEq, Command.maskSelect.injEq, Command.formatEncode.injEq, Command.formatStamp.injEq,
    Command.versionEncode.injEq, Command.encode.injEq, BitVec.toNat_inj] at h <;>
    simp only [ruleOf]
  case nop | gfInit | place | penalty | versionStamp => rfl
  case gfAdd => simp only [gfAddRule, h]
  case gfSub => simp only [gfSubRule, h]
  case gfMul => simp only [gfMulRule, h]
  case gfDiv => simp only [gfDivRule, h]
  case gfInv => simp only [gfInvRule, h]
  case gfPow => simp only [gfPowRule, h]
  case gfExp => simp only [gfExpRule, h]
  case gfLog => simp only [gfLogRule, h]
  case rsGenpoly => simp only [rsGenpolyRule, h]
  case rsEncode => simp only [rsEncodeRule, h]
  case capQuery =>
    obtain ⟨hver, hecc⟩ := h
    unfold capQueryRule Snapshot.ver
    rw [hver, hecc]
  case fitCheck =>
    obtain ⟨hver, hecc, hmode, hlen⟩ := h
    unfold fitCheckRule Snapshot.ver Snapshot.len
    rw [hver, hecc, hmode, hlen]
  case selectVersion =>
    obtain ⟨hmode, hlen, hecc, hmin, hmax⟩ := h
    unfold selectVersionRule Snapshot.minv Snapshot.maxv Snapshot.len
    rw [hmode, hlen, hecc, hmin, hmax]
  case modeDetect =>
    unfold modeDetectRule Snapshot.input Snapshot.len
    rw [h]
  case buildData =>
    obtain ⟨hver, hecc, hmode, hlen⟩ := h
    unfold buildDataRule Snapshot.input Snapshot.ver Snapshot.len
    rw [hver, hecc, hmode, hlen]
  case blockAssemble =>
    obtain ⟨hver, hecc⟩ := h
    unfold blockAssembleRule Snapshot.ver
    rw [hver, hecc]
  case scaffold =>
    unfold scaffoldRule Snapshot.ver
    rw [h]
  case maskApply =>
    unfold maskApplyRule Snapshot.mverNat
    rw [h]
  case maskSelect =>
    unfold maskSelectRule Snapshot.mverNat
    rw [h]
  case formatEncode => simp only [formatEncodeRule, h]
  case formatStamp =>
    obtain ⟨hecc, hmask⟩ := h
    unfold formatStampRule Snapshot.mverNat
    rw [hecc, hmask]
  case versionEncode =>
    unfold versionEncodeRule Snapshot.ver
    rw [h]
  case encode =>
    obtain ⟨hlen, hver, hecc, hmode, hmin, hmax⟩ := h
    have heg : x.ops.eg = o.eg := by rw [← Operands.isSome_eccOpt, hecc, Operands.isSome_eccOpt]
    unfold encodeRule encodeVersion encodeLevel Snapshot.input Snapshot.ver Snapshot.minv Snapshot.maxv Snapshot.len
    rw [hlen, hver, hecc, hmode, hmin, hmax, heg]

/-- Completion leaves nothing of the phase it found. -/
theorem finish_withPhase (s : State) (p : Phase) (r : CmdResult) :
    ({ s with phase := p } : State).finish r = s.finish r := by
  cases r <;> rfl

/-- Settles O3: a command is its rule on the snapshot, and the rule reads the fields of its form. -/
theorem onlyOperandFieldsMatter : Obligations.OnlyOperandFieldsMatter := by
  intro s w x i o hp hc
  rw [exec_finish, exec_finish, input_of_running hp, input_of_running (s := { s with phase := _ }) rfl,
    finish_withPhase s (.busy w _), ruleOf_congr_operands hc]

/-! ### A canonical line on the bus (R109, R110, R350) -/

/-- A run of one step more goes on from where the step leads. -/
theorem coreRun_succ_of_step {s t : State} {k : Nat} (h : step s = .next t) :
    Host.Core.run core (k + 1) s = Host.Core.run core k t := by
  have hstep : core.step s = .next t := h
  simp only [Host.Core.run, hstep]

theorem coreRun_one (s : State) : Host.Core.run core 1 s = step s := by
  have hstep : core.step s = step s := rfl
  simp only [Host.Core.run, hstep]
  cases step s <;> rfl

/-- Writes to the operand registers and to CMD, while IDLE, are performed. -/
theorem step_writeRegIdle {s t : State} {off : Nat} {d : Word} {es : List Event} (he : s.events = wr off d :: es)
    (hp : s.phase = .idle) (hoff : off ∈ [0x00C, 0x028, 0x02C, 0x030])
    (ht : (({ s with events := es } : State).writeRegIdle off d).respond 0 false = t) : step s = .next t := by
  have hbusy : ({ s with events := es } : State).busy = false := State.busy_eq_false_iff.mpr hp
  obtain ⟨h4, hlt, hctrl, hstatus, hreserved⟩ :
      off % 4 = 0 ∧ off < 0x100 ∧ off ≠ 0x004 ∧ off ≠ 0x008 ∧ reservedReg off = false := by
    clear he ht; revert off; decide
  rw [step_writeReg he h4 hlt, State.writeReg, if_neg hctrl, if_neg hstatus, hreserved, hbusy, ← ht]
  rfl

/-- The four writes of a canonical line, while IDLE, load it: the operands are in place and the word is accepted. -/
theorem coreRun_busWrites {s : State} (hs : s.phase = .idle) (c : Command) (es : List Event) (k : Nat) :
    Host.Core.run core (k + 4) ({ s with events := busWrites c ++ es } : State) =
      Host.Core.run core k (({ s with events := es, resp := some ⟨0, false⟩ } : State).loaded c) := by
  calc Host.Core.run core (k + 4) ({ s with events := busWrites c ++ es } : State)
    _ = Host.Core.run core (k + 3) ({ s with
          opa := c.operands.opa, resp := some ⟨0, false⟩
          events := wr 0x02C c.operands.opb :: wr 0x030 c.operands.opc :: wr 0x00C (encode c.instr) :: es } : State) :=
      coreRun_succ_of_step (step_writeRegIdle rfl hs (by decide) rfl)
    _ = Host.Core.run core (k + 2) ({ s with
          opa := c.operands.opa, opb := c.operands.opb, resp := some ⟨0, false⟩
          events := wr 0x030 c.operands.opc :: wr 0x00C (encode c.instr) :: es } : State) :=
      coreRun_succ_of_step (step_writeRegIdle rfl hs (by decide) rfl)
    _ = Host.Core.run core (k + 1) ({ s with
          opa := c.operands.opa, opb := c.operands.opb, opc := c.operands.opc, resp := some ⟨0, false⟩
          events := wr 0x00C (encode c.instr) :: es } : State) :=
      coreRun_succ_of_step (step_writeRegIdle rfl hs (by decide) rfl)
    _ = _ := coreRun_succ_of_step (step_writeRegIdle rfl hs (by decide) rfl)

/-- Settles O25: the writes load the line, and the sequencer's step runs the command its word decodes to. -/
theorem canonicalLineRunsItsCommand : Obligations.CanonicalLineRunsItsCommand := by
  intro s c hs
  rw [coreRun_busWrites hs c [.sequencer] 1, coreRun_one]
  exact (stepRunsTheDecodedCommand _ _ _ _ rfl (decode_encode c.instr)).2 [] rfl

end Sys2Proof.Machine

/-! The product of two bytes modulo a polynomial (R141): its laws, for every polynomial, from the one fact that each
multiplier bit adds a power of the map that multiplies by `x`. -/

namespace Sys2Proof.Machine

/-! ### One shift (R130) -/

/-- The table build's step on bytes: multiplication by `x`. -/
def byteTimesX (p : Poly) (a : Byte) : Byte := (timesX p (a.setWidth 9)).setWidth 8

/-- Where both summands reduce, the two copies of the polynomial cancel. -/
theorem timesX_xor (p x y : Poly) : timesX p (x ^^^ y) = timesX p x ^^^ timesX p y := by
  unfold timesX
  rw [BitVec.shiftLeft_xor_distrib, BitVec.getLsbD_xor]
  generalize x <<< 1 = u, y <<< 1 = v
  have both : u ^^^ p ^^^ (v ^^^ p) = u ^^^ v ^^^ (p ^^^ p) := by ac_rfl
  cases u.getLsbD 8 <;> cases v.getLsbD 8 <;> simp [both] <;> ac_rfl

theorem byteTimesX_xor (p : Poly) (a b : Byte) : byteTimesX p (a ^^^ b) = byteTimesX p a ^^^ byteTimesX p b := by
  simp only [byteTimesX, BitVec.setWidth_xor, timesX_xor]

theorem byteTimesX_one (p : Poly) : byteTimesX p 1 = 2 := rfl

/-! ### The reduction, from bit 14 down to bit 8 -/

/-- One step of the reduction: bit `i` is cleared by a shifted copy of the polynomial (R141). -/
def reduceStep (p r i : Nat) : Nat := if r.testBit i then r ^^^ (p <<< (i - 8)) else r

theorem reduceBy_eq_foldl (p r : Nat) : reduceBy p r = [14, 13, 12, 11, 10, 9, 8].foldl (reduceStep p) r := rfl

/-- As for `timesX_xor`: two copies of the polynomial cancel. -/
theorem reduceStep_xor (p r r' i : Nat) : reduceStep p (r ^^^ r') i = reduceStep p r i ^^^ reduceStep p r' i := by
  unfold reduceStep
  rw [Nat.testBit_xor]
  generalize p <<< (i - 8) = m
  have both : r ^^^ m ^^^ (r' ^^^ m) = r ^^^ r' ^^^ (m ^^^ m) := by ac_rfl
  cases r.testBit i <;> cases r'.testBit i <;> simp [both] <;> ac_rfl

theorem reduceBy_xor (p r r' : Nat) : reduceBy p (r ^^^ r') = reduceBy p r ^^^ reduceBy p r' := by
  simp only [reduceBy_eq_foldl]
  exact List.foldl_hom₂ _ (· ^^^ ·) _ _ _ r r' fun r r' i => (reduceStep_xor p r r' i).symm

/-- The step at a bit commutes with a shift that moves the bit along. -/
theorem reduceStep_shiftLeft (p r : Nat) {i : Nat} (h : 8 ≤ i) :
    reduceStep p (r <<< 1) (i + 1) = reduceStep p r i <<< 1 := by
  obtain ⟨k, rfl⟩ := Nat.exists_eq_add_of_le h
  have hbit : (r <<< 1).testBit (8 + k + 1) = r.testBit (8 + k) := by simp [Nat.testBit_shiftLeft]
  have hpoly : p <<< (8 + k + 1 - 8) = p <<< (8 + k - 8) <<< 1 := by
    rw [← Nat.shiftLeft_add]; congr 1; omega
  unfold reduceStep
  rw [hbit, hpoly, ← Nat.shiftLeft_xor_distrib]
  split <;> rfl

theorem reduceStep_of_lt (p : Nat) {r i : Nat} (h : r < 2 ^ i) : reduceStep p r i = r := by
  simp [reduceStep, Nat.testBit_lt_two_pow h]

/-- Reducing a shifted value takes one more step, at bit 8, after the shift of the reduced one. -/
theorem reduceBy_shiftLeft (p : Nat) {r : Nat} (h : r < 2 ^ 14) :
    reduceBy p (r <<< 1) = reduceStep p (reduceBy p r <<< 1) 8 := by
  simp only [reduceBy_eq_foldl, List.foldl_cons, List.foldl_nil, reduceStep_of_lt p h]
  repeat rw [reduceStep_shiftLeft p _ (by decide)]

theorem reduceBy_of_lt (p : Nat) {r : Nat} (h : r < 2 ^ 8) : reduceBy p r = r := by
  have step {i : Nat} (hi : 8 ≤ i) : reduceStep p r i = r :=
    reduceStep_of_lt p (h.trans_le (Nat.pow_le_pow_right (by decide) hi))
  simp [reduceBy_eq_foldl, step]

/-! ### The residue of a value -/

/-- The byte a value reduces to. -/
def residue (p : Poly) (r : Nat) : Byte := BitVec.ofNat 8 (reduceBy p.toNat r)

theorem polyProduct_eq_residue (p : Poly) (a b : Byte) : polyProduct p a b = residue p (clmul a.toNat b.toNat) := rfl

theorem residue_xor (p : Poly) (r r' : Nat) : residue p (r ^^^ r') = residue p r ^^^ residue p r' := by
  rw [residue, reduceBy_xor, BitVec.ofNat_xor]; rfl

theorem residue_toNat (p : Poly) (a : Byte) : residue p a.toNat = a := by
  rw [residue, reduceBy_of_lt _ a.isLt, BitVec.ofNat_toNat, BitVec.setWidth_eq]

theorem residue_zero (p : Poly) : residue p 0 = 0#8 := residue_toNat p 0

/-- Multiplication by `x` on a value, before it is cut to a byte. -/
theorem ofNat_reduceStep_shiftLeft (p : Poly) (r : Nat) :
    BitVec.ofNat 8 (reduceStep p.toNat (r <<< 1) 8) = byteTimesX p (BitVec.ofNat 8 r) := by
  have hbit : (((BitVec.ofNat 8 r).setWidth 9 : Poly) <<< 1).getLsbD 8 = (r <<< 1).testBit 8 := by
    simp [Nat.testBit_shiftLeft, -BitVec.getLsbD_eq_getElem, BitVec.getLsbD_ofNat]
  have hshift : (((BitVec.ofNat 8 r).setWidth 9 : Poly) <<< 1).setWidth 8 = BitVec.ofNat 8 (r <<< 1) := by
    apply BitVec.eq_of_toNat_eq
    simp [Nat.shiftLeft_eq]
  unfold byteTimesX timesX reduceStep
  rw [hbit]
  split
  · rw [BitVec.setWidth_xor, hshift, BitVec.ofNat_xor, Nat.sub_self, Nat.shiftLeft_zero, BitVec.ofNat_toNat]
  · exact hshift.symm

theorem residue_shiftLeft (p : Poly) {r : Nat} (h : r < 2 ^ 14) : residue p (r <<< 1) = byteTimesX p (residue p r) := by
  rw [residue, reduceBy_shiftLeft _ h, ofNat_reduceStep_shiftLeft]; rfl

theorem residue_toNat_shiftLeft (p : Poly) (a : Byte) {i : Nat} (hi : i < 8) :
    residue p (a.toNat <<< i) = (byteTimesX p)^[i] a := by
  induction i with
  | zero => exact residue_toNat p a
  | succ i ih =>
    have hlt : a.toNat <<< i < 2 ^ 14 := by
      rw [Nat.shiftLeft_eq]
      calc a.toNat * 2 ^ i < 2 ^ 8 * 2 ^ i := Nat.mul_lt_mul_of_pos_right a.isLt (by positivity)
        _ ≤ 2 ^ 8 * 2 ^ 6 := Nat.mul_le_mul_left _ (Nat.pow_le_pow_right (by decide) (by omega))
    rw [Nat.shiftLeft_add, residue_shiftLeft p hlt, ih (by omega), Function.iterate_succ_apply']

/-! ### The product -/

/-- What bit `i` of the multiplier `b` does to the sum that is the product. -/
def addTerm (p : Poly) (a b : Byte) (r : Byte) (i : Nat) : Byte :=
  if b.getLsbD i then r ^^^ (byteTimesX p)^[i] a else r

/-- The product is the sum, over the bits of the multiplier, of the multiplicand times a power of `x`. -/
theorem polyProduct_eq_foldl (p : Poly) (a b : Byte) :
    polyProduct p a b = (List.range 8).foldl (addTerm p a b) 0#8 := by
  calc polyProduct p a b
    _ = (List.range 8).foldl (fun r i => if b.getLsbD i then r ^^^ residue p (a.toNat <<< i) else r) (residue p 0) :=
      (List.foldl_hom (residue p) fun r i => by
        rw [BitVec.getLsbD]; split <;> simp only [residue_xor]).symm
    _ = (List.range 8).foldl (addTerm p a b) 0#8 := by
      rw [residue_zero]
      refine List.foldl_ext _ _ _ fun r i hi => ?_
      rw [residue_toNat_shiftLeft p a (List.mem_range.mp hi), addTerm]

theorem iterate_byteTimesX_xor (p : Poly) (i : Nat) (a b : Byte) :
    (byteTimesX p)^[i] (a ^^^ b) = (byteTimesX p)^[i] a ^^^ (byteTimesX p)^[i] b :=
  Function.Semiconj₂.iterate (byteTimesX_xor p) i a b

theorem polyProduct_xor_left (p : Poly) (a b c : Byte) :
    polyProduct p (a ^^^ b) c = polyProduct p a c ^^^ polyProduct p b c := by
  have step (r r' : Byte) (i : Nat) :
      addTerm p a c r i ^^^ addTerm p b c r' i = addTerm p (a ^^^ b) c (r ^^^ r') i := by
    unfold addTerm
    split
    · rw [iterate_byteTimesX_xor]; ac_rfl
    · rfl
  simpa only [polyProduct_eq_foldl, BitVec.xor_self] using
    List.foldl_hom₂ (List.range 8) (· ^^^ ·) (addTerm p a c) (addTerm p b c) (addTerm p (a ^^^ b) c) 0#8 0#8 step

theorem polyProduct_byteTimesX_left (p : Poly) (a b : Byte) :
    polyProduct p (byteTimesX p a) b = byteTimesX p (polyProduct p a b) := by
  have step (r : Byte) (i : Nat) :
      addTerm p (byteTimesX p a) b (byteTimesX p r) i = byteTimesX p (addTerm p a b r i) := by
    unfold addTerm
    split
    · rw [byteTimesX_xor, ← Function.iterate_succ_apply, Function.iterate_succ_apply']
    · rfl
  simp only [polyProduct_eq_foldl]
  exact List.foldl_hom (l := List.range 8) (init := 0#8) (byteTimesX p) step

theorem clmul_one_left : ∀ b : Byte, clmul 1 b.toNat = b.toNat := by decide

theorem one_polyProduct (p : Poly) (b : Byte) : polyProduct p 1 b = b := by
  rw [polyProduct_eq_residue, show (1 : Byte).toNat = 1 from rfl, clmul_one_left, residue_toNat]

/-- A property of 1 that sums and multiples by `x` keep is one of every byte. -/
theorem byte_induction (p : Poly) {P : Byte → Prop} (one : P 1) (xor : ∀ a b, P a → P b → P (a ^^^ b))
    (shift : ∀ a, P a → P (byteTimesX p a)) (a : Byte) : P a := by
  have power (i : Nat) : P ((byteTimesX p)^[i] 1) := by
    induction i with
    | zero => exact one
    | succ i ih => rw [Function.iterate_succ_apply']; exact shift _ ih
  rw [← one_polyProduct p a, polyProduct_eq_foldl]
  refine List.foldlRecOn (motive := P) _ _ (xor 1 1 one one) fun r hr i _ => ?_
  unfold addTerm
  split
  · exact xor _ _ hr (power i)
  · exact hr

theorem polyProduct_one (p : Poly) (a : Byte) : polyProduct p a 1 = a := by
  induction a using byte_induction p with
  | one => exact one_polyProduct p 1
  | xor a b ha hb => rw [polyProduct_xor_left, ha, hb]
  | shift a ha => rw [polyProduct_byteTimesX_left, ha]

theorem polyProduct_xor_right (p : Poly) (a b c : Byte) :
    polyProduct p a (b ^^^ c) = polyProduct p a b ^^^ polyProduct p a c := by
  induction a using byte_induction p with
  | one => simp only [one_polyProduct]
  | xor a a' h h' => simp only [polyProduct_xor_left, h, h']; ac_rfl
  | shift a h => simp only [polyProduct_byteTimesX_left, h, byteTimesX_xor]

theorem polyProduct_byteTimesX_right (p : Poly) (a b : Byte) :
    polyProduct p a (byteTimesX p b) = byteTimesX p (polyProduct p a b) := by
  induction a using byte_induction p with
  | one => simp only [one_polyProduct]
  | xor a a' h h' => simp only [polyProduct_xor_left, h, h', byteTimesX_xor]
  | shift a h => simp only [polyProduct_byteTimesX_left, h]

theorem polyProduct_comm (p : Poly) (a b : Byte) : polyProduct p a b = polyProduct p b a := by
  induction a using byte_induction p with
  | one => rw [one_polyProduct, polyProduct_one]
  | xor a a' h h' => rw [polyProduct_xor_left, polyProduct_xor_right, h, h']
  | shift a h => rw [polyProduct_byteTimesX_left, polyProduct_byteTimesX_right, h]

theorem polyProduct_assoc (p : Poly) (a b c : Byte) :
    polyProduct p (polyProduct p a b) c = polyProduct p a (polyProduct p b c) := by
  induction a using byte_induction p with
  | one => simp only [one_polyProduct]
  | xor a a' h h' => simp only [polyProduct_xor_left, h, h']
  | shift a h => simp only [polyProduct_byteTimesX_left, h]

theorem zero_polyProduct (p : Poly) (a : Byte) : polyProduct p 0 a = 0 := by
  have h := polyProduct_xor_left p 0 0 a
  rwa [BitVec.xor_self, BitVec.xor_self] at h

theorem polyProduct_zero (p : Poly) (a : Byte) : polyProduct p a 0 = 0 := by
  rw [polyProduct_comm, zero_polyProduct]

theorem polyProduct_two (p : Poly) (a : Byte) : polyProduct p a 2 = byteTimesX p a := by
  rw [← byteTimesX_one p, polyProduct_byteTimesX_right, polyProduct_one]

/-! ### Powers (R140) -/

theorem polyPower_add (p : Poly) (a : Byte) (m n : Nat) :
    polyPower p a (m + n) = polyProduct p (polyPower p a m) (polyPower p a n) := by
  induction n with
  | zero => exact (polyProduct_one p _).symm
  | succ n ih => rw [← Nat.add_assoc, polyPower, ih, polyPower, polyProduct_assoc]

theorem polyPower_mul (p : Poly) (a : Byte) (m n : Nat) :
    polyPower p a (m * n) = polyPower p (polyPower p a m) n := by
  induction n with
  | zero => rfl
  | succ n ih => rw [Nat.mul_succ, polyPower_add, ih, polyPower]

theorem one_polyPower (p : Poly) (n : Nat) : polyPower p 1 n = 1 := by
  induction n with
  | zero => rfl
  | succ n ih => rw [polyPower, ih, polyProduct_one]

theorem zero_polyPower (p : Poly) {n : Nat} (h : n ≠ 0) : polyPower p 0 n = 0 := by
  obtain ⟨m, rfl⟩ := Nat.exists_eq_succ_of_ne_zero h
  exact polyProduct_zero p _

end Sys2Proof.Machine

/-! Primitive polynomials (R130): the powers of `x` are the nonzero bytes, each once, and this is what the table build
tests. -/

namespace Sys2Proof.Machine

variable {p : Poly}

/-! ### The powers of `x` where they are distinct and nonzero -/

/-- The powers of `x` with exponents below 255 differ from one another. -/
def PowersInjective (p : Poly) : Prop := ∀ i < 255, ∀ j < 255, polyPower p 2 i = polyPower p 2 j → i = j

/-- The powers of `x` with exponents below 255 are not 0. -/
def PowersNonzero (p : Poly) : Prop := ∀ i < 255, polyPower p 2 i ≠ 0

/-- Where 255 powers of `x` are distinct and nonzero, they are all the nonzero bytes. -/
theorem exists_polyPower_eq (hinj : PowersInjective p) (hne : PowersNonzero p) {a : Byte} (ha : a ≠ 0) :
    ∃ i < 255, polyPower p 2 i = a := by
  have hcard : (Finset.univ.erase (0 : Byte)).card ≤ (Finset.range 255).card := by
    rw [Finset.card_erase_of_mem (Finset.mem_univ _), Finset.card_range, Finset.card_univ,
      ← FinEnum.card_eq_fintypeCard, FinEnum.card_bitVec]
    decide
  obtain ⟨i, hi, rfl⟩ := Finset.surjOn_of_injOn_of_card_le (s := Finset.range 255) (polyPower p 2)
    (fun i hi => by simpa using hne i (by simpa using hi))
    (fun i hi j hj => hinj i (by simpa using hi) j (by simpa using hj)) hcard (by simpa using ha)
  exact ⟨i, by simpa using hi, rfl⟩

/-- Then `x` has an inverse: `x + 1` is a power of `x`, and not the empty one, so that `x` divides 1. -/
theorem exists_inverse_two (hinj : PowersInjective p) (hne : PowersNonzero p) : ∃ u, polyProduct p 2 u = 1 := by
  obtain ⟨i, -, hi⟩ := exists_polyPower_eq hinj hne (a := 3) (by decide)
  cases i with
  | zero => exact absurd hi (show (1 : Byte) ≠ 3 by decide)
  | succ i =>
    rw [polyPower, polyProduct_comm] at hi
    refine ⟨polyPower p 2 i ^^^ 1, ?_⟩
    rw [polyProduct_xor_right, hi, polyProduct_one]
    rfl

/-- Then `x` has order 255: the power 255 is one of the powers below, and only the empty one leaves no contradiction. -/
theorem polyPower_two_255 (hinj : PowersInjective p) (hne : PowersNonzero p) : polyPower p 2 255 = 1 := by
  obtain ⟨u, hu⟩ := exists_inverse_two hinj hne
  have cancel {a b : Byte} (h : polyProduct p a 2 = polyProduct p b 2) : a = b := by
    rw [← polyProduct_one p a, ← hu, ← polyProduct_assoc, h, polyProduct_assoc, hu, polyProduct_one]
  have hne255 : polyPower p 2 255 ≠ 0 := fun h =>
    hne 254 (by decide) (cancel (b := 0) (by rw [zero_polyProduct]; exact h))
  obtain ⟨j, hj, heq⟩ := exists_polyPower_eq hinj hne hne255
  cases j with
  | zero => exact heq.symm
  | succ j =>
    have := hinj j (by omega) 254 (by decide) (cancel heq)
    omega

/-! ### The powers of `x` modulo a primitive polynomial -/

theorem IsPrimitive.polyPower_mod (hp : IsPrimitive p) (n : Nat) : polyPower p 2 (n % 255) = polyPower p 2 n := by
  obtain ⟨-, horder, -⟩ := hp
  conv_rhs => rw [← Nat.div_add_mod n 255, polyPower_add, polyPower_mul, horder, one_polyPower, one_polyProduct]

theorem IsPrimitive.powersNonzero (hp : IsPrimitive p) : PowersNonzero p := by
  obtain ⟨-, horder, -⟩ := hp
  intro i hi h
  rw [show 255 = i + (255 - i) by omega, polyPower_add, h, zero_polyProduct] at horder
  exact absurd horder (by decide)

/-- Equal powers with exponents `i < j < 255` would give `x` the order `i + (255 - j)`. -/
theorem IsPrimitive.polyPower_ne (hp : IsPrimitive p) {i j : Nat} (hij : i < j) (hj : j < 255) :
    polyPower p 2 i ≠ polyPower p 2 j := by
  obtain ⟨-, horder, hleast⟩ := hp
  intro h
  refine hleast (i + (255 - j)) (by omega) (by omega) ?_
  rw [polyPower_add, h, ← polyPower_add, Nat.add_sub_cancel' hj.le, horder]

theorem IsPrimitive.powersInjective (hp : IsPrimitive p) : PowersInjective p := by
  intro i hi j hj h
  rcases Nat.lt_trichotomy i j with hij | hij | hij
  · exact absurd h (hp.polyPower_ne hij hj)
  · exact hij
  · exact absurd h.symm (hp.polyPower_ne hij hi)

/-- A polynomial of degree 8 is primitive exactly where 255 powers of `x` are distinct and nonzero (R130). -/
theorem isPrimitive_iff : IsPrimitive p ↔ p.getLsbD 8 = true ∧ PowersInjective p ∧ PowersNonzero p := by
  refine ⟨fun hp => ⟨hp.1, hp.powersInjective, hp.powersNonzero⟩, fun ⟨hdeg, hinj, hne⟩ =>
    ⟨hdeg, polyPower_two_255 hinj hne, fun k hpos hk h => ?_⟩⟩
  exact hpos.ne' (hinj k hk 0 (by decide) h)

/-! ### The table build (R130) -/

theorem distinct_iff_nodup (xs : List Poly) : distinct xs = true ↔ xs.Nodup := by
  induction xs with
  | nil => simp [distinct]
  | cons x xs ih => simp [distinct, ih]

theorem powersFrom_eq_map (p : Poly) (k : Nat) (x : Poly) :
    powersFrom p k x = (List.range k).map fun i => (timesX p)^[i] x := by
  induction k generalizing x with
  | zero => rfl
  | succ k ih => rw [powersFrom, ih, List.range_succ_eq_map, List.map_cons, List.map_map]; rfl

/-- A polynomial of degree 8 keeps the nine-bit values of the build below 256. -/
theorem timesX_setWidth (hdeg : p.getLsbD 8 = true) (a : Byte) :
    timesX p (a.setWidth 9) = (byteTimesX p a).setWidth 9 := by
  have hbit : (timesX p (a.setWidth 9)).getLsbD 8 = false := by
    unfold timesX
    split
    · next h => rw [BitVec.getLsbD_xor, hdeg, h]; rfl
    · next h => exact eq_false_of_ne_true h
  refine BitVec.eq_of_getLsbD_eq fun i hi => ?_
  rw [byteTimesX, BitVec.getLsbD_setWidth, BitVec.getLsbD_setWidth]
  obtain rfl | hlt : i = 8 ∨ i < 8 := by omega
  · rw [hbit]; rfl
  · simp [hlt, hi]

theorem iterate_timesX_one (hdeg : p.getLsbD 8 = true) (i : Nat) :
    (timesX p)^[i] 1 = (polyPower p 2 i).setWidth 9 := by
  induction i with
  | zero => rfl
  | succ i ih => rw [Function.iterate_succ_apply', ih, timesX_setWidth hdeg, polyPower, polyProduct_two]

theorem powers_eq_map (hdeg : p.getLsbD 8 = true) :
    powers p = (List.range 255).map fun i => (polyPower p 2 i).setWidth 9 := by
  simp only [powers, powersFrom_eq_map, iterate_timesX_one hdeg]

theorem setWidth_nine_inj {a b : Byte} : a.setWidth 9 = b.setWidth 9 ↔ a = b := by
  refine ⟨fun h => ?_, congrArg _⟩
  simpa using congrArg (BitVec.setWidth 8) h

theorem distinct_powers_iff (hdeg : p.getLsbD 8 = true) : distinct (powers p) = true ↔ PowersInjective p := by
  rw [distinct_iff_nodup, powers_eq_map hdeg, List.nodup_map_iff_inj_on List.nodup_range]
  simp only [List.mem_range, setWidth_nine_inj, PowersInjective]

theorem all_powers_iff (hdeg : p.getLsbD 8 = true) :
    ((powers p).all fun x => decide (1 ≤ x.toNat ∧ x.toNat ≤ 255)) = true ↔ PowersNonzero p := by
  have range_iff (a : Byte) : (1 ≤ (a.setWidth 9).toNat ∧ (a.setWidth 9).toNat ≤ 255) ↔ a ≠ 0 := by
    rw [BitVec.toNat_setWidth_of_le (by decide), ← BitVec.toNat_ne_iff_ne]
    have := a.isLt
    have : (0 : Byte).toNat = 0 := rfl
    omega
  simp only [powers_eq_map hdeg, List.all_map, List.all_eq_true, List.mem_range, Function.comp_apply,
    decide_eq_true_eq, range_iff, PowersNonzero]

/-- What the build tests is that the polynomial is primitive (R130). -/
theorem validPoly_iff : validPoly p = true ↔ IsPrimitive p := by
  rw [isPrimitive_iff, validPoly, Bool.and_eq_true, Bool.and_eq_true, and_assoc]
  exact and_congr_right fun hdeg => and_congr (distinct_powers_iff hdeg) (all_powers_iff hdeg)

/-- The byte values `e[0..254]` from which the tables are made. -/
theorem map_setWidth_powers (hdeg : p.getLsbD 8 = true) :
    (powers p).map (BitVec.setWidth 8) = (List.range 255).map (polyPower p 2) := by
  rw [powers_eq_map hdeg, List.map_map]
  exact List.map_congr_left fun i _ => by simp

/-- A list twice, and its first two entries again, read out of a period of 255. -/
theorem getD_doubled (v : Nat → Byte) {i : Nat} (h : i < 512) :
    ((List.range 255).map v ++ (List.range 255).map v ++ ((List.range 255).map v).take 2).getD i 0 = v (i % 255) := by
  rw [List.getD_eq_getElem?_getD]
  obtain h1 | h2 | h3 : i < 255 ∨ (¬ i < 255 ∧ i - 255 < 255) ∨ (¬ i < 255 ∧ ¬ i - 255 < 255) := by omega
  · simp [List.getElem?_append, h1, Nat.mod_eq_of_lt h1]
  · simp [List.getElem?_append, h2, show i % 255 = i - 255 by omega]
  · have hmod : i % 255 = i - 255 - 255 := by omega
    simp [List.getElem?_append, h3, hmod, show i ≤ 511 by omega]

theorem logEntry_polyPower (hp : IsPrimitive p) {i : Nat} (hi : i < 255) :
    logEntry ((List.range 255).map (polyPower p 2)) (polyPower p 2 i).toNat = BitVec.ofNat 8 i := by
  have hne : (polyPower p 2 i).toNat ≠ 0 := fun h => hp.powersNonzero i hi (BitVec.eq_of_toNat_eq h)
  have hnodup : ((List.range 255).map (polyPower p 2)).Nodup :=
    (List.nodup_map_iff_inj_on List.nodup_range).mpr fun i hi j hj =>
      hp.powersInjective i (List.mem_range.mp hi) j (List.mem_range.mp hj)
  have hidx := hnodup.idxOf_getElem i (by simpa using hi)
  rw [List.getElem_map, List.getElem_range] at hidx
  rw [logEntry, if_neg hne, BitVec.ofNat_toNat, BitVec.setWidth_eq, hidx]

theorem tablesOf_buildField (hp : IsPrimitive p) : TablesOf p (buildField p) := by
  have hdeg := hp.1
  constructor <;> simp only [buildField, map_setWidth_powers hdeg]
  case expSize => simp
  case logSize => simp
  case exp => exact fun i hi => getD_doubled _ hi
  case log =>
    intro i hi
    rw [List.getD_eq_getElem _ _ (by simpa using (polyPower p 2 i).isLt), List.getElem_map, List.getElem_range, logEntry_polyPower hp hi]

end Sys2Proof.Machine

/-! The field functions over the tables of a primitive polynomial (R131): each is its polynomial meaning (R140, R141),
and the commands that put it in RES0 (R130 to R139). -/

namespace Sys2Proof.Machine

/-! ### The field functions -/

section
variable {f : GfField} (hf : GoodField f)
include hf

theorem GoodField.primitive : IsPrimitive f.polyActive := validPoly_iff.mp hf.valid

theorem GoodField.tables : TablesOf f.polyActive f := by
  obtain ⟨hvalid, hbuilt⟩ := hf
  conv => rhs; rw [hbuilt]
  exact tablesOf_buildField (validPoly_iff.mp hvalid)

theorem GoodField.expAt_eq {i : Nat} (hi : i < 512) : f.expAt i = polyPower f.polyActive 2 i := by
  rw [GfField.expAt, hf.tables.exp i hi, hf.primitive.polyPower_mod]

theorem GoodField.gfexp_eq (n : Nat) : gfexp f n = polyPower f.polyActive 2 n := by
  rw [gfexp, hf.expAt_eq (by omega), hf.primitive.polyPower_mod]

theorem GoodField.logAt_polyPower (n : Nat) : f.logAt (polyPower f.polyActive 2 n) = n % 255 := by
  have hlt : n % 255 < 255 := Nat.mod_lt _ (by decide)
  rw [← hf.primitive.polyPower_mod, GfField.logAt, hf.tables.log _ hlt, BitVec.toNat_ofNat]
  omega

/-- A nonzero byte is the power of `x` that its logarithm says, and the logarithm is below 255. -/
theorem GoodField.logAt_spec {a : Byte} (ha : a ≠ 0) :
    f.logAt a < 255 ∧ polyPower f.polyActive 2 (f.logAt a) = a := by
  obtain ⟨i, hi, rfl⟩ := exists_polyPower_eq hf.primitive.powersInjective hf.primitive.powersNonzero ha
  rw [hf.logAt_polyPower, Nat.mod_eq_of_lt hi]
  exact ⟨hi, rfl⟩

/-- Adding logarithms multiplies (R141). -/
theorem GoodField.gfmul_eq (a b : Byte) : gfmul f a b = polyProduct f.polyActive a b := by
  unfold gfmul
  split
  · next h =>
    rcases h with rfl | rfl
    · exact (zero_polyProduct _ b).symm
    · exact (polyProduct_zero _ a).symm
  · next h =>
    obtain ⟨ha, hb⟩ := not_or.mp h
    obtain ⟨hla, hpa⟩ := hf.logAt_spec ha
    obtain ⟨hlb, hpb⟩ := hf.logAt_spec hb
    rw [hf.expAt_eq (by omega), polyPower_add, hpa, hpb]

/-- The quotient times the divisor is the dividend (R135). -/
theorem GoodField.gfdiv_polyProduct (a : Byte) {b : Byte} (hb : b ≠ 0) :
    polyProduct f.polyActive (gfdiv f a b) b = a := by
  unfold gfdiv
  split
  · next h => rw [h, zero_polyProduct]
  · next ha =>
    obtain ⟨hla, hpa⟩ := hf.logAt_spec ha
    obtain ⟨hlb, hpb⟩ := hf.logAt_spec hb
    obtain ⟨-, horder, -⟩ := hf.primitive
    calc polyProduct f.polyActive (f.expAt (f.logAt a + 255 - f.logAt b)) b
      _ = polyPower f.polyActive 2 (f.logAt a + 255 - f.logAt b + f.logAt b) := by
        rw [hf.expAt_eq (by omega), polyPower_add, hpb]
      _ = polyPower f.polyActive 2 (f.logAt a + 255) := by rw [Nat.sub_add_cancel (by omega)]
      _ = a := by rw [polyPower_add, horder, hpa, polyProduct_one]

/-- There is one quotient. -/
theorem GoodField.polyProduct_eq_iff (a : Byte) {b : Byte} (hb : b ≠ 0) (y : Byte) :
    polyProduct f.polyActive y b = a ↔ y = gfdiv f a b := by
  refine ⟨fun h => ?_, fun h => h ▸ hf.gfdiv_polyProduct a hb⟩
  have hinv : polyProduct f.polyActive b (gfdiv f 1 b) = 1 := by
    rw [polyProduct_comm, hf.gfdiv_polyProduct 1 hb]
  have cancel (z : Byte) : polyProduct f.polyActive (polyProduct f.polyActive z b) (gfdiv f 1 b) = z := by
    rw [polyProduct_assoc, hinv, polyProduct_one]
  rw [← cancel y, h, ← cancel (gfdiv f a b), hf.gfdiv_polyProduct a hb]

/-- Multiplying the logarithm takes the power (R137). -/
theorem GoodField.gfpow_eq (a : Byte) (e : Nat) : gfpow f a e = polyPower f.polyActive a e := by
  unfold gfpow
  split
  · next he => rw [he]; rfl
  · next he =>
    split
    · next ha => rw [ha, zero_polyPower _ he]
    · next ha =>
      rw [hf.expAt_eq (by omega), hf.primitive.polyPower_mod, polyPower_mul, (hf.logAt_spec ha).2]

end

/-- Settles O35: over the tables of a primitive polynomial the functions are the polynomial ones. -/
theorem fieldLaws : Obligations.FieldLaws := by
  intro f hf a b c m n
  simp only [hf.gfmul_eq, hf.gfpow_eq, hf.gfexp_eq, gfadd]
  refine ⟨polyProduct_assoc _ a b c, polyProduct_comm _ a b, polyProduct_xor_right _ a b c, BitVec.xor_assoc a b c,
    BitVec.xor_comm a b, BitVec.xor_self, BitVec.xor_zero, one_polyProduct _ a, zero_polyProduct _ a,
    fun ha => ⟨?_, ?_⟩, hf.logAt_polyPower n, polyPower_add _ a m n⟩
  · rw [polyProduct_comm, hf.gfdiv_polyProduct 1 ha]
  · exact (hf.logAt_spec ha).2

/-! ### What the commands answer -/

section
variable {s : State} (hs : s.Ready)
include hs

theorem State.Ready.goodField : GoodField s.field := hs.inv.field hs.started

/-- A ready command runs its rule on the registers and buffers. -/
theorem State.Ready.exec_eq (i : Instr) : exec i s = .next (s.finish (ruleOf i s.snapshot)) := by
  rw [exec_finish, hs.inv.input_eq]

/-- A command whose rule answers result registers writes them and nothing else. -/
theorem State.Ready.exists_onlyRes {i : Instr} {ws : List Word} (h : ruleOf i s.snapshot = .ok { res := ws }) :
    ∃ t, exec i s = .next t ∧ OnlyRes s t ws :=
  ⟨s.completeOk { res := ws }, by rw [hs.exec_eq, h, State.finish_ok], onlyRes_completeOk s ws⟩

/-- A command whose rule answers an error raises it. -/
theorem State.Ready.raises {i : Instr} {e : CmdError} (h : ruleOf i s.snapshot = .error e) :
    Raises i s e.code.toNat e.info0 e.info1 :=
  ⟨s.raiseError e, by rw [hs.exec_eq, h, State.finish_error], raisedError_raiseError s e⟩

end

/-- Settles O28: the build's test is primitivity, and what is built are the tables of POLY. -/
theorem gfInitBuildsTheTables : Obligations.GfInitBuildsTheTables := by
  intro s hs
  refine ⟨fun hp => ?_, fun hp => ?_⟩
  · have hrule : ruleOf .gfInit s.snapshot = .ok { res := [1], field := some (buildField s.poly) } :=
      if_pos (validPoly_iff.mpr hp)
    exact ⟨s.completeOk { res := [1], field := some (buildField s.poly) },
      by rw [hs.exec_eq, hrule, State.finish_ok], completed_completeOk s _, resHolds_completeOk s _,
      tablesOf_buildField hp, rfl, rfl, rfl⟩
  · exact hs.raises (e := .poly s.poly) (if_neg (validPoly_iff.not.mpr hp))

/-- Settles O29: both rules answer the sum, whatever the field. -/
theorem gfAddSubIsXor : Obligations.GfAddSubIsXor :=
  ⟨rfl, rfl, fun _ hs => ⟨hs.exists_onlyRes rfl, hs.exists_onlyRes rfl⟩⟩

/-- Settles O30: the product through logarithms is the polynomial product. -/
theorem gfMulIsThePolynomialProduct : Obligations.GfMulIsThePolynomialProduct := by
  intro s hs
  rw [← hs.goodField.gfmul_eq]
  exact hs.exists_onlyRes rfl

/-- Settles O31: the quotient through logarithms solves the equation, and cancelling shows that nothing else does. -/
theorem gfDivInvIsTheQuotient : Obligations.GfDivInvIsTheQuotient := by
  intro s hs
  refine ⟨fun h => hs.raises (e := .divZero s.ops.a8) (if_pos h), fun h => ?_,
    fun h => hs.raises (e := .divZero 1) (if_pos h), fun h => ?_⟩
  · obtain ⟨t, hexec, hres⟩ := hs.exists_onlyRes (i := .gfDiv) (if_neg h)
    exact ⟨t, gfdiv s.field s.ops.a8 s.ops.b8, hexec, hres, hs.goodField.polyProduct_eq_iff _ h⟩
  · obtain ⟨t, hexec, hres⟩ := hs.exists_onlyRes (i := .gfInv) (if_neg h)
    exact ⟨t, gfdiv s.field 1 s.ops.a8, hexec, hres, hs.goodField.polyProduct_eq_iff _ h⟩

/-- Settles O32: the power through logarithms is the repeated product. -/
theorem gfPowIsTheRepeatedProduct : Obligations.GfPowIsTheRepeatedProduct := by
  intro s hs
  rw [← hs.goodField.gfpow_eq]
  exact hs.exists_onlyRes rfl

/-- Settles O33: the EXP table holds the powers of `x`, which repeat after 255. -/
theorem gfExpIsThePowerOfX : Obligations.GfExpIsThePowerOfX := by
  intro s hs
  rw [← hs.goodField.gfexp_eq]
  exact hs.exists_onlyRes rfl

/-- Settles O34: every nonzero byte is a power of `x`, and LOG holds its exponent. -/
theorem gfLogIsTheExponent : Obligations.GfLogIsTheExponent := by
  intro s hs
  refine ⟨fun h => hs.raises (e := .logZero) (if_pos h), fun h => ?_⟩
  obtain ⟨t, hexec, hres⟩ := hs.exists_onlyRes (i := .gfLog) (if_neg h)
  exact ⟨t, s.field.logAt s.ops.a8, hexec, hres, hs.goodField.logAt_spec h⟩

end Sys2Proof.Machine

/-! Polynomials over the field as byte lists (R160): the value at a point of every list the codec builds. -/

namespace Sys2Proof.Machine

/-! ### Addition (R132), and that the product distributes over it (R140) -/

theorem gfadd_zero (a : Byte) : gfadd a 0 = a := BitVec.xor_zero

theorem zero_gfadd (a : Byte) : gfadd 0 a = a := BitVec.zero_xor

theorem gfadd_self (a : Byte) : gfadd a a = 0 := BitVec.xor_self

theorem gfadd_assoc (a b c : Byte) : gfadd (gfadd a b) c = gfadd a (gfadd b c) := BitVec.xor_assoc a b c

theorem gfadd_gfadd_gfadd_comm (a b c d : Byte) : gfadd (gfadd a b) (gfadd c d) = gfadd (gfadd a c) (gfadd b d) := by
  unfold gfadd
  ac_rfl

theorem polyProduct_gfadd_left (p : Poly) (a b c : Byte) :
    polyProduct p (gfadd a b) c = gfadd (polyProduct p a c) (polyProduct p b c) := polyProduct_xor_left p a b c

theorem polyProduct_gfadd_right (p : Poly) (a b c : Byte) :
    polyProduct p a (gfadd b c) = gfadd (polyProduct p a b) (polyProduct p a c) := polyProduct_xor_right p a b c

theorem polyProduct_polyPower_zero (p : Poly) (a y : Byte) : polyProduct p a (polyPower p y 0) = a :=
  polyProduct_one p a

/-! ### The value of a list built from shorter ones -/

theorem xorFront_nil_right (p : List Byte) : xorFront p [] = p := by
  cases p <;> rfl

@[simp] theorem polyEval_nil (f : GfField) (y : Byte) : polyEval f y [] = 0 := rfl

section
variable {f : GfField} (hf : GoodField f) (y : Byte)
include hf

theorem GoodField.polyEval_concat (p : List Byte) (b : Byte) :
    polyEval f y (p ++ [b]) = gfadd (polyProduct f.polyActive (polyEval f y p) y) b := by
  simp only [polyEval, List.foldl_append, List.foldl_cons, List.foldl_nil, hf.gfmul_eq]

/-- Putting `q` behind `p` raises the degree of every coefficient of `p` by the length of `q`. -/
theorem GoodField.polyEval_append (p q : List Byte) : polyEval f y (p ++ q) =
    gfadd (polyProduct f.polyActive (polyEval f y p) (polyPower f.polyActive y q.length)) (polyEval f y q) := by
  induction q using List.reverseRecOn with
  | nil => rw [List.append_nil, polyEval_nil, gfadd_zero, List.length_nil, polyProduct_polyPower_zero]
  | append_singleton q b ih =>
    rw [← List.append_assoc, hf.polyEval_concat, hf.polyEval_concat, ih, List.length_append, List.length_singleton,
      polyPower, polyProduct_gfadd_left, polyProduct_assoc, gfadd_assoc]

theorem GoodField.polyEval_singleton (a : Byte) : polyEval f y [a] = a := by
  rw [← List.nil_append [a], hf.polyEval_concat, polyEval_nil, zero_polyProduct, zero_gfadd]

theorem GoodField.polyEval_cons (a : Byte) (p : List Byte) : polyEval f y (a :: p) =
    gfadd (polyProduct f.polyActive a (polyPower f.polyActive y p.length)) (polyEval f y p) := by
  rw [← List.singleton_append, hf.polyEval_append, hf.polyEval_singleton]

theorem GoodField.polyProduct_polyEval_cons (a : Byte) (p : List Byte) (k : Nat) :
    polyProduct f.polyActive (polyEval f y (a :: p)) (polyPower f.polyActive y k) =
      gfadd (polyProduct f.polyActive a (polyPower f.polyActive y (p.length + k)))
        (polyProduct f.polyActive (polyEval f y p) (polyPower f.polyActive y k)) := by
  rw [hf.polyEval_cons, polyProduct_gfadd_left, polyProduct_assoc, ← polyPower_add]

theorem GoodField.polyEval_zero_cons (p : List Byte) : polyEval f y (0 :: p) = polyEval f y p := by
  rw [hf.polyEval_cons, zero_polyProduct, zero_gfadd]

theorem GoodField.polyEval_replicate_zero (t : Nat) : polyEval f y (List.replicate t 0) = 0 := by
  induction t with
  | zero => rfl
  | succ t ih => rw [List.replicate_succ, hf.polyEval_zero_cons, ih]

/-! ### The value of a scaled list, of an aligned sum and of a product -/

theorem GoodField.polyEval_map_gfmul (a : Byte) (p : List Byte) :
    polyEval f y (p.map (gfmul f a)) = polyProduct f.polyActive a (polyEval f y p) := by
  induction p with
  | nil => exact (polyProduct_zero _ a).symm
  | cons b p ih =>
    rw [List.map_cons, hf.polyEval_cons, hf.polyEval_cons, ih, List.length_map, hf.gfmul_eq, polyProduct_gfadd_right,
      polyProduct_assoc]

/-- Aligned at the front, the shorter list stands for its multiple that has the degree of the longer one. -/
theorem GoodField.polyEval_xorFront (p q : List Byte) : polyEval f y (xorFront p q) =
    gfadd (polyProduct f.polyActive (polyEval f y p) (polyPower f.polyActive y (q.length - p.length)))
      (polyProduct f.polyActive (polyEval f y q) (polyPower f.polyActive y (p.length - q.length))) := by
  induction p generalizing q with
  | nil =>
    rw [xorFront, polyEval_nil, zero_polyProduct, zero_gfadd, List.length_nil, Nat.zero_sub, polyProduct_polyPower_zero]
  | cons a p ih =>
    cases q with
    | nil =>
      rw [xorFront_nil_right, polyEval_nil, zero_polyProduct, gfadd_zero, List.length_nil, Nat.zero_sub,
        polyProduct_polyPower_zero]
    | cons b q =>
      have hp : max p.length q.length = p.length + (q.length - p.length) := by omega
      have hq : max p.length q.length = q.length + (p.length - q.length) := by omega
      rw [xorFront, hf.polyEval_cons, ih, xorFront_length, List.length_cons, List.length_cons, Nat.add_sub_add_right,
        Nat.add_sub_add_right, hf.polyProduct_polyEval_cons, hf.polyProduct_polyEval_cons, ← hp, ← hq,
        polyProduct_gfadd_left, gfadd_gfadd_gfadd_comm]

/-- The product of two lists has the product of their values (R160). -/
theorem GoodField.polyEval_polymul (p : List Byte) {q : List Byte} (hq : 1 ≤ q.length) :
    polyEval f y (polymul f p q) = polyProduct f.polyActive (polyEval f y p) (polyEval f y q) := by
  induction p with
  | nil => exact (zero_polyProduct _ _).symm
  | cons a p ih =>
    have hfirst : (0 :: polymul f p q).length - q.length = p.length := by
      cases p with
      | nil => simp [polymul, hq]
      | cons b p => rw [List.length_cons, polymul_length f b p hq, List.length_cons]; omega
    have hrest : polyProduct f.polyActive (polyEval f y (0 :: polymul f p q))
        (polyPower f.polyActive y (q.length - (0 :: polymul f p q).length)) =
          polyProduct f.polyActive (polyEval f y p) (polyEval f y q) := by
      rw [hf.polyEval_zero_cons, ih]
      cases p with
      | nil => rw [polyEval_nil, zero_polyProduct, zero_polyProduct]
      | cons b p =>
        rw [List.length_cons, polymul_length f b p hq, Nat.sub_eq_zero_of_le (by omega), polyProduct_polyPower_zero]
    rw [polymul, hf.polyEval_xorFront, List.length_map, hrest, hfirst, hf.polyEval_map_gfmul, hf.polyEval_cons,
      polyProduct_gfadd_left, polyProduct_assoc, polyProduct_assoc, polyProduct_comm _ (polyEval f y q)]

end

end Sys2Proof.Machine

/-! The Reed-Solomon codec (R160 to R164): the generator is the product of its linear factors, the remainder completes a
codeword, and the two commands store them. -/

namespace Sys2Proof.Machine

/-! ### The generator (R160) -/

section
variable {f : GfField} (hf : GoodField f)
include hf

theorem GoodField.polyEval_gen (y : Byte) (t : Nat) : polyEval f y (gen f t) = rootProduct f y t := by
  induction t with
  | zero => exact hf.polyEval_singleton y 1
  | succ t ih =>
    have hfactor : polyEval f y [1, gfexp f t] = gfadd y (gfexp f t) := by
      rw [hf.polyEval_cons, hf.polyEval_singleton, one_polyProduct, List.length_singleton, polyPower, polyPower,
        one_polyProduct]
    rw [gen, hf.polyEval_polymul y _ (by simp), ih, hfactor, rootProduct, hf.gfmul_eq]

/-- The leading coefficient of the generator is 1. -/
theorem GoodField.exists_gen_eq_cons (t : Nat) : ∃ cs, gen f t = 1 :: cs := by
  induction t with
  | zero => exact ⟨[], rfl⟩
  | succ t ih =>
    obtain ⟨cs, hcs⟩ := ih
    have hlead : gfadd (gfmul f 1 1) 0 = 1 := by rw [hf.gfmul_eq, one_polyProduct, gfadd_zero]
    rw [gen, hcs, polymul, List.map_cons, xorFront, hlead]
    exact ⟨_, rfl⟩

/-- What `gen` computes is the generator of its degree (R164). -/
theorem GoodField.isGenerator_gen (t : Nat) : IsGenerator f t (gen f t) where
  length := gen_length f t
  monic := by
    obtain ⟨cs, hcs⟩ := hf.exists_gen_eq_cons t
    rw [hcs, List.head?_cons]
  product y := hf.polyEval_gen y t

/-- The product of the `(y − α^i)` is 0 at each `α^i` that occurs in it. -/
theorem GoodField.rootProduct_gfexp {i t : Nat} (hi : i < t) : rootProduct f (gfexp f i) t = 0 := by
  induction t with
  | zero => omega
  | succ t ih =>
    rw [rootProduct, hf.gfmul_eq]
    obtain rfl | hlt : i = t ∨ i < t := by omega
    · rw [gfadd_self, polyProduct_zero]
    · rw [ih hlt, zero_polyProduct]

theorem GoodField.polyEval_gen_gfexp {i t : Nat} (hi : i < t) : polyEval f (gfexp f i) (gen f t) = 0 := by
  rw [hf.polyEval_gen, hf.rootProduct_gfexp hi]

/-! ### The remainder (R162) -/

/-- One elimination step leaves a 0 in front and adds a multiple of `1 :: g`, so that the value at a root of `1 :: g`
stands. -/
theorem GoodField.polyEval_eliminationStep {y : Byte} {g w : List Byte} (hroot : polyEval f y (1 :: g) = 0) (c : Byte)
    (hw : g.length ≤ w.length) :
    polyEval f y (xorFront (c :: w) ((1 :: g).map fun b => gfmul f b c)).tail = polyEval f y (c :: w) := by
  have hscale : ((1 :: g).map fun b => gfmul f b c) = (1 :: g).map (gfmul f c) :=
    List.map_congr_left fun b _ => by rw [hf.gfmul_eq, hf.gfmul_eq, polyProduct_comm]
  have hlead : xorFront (c :: w) ((1 :: g).map (gfmul f c)) = 0 :: xorFront w (g.map (gfmul f c)) := by
    rw [List.map_cons, xorFront, hf.gfmul_eq, polyProduct_one, gfadd_self]
  have hlen : ((1 :: g).map (gfmul f c)).length - (c :: w).length = 0 := by
    rw [List.length_map, List.length_cons, List.length_cons]
    omega
  calc polyEval f y (xorFront (c :: w) ((1 :: g).map fun b => gfmul f b c)).tail
    _ = polyEval f y (xorFront (c :: w) ((1 :: g).map (gfmul f c))) := by
      rw [hscale, hlead, List.tail_cons, hf.polyEval_zero_cons]
    _ = polyEval f y (c :: w) := by
      rw [hf.polyEval_xorFront, hf.polyEval_map_gfmul, hroot, polyProduct_zero, zero_polyProduct, gfadd_zero, hlen,
        polyProduct_polyPower_zero]

/-- Elimination by `1 :: g` keeps the value at each of its roots, as long as no step runs out of the working buffer. -/
theorem GoodField.polyEval_eliminate {y : Byte} {g : List Byte} (hroot : polyEval f y (1 :: g) = 0) {n : Nat}
    {w : List Byte} (hw : w.length = n + g.length) : polyEval f y (eliminate f (1 :: g) n w) = polyEval f y w := by
  induction n generalizing w with
  | zero => rfl
  | succ n ih =>
    cases w with
    | nil => rw [List.length_nil] at hw; omega
    | cons c w =>
      rw [List.length_cons] at hw
      rw [eliminate]
      split
      · next hc => rw [ih (by omega), hc, hf.polyEval_zero_cons]
      · rw [ih, hf.polyEval_eliminationStep hroot c (by omega)]
        rw [List.length_tail, xorFront_length, List.length_map, List.length_cons, List.length_cons]
        omega

/-- The remainder completes its data to a codeword: at a root of the generator it has the value of the shifted data
(R164). -/
theorem GoodField.isParity_rem (t : Nat) (data : List Byte) : IsParity f t data (rem f data t) where
  length := rem_length f data t
  roots i hi := by
    obtain ⟨g, hg⟩ := hf.exists_gen_eq_cons t
    have hlen : t = g.length := by
      have h := gen_length f t
      rw [hg, List.length_cons] at h
      omega
    have hroot : polyEval f (gfexp f i) (1 :: g) = 0 := hg ▸ hf.polyEval_gen_gfexp hi
    have hrem : polyEval f (gfexp f i) (rem f data t) =
        polyProduct f.polyActive (polyEval f (gfexp f i) data) (polyPower f.polyActive (gfexp f i) t) := by
      rw [rem, if_neg (by omega), hg, hf.polyEval_eliminate hroot (by simp [← hlen]), hf.polyEval_append,
        List.length_replicate, hf.polyEval_replicate_zero, gfadd_zero]
    rw [hf.polyEval_append, rem_length, hrem, gfadd_self]

end

/-! ### Reading a run of stored bytes -/

theorem writeBytes_append (m : Memory) (ws ws' : List Host.Cell) :
    writeBytes m (ws ++ ws') = writeBytes (writeBytes m ws') ws := by
  induction ws with
  | nil => rfl
  | cons e ws ih => rw [List.cons_append, writeBytes, ih, writeBytes]

/-- A run of bytes reads back as it was stored. -/
theorem bytesOf_writeBytes_bytesAt {m : Memory} (hm : m.wf = true) (base : Nat) {bs : List Byte} {k : Nat}
    (hk : bs.length = k) : bytesOf (writeBytes m (bytesAt base bs)) base k = bs := by
  unfold bytesOf
  refine List.ext_getElem (by rw [List.length_map, List.length_range, hk]) fun i _ hi => ?_
  rw [List.getElem_map, List.getElem_range, readByte_writeBytes hm, find_bytesAt, if_pos (Nat.le_add_right base i),
    Nat.add_sub_cancel_left, List.getElem?_eq_getElem hi, Option.getD_some]

/-- A run of bytes that a store names no offset of reads as before. -/
theorem bytesOf_writeBytes_other {m : Memory} (hm : m.wf = true) {ws : List Host.Cell} {base k : Nat}
    (hn : ∀ a, inRange base k a → a ∉ ws.map Prod.fst) : bytesOf (writeBytes m ws) base k = bytesOf m base k :=
  List.map_congr_left fun i hi => readByte_writeBytes_other hm
    (hn _ ⟨Nat.le_add_right base i, Nat.add_lt_add_left (List.mem_range.mp hi) base⟩)

/-! ### What the commands answer -/

section
variable {s : State} (hs : s.Ready)
include hs

theorem State.Ready.mem_wf : s.mem.wf = true := legalMem_wf hs.inv.memory

/-- A command whose rule answers result registers and bytes stores them and nothing else. -/
theorem State.Ready.exists_onlyResMem {i : Instr} {ws : List Word} {m : List Host.Cell} {P : Nat → Prop}
    (h : ruleOf i s.snapshot = .ok { res := ws, mem := m }) (hP : ∀ e ∈ m, P e.1) :
    ∃ z, exec i s = .next z ∧ OnlyResMem s z ws P ∧ z.mem = writeBytes s.mem m :=
  ⟨s.completeOk { res := ws, mem := m }, by rw [hs.exec_eq, h, State.finish_ok],
    onlyResMem_completeOk hs.mem_wf ws m hP, rfl⟩

end

/-- Settles O36: the rule stores the product of the linear factors, which has the value of the product everywhere. -/
theorem rsGenpolyWritesTheGenerator : Obligations.RsGenpolyWritesTheGenerator := by
  intro s hs t
  have hgen : (gen s.field t).length = t + 1 := gen_length s.field t
  have hrule : ruleOf .rsGenpoly s.snapshot =
      .ok { res := [natWord (t + 1)], mem := bytesAt genBase (gen s.field t) } := rfl
  obtain ⟨z, hexec, hres, hmem⟩ := hs.exists_onlyResMem hrule
    (P := inRange genBase (t + 1)) fun e he => hgen ▸ mem_bytesAt he
  refine ⟨z, hexec, hres, ?_⟩
  rw [hmem, bytesOf_writeBytes_bytesAt hs.mem_wf genBase hgen]
  exact hs.goodField.isGenerator_gen t

/-- Settles O37: elimination keeps the value at the roots of the generator, so that the remainder cancels the shifted
data there; GEN_BUF and PAR_BUF do not meet, since `t` is below 256. -/
theorem rsEncodeMakesACodeword : Obligations.RsEncodeMakesACodeword := by
  intro s hs src n t
  refine ⟨fun h => hs.raises (e := .range (src + n) 6) (if_pos h), fun h => ?_⟩
  generalize hdata : readBytes s.mem (dataBase + src) n = data
  have hgen : (gen s.field t).length = t + 1 := gen_length s.field t
  have hpar : (rem s.field data t).length = t := rem_length s.field data t
  have hrule : ruleOf .rsEncode s.snapshot = .ok {
      res := [natWord t]
      mem := bytesAt genBase (gen s.field t) ++ bytesAt parBase (rem s.field data t) } := by
    subst hdata
    exact if_neg h.not_gt
  obtain ⟨z, hexec, hres, hmem⟩ := hs.exists_onlyResMem hrule
    (P := fun a => inRange genBase (t + 1) a ∨ inRange parBase t a) fun e he =>
      (List.mem_append.mp he).imp (fun he => hgen ▸ mem_bytesAt he) fun he => hpar ▸ mem_bytesAt he
  rw [writeBytes_append] at hmem
  have hwf : (writeBytes s.mem (bytesAt parBase (rem s.field data t))).wf = true := writeBytes_wf hs.mem_wf _
  have hgenBuf : bytesOf z.mem genBase (t + 1) = gen s.field t := by
    rw [hmem, bytesOf_writeBytes_bytesAt hwf genBase hgen]
  have hparBuf : bytesOf z.mem parBase t = rem s.field data t := by
    rw [hmem, bytesOf_writeBytes_other hwf, bytesOf_writeBytes_bytesAt hs.mem_wf parBase hpar]
    intro a ⟨hlow, _⟩ ha
    obtain ⟨_, hhigh⟩ := (mem_map_fst_bytesAt_iff hgen).mp ha
    have ht : t < 256 := s.ops.t.isLt
    unfold genBase at hhigh
    unfold parBase at hlow
    omega
  refine ⟨z, hexec, hres, ?_, ?_⟩
  · rw [hgenBuf]
    exact hs.goodField.isGenerator_gen t
  · rw [hparBuf, bytesOf, ← readBytes_eq, hdata]
    exact hs.goodField.isParity_rem t data

end Sys2Proof.Machine

/-! The capacity commands (R184 to R189): the fit predicate, the search for the first version and level that fit, and
what the three commands answer. -/

namespace Sys2Proof.Machine

/-! ### The fit predicate and the search (R186, R188) -/

theorem overCount_iff {m : Mode} {n v : Nat} : overCount m n v = true ↔ 2 ^ cci m v - 1 < n := decide_eq_true_iff

theorem fits_iff {m : Mode} {n v : Nat} {e : Ecc} : fits m n v e = true ↔ Fits m n v e := by
  rw [fits, Bool.and_eq_true, Bool.not_eq_true', ← Bool.not_eq_true, overCount_iff, not_lt, decide_eq_true_iff]
  rfl

theorem mem_levelsFor {eopt : Option Ecc} {e : Ecc} : e ∈ levelsFor eopt ↔ MayTry eopt e := by
  cases eopt with
  | none => cases e <;> simp [levelsFor, allEcc, MayTry]
  | some e' => simp [levelsFor, MayTry, eq_comm]

theorem levelsFor_pairwise (eopt : Option Ecc) : (levelsFor eopt).Pairwise fun e e' => eccOrdinal e < eccOrdinal e' := by
  cases eopt with
  | none => decide
  | some e => exact List.pairwise_singleton _ e

/-- The pairs of a version and a level that a search may try, in the order it tries them (R188). -/
def searchOrder (lo hi : Nat) (eopt : Option Ecc) : List (Nat × Ecc) :=
  List.range' lo (hi + 1 - lo) ×ˢ levelsFor eopt

theorem mem_searchOrder {lo hi : Nat} {eopt : Option Ecc} {p : Nat × Ecc} :
    p ∈ searchOrder lo hi eopt ↔ (lo ≤ p.1 ∧ p.1 ≤ hi) ∧ MayTry eopt p.2 := by
  rw [searchOrder, List.mem_product, List.mem_range'_1, mem_levelsFor]
  refine and_congr_left fun _ => ?_
  omega

/-- The order rises: by version, and by level within a version. -/
theorem searchOrder_pairwise (lo hi : Nat) (eopt : Option Ecc) : (searchOrder lo hi eopt).Pairwise
    fun p q => p.1 < q.1 ∨ p.1 = q.1 ∧ eccOrdinal p.2 < eccOrdinal q.2 := by
  refine List.pairwise_flatMap.mpr ⟨fun v _ => ?_, (List.pairwise_lt_range').imp fun hlt p hp q hq => ?_⟩
  · exact List.pairwise_map.mpr ((levelsFor_pairwise eopt).imp fun h => .inr ⟨rfl, h⟩)
  · obtain ⟨_, _, rfl⟩ := List.mem_map.mp hp
    obtain ⟨_, _, rfl⟩ := List.mem_map.mp hq
    exact .inl hlt

/-- The search by version and level is one search through the pairs. -/
theorem firstFit_eq_find? (m : Mode) (n : Nat) (levels : List Ecc) (vs : List Nat) :
    firstFit m n levels vs = (vs ×ˢ levels).find? fun p => fits m n p.1 p.2 := by
  induction vs with
  | nil => rfl
  | cons v vs ih =>
    rw [List.product_cons, List.find?_append, List.find?_map, firstFit, ih]
    change _ = ((levels.find? fun e => fits m n v e).map (Prod.mk v)).or _
    cases levels.find? fun e => fits m n v e <;> rfl

section
variable {m : Mode} {n lo hi : Nat} {eopt : Option Ecc}

/-- The first fit is what the search returns: every pair tried before it is smaller, so that it does not fit. -/
theorem firstFit_eq_some {v : Nat} {e : Ecc} (h : FirstFit m n lo hi eopt v e) :
    firstFit m n (levelsFor eopt) (List.range' lo (hi + 1 - lo)) = some (v, e) := by
  have hmem : (v, e) ∈ searchOrder lo hi eopt := mem_searchOrder.mpr ⟨⟨h.low, h.high⟩, h.level⟩
  obtain ⟨before, after, heq⟩ := List.append_of_mem hmem
  refine (firstFit_eq_find? ..).trans
    (List.find?_eq_some_iff_append.mpr ⟨fits_iff.mpr h.fits, before, after, heq, fun p hp => ?_⟩)
  obtain ⟨_, _, hrises⟩ := List.pairwise_append.mp (heq ▸ searchOrder_pairwise lo hi eopt)
  have hlt : p.1 < v ∨ p.1 = v ∧ eccOrdinal p.2 < eccOrdinal e := hrises p hp (v, e) List.mem_cons_self
  obtain ⟨⟨hlow, _⟩, hlevel⟩ := mem_searchOrder.mp (heq ▸ List.mem_append_left _ hp)
  rw [Bool.not_eq_true', ← Bool.not_eq_true, fits_iff]
  intro hfits
  have hge := h.first p.1 p.2 hlow hlevel hfits
  omega

theorem firstFit_eq_none (h : ∀ v e, lo ≤ v → v ≤ hi → MayTry eopt e → ¬ Fits m n v e) :
    firstFit m n (levelsFor eopt) (List.range' lo (hi + 1 - lo)) = none := by
  refine (firstFit_eq_find? ..).trans (List.find?_eq_none.mpr fun p hp hfits => ?_)
  obtain ⟨⟨hlow, hhigh⟩, hlevel⟩ := mem_searchOrder.mp hp
  exact h p.1 p.2 hlow hhigh hlevel (fits_iff.mp hfits)

theorem select_of_firstFit {v : Nat} {e : Ecc} (h : FirstFit m n lo hi eopt v e) :
    select m n lo hi eopt = .ok (v, e) := by
  rw [select, if_neg (h.low.trans h.high).not_gt, firstFit_eq_some h]

theorem select_of_not_fits (hle : lo ≤ hi) (h : ∀ v e, lo ≤ v → v ≤ hi → MayTry eopt e → ¬ Fits m n v e) :
    select m n lo hi eopt = .error (.capacity n m lo hi (eccCode eopt) eopt.isSome) := by
  rw [select, if_neg hle.not_gt, firstFit_eq_none h]

/-- What E_CAPACITY records of the bounds and the level: the fields of R188. -/
theorem CmdError.capacity_info1 (n : Nat) (m : Mode) (lo hi : Nat) (eopt : Option Ecc) :
    (CmdError.capacity n m lo hi (eccCode eopt) eopt.isSome).info1 =
      natWord (lo + 256 * hi + 65536 * eccOptOrdinal eopt + 262144 * egOf eopt) := by
  cases eopt <;> rfl

end

/-! ### The rules -/

theorem badVersion_eq_true {v : Nat} : badVersion v = true ↔ v < 1 ∨ 40 < v := by
  simp [badVersion]

theorem not_badVersion {v : Nat} (h1 : 1 ≤ v) (h40 : v ≤ 40) : ¬ badVersion v = true := by
  rw [badVersion_eq_false.mpr ⟨h1, h40⟩]
  exact Bool.false_ne_true

@[simp] theorem concreteMode_fieldOf (m : Mode) : concreteMode (fieldOf m) = some m := by cases m <;> rfl

theorem fitCheckRule_refused {x : Snapshot} (hv : ¬ badVersion x.ver = true) (hm : concreteMode x.ops.mode = none) :
    fitCheckRule x = .error (modeRefused x.ops.mode) := by
  simp [fitCheckRule, hv, hm]

theorem fitCheckRule_ok {x : Snapshot} {m : Mode} (hv : ¬ badVersion x.ver = true) (hm : x.ops.mode = fieldOf m) :
    fitCheckRule x = .ok { res := [if fits m x.len x.ver x.ops.ecc then 1 else 0, natWord (req m x.len x.ver),
      natWord (capBits x.ver x.ops.ecc), if overCount m x.len x.ver then 1 else 0] } := by
  simp [fitCheckRule, hv, hm]

section
variable {x : Snapshot}

theorem selectVersionRule_badMin (hmin : 40 < x.minv) : selectVersionRule x = .error (.range x.minv 2) := by
  simp [selectVersionRule, hmin]

theorem selectVersionRule_badMax (hmin : x.minv ≤ 40) (hmax : 40 < x.maxv) :
    selectVersionRule x = .error (.range x.maxv 3) := by
  simp [selectVersionRule, hmin.not_gt, hmax]

variable (hmin : x.minv ≤ 40) (hmax : x.maxv ≤ 40)
include hmin hmax

theorem selectVersionRule_badOrder (h : highBound x.maxv < lowBound x.minv) :
    selectVersionRule x = .error (.range (lowBound x.minv + 256 * highBound x.maxv) 4) := by
  simp [selectVersionRule, hmin.not_gt, hmax.not_gt, h]

variable (hle : lowBound x.minv ≤ highBound x.maxv)
include hle

theorem selectVersionRule_refused (hm : concreteMode x.ops.mode = none) :
    selectVersionRule x = .error (modeRefused x.ops.mode) := by
  simp [selectVersionRule, hmin.not_gt, hmax.not_gt, hle.not_gt, hm]

/-- Past the checks, the rule answers what the selection function gives. -/
theorem selectVersionRule_select {m : Mode} (hm : x.ops.mode = fieldOf m) : selectVersionRule x =
    (select m x.len (lowBound x.minv) (highBound x.maxv) x.ops.eccOpt).map
      fun p => { res := [natWord p.1, natWord (eccOrdinal p.2)] } := by
  simp only [selectVersionRule, if_neg hmin.not_gt, if_neg hmax.not_gt, if_neg hle.not_gt, hm, concreteMode_fieldOf]
  cases select m x.len (lowBound x.minv) (highBound x.maxv) x.ops.eccOpt <;> rfl

end

/-! ### What the commands answer -/

/-- Settles O38: the rule reads the capacity ROM at the version and level of the operands. -/
theorem capQueryReadsTheRom : Obligations.CapQueryReadsTheRom := by
  refine ⟨rfl, ?_⟩
  intro s hs v e a
  refine ⟨fun h => ?_, fun h1 h40 => ?_⟩
  · exact hs.raises (e := .range v 1) (if_pos (badVersion_eq_true.mpr h))
  · exact hs.exists_onlyRes (if_neg (not_badVersion h1 h40))

/-- Settles O39: the executable fit predicate is R186's, and a misfit is a result like a fit. -/
theorem fitCheckReportsTheFit : Obligations.FitCheckReportsTheFit := by
  refine ⟨rfl, ?_⟩
  intro s hs v e n
  refine ⟨fun h => ?_, fun h1 h40 hm => ?_, fun h1 h40 m hm => ?_⟩
  · exact hs.raises (e := .range v 1) (if_pos (badVersion_eq_true.mpr h))
  · exact hs.raises (i := .fitCheck) (fitCheckRule_refused (x := s.snapshot) (not_badVersion h1 h40) hm)
  · obtain ⟨t, hexec, hres⟩ := hs.exists_onlyRes (i := .fitCheck)
      (fitCheckRule_ok (x := s.snapshot) (not_badVersion h1 h40) hm)
    exact ⟨t, _, _, hexec, hres, fun h => if_pos (fits_iff.mpr h), fun h => if_neg (fits_iff.not.mpr h),
      fun h => if_pos (overCount_iff.mpr h), fun h => if_neg (overCount_iff.not.mpr h.not_gt)⟩

/-- Settles O40: the search tries the pairs of a version and a level in rising order, so that it finds the first fit. -/
theorem selectVersionTakesTheFirstFit : Obligations.SelectVersionTakesTheFirstFit := by
  refine ⟨rfl, ?_⟩
  intro s hs n minv maxv lo hi
  refine ⟨fun hmin => ?_, fun hmin hmax => ?_, fun hmin hmax hlt => ?_, fun hmin hmax hle hm => ?_,
    fun hmin hmax hle m hm => ?_⟩
  · exact hs.raises (i := .selectVersion) (selectVersionRule_badMin (x := s.snapshot) hmin)
  · exact hs.raises (i := .selectVersion) (selectVersionRule_badMax (x := s.snapshot) hmin hmax)
  · exact hs.raises (i := .selectVersion) (selectVersionRule_badOrder (x := s.snapshot) hmin hmax hlt)
  · exact hs.raises (i := .selectVersion) (selectVersionRule_refused (x := s.snapshot) hmin hmax hle hm)
  · have hrule : ruleOf .selectVersion s.snapshot = (select m n lo hi s.ops.eccOpt).map
        fun p => { res := [natWord p.1, natWord (eccOrdinal p.2)] } :=
      selectVersionRule_select (x := s.snapshot) hmin hmax hle hm
    refine ⟨fun v e h => hs.exists_onlyRes ?_, fun h => ?_⟩
    · rw [hrule, select_of_firstFit h]
      rfl
    · rw [select_of_not_fits hle h] at hrule
      rw [← CmdError.capacity_info1 n m]
      exact hs.raises hrule

end Sys2Proof.Machine

/-! The data encoder (R210 to R218): the alphanumeric set, the resolved mode, the bits that the data codewords hold, and
what the two commands answer. -/

namespace Sys2Proof.Machine

/-! ### The alphanumeric set (R210, R211) -/

/-- The place in the table of 45 bytes is the index that R210 gives. -/
theorem alnumValue_eq (b : Byte) : alnumValue b = if inAlnum b then some (alnumIndex b) else none := by
  revert b
  decide +kernel

theorem inAlnum_iff {b : Byte} : inAlnum b = true ↔ alnumValue b ≠ none := by
  rw [alnumValue_eq]
  cases inAlnum b <;> simp

theorem inAlnum_eq_false_iff {b : Byte} : inAlnum b = false ↔ alnumValue b = none := by
  rw [← Bool.not_eq_true, inAlnum_iff, not_not]

theorem alnumIndex_eq {b : Byte} (h : alnumValue b ≠ none) : alnumIndex b = (alnumValue b).getD 0 := by
  rw [alnumValue_eq, if_pos (inAlnum_iff.mpr h), Option.getD_some]

theorem alnumIndex_lt {b : Byte} (h : alnumValue b ≠ none) : alnumIndex b < 45 :=
  List.idxOf_lt_length_of_mem (List.contains_iff_mem.mp (inAlnum_iff.mpr h))

theorem isAlnum_iff {s : List Byte} : isAlnum s = true ↔ AllAlnum s :=
  List.all_eq_true.trans (forall₂_congr fun _ _ => inAlnum_iff)

theorem allAlnum_cons_cons {a b : Byte} {s : List Byte} :
    AllAlnum (a :: b :: s) ↔ alnumValue a ≠ none ∧ alnumValue b ≠ none ∧ AllAlnum s :=
  List.forall_mem_cons.trans (and_congr_right fun _ => List.forall_mem_cons)

theorem firstBad_eq_findIdx (s : List Byte) : firstBad s = s.findIdx fun b => !inAlnum b := by
  induction s with
  | nil => rfl
  | cons b s ih => rw [firstBad, List.findIdx_cons, ih]; cases inAlnum b <;> rfl

theorem firstBad_of_allAlnum {s : List Byte} (h : AllAlnum s) : firstBad s = s.length := by
  rw [firstBad_eq_findIdx, List.findIdx_eq_length]
  exact fun b hb => by rw [inAlnum_iff.mpr (h b hb)]; rfl

theorem firstBad_eq_iff {s : List Byte} {k : Nat} (hk : k < s.length) : firstBad s = k ↔ FirstBad s k := by
  have hbad : ∀ j, (h : j < s.length) → ((!inAlnum s[j]) = true ↔ alnumValue (s.getD j 0) = none) := fun j h => by
    rw [List.getD_eq_getElem s 0 h, Bool.not_eq_true', inAlnum_eq_false_iff]
  rw [firstBad_eq_findIdx, List.findIdx_eq hk, hbad k hk]
  constructor
  · rintro ⟨hkbad, hfirst⟩
    exact ⟨hk, hkbad, fun j hj hjbad => Bool.eq_false_iff.mp (hfirst j hj) ((hbad j _).mpr hjbad)⟩
  · rintro ⟨_, hkbad, hfirst⟩
    exact ⟨hkbad, fun j hj => Bool.eq_false_iff.mpr fun hjbad => hfirst j hj ((hbad j _).mp hjbad)⟩

theorem firstBad_of_not_allAlnum {s : List Byte} (h : ¬ AllAlnum s) : FirstBad s (firstBad s) := by
  rw [← isAlnum_iff, isAlnum, List.all_eq_true, not_forall₂] at h
  obtain ⟨b, hb, hbad⟩ := h
  have hlt : firstBad s < s.length := by
    rw [firstBad_eq_findIdx, List.findIdx_lt_length]
    exact ⟨b, hb, by rw [Bool.eq_false_iff.mpr hbad]; rfl⟩
  exact (firstBad_eq_iff hlt).mp rfl

theorem FirstBad.eq {s : List Byte} {k : Nat} (h : FirstBad s k) : firstBad s = k := (firstBad_eq_iff h.inside).mpr h

theorem FirstBad.not_allAlnum {s : List Byte} {k : Nat} (h : FirstBad s k) : ¬ AllAlnum s := by
  intro hall
  have hbad := h.bad
  rw [List.getD_eq_getElem s 0 h.inside] at hbad
  exact hall _ (List.getElem_mem h.inside) hbad

/-! ### The resolved mode (R212) -/

theorem resolve_of_resolvesTo {f : ModeField} {s : List Byte} {m : Mode} (h : ResolvesTo f s m) :
    resolve f s = .ok m := by
  cases f with
  | auto =>
    obtain ⟨hall, rfl⟩ | ⟨hbad, rfl⟩ := h
    · rw [resolve, if_pos (isAlnum_iff.mpr hall)]
    · rw [resolve, if_neg (isAlnum_iff.not.mpr hbad)]
  | byte => rw [resolve, show m = .byte from h]
  | alnum =>
    obtain ⟨hall, rfl⟩ := h
    exact if_pos (isAlnum_iff.mpr hall)
  | unsupported => exact h.elim

theorem resolve_of_firstBad {s : List Byte} {k : Nat} (h : FirstBad s k) :
    resolve .alnum s = .error (.mode k 2) := by
  rw [resolve, if_neg (isAlnum_iff.not.mpr h.not_allAlnum), h.eq]

theorem ResolvesTo.allAlnum {f : ModeField} {s : List Byte} (h : ResolvesTo f s .alnum) : AllAlnum s := by
  cases f with
  | auto =>
    obtain ⟨hall, _⟩ | ⟨_, hm⟩ := h
    · exact hall
    · cases hm
  | byte => cases h
  | alnum => exact h.1
  | unsupported => exact h.elim

/-! ### Bits of a codeword sequence (R79, R216) -/

theorem natOfBits_lt (bits : List Bool) : natOfBits bits < 2 ^ bits.length := by
  induction bits with
  | nil => exact Nat.one_pos
  | cons b bits ih =>
    rw [natOfBits, List.length_cons, pow_succ]
    split <;> omega

/-- The last bit of the list is bit 0 of the number. -/
theorem testBit_natOfBits (bits : List Bool) {i : Nat} (hi : i < bits.length) :
    (natOfBits bits).testBit (bits.length - 1 - i) = bits[i] := by
  induction bits generalizing i with
  | nil => exact absurd hi (Nat.not_lt_zero i)
  | cons b bits ih =>
    have hlt := natOfBits_lt bits
    cases i with
    | zero =>
      cases b
      · simp [natOfBits, Nat.testBit_lt_two_pow hlt]
      · simp [natOfBits, Nat.testBit_two_pow_add_eq, Nat.testBit_lt_two_pow hlt]
    | succ i =>
      simp only [List.length_cons, Nat.add_lt_add_iff_right] at hi
      have hplace : (b :: bits).length - 1 - (i + 1) = bits.length - 1 - i := by rw [List.length_cons]; omega
      rw [List.getElem_cons_succ, ← ih hi, hplace, natOfBits]
      cases b
      · simp
      · rw [if_pos rfl, Nat.testBit_two_pow_add_gt (by omega)]

theorem testBit_codeword {bits : List Bool} (hlen : bits.length = 8) {i : Nat} (hi : i < 8) :
    (BitVec.ofNat 8 (natOfBits bits)).toNat.testBit (7 - i) = bits[i] := by
  have hlt := natOfBits_lt bits
  rw [hlen] at hlt
  rw [BitVec.toNat_ofNat, Nat.mod_eq_of_lt hlt, ← testBit_natOfBits bits (hlen ▸ hi), hlen]

theorem streamBit_cons_of_lt (c : Byte) (cs : List Byte) {i : Nat} (hi : i < 8) :
    streamBit (c :: cs) i = c.toNat.testBit (7 - i) := by
  rw [streamBit, Nat.div_eq_of_lt hi, Nat.mod_eq_of_lt hi, List.getD_cons_zero]

theorem streamBit_cons_add (c : Byte) (cs : List Byte) (i : Nat) : streamBit (c :: cs) (i + 8) = streamBit cs i := by
  rw [streamBit, Nat.add_div_right i (by decide), Nat.add_mod_right, List.getD_cons_succ, streamBit]

/-- The bits stand in the codewords in their order, the first in bit 7 of the first codeword. -/
theorem streamBit_codewordsOf (k : Nat) (bits : List Bool) (rest : List Byte) {i : Nat} (hk : 8 * k ≤ bits.length)
    (hi : i < 8 * k) : streamBit (codewordsOf k bits ++ rest) i = bits[i] := by
  induction k generalizing bits i with
  | zero => omega
  | succ k ih =>
    rw [codewordsOf, List.cons_append]
    by_cases h8 : i < 8
    · have hlen : (bits.take 8).length = 8 := by rw [List.length_take]; omega
      rw [streamBit_cons_of_lt _ _ h8, testBit_codeword hlen h8, List.getElem_take]
    · obtain ⟨j, rfl⟩ := Nat.exists_eq_add_of_le' (Nat.le_of_not_lt h8)
      rw [streamBit_cons_add, ih (bits.drop 8) (by rw [List.length_drop]; omega) (by omega), List.getElem_drop]
      simp only [Nat.add_comm]

/-- From bit `i` on, the codeword sequence holds the listed bits. -/
def StreamHas (out : List Byte) (i : Nat) (bits : List Bool) : Prop :=
  ∀ j, (h : j < bits.length) → streamBit out (i + j) = bits[j]

namespace StreamHas

variable {out : List Byte} {i : Nat} {as bs : List Bool}

theorem left (h : StreamHas out i (as ++ bs)) : StreamHas out i as := fun j hj => by
  rw [h j (by rw [List.length_append]; omega), List.getElem_append_left hj]

theorem right (h : StreamHas out i (as ++ bs)) : StreamHas out (i + as.length) bs := fun j hj => by
  rw [Nat.add_assoc, h (as.length + j) (by rw [List.length_append]; omega), List.getElem_append_right (by omega)]
  simp only [Nat.add_sub_cancel_left]

/-- What was put at bit `i` reads back (R215). -/
theorem streamField_mod {x w : Nat} (h : StreamHas out i (bitsOf x w)) : streamField out i w = x % 2 ^ w := by
  induction w generalizing i with
  | zero => rw [streamField, pow_zero, Nat.mod_one]
  | succ w ih =>
    have hhead : streamBit out i = x.testBit w := h 0 (by simp)
    have htail : StreamHas out (i + 1) (bitsOf x w) := h.right (as := [x.testBit w])
    rw [streamField, hhead, ih htail, Nat.mod_pow_succ, ← Nat.toNat_testBit, Nat.add_comm]
    cases x.testBit w <;> simp

theorem streamField_eq {x w : Nat} (h : StreamHas out i (bitsOf x w)) (hx : x < 2 ^ w) : streamField out i w = x := by
  rw [h.streamField_mod, Nat.mod_eq_of_lt hx]

theorem byte_at {s : List Byte} (h : StreamHas out i (byteBits s)) {k : Nat} (hk : k < s.length) :
    streamField out (i + 8 * k) 8 = (s.getD k 0).toNat := by
  induction s generalizing i k with
  | nil => exact absurd hk (Nat.not_lt_zero k)
  | cons b s ih =>
    cases k with
    | zero => exact streamField_eq (left h) b.isLt
    | succ k =>
      have hrest := ih (right h) (Nat.lt_of_succ_lt_succ hk)
      rw [bitsOf_length] at hrest
      rw [List.getD_cons_succ, ← hrest, Nat.mul_succ, Nat.add_comm (8 * k), Nat.add_assoc]

theorem pair_at {s : List Byte} (h : StreamHas out i (alnumBits s)) (hs : AllAlnum s) {k : Nat}
    (hk : k < s.length / 2) : streamField out (i + 11 * k) 11 =
      45 * (alnumValue (s.getD (2 * k) 0)).getD 0 + (alnumValue (s.getD (2 * k + 1) 0)).getD 0 := by
  induction s using alnumBits.induct generalizing i k with
  | case1 => exact absurd hk (Nat.not_lt_zero k)
  | case2 a => exact absurd hk (by simp)
  | case3 a b s ih =>
    obtain ⟨ha, hb, hs⟩ := allAlnum_cons_cons.mp hs
    cases k with
    | zero =>
      have hx : 45 * alnumIndex a + alnumIndex b < 2 ^ 11 := by
        have := alnumIndex_lt ha
        have := alnumIndex_lt hb
        omega
      have hpair := streamField_eq (left h) hx
      rwa [alnumIndex_eq ha, alnumIndex_eq hb] at hpair
    | succ k =>
      have hrest := ih (right h) hs (k := k) (by simp only [List.length_cons] at hk; omega)
      rw [bitsOf_length] at hrest
      rw [Nat.mul_succ 2, List.getD_cons_succ, List.getD_cons_succ, List.getD_cons_succ, List.getD_cons_succ, ← hrest,
        Nat.mul_succ, Nat.add_comm (11 * k), Nat.add_assoc]

theorem last_at {s : List Byte} (h : StreamHas out i (alnumBits s)) (hs : AllAlnum s) (hodd : s.length % 2 = 1) :
    streamField out (i + 11 * (s.length / 2)) 6 = (alnumValue (s.getD (s.length - 1) 0)).getD 0 := by
  induction s using alnumBits.induct generalizing i with
  | case1 => cases hodd
  | case2 a =>
    have ha : alnumValue a ≠ none := hs a List.mem_cons_self
    have hx : alnumIndex a < 2 ^ 6 := (alnumIndex_lt ha).trans (by decide)
    rw [List.length_singleton]
    exact (streamField_eq h hx).trans (alnumIndex_eq ha)
  | case3 a b s ih =>
    obtain ⟨_, _, hs⟩ := allAlnum_cons_cons.mp hs
    simp only [List.length_cons] at hodd ⊢
    have hrest := ih (right h) hs (by omega)
    rw [bitsOf_length] at hrest
    rw [show s.length + 1 + 1 - 1 = s.length - 1 + 1 + 1 by omega, List.getD_cons_succ, List.getD_cons_succ, ← hrest]
    congr 1
    omega

/-- The three parts of the head, each from the bit where it begins (R215). -/
theorem head_parts {m : Mode} {s : List Byte} {v : Nat} (h : StreamHas out 0 (headBits m s v)) :
    StreamHas out 0 (bitsOf (modeIndicator m) 4) ∧ StreamHas out 4 (bitsOf s.length (cci m v)) ∧
      (m = .byte → StreamHas out (4 + cci m v) (byteBits s)) ∧
      (m = .alnum → StreamHas out (4 + cci m v) (alnumBits s)) := by
  unfold headBits at h
  have hcount := h.left.right
  have hpay := h.right
  rw [List.length_append, bitsOf_length, bitsOf_length, Nat.zero_add] at hpay
  rw [bitsOf_length, Nat.zero_add] at hcount
  refine ⟨h.left.left, hcount, fun hm => ?_, fun hm => ?_⟩
  all_goals
    subst hm
    exact hpay

end StreamHas

/-! ### The data codewords (R215 to R217) -/

/-- Terminator and alignment are one run of zeros, to the end of the last codeword used. -/
theorem bitstream_eq (m : Mode) (s : List Byte) (v : Nat) (e : Ecc) : bitstream m s v e =
    headBits m s v ++ List.replicate (8 * usedCw m s.length v e - req m s.length v) false := by
  rw [bitstream, List.append_assoc, List.replicate_append_replicate, headBits_length]
  congr 2
  unfold termLen alignLen usedCw
  omega

theorem bitstream_length (m : Mode) (s : List Byte) (v : Nat) (e : Ecc) :
    (bitstream m s v e).length = 8 * usedCw m s.length v e := by
  rw [bitstream_eq, List.length_append, List.length_replicate, headBits_length]
  unfold usedCw
  omega

theorem dataCodewords_eq (m : Mode) (s : List Byte) (v : Nat) (e : Ecc) : dataCodewords m s v e =
    codewordsOf (usedCw m s.length v e) (bitstream m s v e) ++ padBytes (dataCw v e - usedCw m s.length v e) true := by
  rw [dataCodewords, bitstream_length, Nat.mul_div_cancel_left _ (by decide)]

theorem streamHas_dataCodewords (m : Mode) (s : List Byte) (v : Nat) (e : Ecc) :
    StreamHas (dataCodewords m s v e) 0 (bitstream m s v e) := fun j hj => by
  rw [dataCodewords_eq, Nat.zero_add]
  exact streamBit_codewordsOf _ _ _ (bitstream_length m s v e).ge (bitstream_length m s v e ▸ hj)

/-- The pad bytes alternate (R217). -/
theorem padBytes_getD {n k : Nat} (even : Bool) (hk : k < n) :
    (padBytes n even).getD k 0 = if decide (k % 2 = 0) = even then 0xEC else 0x11 := by
  induction n generalizing k even with
  | zero => exact absurd hk (Nat.not_lt_zero k)
  | succ n ih =>
    cases k with
    | zero => cases even <;> rfl
    | succ k =>
      rw [padBytes, List.getD_cons_succ, ih _ (Nat.lt_of_succ_lt_succ hk)]
      congr 1
      have hparity : ((k + 1) % 2 = 0) = ¬ k % 2 = 0 := propext (by omega)
      cases even <;> simp [hparity]

/-- An input that fits becomes the data sequence that R215 to R217 describe. -/
theorem isDataSequence_dataCodewords {m : Mode} {s : List Byte} {v : Nat} {e : Ecc} (hfit : Fits m s.length v e)
    (halnum : m = .alnum → AllAlnum s) : IsDataSequence m s v e (dataCodewords m s v e) := by
  have hbits := streamHas_dataCodewords m s v e
  rw [bitstream_eq] at hbits
  obtain ⟨hind, hcount, hbyte, halpha⟩ := hbits.left.head_parts
  have hlen : s.length < 2 ^ cci m v := by
    have := hfit.1
    have := Nat.two_pow_pos (cci m v)
    omega
  exact {
    length := dataCodewords_length (fits_iff.mpr hfit)
    indicator := by
      rw [hind.streamField_mod]
      cases m <;> rfl
    count := hcount.streamField_eq hlen
    bytes := fun hm i hi => (hbyte hm).byte_at hi
    pairs := fun hm i hi => (halpha hm).pair_at (halnum hm) hi
    last := fun hm hodd => (halpha hm).last_at (halnum hm) hodd
    zeros := fun i hlow hhigh => by
      have hzero := hbits.right (i - req m s.length v) (by rw [List.length_replicate]; omega)
      rwa [List.getElem_replicate, headBits_length, Nat.zero_add, Nat.add_sub_cancel' hlow] at hzero
    pads := fun k hk => by
      have hpad := padBytes_getD (n := dataCw v e - usedCw m s.length v e) (k := k) true (by omega)
      rw [dataCodewords_eq, List.getD_append_right _ _ _ _ (by rw [codewordsOf_length]; omega), codewordsOf_length,
        Nat.add_sub_cancel_left, hpad]
      simp }

/-! ### The rules (R213, R218, R357) -/

section
variable {x : Snapshot}

theorem modeDetectRule_badLength (hlen : 8192 < x.len) : modeDetectRule x = .error (.range x.len 5) := if_pos hlen

theorem modeDetectRule_answers (hlen : x.len ≤ 8192) : modeDetectRule x =
    .ok { res := [if isAlnum x.input then 2 else 1, natWord (firstBad x.input)] } := if_neg hlen.not_gt

theorem buildDataRule_badVersion (hv : badVersion x.ver = true) : buildDataRule x = .error (.range x.ver 1) := if_pos hv

variable (hv : ¬ badVersion x.ver = true)
include hv

theorem buildDataRule_badLength (hlen : 8192 < x.len) : buildDataRule x = .error (.range x.len 5) :=
  (if_neg hv).trans (if_pos hlen)

variable (hlen : x.len ≤ 8192)
include hlen

theorem buildDataRule_refused {err : CmdError} (hm : resolve x.ops.mode x.input = .error err) :
    buildDataRule x = .error err := by
  simp only [buildDataRule, if_neg hv, inBufSize, if_neg hlen.not_gt, hm]

variable {m : Mode} (hm : resolve x.ops.mode x.input = .ok m)
include hm

theorem buildDataRule_of_not_fits (hfit : ¬ Fits m x.len x.ver x.ops.ecc) : buildDataRule x =
    .error (.capacity x.len m x.ver x.ver (eccOrdinal x.ops.ecc) true) := by
  rw [← fits_iff, Bool.not_eq_true] at hfit
  simp only [buildDataRule, if_neg hv, inBufSize, if_neg hlen.not_gt, hm, hfit]
  rfl

theorem buildDataRule_of_fits (hfit : Fits m x.len x.ver x.ops.ecc) : buildDataRule x = .ok {
    res := [natWord (dataCw x.ver x.ops.ecc), natWord (modeNumber m), natWord (req m x.len x.ver),
      natWord (dataCw x.ver x.ops.ecc - usedCw m x.len x.ver x.ops.ecc),
      natWord (min 4 (capBits x.ver x.ops.ecc - req m x.len x.ver))]
    mem := bytesAt dataBase (dataCodewords m x.input x.ver x.ops.ecc) } := by
  have hlength : x.input.length = x.len := readBytes_length _ _ _
  simp only [buildDataRule, if_neg hv, inBufSize, if_neg hlen.not_gt, hm, fits_iff.mpr hfit, headBits_length,
    bitstream_length, hlength, Nat.mul_div_cancel_left _ (show 0 < 8 by decide), termLen]
  rfl

end

/-! ### What the commands answer -/

theorem State.inputBytes_length (s : State) : s.inputBytes.length = s.ops.len.toNat := by
  rw [inputBytes, bytesOf, List.length_map, List.length_range]

/-- Settles O41: the index that the rule computes is the length where every byte is in the set, and else the first bad
byte's. -/
theorem modeDetectFindsTheFirstBadByte : Obligations.ModeDetectFindsTheFirstBadByte := by
  refine ⟨rfl, ?_⟩
  intro s hs n
  refine ⟨fun h => ?_, fun h => ?_⟩
  · exact hs.raises (i := .modeDetect) (modeDetectRule_badLength (x := s.snapshot) h)
  · have hrule : ruleOf .modeDetect s.snapshot =
        .ok { res := [if isAlnum s.inputBytes then 2 else 1, natWord (firstBad s.inputBytes)] } :=
      snapshot_input s ▸ modeDetectRule_answers (x := s.snapshot) h
    obtain ⟨t, hexec, hres⟩ := hs.exists_onlyRes hrule
    exact ⟨t, _, _, hexec, hres,
      fun hall => ⟨if_pos (isAlnum_iff.mpr hall), (firstBad_of_allAlnum hall).trans s.inputBytes_length⟩,
      fun hbad => ⟨if_neg (isAlnum_iff.not.mpr hbad), firstBad_of_not_allAlnum hbad⟩⟩

/-- Settles O42: the rule stores the data codewords of the input, which read back as the bitstream and its padding. -/
theorem buildDataWritesTheBitstream : Obligations.BuildDataWritesTheBitstream := by
  intro s m hs v e n h1 h40 hlen hm hfit
  have hinput : s.snapshot.input = s.inputBytes := snapshot_input s
  have hfit' : Fits m s.inputBytes.length v e := by rwa [s.inputBytes_length]
  have hrule := buildDataRule_of_fits (x := s.snapshot) (not_badVersion h1 h40) hlen
    (hinput ▸ resolve_of_resolvesTo hm) hfit
  rw [hinput] at hrule
  have hlength : (dataCodewords m s.inputBytes v e).length = dataCw v e := dataCodewords_length (fits_iff.mpr hfit')
  obtain ⟨t, hexec, hres, hmem⟩ := hs.exists_onlyResMem (i := .buildData) hrule
    (P := inRange dataBase (dataCw v e)) fun c hc => hlength ▸ mem_bytesAt hc
  have hstored : bytesOf t.mem dataBase (dataCw v e) = dataCodewords m s.inputBytes v e :=
    hmem ▸ bytesOf_writeBytes_bytesAt hs.mem_wf dataBase hlength
  refine ⟨t, hexec, hres, ?_⟩
  rw [hstored]
  exact isDataSequence_dataCodewords hfit' fun h => (h ▸ hm).allAlnum

/-- Settles O43: the rule makes its checks in the order of R357, each where those before it pass. -/
theorem buildDataErrors : Obligations.BuildDataErrors := by
  intro s hs v e n
  refine ⟨fun hv => ?_, fun h1 h40 hlen => ?_, fun h1 h40 hlen => ?_⟩
  · exact hs.raises (i := .buildData) (buildDataRule_badVersion (x := s.snapshot) (badVersion_eq_true.mpr hv))
  · exact hs.raises (i := .buildData) (buildDataRule_badLength (x := s.snapshot) (not_badVersion h1 h40) hlen)
  have hv : ¬ badVersion s.snapshot.ver = true := not_badVersion h1 h40
  have hinput : s.snapshot.input = s.inputBytes := snapshot_input s
  refine ⟨fun hm => ?_, fun k hm hbad => ?_, fun m hm hfit => ?_⟩
  · exact hs.raises (i := .buildData) (e := .mode 0xFFFF 3) (buildDataRule_refused (x := s.snapshot) hv hlen
      (show resolve s.ops.mode _ = _ by rw [hm]; rfl))
  · exact hs.raises (i := .buildData) (e := .mode k 2) (buildDataRule_refused (x := s.snapshot) hv hlen
      (show resolve s.ops.mode _ = _ by rw [hm, hinput, resolve_of_firstBad hbad]))
  · exact hs.raises (i := .buildData) (buildDataRule_of_not_fits (x := s.snapshot) hv hlen
      (hinput ▸ resolve_of_resolvesTo hm) hfit)

end Sys2Proof.Machine

/-! The block assembler (R230 to R233): which slice of DATA_BUF each block is, where each of its bytes stands in the
interleaved sequence, and what BLOCK_ASSEMBLE leaves in the three buffers it writes. -/

namespace Sys2Proof.Machine

/-! ### Where a block's byte stands in the columns (R232) -/

section
variable {blocks : List (List Byte)} {b i : Nat} {d : List Byte} {x : Byte}

/-- Before a block's byte in its column stand the bytes of the blocks before it. -/
theorem column_getElem? (hd : blocks[b]? = some d) (hx : d[i]? = some x) :
    (column blocks i)[(column (blocks.take b) i).length]? = some x := by
  obtain ⟨hb, rfl⟩ := List.getElem?_eq_some_iff.mp hd
  have hsplit : column blocks i = column (blocks.take b) i ++ x :: column (blocks.drop (b + 1)) i := by
    conv_lhs => rw [← List.take_append_drop b blocks, List.drop_eq_getElem_cons hb]
    rw [column, List.filterMap_append, List.filterMap_cons_some (f := fun d => d[i]?) hx, column, column]
  rw [hsplit, List.getElem?_append_right le_rfl, Nat.sub_self, List.getElem?_cons_zero]

/-- Before a block's byte in the columns stand the columns before its own, and the bytes before it in its own. -/
theorem columns_getElem? {k : Nat} (hi : i < k) (hd : blocks[b]? = some d) (hx : d[i]? = some x) :
    (columns blocks k)[(columns blocks i).length + (column (blocks.take b) i).length]? = some x := by
  induction k with
  | zero => omega
  | succ k ih =>
    rw [columns_succ]
    obtain rfl | hlt : i = k ∨ i < k := by omega
    · rw [List.getElem?_append_right (Nat.le_add_right _ _), Nat.add_sub_cancel_left, column_getElem? hd hx]
    · obtain ⟨hinside, _⟩ := List.getElem?_eq_some_iff.mp (ih hlt)
      rw [List.getElem?_append_left hinside, ih hlt]

variable {n : Nat} {len : Nat → Nat} (hlen : blocks.map List.length = (List.range n).map len)
include hlen

theorem column_take_length (hb : b ≤ n) (i : Nat) :
    (column (blocks.take b) i).length = (List.range b).countP fun c => decide (i < len c) := by
  have htake : (blocks.take b).map List.length = (List.range b).map len := by
    rw [List.map_take, hlen, ← List.map_take, List.take_range, Nat.min_eq_left hb]
  rw [column_length]
  have hcount := congrArg (List.countP fun k => decide (i < k)) htake
  rwa [List.countP_map, List.countP_map] at hcount

/-- As long as no block has ended, the columns are rows of `n` bytes. -/
theorem columns_length_of_le {k : Nat} (hk : ∀ c, c < n → k ≤ len c) : (columns blocks k).length = k * n := by
  have hmin : (blocks.map fun d => min d.length k) = ((List.range n).map len).map (min · k) := by
    rw [← hlen, List.map_map]; rfl
  have hconst : ((List.range n).map len).map (min · k) = List.replicate n k := by
    rw [List.map_map, List.eq_replicate_iff]
    exact ⟨by simp, by simpa using hk⟩
  rw [columns_length, hmin, hconst, List.sum_replicate, smul_eq_mul, Nat.mul_comm]

/-- Where exactly the blocks from `m` on have a byte at position `i`, and none ends before it, column `i` is a row of one
byte from each of those. -/
theorem columns_getElem?_of_longer_iff {k m : Nat} (hle : ∀ c, c < n → i ≤ len c)
    (hlong : ∀ c, c < n → (i < len c ↔ m ≤ c)) (hi : i < k) (hb : b < n) (hd : blocks[b]? = some d) (hx : d[i]? = some x) :
    (columns blocks k)[i * n + (b - m)]? = some x := by
  have hcount : ∀ b ≤ n, ((List.range b).countP fun c => decide (i < len c)) = b - m := fun b hb => by
    induction b with
    | zero => simp
    | succ b ih =>
      rw [List.range_succ, List.countP_append, ih (by omega), List.countP_singleton]
      simp only [decide_eq_true_eq, hlong b hb]
      split <;> omega
  rw [← columns_getElem? hi hd hx, column_take_length hlen hb.le, hcount b hb.le, columns_length_of_le hlen hle]

end

/-! ### The block split (R230, R231) -/

/-- Piece `b` begins where the pieces before it end. -/
theorem slices_getElem? {ks : List Nat} {b k : Nat} (h : ks[b]? = some k) (d : List Byte) :
    (slices ks d)[b]? = some ((d.drop (ks.take b).sum).take k) := by
  induction ks generalizing b d with
  | nil => cases h
  | cons k' ks ih =>
    cases b with
    | zero => cases h; rfl
    | succ b => rw [slices, List.getElem?_cons_succ, ih h, List.drop_drop, List.take_succ_cons, List.sum_cons]

/-- Cutting the pieces' concatenation at their lengths gives the pieces back. -/
theorem slices_flatten (pieces : List (List Byte)) : slices (pieces.map List.length) pieces.flatten = pieces := by
  induction pieces with
  | nil => rfl
  | cons d pieces ih => rw [List.map_cons, List.flatten_cons, slices, List.take_left, List.drop_left, ih]

/-- The first data index of block `b`. -/
def blockOff (v : Nat) (e : Ecc) (b : Nat) : Nat := ((List.range b).map (dl v e)).sum

/-- The data of block `b`: the slice of its length at its offset. -/
def dataBlock (v : Nat) (e : Ecc) (data : List Byte) (b : Nat) : List Byte :=
  (data.drop (blockOff v e b)).take (dl v e b)

section
variable {v b i : Nat} {e : Ecc}

theorem eccpb_le_slen (h40 : v ≤ 40) (hb : b < nb v e) : eccpb v e ≤ slen v e :=
  (Nat.le_div_iff_mul_le (by omega)).mpr (parityTotal_le_totalCw h40 e)

theorem dl_eq (h40 : v ≤ 40) (hb : b < nb v e) :
    dl v e b = if b < nshort v e then slen v e - eccpb v e else slen v e - eccpb v e + 1 := by
  have := eccpb_le_slen h40 hb
  unfold dl blen
  split <;> omega

theorem dataLens_take_sum (hb : b ≤ nb v e) : ((dataLens v e).take b).sum = blockOff v e b := by
  rw [dataLens, ← List.map_take, List.take_range, Nat.min_eq_left hb, blockOff]

theorem blockOff_succ (v : Nat) (e : Ecc) (b : Nat) : blockOff v e (b + 1) = blockOff v e b + dl v e b := by
  simp [blockOff, List.range_succ]

theorem blockOff_succ_le (h1 : 1 ≤ v) (h40 : v ≤ 40) (hb : b < nb v e) : blockOff v e b + dl v e b ≤ dataCw v e := by
  rw [← blockOff_succ, ← dataLens_take_sum hb, ← dataLens_sum h1 h40,
    ← List.sum_take_add_sum_drop (dataLens v e) (b + 1)]
  exact Nat.le_add_right _ _

theorem blockData_getElem? (hb : b < nb v e) (data : List Byte) :
    (blockData v e data)[b]? = some (dataBlock v e data b) := by
  rw [dataBlock, ← dataLens_take_sum hb.le]
  exact slices_getElem? (by simp [dataLens, hb]) data

theorem blockParity_getElem? (f : GfField) (hb : b < nb v e) (data : List Byte) :
    (blockParity f v e data)[b]? = some (rem f (dataBlock v e data b) (eccpb v e)) := by
  rw [blockParity, List.getElem?_map, blockData_getElem? hb, Option.map_some]

theorem dataBlock_getElem? (data : List Byte) (hi : i < dl v e b) :
    (dataBlock v e data b)[i]? = data[blockOff v e b + i]? := by
  rw [dataBlock, List.getElem?_take_of_lt hi, List.getElem?_drop]

/-! ### The interleaved sequence and the parity region (R231, R232) -/

variable (f : GfField) {data : List Byte} (h1 : 1 ≤ v) (h40 : v ≤ 40) (hdata : data.length = dataCw v e)
include h1 h40 hdata

theorem dataLens_sum_le_length : (dataLens v e).sum ≤ data.length := by rw [dataLens_sum h1 h40, hdata]

/-- The parity of block `b` is the run of ECC_BUF at `b · t` (R231). -/
theorem blockParity_flatten_slice (hb : b < nb v e) :
    ((blockParity f v e data).flatten.drop (b * eccpb v e)).take (eccpb v e) =
      rem f (dataBlock v e data b) (eccpb v e) := by
  have hlens := map_length_blockParity f (dataLens_sum_le_length h1 h40 hdata)
  have hpiece := slices_getElem? (b := b) (k := eccpb v e) (ks := List.replicate (nb v e) (eccpb v e))
    (List.getElem?_replicate_of_lt hb) (blockParity f v e data).flatten
  rw [← hlens, slices_flatten, blockParity_getElem? f hb, hlens, List.take_replicate, List.sum_replicate,
    Nat.min_eq_left hb.le, smul_eq_mul] at hpiece
  exact (Option.some.inj hpiece).symm

theorem map_length_blockParity_range : (blockParity f v e data).map List.length =
    (List.range (nb v e)).map fun _ => eccpb v e := by
  rw [map_length_blockParity f (dataLens_sum_le_length h1 h40 hdata), List.map_const', List.length_range]

/-- The parity region begins behind the data codewords. -/
theorem dataColumns_length : (columns (blockData v e data) (slen v e + 1 - eccpb v e)).length = dataCw v e := by
  have hlens := map_length_blockData (dataLens_sum_le_length h1 h40 hdata)
  rw [columns_length_eq_sum, hlens, dataLens_sum h1 h40]
  exact fun d hd => mem_dataLens_le (hlens ▸ List.mem_map_of_mem hd)

/-- Data byte `i` of block `b` stands in row `i` of the data region; row `slen − t` has the long blocks alone. -/
theorem interleave_data (hb : b < nb v e) (hi : i < dl v e b) :
    (interleave f v e data)[
      if i < slen v e - eccpb v e then i * nb v e + b else i * nb v e + (b - nshort v e)]? =
      data[blockOff v e b + i]? := by
  have hlens : (blockData v e data).map List.length = (List.range (nb v e)).map (dl v e) :=
    map_length_blockData (dataLens_sum_le_length h1 h40 hdata)
  have hend := blockOff_succ_le h1 h40 hb
  have hbyte : data[blockOff v e b + i]? = some data[blockOff v e b + i] := List.getElem?_eq_getElem (by omega)
  have hlt : i < slen v e - eccpb v e + 1 := by
    rw [dl_eq h40 hb] at hi
    split at hi <;> omega
  have hshort := eccpb_le_slen h40 hb
  have hle : ∀ c, c < nb v e → i ≤ dl v e c := fun c hc => by
    rw [dl_eq h40 hc]
    split <;> omega
  have hpos : ∀ m, (∀ c, c < nb v e → (i < dl v e c ↔ m ≤ c)) →
      (interleave f v e data)[i * nb v e + (b - m)]? = data[blockOff v e b + i]? := fun m hlong => by
    have hcol := columns_getElem?_of_longer_iff hlens (k := slen v e + 1 - eccpb v e) (m := m) (i := i) (b := b)
      hle hlong (by omega) hb (blockData_getElem? hb data) ((dataBlock_getElem? data hi).trans hbyte)
    obtain ⟨hinside, _⟩ := List.getElem?_eq_some_iff.mp hcol
    rw [interleave, List.getElem?_append_left hinside, hcol, hbyte]
  split
  · next hshort =>
    refine hpos 0 fun c hc => ?_
    rw [dl_eq h40 hc]
    split <;> omega
  · next hshort =>
    refine hpos _ fun c hc => ?_
    rw [dl_eq h40 hb] at hi
    rw [dl_eq h40 hc]
    split at hi <;> split <;> omega

/-- The parity region is the transpose of the parity blocks. -/
theorem interleave_parity (hb : b < nb v e) (hi : i < eccpb v e) :
    (interleave f v e data)[dataCw v e + (i * nb v e + b)]? = (rem f (dataBlock v e data b) (eccpb v e))[i]? := by
  have hbyte := List.getElem?_eq_getElem (l := rem f (dataBlock v e data b) (eccpb v e)) (i := i) (by simpa using hi)
  have hcol := columns_getElem?_of_longer_iff (map_length_blockParity_range f h1 h40 hdata) (k := eccpb v e) (m := 0)
    (fun _ _ => hi.le) (fun _ _ => by omega) hi hb (blockParity_getElem? f hb data) hbyte
  rw [interleave, List.getElem?_append_right (by rw [dataColumns_length h1 h40 hdata]; exact Nat.le_add_right _ _),
    dataColumns_length h1 h40 hdata, Nat.add_sub_cancel_left, hbyte]
  exact hcol

end

/-! ### The buffers after the stores (R233) -/

theorem bytesOf_getElem? (m : Memory) (base : Nat) {k i : Nat} (hi : i < k) :
    (bytesOf m base k)[i]? = some (readByte m (base + i)) := by simp [bytesOf, hi]

theorem readByte_eq_of_bytesOf {m : Memory} {base k i : Nat} {bs : List Byte} {x : Byte} (h : bytesOf m base k = bs)
    (hx : bs[i]? = some x) : readByte m (base + i) = x := by
  have hi : i < k := by
    obtain ⟨hi, _⟩ := List.getElem?_eq_some_iff.mp hx
    rwa [← h, bytesOf, List.length_map, List.length_range] at hi
  rwa [← h, bytesOf_getElem? m base hi, Option.some.injEq] at hx

/-- A run within a run. -/
theorem bytesOf_add (m : Memory) (base : Nat) {off k n : Nat} (h : off + k ≤ n) :
    bytesOf m (base + off) k = ((bytesOf m base n).drop off).take k := by
  refine List.ext_getElem? fun i => ?_
  by_cases hi : i < k
  · rw [bytesOf_getElem? m _ hi, List.getElem?_take_of_lt hi, List.getElem?_drop, bytesOf_getElem? m _ (by omega),
      Nat.add_assoc]
  · simp [bytesOf, hi]

/-- A store of a run beside the one that is read. -/
theorem bytesOf_writeBytes_bytesAt_beside {m : Memory} (hm : m.wf = true) {base base' k k' : Nat} {bs : List Byte}
    (hbs : bs.length = k') (h : base' + k' ≤ base ∨ base + k ≤ base') :
    bytesOf (writeBytes m (bytesAt base' bs)) base k = bytesOf m base k :=
  bytesOf_writeBytes_other hm fun a ⟨hlow, hhigh⟩ ha => by
    obtain ⟨hlow', hhigh'⟩ := (mem_map_fst_bytesAt_iff hbs).mp ha
    omega

/-- GEN_BUF, ECC_BUF and ILV_BUF do not meet, and each holds what BLOCK_ASSEMBLE stores there. -/
theorem bytesOf_writeBytes_blockWrites {m : Memory} (hm : m.wf = true) (f : GfField) {v : Nat} {e : Ecc}
    {data : List Byte} (h1 : 1 ≤ v) (h40 : v ≤ 40) (hdata : data.length = dataCw v e) {m' : Memory}
    (hm' : m' = writeBytes m (bytesAt genBase (gen f (eccpb v e)) ++ blockWrites f v e data)) :
    bytesOf m' genBase (eccpb v e + 1) = gen f (eccpb v e) ∧
      bytesOf m' eccBase (nb v e * eccpb v e) = (blockParity f v e data).flatten ∧
      bytesOf m' ilvBase (totalCw v) = interleave f v e data := by
  have hgen := gen_length f (eccpb v e)
  have hpar := blockParity_flatten_length f (dataLens_sum_le_length h1 h40 hdata)
  have hilv := interleave_length f h1 h40 hdata
  rw [blockWrites, writeBytes_append, writeBytes_append] at hm'
  have hwf1 := writeBytes_wf hm (bytesAt ilvBase (interleave f v e data))
  have hwf2 := writeBytes_wf hwf1 (bytesAt eccBase (blockParity f v e data).flatten)
  have hgenEnd : genBase + (eccpb v e + 1) ≤ eccBase := by
    have := eccpb_le h40 e
    unfold genBase eccBase
    omega
  have heccEnd : eccBase + nb v e * eccpb v e ≤ ilvBase := Nat.add_le_add_left (parityTotal_le h40 e) eccBase
  subst hm'
  refine ⟨bytesOf_writeBytes_bytesAt hwf2 genBase hgen, ?_, ?_⟩
  · rw [bytesOf_writeBytes_bytesAt_beside hwf2 hgen (.inl hgenEnd), bytesOf_writeBytes_bytesAt hwf1 eccBase hpar]
  · rw [bytesOf_writeBytes_bytesAt_beside hwf2 hgen (.inl (by omega)),
      bytesOf_writeBytes_bytesAt_beside hwf1 hpar (.inl heccEnd), bytesOf_writeBytes_bytesAt hm ilvBase hilv]

/-! ### The rule (R233, R358) -/

section
variable {x : Snapshot}

theorem blockAssembleRule_badVersion (hv : badVersion x.ver = true) :
    blockAssembleRule x = .error (.range x.ver 1) := if_pos hv

/-- The blocks always share out the data codewords, so that E_CONSISTENCY never arises (R358). -/
theorem blockAssembleRule_of_version (h1 : 1 ≤ x.ver) (h40 : x.ver ≤ 40) : blockAssembleRule x = .ok {
    res := [natWord (totalCw x.ver), natWord (nb x.ver x.ops.ecc), natWord (nshort x.ver x.ops.ecc),
      natWord (slen x.ver x.ops.ecc - eccpb x.ver x.ops.ecc), natWord (eccpb x.ver x.ops.ecc)]
    mem := bytesAt genBase (gen x.field (eccpb x.ver x.ops.ecc)) ++
      blockWrites x.field x.ver x.ops.ecc (readBytes x.mem dataBase (dataCw x.ver x.ops.ecc)) } :=
  (if_neg (not_badVersion h1 h40)).trans (if_neg (not_not_intro (dataLens_sum h1 h40 x.ops.ecc)))

end

/-- Settles O44: the rule stores the columns of the blocks, in which every block's byte stands behind the full rows before
its own and the bytes of the earlier blocks in its row. -/
theorem blockAssembleInterleavesCodewords : Obligations.BlockAssembleInterleavesCodewords := by
  intro s hs v e t blocks short nshort dlen off
  refine ⟨fun hv => hs.raises (e := .range v 1)
    (blockAssembleRule_badVersion (x := s.snapshot) (badVersion_eq_true.mpr hv)), fun h1 h40 => ?_⟩
  have hdlen : ∀ b, b < blocks → dl v e b = dlen b := fun b hb => dl_eq h40 hb
  have hoff : ∀ b, b ≤ blocks → blockOff v e b = off b := fun b hb =>
    congrArg List.sum (List.map_congr_left fun c hc => hdlen c ((List.mem_range.mp hc).trans_le hb))
  have hrule := blockAssembleRule_of_version (x := s.snapshot) h1 h40
  obtain ⟨z, hexec, hres, hmem⟩ := hs.exists_onlyResMem (i := .blockAssemble) hrule
    (P := fun a => inRange genBase (t + 1) a ∨ inRange eccBase (blocks * t) a ∨ inRange ilvBase (totalCw v) a)
    fun c hc => (mem_writes_blockAssemble hrule).mp (List.mem_map_of_mem hc)
  generalize hread : readBytes s.snapshot.mem dataBase (dataCw s.snapshot.ver s.snapshot.ops.ecc) = data at hmem
  replace hread : bytesOf s.mem dataBase (dataCw v e) = data := hread ▸ (readBytes_eq _ _ _).symm
  have hdata : data.length = dataCw v e := by rw [← hread, bytesOf, List.length_map, List.length_range]
  obtain ⟨hgen, hecc, hilv⟩ := bytesOf_writeBytes_blockWrites hs.mem_wf s.field h1 h40 hdata hmem
  refine ⟨z, hexec, hres, hgen ▸ hs.goodField.isGenerator_gen t, ?_, fun b hb => ?_⟩
  · rw [← hoff blocks le_rfl, ← dataLens_take_sum le_rfl, ← dataLens_length, List.take_length, dataLens_sum h1 h40]
  have hend := blockOff_succ_le h1 h40 hb
  have hblock : bytesOf s.mem (dataBase + off b) (dlen b) = dataBlock v e data b := by
    rw [← hoff b hb.le, ← hdlen b hb, bytesOf_add _ _ hend, hread, dataBlock]
  have hparity : bytesOf z.mem (eccBase + b * t) t = rem s.field (dataBlock v e data b) t := by
    have hinside : b * t + t ≤ blocks * t := (Nat.succ_mul b t).symm.trans_le (Nat.mul_le_mul_right t hb)
    rw [bytesOf_add _ _ hinside, hecc, blockParity_flatten_slice s.field h1 h40 hdata hb]
  refine ⟨by rw [hblock, hparity]; exact hs.goodField.isParity_rem t _, fun i hi => ?_, fun i hi => ?_⟩
  · rw [← hdlen b hb] at hi
    refine readByte_eq_of_bytesOf hilv ((interleave_data s.field h1 h40 hdata hb hi).trans ?_)
    rw [← hread, bytesOf_getElem? _ _ (by omega), hoff b hb.le, Nat.add_assoc]
  · have hbyte := bytesOf_getElem? z.mem (eccBase + b * t) hi
    rw [hparity, ← interleave_parity s.field h1 h40 hdata hb hi] at hbyte
    rw [Nat.add_assoc, Nat.add_assoc]
    exact readByte_eq_of_bytesOf hilv hbyte

end Sys2Proof.Machine

/-! The scaffold (R250 to R255): the alignment centres of every version, which pattern each cell belongs to, and that
the steps of the model draw it. -/

namespace Sys2Proof.Machine

/-! ### Counting the cells of a grid -/

theorem sum_map_eq_sum_range {α : Type} (f : α → Nat) (d : α) (xs : List α) :
    (xs.map f).sum = ∑ i ∈ Finset.range xs.length, f (xs.getD i d) := by
  induction xs with
  | nil => rfl
  | cons x xs ih =>
    rw [List.map_cons, List.sum_cons, ih, List.length_cons, Finset.sum_range_succ', Nat.add_comm]
    simp only [List.getD_cons_succ, List.getD_cons_zero]

theorem countP_eq_sum_range (p : Cell → Bool) (xs : List Cell) :
    xs.countP p = ∑ i ∈ Finset.range xs.length, if p (xs.getD i Cell.blank) then 1 else 0 := by
  rw [← sum_map_eq_sum_range (fun x => if p x then 1 else 0)]
  induction xs with
  | nil => rfl
  | cons x xs ih => rw [List.countP_cons, List.map_cons, List.sum_cons, ih, Nat.add_comm]

/-- The cells that a command counts in its grid, counted by position. -/
theorem countCells_eq_cellCount {n : Nat} {g : Grid} (hg : IsSquare n g) (p : Cell → Bool) :
    countCells p g = cellCount n fun r c => p (cellAt g r c) := by
  rw [countCells, sum_map_eq_sum_range _ [], hg.1]
  refine Finset.sum_congr rfl fun r hr => ?_
  obtain ⟨row, hrow, hlen⟩ := hg.row (Finset.mem_range.mp hr)
  rw [countP_eq_sum_range, List.getD_eq_getElem?_getD, hrow, Option.getD_some, hlen]
  simp only [cellAt, List.getD_eq_getElem?_getD, hrow, Option.getD_some]

theorem cellCount_congr {n : Nat} {P Q : Nat → Nat → Bool} (h : ∀ r c, r < n → c < n → P r c = Q r c) :
    cellCount n P = cellCount n Q :=
  Finset.sum_congr rfl fun r hr => Finset.sum_congr rfl fun c hc => by
    rw [h r c (Finset.mem_range.mp hr) (Finset.mem_range.mp hc)]

/-! ### The alignment centres (R183, R253) -/

/-- The row or column passes through an alignment pattern centred on one of the coordinates of ALIGN(v). -/
abbrev NearAlign (v x : Nat) : Prop := ∃ a ∈ align v, x ≤ a + 2 ∧ a ≤ x + 2

/-- The cell lies in an alignment pattern: that of every pair of coordinates but the three at the finders (R253). -/
def InAlign (v r c : Nat) : Prop :=
  NearAlign v r ∧ NearAlign v c ∧ ¬ (r ≤ 8 ∧ c ≤ 8) ∧ ¬ (r ≤ 8 ∧ 8 + 4 * v ≤ c) ∧ ¬ (8 + 4 * v ≤ r ∧ c ≤ 8)

theorem ringOf_le_iff {a b r c k : Nat} :
    ringOf a b r c ≤ k ↔ (r ≤ a + k ∧ a ≤ r + k) ∧ c ≤ b + k ∧ b ≤ c + k := by
  unfold ringOf absDiff
  omega

theorem ringOf_eq_max_natAbs (a b r c : Nat) :
    ringOf a b r c = max (Int.natAbs ((r : Int) - a)) (Int.natAbs ((c : Int) - b)) := by
  unfold ringOf absDiff
  omega

section
variable {v : Nat} (h1 : 1 ≤ v) (h40 : v ≤ 40)
include h1 h40

/-- The first and the last coordinate are 6 and n − 7, and every other one lies well between them. -/
theorem align_band {a : Nat} (ha : a ∈ align v) : a = 6 ∨ a = 10 + 4 * v ∨ 16 ≤ a ∧ a ≤ 4 * v := by
  have table : ∀ v < 41, 1 ≤ v → ∀ a ∈ align v, a = 6 ∨ a = 10 + 4 * v ∨ 16 ≤ a ∧ a ≤ 4 * v := by decide +kernel
  exact table v (by omega) h1 a ha

theorem align_apart {a b : Nat} (ha : a ∈ align v) (hb : b ∈ align v) : a = b ∨ a + 5 ≤ b ∨ b + 5 ≤ a := by
  have table : ∀ v < 41, 1 ≤ v → ∀ a ∈ align v, ∀ b ∈ align v, a = b ∨ a + 5 ≤ b ∨ b + 5 ≤ a := by
    decide +kernel
  exact table v (by omega) h1 a ha b hb

theorem align_ends {a : Nat} (ha : a ∈ align v) :
    (align v).headD 0 = 6 ∧ (align v).getLastD 0 = 10 + 4 * v := by
  have table : ∀ v < 41, 1 ≤ v → align v = [] ∨ (align v).headD 0 = 6 ∧ (align v).getLastD 0 = 10 + 4 * v := by
    decide +kernel
  exact (table v (by omega) h1).resolve_left (List.ne_nil_of_mem ha)

theorem mem_alignCentres_iff {a b : Nat} : (a, b) ∈ alignCentres v ↔ a ∈ align v ∧ b ∈ align v ∧
    ¬ (a = 6 ∧ b = 6) ∧ ¬ (a = 6 ∧ b = 10 + 4 * v) ∧ ¬ (a = 10 + 4 * v ∧ b = 6) := by
  have hpair : (a, b) ∈ ((align v).flatMap fun ar => (align v).map fun ac => (ar, ac)) ↔
      a ∈ align v ∧ b ∈ align v := by simp
  simp only [alignCentres, List.mem_filter, hpair, Bool.and_eq_true, bne_iff_ne, ne_eq, Prod.mk.injEq]
  rw [and_assoc]
  refine and_congr_right fun ha => and_congr_right fun _ => ?_
  obtain ⟨hhead, hlast⟩ := align_ends h1 h40 ha
  rw [hhead, hlast, and_assoc]

theorem NearAlign.band {x : Nat} (h : NearAlign v x) :
    4 ≤ x ∧ x ≤ 8 ∨ 8 + 4 * v ≤ x ∧ x ≤ 12 + 4 * v ∨ 14 ≤ x ∧ x ≤ 4 * v + 2 := by
  obtain ⟨a, ha, hlow, hhigh⟩ := h
  have := align_band h1 h40 ha
  omega

theorem exists_alignCentre_iff {r c : Nat} : (∃ q ∈ alignCentres v, ringOf q.1 q.2 r c ≤ 2) ↔ InAlign v r c := by
  simp only [ringOf_le_iff, Prod.exists, mem_alignCentres_iff h1 h40]
  constructor
  · rintro ⟨a, b, ⟨ha, hb, hcorner⟩, hr, hc⟩
    have hbandA := align_band h1 h40 ha
    have hbandB := align_band h1 h40 hb
    refine ⟨⟨a, ha, hr⟩, ⟨b, hb, hc⟩, ?_⟩
    omega
  · rintro ⟨⟨a, ha, hr⟩, ⟨b, hb, hc⟩, hcorner⟩
    exact ⟨a, b, ⟨ha, hb, by omega⟩, hr, hc⟩

theorem alignCentre_unique {r c : Nat} {p q : Nat × Nat} (hp : p ∈ alignCentres v) (hq : q ∈ alignCentres v)
    (hpn : ringOf p.1 p.2 r c ≤ 2) (hqn : ringOf q.1 q.2 r c ≤ 2) : p = q := by
  obtain ⟨hpa, hpb, _⟩ := (mem_alignCentres_iff h1 h40).mp hp
  obtain ⟨hqa, hqb, _⟩ := (mem_alignCentres_iff h1 h40).mp hq
  rw [ringOf_le_iff] at hpn hqn
  have := align_apart h1 h40 hpa hqa
  have := align_apart h1 h40 hpb hqb
  exact Prod.ext (by omega) (by omega)

end

/-! ### The patterns of a cell (R251 to R254) -/

/-- The cell lies in a finder or its separator (R251). -/
abbrev InFinder (v r c : Nat) : Prop := r ≤ 7 ∧ c ≤ 7 ∨ r ≤ 7 ∧ 9 + 4 * v ≤ c ∨ 9 + 4 * v ≤ r ∧ c ≤ 7

/-- The cell is the dark module (R254). -/
abbrev IsDarkModule (v r c : Nat) : Prop := r = 9 + 4 * v ∧ c = 8

/-- The cell is one that step 6 or step 7 reserves: row 8 and column 8 at the finders, and for v ≥ 7 the two blocks of
the version word (R254). -/
abbrev InZone (v r c : Nat) : Prop :=
  r = 8 ∧ (c ≤ 8 ∨ 9 + 4 * v ≤ c) ∨ c = 8 ∧ (r ≤ 8 ∨ 10 + 4 * v ≤ r) ∨
    7 ≤ v ∧ (r < 6 ∧ 6 + 4 * v ≤ c ∨ c < 6 ∧ 6 + 4 * v ≤ r)

/-- The cell is set by a pattern: finder, alignment, timing or the dark module (R251 to R254). -/
def InPattern (v r c : Nat) : Prop := InFinder v r c ∨ InAlign v r c ∨ (r = 6 ∨ c = 6) ∨ IsDarkModule v r c

/-- The first alignment centre whose pattern covers the cell. -/
def centreAt (v r c : Nat) : Option (Nat × Nat) := (alignCentres v).find? fun q => decide (ringOf q.1 q.2 r c ≤ 2)

@[simp] theorem marked_res (x : Bool) : (marked x).res = true := rfl

theorem marked_mod_ne_unset (x : Bool) : (marked x).mod ≠ .unset := by cases x <;> decide

section
variable {v r c : Nat}

theorem scaffoldSpec_of_centre {q : Nat × Nat} (hf : ¬ InFinder v r c) (hq : centreAt v r c = some q) :
    scaffoldSpec v r c = marked (decide (ringOf q.1 q.2 r c ≠ 1)) := by
  unfold centreAt at hq
  simp only [scaffoldSpec, ← ringOf_eq_max_natAbs, hq]
  rw [if_neg (by omega), if_neg (by omega), if_neg (by omega)]

/-- Outside the finders and the alignment patterns. -/
theorem scaffoldSpec_of_centreAt_none (hf : ¬ InFinder v r c) (hq : centreAt v r c = none) :
    scaffoldSpec v r c =
      if r = 6 then marked (decide (c % 2 = 0)) else if c = 6 then marked (decide (r % 2 = 0))
      else if IsDarkModule v r c then marked true else ⟨.unset, decide (InZone v r c)⟩ := by
  unfold centreAt at hq
  simp only [scaffoldSpec, ← ringOf_eq_max_natAbs, hq]
  rw [if_neg (by omega), if_neg (by omega), if_neg (by omega)]
  split_ifs <;> grind

theorem finderCell_of_near {r0 c0 : Nat} (h : ringOf r0 c0 r c ≤ 4) (x : Cell) :
    finderCell r0 c0 r c x = marked (decide (ringOf r0 c0 r c ≤ 1 ∨ ringOf r0 c0 r c = 3)) := if_pos h

theorem finderCell_of_far {r0 c0 : Nat} (h : ¬ ringOf r0 c0 r c ≤ 4) (x : Cell) : finderCell r0 c0 r c x = x :=
  if_neg h

theorem finderStep_of_not_inFinder (hf : ¬ InFinder v r c) (x : Cell) : finderStep (17 + 4 * v) r c x = x := by
  rw [finderStep, finderCell_of_far, finderCell_of_far, finderCell_of_far] <;> rw [ringOf_le_iff] <;> omega

/-- Step 2 sets every cell of the finders, whatever it held: a cell lies in one finder only. -/
theorem finderStep_of_inFinder (h1 : 1 ≤ v) (hr : r < 17 + 4 * v) (hc : c < 17 + 4 * v) (hf : InFinder v r c)
    (x : Cell) : finderStep (17 + 4 * v) r c x = scaffoldSpec v r c := by
  simp only [finderStep, scaffoldSpec, ← ringOf_eq_max_natAbs]
  obtain ⟨hr7, hc7⟩ | ⟨hr7, hc7⟩ | ⟨hr7, hc7⟩ := hf
  · rw [if_pos ⟨hr7, hc7⟩, finderCell_of_far, finderCell_of_far, finderCell_of_near] <;> rw [ringOf_le_iff] <;> omega
  · rw [if_neg (by omega), if_pos (by omega), finderCell_of_far, finderCell_of_near] <;> rw [ringOf_le_iff] <;> omega
  · rw [if_neg (by omega), if_neg (by omega), if_pos (by omega), finderCell_of_near]
    rw [ringOf_le_iff]
    omega

theorem scaffoldSpec_of_inFinder (h1 : 1 ≤ v) (hr : r < 17 + 4 * v) (hc : c < 17 + 4 * v) (hf : InFinder v r c) :
    ∃ x, scaffoldSpec v r c = marked x := by
  unfold scaffoldSpec
  obtain hf | hf | hf := hf
  · exact ⟨_, if_pos hf⟩
  · exact ⟨_, (if_neg (by omega)).trans (if_pos (by omega))⟩
  · exact ⟨_, (if_neg (by omega)).trans ((if_neg (by omega)).trans (if_pos (by omega)))⟩

/-! ### The model's steps on one cell -/

theorem timingStep_of_res {x : Cell} (h : x.res = true) : timingStep r c x = x := if_pos h

theorem timingStep_blank : timingStep r c Cell.blank =
    if r = 6 then marked (decide (c % 2 = 0)) else if c = 6 then marked (decide (r % 2 = 0)) else Cell.blank := rfl

theorem darkStep_eq (x : Cell) : darkStep v r c x = if IsDarkModule v r c then marked true else x := by
  rw [darkStep, Nat.add_comm (4 * v) 9]

theorem zoneStep_of_res {n : Nat} {x : Cell} (h : x.res = true) : zoneStep v n r c x = x := by
  rw [zoneStep, reserved, ← h]
  exact ite_self x

theorem zoneStep_blank (hr : r < 17 + 4 * v) (hc : c < 17 + 4 * v) (h6 : r ≠ 6) (h6' : c ≠ 6)
    (hf : ¬ InFinder v r c) : zoneStep v (17 + 4 * v) r c Cell.blank = ⟨.unset, decide (InZone v r c)⟩ := by
  have hzone : (inFormatZone (17 + 4 * v) r c || (decide (7 ≤ v) && inVersionZone (17 + 4 * v) r c)) =
      decide (InZone v r c) := by
    simp only [inFormatZone, inVersionZone, ← Bool.decide_or, ← Bool.decide_and]
    exact decide_eq_decide.mpr (by omega)
  rw [zoneStep, hzone]
  by_cases h : InZone v r c
  · rw [if_pos (decide_eq_true h), decide_eq_true h]; rfl
  · rw [if_neg (by simpa using h), decide_eq_false h]; rfl

theorem alignStep_of_none {cs : List (Nat × Nat)} (hn : ∀ p ∈ cs, ¬ ringOf p.1 p.2 r c ≤ 2) (x : Cell) :
    alignStep cs r c x = x := by
  unfold alignStep
  induction cs with
  | nil => rfl
  | cons p cs ih =>
    rw [List.foldl_cons, alignCell, if_neg (hn p List.mem_cons_self)]
    exact ih fun p hp => hn p (List.mem_cons_of_mem _ hp)

/-- Step 4 draws the pattern of the one centre near the cell. -/
theorem alignStep_of_unique {cs : List (Nat × Nat)} {q : Nat × Nat} (hq : q ∈ cs) (hn : ringOf q.1 q.2 r c ≤ 2)
    (hu : ∀ p ∈ cs, ringOf p.1 p.2 r c ≤ 2 → p = q) (x : Cell) :
    alignStep cs r c x = marked (decide (ringOf q.1 q.2 r c ≠ 1)) := by
  induction cs generalizing x with
  | nil => cases hq
  | cons p cs ih =>
    by_cases hmem : q ∈ cs
    · exact ih hmem (fun p' hp' => hu p' (List.mem_cons_of_mem _ hp')) _
    · obtain rfl := (List.mem_cons.mp hq).resolve_right hmem
      refine (alignStep_of_none (cs := cs) (fun p' hp' hn' => hmem ?_) _).trans (if_pos hn)
      exact hu p' (List.mem_cons_of_mem _ hp') hn' ▸ hp'

theorem centreAt_eq_some {q : Nat × Nat} (h : centreAt v r c = some q) :
    q ∈ alignCentres v ∧ ringOf q.1 q.2 r c ≤ 2 :=
  ⟨List.mem_of_find?_eq_some h, of_decide_eq_true (List.find?_some h :)⟩

theorem centreAt_eq_none (h : centreAt v r c = none) : ∀ q ∈ alignCentres v, ¬ ringOf q.1 q.2 r c ≤ 2 :=
  fun q hq hn => List.find?_eq_none.mp h q hq (decide_eq_true hn)

end

section
variable {v r c : Nat} (h1 : 1 ≤ v) (h40 : v ≤ 40)
include h1 h40

theorem centreAt_eq_none_iff : centreAt v r c = none ↔ ¬ InAlign v r c := by
  rw [← exists_alignCentre_iff h1 h40, centreAt, List.find?_eq_none]
  simp only [decide_eq_true_eq, not_exists, not_and]

/-- The alignment patterns lie beside the finders, the dark module and the zones. -/
theorem InAlign.beside (h : InAlign v r c) :
    ¬ InFinder v r c ∧ ¬ IsDarkModule v r c ∧ (InZone v r c → r = 6 ∨ c = 6) := by
  obtain ⟨hr, hc, hcorner⟩ := h
  have hr := hr.band h1 h40
  have hc := hc.band h1 h40
  unfold InFinder IsDarkModule InZone
  omega

theorem scaffoldSpec_of_inPattern (hr : r < 17 + 4 * v) (hc : c < 17 + 4 * v) (h : InPattern v r c) :
    ∃ x, scaffoldSpec v r c = marked x := by
  by_cases hf : InFinder v r c
  · exact scaffoldSpec_of_inFinder h1 hr hc hf
  cases hq : centreAt v r c with
  | some q => exact ⟨_, scaffoldSpec_of_centre hf hq⟩
  | none =>
    have ha := (centreAt_eq_none_iff h1 h40).mp hq
    rw [scaffoldSpec_of_centreAt_none hf hq]
    obtain h6 | hd := (h.resolve_left hf).resolve_left ha
    · split_ifs
      · exact ⟨_, rfl⟩
      · exact ⟨_, rfl⟩
      · omega
      · omega
    · rw [if_pos hd]
      split_ifs <;> exact ⟨_, rfl⟩

theorem scaffoldSpec_of_not_inPattern (h : ¬ InPattern v r c) :
    scaffoldSpec v r c = ⟨.unset, decide (InZone v r c)⟩ := by
  simp only [InPattern, not_or] at h
  obtain ⟨hf, ha, ⟨hr, hc⟩, hd⟩ := h
  rw [scaffoldSpec_of_centreAt_none (by omega) ((centreAt_eq_none_iff h1 h40).mpr ha), if_neg hr, if_neg hc, if_neg hd]

/-- Every cell of the scaffold that the model builds (R251 to R254). -/
theorem cellAt_scaffoldGrid (hr : r < 17 + 4 * v) (hc : c < 17 + 4 * v) :
    cellAt (scaffoldGrid v) r c = scaffoldSpec v r c := by
  have hcell : cellAt (scaffoldGrid v) r c = zoneStep v (17 + 4 * v) r c (darkStep v r c
      (alignStep (alignCentres v) r c (timingStep r c (finderStep (17 + 4 * v) r c Cell.blank)))) := by
    rw [← cellAt_blankGrid hr hc]
    exact cellAt_mapGrid (isSquare_blankGrid _) _ hr hc
  rw [hcell, darkStep_eq]
  by_cases hf : InFinder v r c
  · obtain ⟨x, hx⟩ := scaffoldSpec_of_inFinder h1 hr hc hf
    have ha : ¬ InAlign v r c := fun ha => by
      obtain ⟨hnot, -, -⟩ := ha.beside h1 h40
      exact hnot hf
    rw [finderStep_of_inFinder h1 hr hc hf, hx, timingStep_of_res rfl,
      alignStep_of_none (centreAt_eq_none ((centreAt_eq_none_iff h1 h40).mpr ha)), if_neg (by omega),
      zoneStep_of_res rfl]
  rw [finderStep_of_not_inFinder hf, timingStep_blank]
  cases hq : centreAt v r c with
  | some q =>
    obtain ⟨hmem, hn⟩ := centreAt_eq_some hq
    obtain ⟨-, hd, -⟩ := ((exists_alignCentre_iff h1 h40).mp ⟨q, hmem, hn⟩).beside h1 h40
    rw [scaffoldSpec_of_centre hf hq, if_neg hd, zoneStep_of_res] <;>
      rw [alignStep_of_unique hmem hn fun p hp hpn => alignCentre_unique h1 h40 hp hmem hpn hn]
    rfl
  | none =>
    rw [scaffoldSpec_of_centreAt_none hf hq, alignStep_of_none (centreAt_eq_none hq)]
    split_ifs
    · omega
    · omega
    · exact zoneStep_of_res rfl
    · exact zoneStep_of_res rfl
    · exact zoneStep_of_res rfl
    · exact zoneStep_blank hr hc ‹_› ‹_› hf

end

/-! ### What the command answers -/

/-- Settles O45: each step of the model either sets the cell or leaves it, and the alignment patterns meet neither each
other nor the finders, so that the order of the steps is the order of the statement. -/
theorem scaffoldWritesEveryPattern : Obligations.ScaffoldWritesEveryPattern := by
  intro s hs v n
  refine ⟨fun hv => hs.raises (e := .range v 1) (if_pos (badVersion_eq_true.mpr hv)), fun h1 h40 => ?_⟩
  have hg : IsSquare n (scaffoldGrid v) := isSquare_scaffoldGrid v
  have hrule : ruleOf .scaffold s.snapshot = .ok {
      res := [natWord n, natWord (countCells (fun y => !y.res) (scaffoldGrid v))]
      mver := some (BitVec.ofNat 6 v)
      mem := gridWrites (fun _ _ => true) 0 (scaffoldGrid v) } := if_neg (not_badVersion h1 h40)
  have hcount : countCells (fun y => !y.res) (scaffoldGrid v) = cellCount n fun r c => !(scaffoldSpec v r c).res :=
    (countCells_eq_cellCount hg _).trans
      (cellCount_congr fun r c hr hc => by rw [cellAt_scaffoldGrid h1 h40 hr hc])
  rw [hcount] at hrule
  refine ⟨s.completeOk _, by rw [hs.exec_eq, hrule, State.finish_ok], completed_completeOk s _, ?_, rfl, rfl,
    resHolds_completeOk s _, fun r c hr hc => ?_, fun a ha => ?_⟩
  · rw [State.completeOk_mver, Option.getD_some, BitVec.ofNat_toNat, BitVec.setWidth_eq]
  · rw [State.completeOk_mem, memCell_gridWrites hs.mem_wf hg (symbolSize_le h40) hr hc, if_pos rfl,
      cellAt_scaffoldGrid h1 h40 hr hc]
  · refine readByte_writeBytes_other hs.mem_wf fun hmem => ha ?_
    obtain ⟨r, c, hr, hc, _, rfl⟩ := (mem_map_fst_gridWrites_iff hg).mp hmem
    exact ⟨r, c, hr, hc, rfl⟩

end Sys2Proof.Machine

/-! The laws of the scaffold (R256): which reserved cells are UNSET, and how many cells are left for the codewords. -/

namespace Sys2Proof.Machine

/-! ### The reserved cells that are UNSET (R256) -/

theorem mem_fmt1_iff {r c : Nat} : (r, c) ∈ fmt1 ↔ r = 8 ∧ c ≤ 8 ∧ c ≠ 6 ∨ c = 8 ∧ r ≤ 8 ∧ r ≠ 6 := by
  have cells : ∀ q ∈ fmt1, q.1 = 8 ∧ q.2 ≤ 8 ∧ q.2 ≠ 6 ∨ q.2 = 8 ∧ q.1 ≤ 8 ∧ q.1 ≠ 6 := by decide
  have arms : ∀ k < 9, k ≠ 6 → (8, k) ∈ fmt1 ∧ (k, 8) ∈ fmt1 := by decide
  refine ⟨cells (r, c), ?_⟩
  rintro (⟨rfl, hc, h6⟩ | ⟨rfl, hr, h6⟩)
  · exact (arms c (by omega) h6).1
  · exact (arms r (by omega) h6).2

section
variable {v r c : Nat} (hr : r < 17 + 4 * v) (hc : c < 17 + 4 * v)
include hr hc

theorem mem_fmt2_iff :
    (r, c) ∈ fmt2 (17 + 4 * v) ↔ r = 8 ∧ 9 + 4 * v ≤ c ∨ c = 8 ∧ 10 + 4 * v ≤ r := by
  have hlist : fmt2 (17 + 4 * v) = (List.range 7).map (fun k => (17 + 4 * v - (k + 1), 8)) ++
      (List.range 8).map fun k => (8, 17 + 4 * v - (8 - k)) := rfl
  simp only [hlist, List.mem_append, List.mem_map, List.mem_range, Prod.mk.injEq]
  constructor
  · rintro (⟨k, hk, hrow, hcol⟩ | ⟨k, hk, hrow, hcol⟩) <;> omega
  · rintro (⟨hrow, hcol⟩ | ⟨hcol, hrow⟩)
    · exact .inr ⟨c - (9 + 4 * v), by omega, hrow.symm, by omega⟩
    · exact .inl ⟨16 + 4 * v - r, by omega, by omega, hcol.symm⟩

theorem isSome_formatBitAt_iff : (formatBitAt (17 + 4 * v) r c).isSome = true ↔
    r = 8 ∧ (c ≤ 8 ∨ 9 + 4 * v ≤ c) ∧ c ≠ 6 ∨ c = 8 ∧ (r ≤ 8 ∨ 10 + 4 * v ≤ r) ∧ r ≠ 6 := by
  rw [← isFormatCell_eq, isFormatCell, Bool.or_eq_true, List.contains_iff_mem, List.contains_iff_mem, mem_fmt1_iff,
    mem_fmt2_iff hr hc]
  omega

theorem isSome_versionBitAt_iff : (versionBitAt (17 + 4 * v) r c).isSome = true ↔
    r < 6 ∧ 6 + 4 * v ≤ c ∧ c < 9 + 4 * v ∨ c < 6 ∧ 6 + 4 * v ≤ r ∧ r < 9 + 4 * v := by
  unfold versionBitAt
  split_ifs
  · exact iff_of_true rfl (by omega)
  · exact iff_of_true rfl (by omega)
  · exact iff_of_false (by simp) (by omega)

/-- The cells of the format word, and for v ≥ 7 of the version word, are the zone cells that no pattern sets. -/
theorem zone_without_pattern_iff (h1 : 1 ≤ v) (h40 : v ≤ 40) : InZone v r c ∧ ¬ InPattern v r c ↔
    (formatBitAt (17 + 4 * v) r c).isSome = true ∨ 7 ≤ v ∧ (versionBitAt (17 + 4 * v) r c).isSome = true := by
  rw [isSome_formatBitAt_iff hr hc, isSome_versionBitAt_iff hr hc]
  constructor
  · rintro ⟨hzone, hpat⟩
    simp only [InPattern, not_or] at hpat
    obtain ⟨hf, -, h6, hd⟩ := hpat
    obtain ⟨rfl, hcol⟩ | ⟨rfl, hrow⟩ | ⟨hv, hblock⟩ := hzone
    · exact .inl (.inl ⟨rfl, hcol, h6.2⟩)
    · exact .inl (.inr ⟨rfl, hrow, h6.1⟩)
    · exact .inr ⟨hv, by omega⟩
  · intro hbit
    have hzone : InZone v r c := by omega
    refine ⟨hzone, ?_⟩
    rintro (hf | ha | h6 | hd)
    · omega
    · obtain ⟨-, -, htiming⟩ := ha.beside h1 h40
      have := htiming hzone
      omega
    · omega
    · omega

end

/-! ### How many cells the scaffold leaves unreserved (R256)

Between its first nine and its last eleven rows and columns a symbol from version 2 on has only two kinds of row and of
column: those that alignment patterns cover, and those that none covers. With each kind drawn together into one row and
one column, all such symbols are one square of 22 rows and columns (two squares, since the version word is reserved from
version 7 on), and its cells are counted with the multiplicity of their rows and columns. -/

/-- The reservation of a cell, from the rows and columns that the alignment patterns cover, whether there is a version
word, and the first of the last eleven rows and columns, `h`. -/
def reservedAt (near : Nat → Bool) (versioned : Bool) (h r c : Nat) : Bool :=
  decide (r ≤ 7 ∧ c ≤ 7 ∨ r ≤ 7 ∧ h + 3 ≤ c ∨ h + 3 ≤ r ∧ c ≤ 7) ||
  (near r && near c && !decide (r ≤ 8 ∧ c ≤ 8 ∨ r ≤ 8 ∧ h + 2 ≤ c ∨ h + 2 ≤ r ∧ c ≤ 8)) ||
  decide (r = 6 ∨ c = 6) || decide (r = h + 3 ∧ c = 8) ||
  decide (r = 8 ∧ (c ≤ 8 ∨ h + 3 ≤ c) ∨ c = 8 ∧ (r ≤ 8 ∨ h + 4 ≤ r)) ||
  (versioned && decide (r ≤ 5 ∧ h ≤ c ∨ c ≤ 5 ∧ h ≤ r))

/-- The place of a row or column in the squeezed square: 9 for the middle ones that no alignment pattern covers, 10 for
the other middle ones. -/
def squeeze (v x : Nat) : Nat :=
  if x < 9 then x else if 6 + 4 * v ≤ x then x + 5 - 4 * v else if NearAlign v x then 10 else 9

/-- The rows and columns of the squeezed square that alignment patterns cover. -/
def nearSqueezed (p : Nat) : Bool := decide (4 ≤ p ∧ p ≤ 8 ∨ p = 10 ∨ 13 ≤ p ∧ p ≤ 17)

/-- 1 for an unreserved cell of the squeezed square. -/
def squeezedFree (versioned : Bool) (p q : Nat) : Nat := if reservedAt nearSqueezed versioned 11 p q then 0 else 1

/-- The middle rows, numbered from the ninth on, that the alignment patterns cover. -/
def covered (v : Nat) : Finset Nat := (Finset.range (4 * v - 3)).filter fun j => NearAlign v (9 + j)

/-- The alignment coordinates but the first and the last. -/
def innerAlign (v : Nat) : Finset Nat := ((align v).filter fun a => decide (16 ≤ a ∧ a ≤ 4 * v)).toFinset

/-- A sum over the squeezed rows that stand for themselves. -/
def outerSum (f : Nat → Nat) : Nat := ∑ p ∈ Finset.range 9, f p + ∑ j ∈ Finset.range 11, f (11 + j)

/-- A sum over the squeezed rows with their multiplicities, `m` for row 9 and `k` for row 10. -/
def squeezedSum (m k : Nat) (f : Nat → Nat) : Nat := m * f 9 + k * f 10 + outerSum f

theorem outerSum_linear (m k : Nat) (f g h : Nat → Nat) : outerSum (fun p => m * f p + k * g p + h p) =
    m * outerSum f + k * outerSum g + outerSum h := by
  simp only [outerSum, Finset.sum_add_distrib, ← Finset.mul_sum]
  ring

theorem squeeze_eq_iff {v x k : Nat} (hk : k ≤ 8) : squeeze v x = k ↔ x = k := by
  unfold squeeze
  split_ifs <;> omega

section
variable {v : Nat} (h1 : 1 ≤ v)
include h1

theorem squeeze_le_iff {x k : Nat} (hk : k ≤ 8) : squeeze v x ≤ k ↔ x ≤ k := by
  unfold squeeze
  split_ifs <;> omega

theorem le_squeeze_iff {x k : Nat} : 11 + k ≤ squeeze v x ↔ 6 + 4 * v + k ≤ x := by
  unfold squeeze
  split_ifs <;> omega

theorem squeeze_eq_add_iff {x k : Nat} : squeeze v x = 11 + k ↔ x = 6 + 4 * v + k := by
  unfold squeeze
  split_ifs <;> omega

/-- A sum over the rows of a symbol, where the summand depends on the squeezed row alone. -/
theorem sum_squeeze (f : Nat → Nat) : ∑ x ∈ Finset.range (17 + 4 * v), f (squeeze v x) =
    squeezedSum (4 * v - 3 - (covered v).card) (covered v).card f := by
  have hmid : ∑ j ∈ Finset.range (4 * v - 3), f (squeeze v (9 + j)) =
      (covered v).card * f 10 + (4 * v - 3 - (covered v).card) * f 9 := by
    have hplace : ∀ j ∈ Finset.range (4 * v - 3),
        f (squeeze v (9 + j)) = if NearAlign v (9 + j) then f 10 else f 9 := by
      intro j hj
      have := Finset.mem_range.mp hj
      rw [squeeze, if_neg (by omega), if_neg (by omega), apply_ite f]
    have hcard := (Finset.range (4 * v - 3)).card_filter_add_card_filter_not fun j => NearAlign v (9 + j)
    rw [Finset.card_range] at hcard
    rw [Finset.sum_congr rfl hplace, Finset.sum_ite, Finset.sum_const, Finset.sum_const, smul_eq_mul, smul_eq_mul,
      covered, ← Nat.eq_sub_of_add_eq' hcard]
  have hlow : ∑ x ∈ Finset.range 9, f (squeeze v x) = ∑ p ∈ Finset.range 9, f p :=
    Finset.sum_congr rfl fun x hx => by rw [squeeze, if_pos (Finset.mem_range.mp hx)]
  have hhigh : ∑ j ∈ Finset.range 11, f (squeeze v (9 + (4 * v - 3 + j))) = ∑ j ∈ Finset.range 11, f (11 + j) :=
    Finset.sum_congr rfl fun j hj => by rw [squeeze_eq_add_iff h1 (k := j) |>.mpr (by omega)]
  rw [show 17 + 4 * v = 9 + (4 * v - 3 + 11) by omega, Finset.sum_range_add, Finset.sum_range_add, hlow, hmid,
    hhigh, squeezedSum, outerSum]
  ring

end

/-- The patterns round the inner coordinates cover five rows each. -/
theorem card_covered {v : Nat} (h1 : 1 ≤ v) (h40 : v ≤ 40) : (covered v).card = (innerAlign v).card * 5 := by
  have hmem : ∀ a, a ∈ innerAlign v ↔ a ∈ align v ∧ 16 ≤ a ∧ a ≤ 4 * v := by simp [innerAlign]
  have hunion : covered v = (innerAlign v).biUnion fun a => Finset.Icc (a - 11) (a - 7) := by
    ext j
    simp only [covered, Finset.mem_filter, Finset.mem_range, Finset.mem_biUnion, Finset.mem_Icc, hmem]
    constructor
    · rintro ⟨hj, a, ha, hlow, hhigh⟩
      have := align_band h1 h40 ha
      exact ⟨a, ⟨ha, by omega⟩, by omega⟩
    · rintro ⟨a, ⟨ha, hlow, hhigh⟩, hj⟩
      exact ⟨by omega, a, ha, by omega⟩
  rw [hunion, Finset.card_biUnion]
  · refine Finset.sum_const_nat fun a ha => ?_
    have := (hmem a).mp ha
    rw [Nat.card_Icc]
    omega
  · intro a ha b hb hne
    have := align_apart h1 h40 ((hmem a).mp ha).1 ((hmem b).mp hb).1
    have := (hmem a).mp ha
    have := (hmem b).mp hb
    refine Finset.disjoint_left.mpr fun j hja hjb => ?_
    rw [Finset.mem_Icc] at hja hjb
    omega

section
variable {v : Nat} (h2 : 2 ≤ v) (h40 : v ≤ 40)
include h2 h40

theorem nearAlign_ends : NearAlign v x ↔ 4 ≤ x ∧ x ≤ 8 ∨ 8 + 4 * v ≤ x ∧ x ≤ 12 + 4 * v ∨
    9 ≤ x ∧ x < 6 + 4 * v ∧ NearAlign v x := by
  have table : ∀ v < 41, 2 ≤ v → 6 ∈ align v ∧ 10 + 4 * v ∈ align v := by decide +kernel
  obtain ⟨h6, hlast⟩ := table v (by omega) h2
  constructor
  · intro h
    obtain hx | hx | ⟨hlow, hhigh⟩ := h.band (by omega) h40
    · exact .inl hx
    · exact .inr (.inl hx)
    · exact .inr (.inr ⟨by omega, by omega, h⟩)
  · rintro (hx | hx | ⟨-, -, hx⟩)
    · exact ⟨6, h6, by omega⟩
    · exact ⟨_, hlast, by omega⟩
    · exact hx

theorem nearSqueezed_squeeze (x : Nat) : nearSqueezed (squeeze v x) = decide (NearAlign v x) := by
  have hends := nearAlign_ends h2 h40 (x := x)
  refine decide_eq_decide.mpr ?_
  unfold squeeze
  split_ifs with hlow hhigh hnear
  · rw [hends]
    omega
  · rw [hends]
    omega
  · exact iff_of_true (by omega) hnear
  · exact iff_of_false (by omega) hnear

/-- A cell is reserved where its place in the squeezed square is: `reservedAt` compares a row or a column only with
places before the ninth and with places from `h` on. -/
theorem reservedAt_squeeze (versioned : Bool) (r c : Nat) :
    reservedAt nearSqueezed versioned 11 (squeeze v r) (squeeze v c) =
      reservedAt (fun x => decide (NearAlign v x)) versioned (6 + 4 * v) r c := by
  have h1 : 1 ≤ v := by omega
  -- The simproc would turn `11 + 3` into 14, which `le_squeeze_iff` does not match.
  have h11 : ∀ x, 11 ≤ squeeze v x ↔ 6 + 4 * v ≤ x := fun x => le_squeeze_iff h1 (k := 0)
  simp only [-Nat.reduceAdd, reservedAt, squeeze_le_iff h1, squeeze_eq_iff, le_squeeze_iff h1, squeeze_eq_add_iff h1,
    nearSqueezed_squeeze h2 h40, h11, Nat.reduceLeDiff]

theorem scaffoldSpec_res {r c : Nat} (hr : r < 17 + 4 * v) (hc : c < 17 + 4 * v) :
    (scaffoldSpec v r c).res = reservedAt (fun x => decide (NearAlign v x)) (decide (7 ≤ v)) (6 + 4 * v) r c := by
  have hiff : reservedAt (fun x => decide (NearAlign v x)) (decide (7 ≤ v)) (6 + 4 * v) r c = true ↔
      InPattern v r c ∨ InZone v r c := by
    unfold reservedAt InPattern InAlign
    grind
  by_cases hp : InPattern v r c
  · obtain ⟨x, hx⟩ := scaffoldSpec_of_inPattern (by omega) h40 hr hc hp
    rw [hx, hiff.mpr (.inl hp), marked_res]
  · rw [scaffoldSpec_of_not_inPattern (by omega) h40 hp, Bool.eq_iff_iff, hiff, decide_eq_true_iff, or_iff_right hp]

theorem cellCount_scaffoldSpec_eq_sum : cellCount (17 + 4 * v) (fun r c => !(scaffoldSpec v r c).res) =
    ∑ r ∈ Finset.range (17 + 4 * v), ∑ c ∈ Finset.range (17 + 4 * v),
      squeezedFree (decide (7 ≤ v)) (squeeze v r) (squeeze v c) := by
  refine Finset.sum_congr rfl fun r hr => Finset.sum_congr rfl fun c hc => ?_
  rw [squeezedFree, reservedAt_squeeze h2 h40,
    ← scaffoldSpec_res h2 h40 (Finset.mem_range.mp hr) (Finset.mem_range.mp hc)]
  by_cases h : (scaffoldSpec v r c).res = true
  · simp [h]
  · simp [h]

end

/-- The unreserved cells of the squeezed square, by row and column. -/
theorem squeezedFree_table (versioned : Bool) :
    (squeezedFree versioned 9 9 = 1 ∧ squeezedFree versioned 9 10 = 1 ∧ outerSum (squeezedFree versioned 9) = 19) ∧
    (squeezedFree versioned 10 9 = 1 ∧ squeezedFree versioned 10 10 = 0 ∧ outerSum (squeezedFree versioned 10) = 10) ∧
    outerSum (fun p => squeezedFree versioned p 9) = 19 ∧ outerSum (fun p => squeezedFree versioned p 10) = 10 ∧
    outerSum (fun p => outerSum (squeezedFree versioned p)) = if versioned then 108 else 144 := by
  cases versioned <;> decide +kernel

/-- The number of unreserved cells, from the numbers `m` and `k` of middle rows that no pattern and that a pattern
covers. -/
def freeCells (versioned : Bool) (m k : Nat) : Nat :=
  m * (m + k + 19) + k * (m + 10) + (m * 19 + k * 10 + if versioned then 108 else 144)

theorem squeezedSum_squeezedFree (versioned : Bool) (m k : Nat) :
    squeezedSum m k (fun p => squeezedSum m k (squeezedFree versioned p)) = freeCells versioned m k := by
  obtain ⟨⟨h99, h9k, h9⟩, ⟨hk9, hkk, hk⟩, hcol9, hcolk, houter⟩ := squeezedFree_table versioned
  simp only [squeezedSum, outerSum_linear, h99, h9k, h9, hk9, hkk, hk, hcol9, hcolk, houter, freeCells]
  ring

theorem cellCount_scaffoldSpec {v : Nat} (h2 : 2 ≤ v) (h40 : v ≤ 40) :
    cellCount (17 + 4 * v) (fun r c => !(scaffoldSpec v r c).res) =
      freeCells (decide (7 ≤ v)) (4 * v - 3 - (innerAlign v).card * 5) ((innerAlign v).card * 5) := by
  have h1 : 1 ≤ v := by omega
  rw [← card_covered h1 h40, ← squeezedSum_squeezedFree, cellCount_scaffoldSpec_eq_sum h2 h40]
  simp only [sum_squeeze h1]
  exact sum_squeeze h1 fun p => squeezedSum _ _ (squeezedFree _ p)

/-- Settles O46: the zones that no pattern sets are the cells of the two words, and the unreserved cells are counted in
the squeezed square; version 1, which has no alignment pattern, is counted cell by cell. -/
theorem scaffoldLaws : Obligations.ScaffoldLaws := by
  intro v h1 h40 n
  refine ⟨fun r c hr hc => ?_, ?_⟩
  · rw [← zone_without_pattern_iff hr hc h1 h40]
    by_cases hp : InPattern v r c
    · obtain ⟨x, hx⟩ := scaffoldSpec_of_inPattern h1 h40 hr hc hp
      rw [hx]
      exact ⟨nofun, fun _ => iff_of_false (marked_mod_ne_unset x) fun h => h.2 hp⟩
    · rw [scaffoldSpec_of_not_inPattern h1 h40 hp]
      exact ⟨fun _ => rfl, fun hres => iff_of_true rfl ⟨of_decide_eq_true hres, hp⟩⟩
  · obtain rfl | h2 := h1.eq_or_lt
    · exact ⟨0, by decide, by decide +kernel⟩
    have table : ∀ v < 41, 2 ≤ v → ∃ k ∈ [0, 3, 4, 7],
        freeCells (decide (7 ≤ v)) (4 * v - 3 - (innerAlign v).card * 5) ((innerAlign v).card * 5) =
          8 * totalCw v + k := by
      decide +kernel
    rw [cellCount_scaffoldSpec h2 h40]
    exact table v (by omega) h2

end Sys2Proof.Machine

/-! Placement (R257 to R260): the order of the visits in one formula, that no cell is visited twice and column 6 alone
is missed, and what PLACE makes of the matrix. -/

namespace Sys2Proof.Machine

/-! ### The order of the visits (R257) -/

/-- A run of `w * p` places is `p` runs of `w` places. -/
theorem range_mul_eq_flatMap {α : Type} (f : Nat → α) (w p : Nat) :
    (List.range (w * p)).map f = (List.range p).flatMap fun k => (List.range w).map fun j => f (w * k + j) := by
  induction p with
  | zero => rfl
  | succ p ih => simp [Nat.mul_succ, List.range_add, List.range_succ, List.flatMap_append, ih]

/-- The right column of pair `k` (R257). -/
def rightOf (n k : Nat) : Nat := if 6 < n - 1 - 2 * k then n - 1 - 2 * k else n - 2 - 2 * k

/-- The row of place `j` in pair `k` (R257). -/
def rowOf (n k j : Nat) : Nat := if k % 2 = 0 then n - 1 - j else j

section
variable {n : Nat}

/-- Where a visit goes, from its pair, its place in the pair and its side (R257). -/
theorem visitSpec_eq {k j b : Nat} (hj : j < n) (hb : b < 2) :
    visitSpec n (2 * n * k + (2 * j + b)) = (rowOf n k j, rightOf n k - b) := by
  have hpos : 0 < 2 * n := by omega
  have hpair : (2 * n * k + (2 * j + b)) / (2 * n) = k := by
    rw [Nat.mul_add_div hpos, Nat.div_eq_of_lt (by omega), Nat.add_zero]
  have hplace : (2 * n * k + (2 * j + b)) % (2 * n) = 2 * j + b := by
    rw [Nat.mul_add_mod, Nat.mod_eq_of_lt (by omega)]
  have hside : (2 * n * k + (2 * j + b)) % 2 = b := by
    rw [Nat.mul_assoc]
    omega
  simp only [visitSpec, hpair, hplace, hside]
  rw [show (2 * j + b) / 2 = j by omega, rowOf, rightOf]

theorem rowsOf_eq (k : Nat) : rowsOf n (decide (k % 2 = 0)) = (List.range n).map (rowOf n k) := by
  unfold rowsOf rowOf
  by_cases h : k % 2 = 0
  · simp only [h, decide_true, if_true]
    exact List.ext_getElem (by simp) fun i _ _ => by simp
  · simp [h]

/-- The visits of the pairs from pair `k` on, row by row and right column first. -/
theorem visitPairs_eq (k : Nat) (xs : List Nat) : visitPairs n (decide (k % 2 = 0)) xs =
    (List.range xs.length).flatMap fun i => (List.range n).flatMap fun j =>
      [(rowOf n (k + i) j, xs.getD i 0), (rowOf n (k + i) j, xs.getD i 0 - 1)] := by
  induction xs generalizing k with
  | nil => rfl
  | cons x xs ih =>
    have hup : (!decide (k % 2 = 0)) = decide ((k + 1) % 2 = 0) := by
      rw [← decide_not]
      exact decide_eq_decide.mpr (by omega)
    rw [visitPairs, hup, ih, rowsOf_eq, List.length_cons, List.range_succ_eq_map, List.flatMap_cons,
      List.flatMap_map, List.flatMap_map]
    simp only [List.getD_cons_succ, List.getD_cons_zero, Nat.add_zero, Nat.add_assoc, Nat.add_comm 1,
      Nat.succ_eq_add_one]

/-- Where the walk to the left stands before pair `k` of `p` (R257): one column further left past column 6. -/
def walkAt (p k : Nat) : Nat := if 5 < 2 * p - 2 * k then 2 * p - 2 * k else 2 * p - 1 - 2 * k

/-- The walk visits the right columns of the pairs from `k` on. -/
theorem rightsFrom_eq {p fuel k : Nat} (hfuel : p ≤ fuel + k) :
    rightsFrom fuel (walkAt p k) = (List.range' k (p - k)).map (rightOf (2 * p + 1)) := by
  induction fuel generalizing k with
  | zero =>
    rw [Nat.sub_eq_zero_of_le (by omega)]
    rfl
  | succ fuel ih =>
    rw [rightsFrom]
    by_cases hend : p ≤ k
    · rw [if_pos (by unfold walkAt; split_ifs <;> omega), Nat.sub_eq_zero_of_le hend]
      rfl
    · have hright : (if walkAt p k = 6 then 5 else walkAt p k) = rightOf (2 * p + 1) k := by
        unfold walkAt rightOf
        split_ifs <;> omega
      have hnext : rightOf (2 * p + 1) k - 2 = walkAt p (k + 1) := by
        unfold walkAt rightOf
        split_ifs <;> omega
      rw [if_neg (by unfold walkAt; split_ifs <;> omega), hright]
      dsimp only
      rw [hnext, ih (by omega), show p - k = p - (k + 1) + 1 by omega, List.range'_succ, List.map_cons]

theorem rights_eq {p : Nat} (hp : 3 ≤ p) : rights (2 * p + 1) = (List.range p).map (rightOf (2 * p + 1)) := by
  have hstart : walkAt p 0 = 2 * p + 1 - 1 := if_pos (by omega)
  rw [rights, ← hstart, rightsFrom_eq (by omega), List.range_eq_range', Nat.sub_zero]

/-- The order of the visits, in one formula (R257). -/
theorem order_eq {p : Nat} (hp : 3 ≤ p) :
    order (2 * p + 1) = (List.range (2 * (2 * p + 1) * p)).map (visitSpec (2 * p + 1)) := by
  have hpairs := visitPairs_eq (n := 2 * p + 1) 0 (rights (2 * p + 1))
  rw [range_mul_eq_flatMap, order]
  refine hpairs.trans ?_
  rw [rights_eq hp, List.length_map, List.length_range]
  refine List.flatMap_congr fun k hk => ?_
  have hk' := List.mem_range.mp hk
  rw [range_mul_eq_flatMap (fun j => visitSpec (2 * p + 1) (2 * (2 * p + 1) * k + j))]
  refine List.flatMap_congr fun j hj => ?_
  have hj' := List.mem_range.mp hj
  have hright : ((List.range p).map (rightOf (2 * p + 1))).getD k 0 = rightOf (2 * p + 1) k := by simp [hk']
  have hfirst := visitSpec_eq (k := k) hj' (b := 0) (by decide)
  have hsecond := visitSpec_eq (k := k) hj' (b := 1) (by decide)
  rw [hright, Nat.zero_add]
  exact congrArg₂ (fun a b => [a, b]) hfirst.symm hsecond.symm

end

/-! ### The visits are distinct, and miss column 6 alone (R257) -/

section
variable {p : Nat}

/-- A visit, as its pair, its row and its side. -/
theorem exists_visit {i : Nat} (hi : i < 2 * (2 * p + 1) * p) : ∃ k j b, k < p ∧ j < 2 * p + 1 ∧ b < 2 ∧
    i = 2 * (2 * p + 1) * k + (2 * j + b) ∧
    visitSpec (2 * p + 1) i = (rowOf (2 * p + 1) k j, rightOf (2 * p + 1) k - b) := by
  have hk : i / (2 * (2 * p + 1)) < p := Nat.div_lt_of_lt_mul hi
  have hlt : i % (2 * (2 * p + 1)) < 2 * (2 * p + 1) := Nat.mod_lt _ (by omega)
  have hsplit := Nat.div_add_mod i (2 * (2 * p + 1))
  generalize i / (2 * (2 * p + 1)) = k at *
  generalize i % (2 * (2 * p + 1)) = m at *
  have hj : m / 2 < 2 * p + 1 := by omega
  have hm : 2 * (m / 2) + m % 2 = m := by omega
  have hb : m % 2 < 2 := by omega
  refine ⟨k, m / 2, m % 2, hk, hj, hb, by rw [hm, hsplit], ?_⟩
  rw [← visitSpec_eq hj hb, hm, hsplit]

theorem visitSpec_lt {i : Nat} (hi : i < 2 * (2 * p + 1) * p) :
    (visitSpec (2 * p + 1) i).1 < 2 * p + 1 ∧ (visitSpec (2 * p + 1) i).2 < 2 * p + 1 := by
  obtain ⟨k, j, b, hk, hj, hb, -, hvisit⟩ := exists_visit hi
  rw [hvisit]
  unfold rowOf rightOf
  dsimp only
  constructor <;> split_ifs <;> omega

/-- No cell is visited twice: its column tells the pair and the side, and its row the place in the pair. -/
theorem visitSpec_injOn {i i' : Nat} (hi : i < 2 * (2 * p + 1) * p) (hi' : i' < 2 * (2 * p + 1) * p)
    (h : visitSpec (2 * p + 1) i = visitSpec (2 * p + 1) i') : i = i' := by
  obtain ⟨k, j, b, hk, hj, hb, hdef, hvisit⟩ := exists_visit hi
  obtain ⟨k', j', b', hk', hj', hb', hdef', hvisit'⟩ := exists_visit hi'
  rw [hvisit, hvisit', Prod.mk.injEq] at h
  obtain ⟨hrow, hcol⟩ := h
  have hpair : k = k' ∧ b = b' := by
    unfold rightOf at hcol
    split_ifs at hcol <;> omega
  obtain ⟨rfl, rfl⟩ := hpair
  have hplace : j = j' := by
    unfold rowOf at hrow
    split_ifs at hrow <;> omega
  rw [hdef, hdef', hplace]

/-- Every cell outside column 6 is visited. -/
theorem exists_visitSpec_eq (hp : 3 ≤ p) {r c : Nat} (hr : r < 2 * p + 1) (hc : c < 2 * p + 1) (h6 : c ≠ 6) :
    ∃ i, i < 2 * (2 * p + 1) * p ∧ visitSpec (2 * p + 1) i = (r, c) := by
  have hcol : ∃ k b, k < p ∧ b < 2 ∧ rightOf (2 * p + 1) k - b = c := by
    unfold rightOf
    by_cases hlow : c < 6
    · exact ⟨(2 * p - 1 - c) / 2, (c + 1) % 2, by omega, by omega, by split_ifs <;> omega⟩
    · exact ⟨(2 * p - c) / 2, c % 2, by omega, by omega, by split_ifs <;> omega⟩
  obtain ⟨k, b, hk, hb, hcol⟩ := hcol
  have hrow : ∃ j, j < 2 * p + 1 ∧ rowOf (2 * p + 1) k j = r := by
    unfold rowOf
    by_cases hup : k % 2 = 0
    · exact ⟨2 * p - r, by omega, by rw [if_pos hup]; omega⟩
    · exact ⟨r, hr, if_neg hup⟩
  obtain ⟨j, hj, hrow⟩ := hrow
  refine ⟨2 * (2 * p + 1) * k + (2 * j + b), ?_, by rw [visitSpec_eq hj hb, hrow, hcol]⟩
  have hplace : 2 * j + b < 2 * (2 * p + 1) := by omega
  calc 2 * (2 * p + 1) * k + (2 * j + b) < 2 * (2 * p + 1) * (k + 1) := Nat.add_lt_add_left hplace _
    _ ≤ 2 * (2 * p + 1) * p := Nat.mul_le_mul_left _ hk

end

/-! ### Placement (R258, R259) -/

/-- What a visit to a free cell does: the cell takes the next bit, or LIGHT once the bits are exhausted. -/
def fillCell (p : Placing) (q : Nat × Nat) : Placing :=
  ⟨setCell p.grid q.1 q.2 ⟨moduleOf (p.bits.headD false), false⟩, p.bits.tail, p.placed + min 1 p.bits.length,
    p.zeros + (1 - p.bits.length)⟩

/-- The visited cells that are free in the grid. -/
def freeIn (g : Grid) (cs : List (Nat × Nat)) : List (Nat × Nat) := cs.filter fun q => (cellAt g q.1 q.2).isFree

theorem visit_of_isFree {p : Placing} {r c : Nat} (h : (cellAt p.grid r c).isFree = true) :
    visit p r c = fillCell p (r, c) := by
  obtain ⟨-, hres⟩ := isFree_iff.mp h
  unfold visit fillCell
  rw [if_pos h, hres]
  cases p.bits <;> simp [moduleOf]

theorem visit_of_not_isFree {p : Placing} {r c : Nat} (h : ¬ (cellAt p.grid r c).isFree = true) : visit p r c = p :=
  if_neg h

section
variable {n : Nat}

/-- Every listed cell lies in `[0, n)²`. -/
def Inside (n : Nat) (cs : List (Nat × Nat)) : Prop := ∀ q ∈ cs, q.1 < n ∧ q.2 < n

theorem cellAt_fillCell_other {p : Placing} (hg : IsSquare n p.grid) {q q' : Nat × Nat} (hq : q.1 < n ∧ q.2 < n)
    (hne : q' ≠ q) : cellAt (fillCell p q).grid q'.1 q'.2 = cellAt p.grid q'.1 q'.2 := by
  rw [fillCell, cellAt_setCell hg _ _ _ _ _ hq.1 hq.2, if_neg fun h => hne (Prod.ext h.1 h.2)]

theorem isSquare_fillCell {p : Placing} (hg : IsSquare n p.grid) (q : Nat × Nat) : IsSquare n (fillCell p q).grid :=
  isSquare_setCell hg _ _ _

/-- Where no cell is visited twice, placement fills the cells that are free at its start, in the order of the visits. -/
theorem visitAll_eq_foldl {cs : List (Nat × Nat)} (hin : Inside n cs) (hnodup : cs.Nodup) {p : Placing}
    (hg : IsSquare n p.grid) : visitAll p cs = (freeIn p.grid cs).foldl fillCell p := by
  induction cs generalizing p with
  | nil => rfl
  | cons q cs ih =>
    obtain ⟨hq, hin⟩ := List.forall_mem_cons.mp hin
    obtain ⟨hnot, hnodup⟩ := List.nodup_cons.mp hnodup
    rw [visitAll]
    by_cases hfree : (cellAt p.grid q.1 q.2).isFree = true
    · have hrest : freeIn (fillCell p q).grid cs = freeIn p.grid cs := List.filter_congr fun q' hq' => by
        rw [cellAt_fillCell_other hg hq fun h => hnot (h ▸ hq')]
      rw [visit_of_isFree hfree, ih hin hnodup (isSquare_fillCell hg _), hrest, freeIn, freeIn,
        List.filter_cons, if_pos hfree, List.foldl_cons]
    · rw [visit_of_not_isFree hfree, ih hin hnodup hg, freeIn, freeIn, List.filter_cons, if_neg hfree]

theorem placed_foldl_fillCell (qs : List (Nat × Nat)) (p : Placing) :
    (qs.foldl fillCell p).placed = p.placed + min p.bits.length qs.length := by
  induction qs generalizing p with
  | nil => simp
  | cons q qs ih =>
    rw [List.foldl_cons, ih, List.length_cons]
    simp only [fillCell, List.length_tail]
    omega

theorem zeros_foldl_fillCell (qs : List (Nat × Nat)) (p : Placing) :
    (qs.foldl fillCell p).zeros = p.zeros + (qs.length - p.bits.length) := by
  induction qs generalizing p with
  | nil => simp
  | cons q qs ih =>
    rw [List.foldl_cons, ih, List.length_cons]
    simp only [fillCell, List.length_tail]
    omega

theorem cellAt_foldl_fillCell_other {qs : List (Nat × Nat)} (hin : Inside n qs) {q : Nat × Nat} (hq : q ∉ qs)
    {p : Placing} (hg : IsSquare n p.grid) :
    cellAt (qs.foldl fillCell p).grid q.1 q.2 = cellAt p.grid q.1 q.2 := by
  induction qs generalizing p with
  | nil => rfl
  | cons q' qs ih =>
    obtain ⟨hq', hin⟩ := List.forall_mem_cons.mp hin
    obtain ⟨hne, hnot⟩ := not_or.mp (List.mem_cons.not.mp hq)
    rw [List.foldl_cons, ih hin hnot (isSquare_fillCell hg q'), cellAt_fillCell_other hg hq' hne]

theorem cellAt_foldl_fillCell {qs : List (Nat × Nat)} (hin : Inside n qs) (hnodup : qs.Nodup) {i : Nat} {q : Nat × Nat}
    (hi : qs[i]? = some q) {p : Placing} (hg : IsSquare n p.grid) :
    cellAt (qs.foldl fillCell p).grid q.1 q.2 = ⟨moduleOf ((p.bits[i]?).getD false), false⟩ := by
  induction qs generalizing p i with
  | nil => cases hi
  | cons q' qs ih =>
    obtain ⟨hq', hin⟩ := List.forall_mem_cons.mp hin
    obtain ⟨hnot, hnodup⟩ := List.nodup_cons.mp hnodup
    rw [List.foldl_cons]
    cases i with
    | zero =>
      obtain rfl := Option.some.inj hi
      rw [cellAt_foldl_fillCell_other hin hnot (isSquare_fillCell hg _), fillCell,
        cellAt_setCell hg _ _ _ _ _ hq'.1 hq'.2, if_pos ⟨rfl, rfl⟩]
      cases p.bits <;> rfl
    | succ i =>
      rw [ih hin hnodup hi (isSquare_fillCell hg _), fillCell]
      cases p.bits <;> rfl

end

/-! ### The placement of a symbol -/

/-- The cells in the order of their visits (R257). -/
def visits (n : Nat) : List (Nat × Nat) := (List.range (n * (n - 1))).map (visitSpec n)

section
variable (v : Nat)

theorem visits_symbol : visits (17 + 4 * v) =
    (List.range (2 * (2 * (8 + 2 * v) + 1) * (8 + 2 * v))).map (visitSpec (2 * (8 + 2 * v) + 1)) := by
  rw [visits, show 17 + 4 * v = 2 * (8 + 2 * v) + 1 by omega, Nat.add_sub_cancel, ← Nat.mul_assoc,
    Nat.mul_comm (2 * (8 + 2 * v) + 1) 2]

theorem order_symbol : order (17 + 4 * v) = visits (17 + 4 * v) := by
  rw [visits_symbol, ← order_eq (by omega), show 2 * (8 + 2 * v) + 1 = 17 + 4 * v by omega]

theorem inside_visits : Inside (17 + 4 * v) (visits (17 + 4 * v)) := by
  rw [visits_symbol]
  intro q hq
  obtain ⟨i, hi, rfl⟩ := List.mem_map.mp hq
  have := visitSpec_lt (List.mem_range.mp hi)
  omega

theorem nodup_visits : (visits (17 + 4 * v)).Nodup := by
  rw [visits_symbol]
  exact List.Nodup.map_on (fun i hi j hj h => visitSpec_injOn (List.mem_range.mp hi) (List.mem_range.mp hj) h)
    List.nodup_range

theorem mem_visits {v r c : Nat} (hr : r < 17 + 4 * v) (hc : c < 17 + 4 * v) (h6 : c ≠ 6) :
    (r, c) ∈ visits (17 + 4 * v) := by
  rw [visits_symbol]
  obtain ⟨i, hi, hvisit⟩ := exists_visitSpec_eq (p := 8 + 2 * v) (r := r) (c := c) (by omega) (by omega) (by omega) h6
  exact List.mem_map.mpr ⟨i, List.mem_range.mpr hi, hvisit⟩

theorem mem_freeVisits_iff (m : Memory) {n : Nat} {q : Nat × Nat} :
    q ∈ freeVisits m n ↔ q ∈ visits n ∧ IsFree (memCell m q.1 q.2) := by
  rw [freeVisits, List.mem_filter, decide_eq_true_iff]
  rfl

theorem inside_freeVisits (m : Memory) : Inside (17 + 4 * v) (freeVisits m (17 + 4 * v)) := fun q hq =>
  inside_visits v q ((mem_freeVisits_iff m).mp hq).1

theorem placeInto_eq_foldl (m : Memory) (cw : List Byte) : placeInto (17 + 4 * v) (gridOf m (17 + 4 * v)) cw =
    (freeVisits m (17 + 4 * v)).foldl fillCell ⟨gridOf m (17 + 4 * v), byteBits cw, 0, 0⟩ := by
  have hfree : freeIn (gridOf m (17 + 4 * v)) (visits (17 + 4 * v)) = freeVisits m (17 + 4 * v) :=
    List.filter_congr fun q hq => by
      obtain ⟨hr, hc⟩ := inside_visits v q hq
      rw [cellAt_gridOf m hr hc, Bool.eq_iff_iff, isFree_iff, decide_eq_true_iff]
      rfl
  rw [placeInto, order_symbol, visitAll_eq_foldl (inside_visits v) (nodup_visits v) (isSquare_gridOf _ _), hfree]

end

/-! ### The bits of the codewords (R259) -/

theorem bitsOf_getElem? (x : Nat) {w i : Nat} (hi : i < w) : (bitsOf x w)[i]? = some (x.testBit (w - 1 - i)) := by
  induction w generalizing i with
  | zero => exact absurd hi (Nat.not_lt_zero i)
  | succ w ih =>
    cases i with
    | zero => rfl
    | succ i =>
      rw [bitsOf, List.getElem?_cons_succ, ih (Nat.lt_of_succ_lt_succ hi), Nat.add_sub_cancel, Nat.sub_sub,
        Nat.add_comm 1 i]

/-- The bits of a codeword sequence, most significant first, and none past its end. -/
theorem byteBits_getD (cw : List Byte) (i : Nat) :
    ((byteBits cw)[i]?).getD false = (decide (i < 8 * cw.length) && streamBit cw i) := by
  induction cw generalizing i with
  | nil => simp [byteBits]
  | cons b cw ih =>
    by_cases h8 : i < 8
    · rw [byteBits, List.getElem?_append_left (by simpa using h8), bitsOf_getElem? _ h8, Option.getD_some,
        streamBit_cons_of_lt b cw h8, List.length_cons, decide_eq_true (by omega), Bool.true_and]
    · obtain ⟨j, rfl⟩ := Nat.exists_eq_add_of_le' (Nat.le_of_not_lt h8)
      rw [byteBits, List.getElem?_append_right (by simp), bitsOf_length, Nat.add_sub_cancel, ih, streamBit_cons_add,
        List.length_cons]
      exact congrArg (· && _) (decide_eq_decide.mpr (by omega))

/-! ### The matrix after a placement -/

/-- The memory that PLACE leaves. -/
def placedMem (m : Memory) (n : Nat) (cw : List Byte) : Memory :=
  writeBytes m (gridWrites (fun r c => (cellAt (gridOf m n) r c).isFree) 0 (placeInto n (gridOf m n) cw).grid)

section
variable {m : Memory} (hm : m.wf = true) {v : Nat} (h40 : v ≤ 40) (cw : List Byte) {r c : Nat}
  (hr : r < 17 + 4 * v) (hc : c < 17 + 4 * v)
include hm h40 hr hc

theorem memCell_placedMem_other (hq : (r, c) ∉ freeVisits m (17 + 4 * v)) :
    memCell (placedMem m (17 + 4 * v) cw) r c = memCell m r c := by
  have hg := isSquare_gridOf m (17 + 4 * v)
  rw [placedMem, memCell_gridWrites hm (isSquare_placeInto hg cw) (symbolSize_le h40) hr hc, placeInto_eq_foldl,
    cellAt_foldl_fillCell_other (inside_freeVisits v m) hq hg, cellAt_gridOf m hr hc, ite_self]

theorem memCell_placedMem {i : Nat} (hi : (freeVisits m (17 + 4 * v))[i]? = some (r, c)) :
    memCell (placedMem m (17 + 4 * v) cw) r c =
      ⟨moduleOf (decide (i < 8 * cw.length) && streamBit cw i), false⟩ := by
  have hg := isSquare_gridOf m (17 + 4 * v)
  obtain ⟨-, hfree⟩ := (mem_freeVisits_iff m).mp (List.mem_of_getElem? hi)
  rw [placedMem, memCell_gridWrites hm (isSquare_placeInto hg cw) (symbolSize_le h40) hr hc, cellAt_gridOf m hr hc,
    if_pos (isFree_iff.mpr hfree), placeInto_eq_foldl,
    cellAt_foldl_fillCell (inside_freeVisits v m) ((nodup_visits v).filter _) hi hg, byteBits_getD]

theorem not_isFree_placedMem (h6 : c ≠ 6) : ¬ IsFree (memCell (placedMem m (17 + 4 * v) cw) r c) := by
  by_cases hq : (r, c) ∈ freeVisits m (17 + 4 * v)
  · obtain ⟨i, hi⟩ := List.mem_iff_getElem?.mp hq
    rw [memCell_placedMem hm h40 cw hr hc hi]
    exact fun h => marked_mod_ne_unset _ h.1
  · rw [memCell_placedMem_other hm h40 cw hr hc hq]
    exact fun hfree => hq ((mem_freeVisits_iff m).mpr ⟨mem_visits hr hc h6, hfree⟩)

end

/-- In a legal memory a cell fixes its byte (R41). -/
theorem readByte_cellOffset {m : Memory} (hm : legalMem m = true) {r c : Nat} (hr : r < 177) (hc : c < 177) :
    readByte m (cellOffset r c) = (memCell m r c).toByte := by
  rw [← storedByte_readByte hm, storedByte, if_pos (inMatrix_cellOffset hr hc)]
  rfl

theorem legalMem_placedMem {m : Memory} (hm : legalMem m = true) {v : Nat} (h40 : v ≤ 40) (cw : List Byte) :
    legalMem (placedMem m (17 + 4 * v) cw) = true :=
  legalMem_writeBytes hm fun e he => (mayStore_gridWrites (isSquare_placeInto (isSquare_gridOf _ _) cw)
    (symbolSize_le h40) (mayWrite_matrix (i := .place) (by decide)) e he).legal

/-- PLACE changes the bytes of the visited free cells alone: a free cell of column 6 is stored as it was. -/
theorem readByte_placedMem_other {m : Memory} (hm : legalMem m = true) {v : Nat} (h40 : v ≤ 40) (cw : List Byte)
    {a : Nat} (ha : ¬ ∃ q ∈ freeVisits m (17 + 4 * v), a = cellOffset q.1 q.2) :
    readByte (placedMem m (17 + 4 * v) cw) a = readByte m a := by
  by_cases hstored : a ∈ (gridWrites (fun r c => (cellAt (gridOf m (17 + 4 * v)) r c).isFree) 0
      (placeInto (17 + 4 * v) (gridOf m (17 + 4 * v)) cw).grid).map Prod.fst
  · obtain ⟨r, c, hr, hc, -, rfl⟩ :=
      (mem_map_fst_gridWrites_iff (isSquare_placeInto (isSquare_gridOf _ _) cw)).mp hstored
    have hq : (r, c) ∉ freeVisits m (17 + 4 * v) := fun hq => ha ⟨(r, c), hq, rfl⟩
    rw [readByte_cellOffset (legalMem_placedMem hm h40 cw) (by omega) (by omega),
      memCell_placedMem_other (legalMem_wf hm) h40 cw hr hc hq, ← readByte_cellOffset hm (by omega) (by omega)]
  · exact readByte_writeBytes_other (legalMem_wf hm) hstored

/-! ### What the command answers -/

/-- Settles O47: no cell is visited twice, so that PLACE fills the cells that are free before it, one bit each, and
every column but column 6 is visited. -/
theorem placeFillsTheFreeCells : Obligations.PlaceFillsTheFreeCells := by
  intro s hs v n cells total
  refine ⟨fun hv => hs.raises (e := .range v 7) (if_pos (badVersion_eq_true.mpr hv)), fun h1 h40 => ?_⟩
  generalize hcw : readBytes s.mem ilvBase (totalCw v) = cw
  have hlen : cw.length = totalCw v := by rw [← hcw, readBytes_length]
  have hrule : ruleOf .place s.snapshot = .ok {
      res := [natWord (placeInto n (gridOf s.mem n) cw).placed, natWord (placeInto n (gridOf s.mem n) cw).zeros]
      mem := gridWrites (fun r c => (cellAt (gridOf s.mem n) r c).isFree) 0
        (placeInto n (gridOf s.mem n) cw).grid } := by
    subst hcw
    exact if_neg (not_badVersion h1 h40)
  have hplaced : (placeInto n (gridOf s.mem n) cw).placed = min total cells.length := by
    rw [placeInto_eq_foldl, placed_foldl_fillCell, byteBits_length, hlen, Nat.zero_add]
  have hzeros : (placeInto n (gridOf s.mem n) cw).zeros = cells.length - total := by
    rw [placeInto_eq_foldl, zeros_foldl_fillCell, byteBits_length, hlen, Nat.zero_add]
  rw [hplaced, hzeros] at hrule
  obtain ⟨t, hexec, hall, hmem⟩ := hs.exists_onlyResMem hrule fun e he => List.mem_map_of_mem (f := Prod.fst) he
  rw [← placedMem] at hmem
  refine ⟨t, hexec, { hall with mem := fun a ha => ?_ }, fun i q hi => ?_, fun r c hr hc h6 => ?_⟩
  · rw [hmem, readByte_placedMem_other hs.inv.memory h40 cw ha]
  · obtain ⟨hr, hc⟩ := inside_freeVisits v s.mem q (List.mem_of_getElem? hi)
    rw [hmem, memCell_placedMem hs.mem_wf h40 cw hr hc hi, hlen, ← hcw, readBytes_eq]
    rfl
  · rw [hmem]
    exact not_isFree_placedMem hs.mem_wf h40 cw hr hc h6

end Sys2Proof.Machine

/-! Masking (R280 to R283): which cells MASK_APPLY inverts and how many, and that the same mask, applied to what it
left, inverts just these cells back. -/

namespace Sys2Proof.Machine

/-! ### Masking a grid (R281) -/

theorem Module.flip_flip (m : Module) : m.flip.flip = m := by cases m <;> rfl

theorem Module.flip_eq_unset_iff {m : Module} : m.flip = .unset ↔ m = .unset := by cases m <;> decide

section
variable {k : MaskId} {r c : Nat} {x : Cell}

theorem maskedCell_of_inverted (h : Inverted k r c x) : maskedCell k r c x = { x with mod := x.mod.flip } := if_pos h

theorem maskedCell_of_not_inverted (h : ¬ Inverted k r c x) : maskedCell k r c x = x := if_neg h

/-- Masking a cell leaves what decides whether the mask inverts it (R283). -/
theorem inverted_maskedCell_iff : Inverted k r c (maskedCell k r c x) ↔ Inverted k r c x := by
  by_cases h : Inverted k r c x
  · rw [maskedCell_of_inverted h]
    obtain ⟨hres, hset, hpred⟩ := h
    exact iff_of_true ⟨hres, Module.flip_eq_unset_iff.not.mpr hset, hpred⟩ ⟨hres, hset, hpred⟩
  · rw [maskedCell_of_not_inverted h]

theorem maskedCell_maskedCell (k : MaskId) (r c : Nat) (x : Cell) :
    maskedCell k r c (maskedCell k r c x) = x := by
  by_cases h : Inverted k r c x
  · rw [maskedCell_of_inverted (inverted_maskedCell_iff.mpr h), maskedCell_of_inverted h, Module.flip_flip]
  · rw [maskedCell_of_not_inverted (inverted_maskedCell_iff.not.mpr h), maskedCell_of_not_inverted h]

end

section
variable {n : Nat} {g : Grid} (hg : IsSquare n g) (k : MaskId)
include hg

theorem cellAt_applyMask {r c : Nat} (hr : r < n) (hc : c < n) :
    cellAt (applyMask k g) r c = maskedCell k r c (cellAt g r c) := by
  rw [applyMask, cellAt_mapGrid hg _ hr hc]
  exact if_congr inverts_iff rfl rfl

theorem invertedCount_eq : invertedCount k g = cellCount n fun r c => inverts k r c (cellAt g r c) := by
  rw [invertedCount, countCells_eq_cellCount (isSquare_mapGrid hg _)]
  refine cellCount_congr fun r c hr hc => ?_
  rw [cellAt_mapGrid hg _ hr hc]
  cases inverts k r c (cellAt g r c) <;> rfl

end

/-! ### The matrix after MASK_APPLY (R282) -/

/-- The memory that MASK_APPLY leaves. -/
def maskedMem (m : Memory) (n : Nat) (k : MaskId) : Memory :=
  writeBytes m (gridWrites (fun r c => inverts k r c (cellAt (gridOf m n) r c)) 0 (applyMask k (gridOf m n)))

theorem readByte_maskedMem_other {m : Memory} (hm : legalMem m = true) {n : Nat} (k : MaskId) {a : Nat}
    (ha : ¬ inSquare n a) : readByte (maskedMem m n k) a = readByte m a := by
  refine readByte_writeBytes_other (legalMem_wf hm) fun hmem => ha ?_
  obtain ⟨r, c, hr, hc, -, rfl⟩ := (mem_map_fst_gridWrites_iff (isSquare_applyMask (isSquare_gridOf _ _) k)).mp hmem
  exact ⟨r, c, hr, hc, rfl⟩

section
variable {m : Memory} (hm : legalMem m = true) {n : Nat} (hn : n ≤ 177) (k : MaskId)
include hm hn

theorem legalMem_maskedMem : legalMem (maskedMem m n k) = true :=
  legalMem_writeBytes hm fun e he => (mayStore_gridWrites (isSquare_applyMask (isSquare_gridOf _ _) k) hn
    (mayWrite_matrix (i := .maskApply) (by decide)) e he).legal

theorem memCell_maskedMem {r c : Nat} (hr : r < n) (hc : c < n) :
    memCell (maskedMem m n k) r c = maskedCell k r c (memCell m r c) := by
  have hg := isSquare_gridOf m n
  rw [maskedMem, memCell_gridWrites (legalMem_wf hm) (isSquare_applyMask hg k) hn hr hc, cellAt_applyMask hg k hr hc,
    cellAt_gridOf m hr hc]
  split
  · rfl
  · exact (maskedCell_of_not_inverted (inverts_iff.not.mp ‹_›)).symm

/-- Masking the matrix twice restores it (R283). -/
theorem maskedMem_maskedMem : maskedMem (maskedMem m n k) n k = m := by
  have hm' := legalMem_maskedMem hm hn k
  have hm'' := legalMem_maskedMem hm' hn k
  refine eq_of_readByte (legalMem_wf hm'') (legalMem_wf hm) fun a => ?_
  by_cases ha : inSquare n a
  · obtain ⟨r, c, hr, hc, rfl⟩ := ha
    rw [readByte_cellOffset hm'' (by omega) (by omega), memCell_maskedMem hm' hn k hr hc,
      memCell_maskedMem hm hn k hr hc, maskedCell_maskedCell, ← readByte_cellOffset hm (by omega) (by omega)]
  · rw [readByte_maskedMem_other hm' k ha, readByte_maskedMem_other hm k ha]

end

/-! ### What the command answers -/

theorem maskApplyRule_eq_ok {x : Snapshot} (h1 : 1 ≤ x.mverNat) (h40 : x.mverNat ≤ 40) : maskApplyRule x = .ok {
    res := [natWord (invertedCount x.ops.mask (gridOf x.mem (symbolSize x.mverNat)))]
    mem := gridWrites (fun r c => inverts x.ops.mask r c (cellAt (gridOf x.mem (symbolSize x.mverNat)) r c)) 0
      (applyMask x.ops.mask (gridOf x.mem (symbolSize x.mverNat))) } := if_neg (not_badVersion h1 h40)

/-- Settles O48: the rule stores the inverted cells of the masked grid, and counts them. -/
theorem maskApplyInvertsTheMaskedCells : Obligations.MaskApplyInvertsTheMaskedCells := by
  refine ⟨rfl, fun s hs => ?_⟩
  intro v n k
  refine ⟨fun hv => hs.raises (e := .range v 7) (if_pos (badVersion_eq_true.mpr hv)), fun h1 h40 => ?_⟩
  have hg := isSquare_gridOf s.mem n
  have hrule : ruleOf .maskApply s.snapshot = _ := maskApplyRule_eq_ok h1 h40
  have hcount : invertedCount k (gridOf s.mem n) = cellCount n fun r c => inverts k r c (memCell s.mem r c) :=
    (invertedCount_eq hg k).trans (cellCount_congr fun r c hr hc => by rw [cellAt_gridOf s.mem hr hc])
  obtain ⟨t, hexec, hall, hmem⟩ := hs.exists_onlyResMem hrule
    (P := inCells n fun r c => Inverted k r c (memCell s.mem r c)) fun e he =>
      (mem_writes_maskApply hrule).mp (List.mem_map_of_mem he)
  exact ⟨t, hexec, hcount ▸ hall, fun r c hr hc =>
    hmem ▸ memCell_maskedMem hs.inv.memory (symbolSize_le h40) k hr hc⟩

section
variable {s t : State} (hs : s.Ready)
include hs

/-- What a MASK_APPLY that follows another reads: the memory that the other left, MVER and the mask. -/
theorem mem_of_exec_maskApply (h : exec .maskApply s = .next t) : t.ops = s.ops ∧ t.mver = s.mver ∧
    t.mem = if badVersion s.mver.toNat then s.mem else maskedMem s.mem (symbolSize s.mver.toNat) s.ops.mask := by
  obtain rfl := eq_finish_of_exec h
  rw [hs.inv.input_eq]
  by_cases hv : badVersion s.mver.toNat = true
  · have hrule : ruleOf .maskApply s.snapshot = .error (.range s.mver.toNat 7) := if_pos hv
    rw [hrule, if_pos hv]
    exact ⟨rfl, rfl, rfl⟩
  · obtain ⟨h1, h40⟩ := version_of_not_bad hv
    have hrule : ruleOf .maskApply s.snapshot = _ := maskApplyRule_eq_ok h1 h40
    rw [hrule, if_neg hv]
    exact ⟨rfl, rfl, rfl⟩

theorem State.Ready.of_exec {i : Instr} (h : exec i s = .next t) : t.Ready ∧ t.phase = .idle := by
  obtain rfl := eq_finish_of_exec h
  have hidle : (s.finish (ruleOf i s.input)).phase = .idle := by cases ruleOf i s.input <;> rfl
  exact ⟨⟨hs.inv.finish_ruleOf hs.started i _, by rw [hidle]; nofun⟩, hidle⟩

end

/-- Applying one mask to what it left restores the memory. -/
theorem mem_of_maskApply_twice {m m' m'' : Memory} (hm : legalMem m = true) {v : Nat} {k : MaskId}
    (h : m' = if badVersion v then m else maskedMem m (symbolSize v) k)
    (h' : m'' = if badVersion v then m' else maskedMem m' (symbolSize v) k) : m'' = m := by
  by_cases hv : badVersion v = true
  · rw [h', if_pos hv, h, if_pos hv]
  · obtain ⟨-, h40⟩ := version_of_not_bad hv
    rw [h', if_neg hv, h, if_neg hv, maskedMem_maskedMem hm (symbolSize_le h40)]

/-- A canonical command loaded into an idle machine is ready to run. -/
theorem State.Inv.loaded {s : State} (h : s.Inv) (hp : s.phase = .idle) (c : Command) : (s.loaded c).Ready where
  inv := by
    have hops : State.Inv { s with opa := c.operands.opa, opb := c.operands.opb, opc := c.operands.opc } :=
      ⟨h.memory, h.field, h.starting, fun w x hx => absurd (hp.symm.trans hx) nofun, h.codes, h.named⟩
    exact hops.accept (by rw [hp]; nofun) _
  started := nofun

theorem exec_loaded (s : State) (c : Command) : exec c.instr (s.loaded c) = .next (s.run c) := by
  rw [State.run, exec_finish]

theorem mask_loaded (s : State) (k : MaskId) : (s.loaded (.maskApply k)).ops.mask = k :=
  Operands.mask_opaOf (by decide) (by decide) (by decide) (by decide) k

/-- Settles O49: the second mask inverts the cells that the first one inverted, and a bad MVER leaves the memory as
it is both times. -/
theorem maskTwiceRestores : Obligations.MaskTwiceRestores := by
  refine ⟨fun s k h hp => ?_, fun s t u hs ht hu => ?_⟩
  · have hs := h.loaded hp (.maskApply k)
    obtain ⟨ht, hidle⟩ := hs.of_exec (exec_loaded s _)
    obtain ⟨-, hmver, hmem⟩ := mem_of_exec_maskApply hs (exec_loaded s (.maskApply k))
    obtain ⟨-, -, hmem'⟩ := mem_of_exec_maskApply (ht.inv.loaded hidle (.maskApply k)) (exec_loaded _ (.maskApply k))
    rw [mask_loaded] at hmem hmem'
    refine mem_of_maskApply_twice h.memory hmem (hmem'.trans ?_)
    rw [← hmver]
    rfl
  · obtain ⟨hops, hmver, hmem⟩ := mem_of_exec_maskApply hs ht
    obtain ⟨-, -, hmem'⟩ := mem_of_exec_maskApply (hs.of_exec ht).1 hu
    rw [hops, hmver] at hmem'
    exact mem_of_maskApply_twice hs.inv.memory hmem hmem'

end Sys2Proof.Machine

/-! The penalty rules on one line of values (R284 to R286): the runs that the model walks through are the maximal runs,
and the matches it finds are those of every position. -/

namespace Sys2Proof.Machine

/-! ### Rule 1: the maximal runs of a line (R284) -/

section
variable {n : Nat} {ℓ : Nat → Bool}

theorem maximalRun_iff {i len : Nat} : maximalRun n ℓ i len = true ↔ (∀ j, j < len → ℓ (i + j) = ℓ i) ∧
    (i = 0 ∨ ℓ (i - 1) ≠ ℓ i) ∧ (i + len = n ∨ ℓ (i + len) ≠ ℓ i) := by
  simp [maximalRun, and_assoc]

/-- What the maximal runs that begin at `i` add (R284). -/
def runsAt (n : Nat) (ℓ : Nat → Bool) (i : Nat) : Nat :=
  ∑ len ∈ Finset.Icc 5 (n - i), if maximalRun n ℓ i len then 3 + (len - 5) else 0

/-- Two maximal runs that begin at one place end at one place. -/
theorem maximalRun_length_le {i len len' : Nat} (h : maximalRun n ℓ i len = true) (h' : maximalRun n ℓ i len' = true)
    (hn : i + len' ≤ n) : len' ≤ len := by
  obtain ⟨-, -, hend⟩ := maximalRun_iff.mp h
  obtain ⟨hall, -, -⟩ := maximalRun_iff.mp h'
  by_contra hlt
  obtain hend | hend := hend
  · omega
  · exact hend (hall len (by omega))

theorem runsAt_of_maximalRun {i len : Nat} (h : maximalRun n ℓ i len = true) (hn : i + len ≤ n) :
    runsAt n ℓ i = runScore len := by
  have hone : ∀ len' ∈ Finset.Icc 5 (n - i), len' ≠ len → (if maximalRun n ℓ i len' then 3 + (len' - 5) else 0) = 0 :=
    fun len' hlen' hne => if_neg fun h' => hne (Nat.le_antisymm
      (maximalRun_length_le h h' (by have := Finset.mem_Icc.mp hlen'; omega)) (maximalRun_length_le h' h hn))
  by_cases h5 : 5 ≤ len
  · rw [runsAt, Finset.sum_eq_single_of_mem len (Finset.mem_Icc.mpr (by omega)) hone, if_pos h, runScore, if_pos h5]
  · rw [runScore, if_neg h5]
    refine Finset.sum_eq_zero fun len' hlen' => hone len' hlen' ?_
    rintro rfl
    exact h5 (Finset.mem_Icc.mp hlen').1

/-- Inside a run no maximal run begins. -/
theorem runsAt_of_eq_before {i : Nat} (h0 : 0 < i) (h : ℓ (i - 1) = ℓ i) : runsAt n ℓ i = 0 :=
  Finset.sum_eq_zero fun len _ => if_neg fun hmax => by
    obtain ⟨-, hbegin, -⟩ := maximalRun_iff.mp hmax
    obtain rfl | hne := hbegin
    · exact absurd h0 (Nat.lt_irrefl 0)
    · exact hne h

/-- Over the places of a maximal run, just that run is added. -/
theorem sum_runsAt_of_maximalRun {i len : Nat} (h : maximalRun n ℓ i len = true) (hpos : 0 < len) (hn : i + len ≤ n) :
    ∑ p ∈ Finset.Ico i (i + len), runsAt n ℓ p = runScore len := by
  obtain ⟨hall, -, -⟩ := maximalRun_iff.mp h
  rw [Finset.sum_eq_sum_Ico_succ_bot (by omega), runsAt_of_maximalRun h hn,
    Finset.sum_eq_zero fun p hp => ?_, Nat.add_zero]
  have hp := Finset.mem_Ico.mp hp
  refine runsAt_of_eq_before (by omega) ?_
  have hbefore := hall (p - 1 - i) (by omega)
  have hat := hall (p - i) (by omega)
  rw [show i + (p - 1 - i) = p - 1 by omega] at hbefore
  rw [show i + (p - i) = p by omega] at hat
  rw [hbefore, hat]

/-- The walk along the line, `len` places into a run that began at `i`, adds what begins from `i` on. -/
theorem sum_runsFrom {k i len : Nat} (hpos : 0 < len) (hall : ∀ j, j < len → ℓ (i + j) = ℓ i)
    (hbegin : i = 0 ∨ ℓ (i - 1) ≠ ℓ i) (hn : i + len + k = n) :
    ((runsFrom (ℓ i) len ((List.range' (i + len) k).map ℓ)).map runScore).sum =
      ∑ p ∈ Finset.Ico i n, runsAt n ℓ p := by
  induction k generalizing i len with
  | zero =>
    have hmax : maximalRun n ℓ i len = true := maximalRun_iff.mpr ⟨hall, hbegin, .inl hn⟩
    rw [← hn, Nat.add_zero] at hmax ⊢
    exact (sum_runsAt_of_maximalRun hmax hpos (Nat.le_refl _)).symm
  | succ k ih =>
    rw [List.range'_succ, List.map_cons, runsFrom]
    by_cases hsame : ℓ (i + len) = ℓ i
    · rw [if_pos hsame, Nat.add_assoc i len 1]
      refine ih (Nat.succ_pos len) (fun j hj => ?_) hbegin (by omega)
      obtain hj | rfl := Nat.lt_succ_iff_lt_or_eq.mp hj
      · exact hall j hj
      · exact hsame
    · have hmax : maximalRun n ℓ i len = true := maximalRun_iff.mpr ⟨hall, hbegin, .inr hsame⟩
      have hlast : ℓ (i + len - 1) = ℓ i := by
        rw [show i + len - 1 = i + (len - 1) by omega]
        exact hall (len - 1) (by omega)
      rw [if_neg hsame, List.map_cons, List.sum_cons, ih (i := i + len) Nat.one_pos
          (fun j hj => by rw [Nat.lt_one_iff.mp hj, Nat.add_zero]) (.inr (hlast ▸ Ne.symm hsame)) (by omega),
        ← sum_runsAt_of_maximalRun hmax hpos (by omega),
        Finset.sum_Ico_consecutive _ (Nat.le_add_right i len) (by omega)]

/-- Rule 1 on one line: the runs of the walk are the maximal runs (R284). -/
theorem sum_runs (n : Nat) (ℓ : Nat → Bool) :
    ((runs ((List.range n).map ℓ)).map runScore).sum = ∑ i ∈ Finset.range n, runsAt n ℓ i := by
  cases n with
  | zero => rfl
  | succ n =>
    rw [List.range_eq_range', List.range'_succ, List.map_cons, runs, Finset.range_eq_Ico]
    exact sum_runsFrom Nat.one_pos (fun j hj => by rw [Nat.lt_one_iff.mp hj]) (.inl rfl) (by omega)

end

/-! ### Rule 2: the windows of two adjacent rows (R285) -/

theorem map_range_succ {α : Type} (f : Nat → α) (n : Nat) :
    (List.range (n + 1)).map f = f 0 :: (List.range n).map fun i => f (i + 1) := by
  rw [List.range_succ_eq_map, List.map_cons, List.map_map]
  rfl

theorem blocksInRows_eq (n : Nat) (f g : Nat → Bool) :
    blocksInRows ((List.range (n + 1)).map f) ((List.range (n + 1)).map g) =
      ∑ c ∈ Finset.range n, if f c = f (c + 1) ∧ f c = g c ∧ f c = g (c + 1) then 1 else 0 := by
  induction n generalizing f g with
  | zero => rfl
  | succ n ih =>
    have htail := ih (fun c => f (c + 1)) fun c => g (c + 1)
    simp only [map_range_succ] at htail ⊢
    rw [blocksInRows, htail, Finset.sum_range_succ', Nat.add_comm]

theorem blockCount_eq (n : Nat) (rows : Nat → List Bool) :
    blockCount ((List.range (n + 1)).map rows) = ∑ r ∈ Finset.range n, blocksInRows (rows r) (rows (r + 1)) := by
  induction n generalizing rows with
  | zero => rfl
  | succ n ih =>
    have htail := ih fun r => rows (r + 1)
    simp only [map_range_succ] at htail ⊢
    rw [blockCount, htail, Finset.sum_range_succ', Nat.add_comm]

/-! ### Rule 3: the finder-like patterns of a line (R286) -/

section
variable {n : Nat} {ℓ : Nat → Bool}

/-- A finder-like pattern begins at place `j` of a line of length `n`, with four light modules beside it (R286). -/
def finderAt (n : Nat) (ℓ : Nat → Bool) (j : Nat) : Bool :=
  (matchesAt ℓ j patP || matchesAt ℓ j patQ) &&
    ((decide (4 ≤ j) && lightAt ℓ (j - 4)) || (decide (j + 11 ≤ n) && lightAt ℓ (j + 7)))

theorem map_range'_eq_map_range (ℓ : Nat → Bool) (a k : Nat) :
    (List.range' a k).map ℓ = (List.range k).map fun i => ℓ (a + i) := by
  rw [List.range'_eq_map_range, List.map_map]
  rfl

/-- The front of what is left of a line is a pattern where enough is left and the values are those. -/
theorem take_map_range'_eq_iff {a k : Nat} {p : List Bool} : ((List.range' a k).map ℓ).take p.length = p ↔
    p.length ≤ k ∧ (List.range p.length).map (fun i => ℓ (a + i)) = p := by
  have htake : ((List.range' a k).map ℓ).take p.length = (List.range (min p.length k)).map fun i => ℓ (a + i) := by
    rw [map_range'_eq_map_range, ← List.map_take, List.take_range]
  rw [htake]
  constructor
  · intro h
    have hlen := congrArg List.length h
    rw [List.length_map, List.length_range] at hlen
    rw [hlen] at h
    exact ⟨by omega, h⟩
  · rintro ⟨hle, h⟩
    rw [Nat.min_eq_left hle, h]

theorem matchesAt_iff {j : Nat} {p : List Bool} :
    matchesAt ℓ j p = true ↔ (List.range 7).map (fun i => ℓ (j + i)) = p := beq_iff_eq

theorem lightAt_iff {j : Nat} : lightAt ℓ j = true ↔ (List.range 4).map (fun i => ℓ (j + i)) = lights4 := by
  simp [lightAt, lights4, List.range_succ]

/-- The four places before `j`, nearest first, are light. -/
theorem take_before_eq_iff {j : Nat} :
    ((List.range j).reverse.map ℓ).take 4 = lights4 ↔ 4 ≤ j ∧ lightAt ℓ (j - 4) = true := by
  by_cases h4 : 4 ≤ j
  · obtain ⟨j, rfl⟩ := Nat.exists_eq_add_of_le' h4
    simp only [List.range_succ, List.reverse_append, List.reverse_singleton, List.map_cons, List.cons_append,
      List.nil_append, List.take_succ_cons, List.take_zero, Nat.add_sub_cancel, lights4, lightAt, List.range_zero,
      List.all_cons, List.all_nil, List.cons.injEq, Bool.and_eq_true, Bool.not_eq_true', Nat.add_zero]
    tauto
  · refine iff_of_false (fun h => h4 ?_) fun h => h4 h.1
    have hlen := congrArg List.length h
    rw [List.length_take, List.length_map, List.length_reverse, List.length_range] at hlen
    change _ = 4 at hlen
    omega

/-- The test at a place of the line, given what precedes it and what is left (R286). -/
theorem finderMatch_eq {j k : Nat} (hn : j + k = n) :
    finderMatch ((List.range j).reverse.map ℓ) ((List.range' j k).map ℓ) = (decide (7 ≤ k) && finderAt n ℓ j) := by
  have hrest : ((List.range' j k).map ℓ).drop 7 = (List.range' (j + 7) (k - 7)).map ℓ := by
    rw [← List.map_drop, List.drop_range', Nat.mul_one]
  have hafter : 4 ≤ k - 7 ↔ j + 11 ≤ n := by omega
  have hP : ((List.range' j k).map ℓ).take 7 = patP ↔ 7 ≤ k ∧ matchesAt ℓ j patP = true :=
    (take_map_range'_eq_iff (p := patP)).trans (and_congr_right' matchesAt_iff.symm)
  have hQ : ((List.range' j k).map ℓ).take 7 = patQ ↔ 7 ≤ k ∧ matchesAt ℓ j patQ = true :=
    (take_map_range'_eq_iff (p := patQ)).trans (and_congr_right' matchesAt_iff.symm)
  have hlights : ((List.range' (j + 7) (k - 7)).map ℓ).take 4 = lights4 ↔ j + 11 ≤ n ∧ lightAt ℓ (j + 7) = true :=
    (take_map_range'_eq_iff (p := lights4)).trans (and_congr hafter lightAt_iff.symm)
  rw [Bool.eq_iff_iff, finderMatch, hrest]
  simp only [finderAt, Bool.and_eq_true, Bool.or_eq_true, beq_iff_eq, decide_eq_true_eq, take_before_eq_iff, hP, hQ,
    hlights, ← and_or_left, and_assoc]

/-- The walk along the line, `j` places into it, counts the patterns from `j` on. -/
theorem finderMatches_eq {j k : Nat} (hn : j + k = n) :
    finderMatches ((List.range j).reverse.map ℓ) ((List.range' j k).map ℓ) =
      ∑ p ∈ Finset.Ico j n, if decide (7 ≤ n - p) && finderAt n ℓ p then 1 else 0 := by
  induction k generalizing j with
  | zero =>
    rw [← hn, Nat.add_zero, Finset.Ico_self]
    rfl
  | succ k ih =>
    have hbefore : ℓ j :: (List.range j).reverse.map ℓ = (List.range (j + 1)).reverse.map ℓ := by
      simp [List.range_succ]
    have hmatch := finderMatch_eq (ℓ := ℓ) hn
    rw [List.range'_succ, List.map_cons] at hmatch ⊢
    rw [finderMatches, hmatch, hbefore, ih (by omega), Finset.sum_eq_sum_Ico_succ_bot (show j < n by omega),
      show n - j = k + 1 by omega]

/-- Rule 3 on one line (R286). -/
theorem finderMatches_line (n : Nat) (ℓ : Nat → Bool) : finderMatches [] ((List.range n).map ℓ) =
    ∑ j ∈ Finset.range (n - 6), if finderAt n ℓ j then 1 else 0 := by
  have hwalk := finderMatches_eq (ℓ := ℓ) (Nat.zero_add n)
  rw [List.range_eq_range', Finset.range_eq_Ico]
  refine hwalk.trans (Finset.sum_subset_zero_on_sdiff (Finset.Ico_subset_Ico_right (Nat.sub_le n 6)) ?_ ?_).symm
  · intro p hp
    simp only [Finset.mem_sdiff, Finset.mem_Ico] at hp
    rw [decide_eq_false (by omega), Bool.false_and]
    rfl
  · intro p hp
    rw [decide_eq_true (by have := Finset.mem_Ico.mp hp; omega), Bool.true_and]

end

end Sys2Proof.Machine

/-! The penalty (R284 to R289): the lines of a grid by position, and that the model's walk over them gives the four
rules. -/

namespace Sys2Proof.Machine

/-! ### The lines of a grid -/

theorem sum_map_range (f : Nat → Nat) (k : Nat) : ((List.range k).map f).sum = ∑ i ∈ Finset.range k, f i := rfl

section
variable {n : Nat} {g : Grid} {v : Nat → Nat → Bool}

theorem rowLines_eq (hg : IsSquare n g) (hv : ∀ r c, r < n → c < n → (cellAt g r c).val = v r c) :
    rowLines g = (List.range n).map fun r => (List.range n).map (v r) := by
  have hlen : (rowLines g).length = n := by rw [rowLines, List.length_map, hg.1]
  refine List.ext_getElem (by rw [hlen, List.length_map, List.length_range]) fun r hr _ => ?_
  obtain ⟨row, hrow, hcols⟩ := hg.row (hlen ▸ hr)
  obtain ⟨_, hrow⟩ := List.getElem?_eq_some_iff.mp hrow
  simp only [rowLines, List.getElem_map, List.getElem_range, hrow]
  refine List.ext_getElem (by rw [List.length_map, List.length_map, List.length_range, hcols]) fun c hc _ => ?_
  rw [List.length_map, hcols] at hc
  rw [List.getElem_map, List.getElem_map, List.getElem_range, ← hv r c (hlen ▸ hr) hc]
  simp [cellAt, List.getD_eq_getElem?_getD, *]

theorem columnLines_eq (n : Nat) (v : Nat → Nat → Bool) :
    columnLines n ((List.range n).map fun r => (List.range n).map (v r)) =
      (List.range n).map fun c => (List.range n).map fun r => v r c := by
  refine List.map_congr_left fun c hc => ?_
  rw [List.map_map]
  exact List.map_congr_left fun r _ => by simp [List.getD_eq_getElem?_getD, List.mem_range.mp hc]

/-- The lines of a grid are its rows, and then its columns. -/
theorem linesOf_eq (hrows : rowLines g = (List.range n).map fun r => (List.range n).map (v r)) :
    linesOf n g = (List.range (2 * n)).map fun l => (List.range n).map (lineVal n v l) := by
  rw [linesOf, hrows, columnLines_eq, Nat.two_mul, List.range_add, List.map_append, List.map_map]
  refine congrArg₂ (· ++ ·) (List.map_congr_left fun l hl => ?_) (List.map_congr_left fun l _ => ?_)
  · exact List.map_congr_left fun j _ => (if_pos (List.mem_range.mp hl)).symm
  · exact List.map_congr_left fun j _ => by simp [lineVal]

end

/-! ### The four rules (R284 to R287) -/

section
variable (n : Nat) (v : Nat → Nat → Bool)

theorem n1_eq : n1 ((List.range (2 * n)).map fun l => (List.range n).map (lineVal n v l)) = specN1 n v := by
  rw [n1, List.map_map, sum_map_range]
  exact Finset.sum_congr rfl fun l _ => sum_runs n (lineVal n v l)

theorem n2_eq : n2 ((List.range n).map fun r => (List.range n).map (v r)) = specN2 n v := by
  cases n with
  | zero => rfl
  | succ n =>
    rw [n2, blockCount_eq]
    exact congrArg (3 * ·) (Finset.sum_congr rfl fun r _ => blocksInRows_eq n (v r) (v (r + 1)))

/-- The pattern beside four light modules, in the words of the rule (R286). -/
theorem finderAt_iff {ℓ : Nat → Bool} {j : Nat} : finderAt n ℓ j = true ↔
    (matchesAt ℓ j [true, false, true, true, true, false, true] = true ∨
        matchesAt ℓ j [false, true, false, false, false, true, false] = true) ∧
      ((4 ≤ j ∧ lightAt ℓ (j - 4) = true) ∨ (j + 11 ≤ n ∧ lightAt ℓ (j + 7) = true)) := by
  simp only [finderAt, patP, patQ, Bool.and_eq_true, Bool.or_eq_true, decide_eq_true_eq]

theorem n3_eq : n3 ((List.range (2 * n)).map fun l => (List.range n).map (lineVal n v l)) = specN3 n v := by
  rw [n3, List.map_map, sum_map_range, Finset.mul_sum]
  refine Finset.sum_congr rfl fun l _ => ?_
  rw [Function.comp_apply, finderMatches_line, Finset.mul_sum]
  refine Finset.sum_congr rfl fun j _ => ?_
  rw [mul_ite, Nat.mul_one, Nat.mul_zero]
  exact if_congr (finderAt_iff n) rfl rfl

theorem n4_eq : n4 (specDark n v) n = specN4 n v := by
  have habs (a b : Nat) : absDiff a b = Int.natAbs ((a : Int) - b) := by
    unfold absDiff
    omega
  rw [n4, specN4, habs]
  push_cast
  rfl

end

section
variable {n : Nat} {g : Grid} {v : Nat → Nat → Bool} (hg : IsSquare n g)
  (hv : ∀ r c, r < n → c < n → (cellAt g r c).val = v r c)
include hg hv

theorem darkCount_eq : darkCount (rowLines g) = specDark n v := by
  have hcount : darkCount (rowLines g) = countCells Cell.val g := by
    rw [darkCount, rowLines, List.map_map, countCells]
    refine congrArg List.sum (List.map_congr_left fun row _ => ?_)
    rw [Function.comp_apply, List.count, List.countP_map]
    exact List.countP_congr fun x _ => by simp
  exact hcount.trans ((countCells_eq_cellCount hg _).trans (cellCount_congr hv))

/-- The penalty of a grid is that of its values (R288). -/
theorem penaltyOf_eq : penaltyOf n g = specPenalty n v := by
  have hrows := rowLines_eq hg hv
  have hdark := darkCount_eq hg hv
  rw [hrows] at hdark
  simp only [penaltyOf, specPenalty, hrows, linesOf_eq hrows, n1_eq, n2_eq, n3_eq, hdark, n4_eq]

end

end Sys2Proof.Machine

/-! The first UNSET cell (R289, R292), and what PENALTY answers. -/

namespace Sys2Proof.Machine

/-! ### The first UNSET cell in row-major order -/

/-- The grid of the matrix buffer, cell by cell (R41). -/
theorem gridOf_eq (m : Memory) (n : Nat) :
    gridOf m n = (List.range' 0 n).map fun r => (List.range' 0 n).map (memCell m r) := by
  simp only [gridOf, readBytes_eq, List.range_eq_range', List.map_map]
  rfl

/-- The cells of `[0, n)²` in row-major order, from row `r` on. -/
def cellsFrom (n r k : Nat) : List (Nat × Nat) := List.range' r k ×ˢ List.range' 0 n

/-- The search stops at this cell: it is UNSET and not exempt. -/
def stopsAt (skip : Nat → Nat → Bool) (m : Memory) (q : Nat × Nat) : Bool :=
  (memCell m q.1 q.2).isUnset && !skip q.1 q.2

section
variable (skip : Nat → Nat → Bool) (m : Memory) (n : Nat)

theorem firstUnsetInRow_eq_find? (r c k : Nat) : firstUnsetInRow (skip r) c ((List.range' c k).map (memCell m r)) =
    (List.range' c k).find? fun j => stopsAt skip m (r, j) := by
  induction k generalizing c with
  | zero => rfl
  | succ k ih =>
    rw [List.range'_succ, List.map_cons, firstUnsetInRow, ih, List.find?_cons, stopsAt]
    cases (memCell m r c).isUnset && !skip r c <;> rfl

/-- The search by rows is one search through the cells. -/
theorem firstUnset_eq_find? (r k : Nat) :
    firstUnset skip r ((List.range' r k).map fun r => (List.range' 0 n).map (memCell m r)) =
      (cellsFrom n r k).find? (stopsAt skip m) := by
  induction k generalizing r with
  | zero => rfl
  | succ k ih =>
    rw [cellsFrom, List.range'_succ, List.product_cons, List.find?_append, List.find?_map, List.map_cons, firstUnset,
      firstUnsetInRow_eq_find?, ih]
    change _ = (((List.range' 0 n).find? fun j => stopsAt skip m (r, j)).map (Prod.mk r)).or _
    cases (List.range' 0 n).find? fun j => stopsAt skip m (r, j) <;> rfl

theorem firstUnset_gridOf : firstUnset skip 0 (gridOf m n) = (cellsFrom n 0 n).find? (stopsAt skip m) := by
  rw [gridOf_eq, firstUnset_eq_find?]

end

theorem mem_cellsFrom {n : Nat} {q : Nat × Nat} : q ∈ cellsFrom n 0 n ↔ q.1 < n ∧ q.2 < n := by
  rw [cellsFrom, List.mem_product, List.mem_range'_1, List.mem_range'_1]
  omega

theorem cellsFrom_pairwise (n : Nat) :
    (cellsFrom n 0 n).Pairwise fun p q => p.1 < q.1 ∨ p.1 = q.1 ∧ p.2 < q.2 := by
  refine List.pairwise_flatMap.mpr ⟨fun r _ => ?_, (List.pairwise_lt_range').imp fun hlt p hp q hq => ?_⟩
  · exact List.pairwise_map.mpr ((List.pairwise_lt_range').imp fun h => .inr ⟨rfl, h⟩)
  · obtain ⟨_, _, rfl⟩ := List.mem_map.mp hp
    obtain ⟨_, _, rfl⟩ := List.mem_map.mp hq
    exact .inl hlt

section
variable {skip : Nat → Nat → Bool} {m : Memory} {n : Nat}

theorem stopsAt_iff {r c : Nat} : stopsAt skip m (r, c) = true ↔ (memCell m r c).mod = .unset ∧ skip r c = false := by
  rw [stopsAt, Cell.isUnset, Bool.and_eq_true, beq_iff_eq, Bool.not_eq_true']

/-- The search stops at the first such cell: every cell before it is smaller in the order. -/
theorem firstUnset_eq_some {r c : Nat}
    (h : FirstCell n (fun r c => (memCell m r c).mod = .unset ∧ skip r c = false) r c) :
    firstUnset skip 0 (gridOf m n) = some (r, c) := by
  obtain ⟨before, after, heq⟩ := List.append_of_mem (mem_cellsFrom.mpr (⟨h.row, h.col⟩ : (r, c).1 < n ∧ (r, c).2 < n))
  rw [firstUnset_gridOf]
  refine List.find?_eq_some_iff_append.mpr ⟨stopsAt_iff.mpr h.holds, before, after, heq, fun p hp => ?_⟩
  obtain ⟨_, _, hrises⟩ := List.pairwise_append.mp (heq ▸ cellsFrom_pairwise n)
  have hlt : p.1 < r ∨ p.1 = r ∧ p.2 < c := hrises p hp (r, c) List.mem_cons_self
  obtain ⟨hrow, hcol⟩ := mem_cellsFrom.mp (heq ▸ List.mem_append_left _ hp)
  rw [Bool.not_eq_true', ← Bool.not_eq_true, stopsAt_iff]
  intro hstop
  have hge := h.first p.1 p.2 hrow hcol hstop
  omega

theorem firstUnset_eq_none (h : ∀ r c, r < n → c < n → skip r c = false → (memCell m r c).mod ≠ .unset) :
    firstUnset skip 0 (gridOf m n) = none := by
  rw [firstUnset_gridOf]
  refine List.find?_eq_none.mpr fun p hp hstop => ?_
  obtain ⟨hrow, hcol⟩ := mem_cellsFrom.mp hp
  obtain ⟨hunset, hskip⟩ := stopsAt_iff.mp hstop
  exact h p.1 p.2 hrow hcol hskip hunset

end

theorem FirstCell.congr {n : Nat} {P Q : Nat → Nat → Prop} (h : ∀ r c, P r c ↔ Q r c) {r c : Nat}
    (hP : FirstCell n P r c) : FirstCell n Q r c where
  row := hP.row
  col := hP.col
  holds := (h r c).mp hP.holds
  first r' c' hr hc hQ := hP.first r' c' hr hc ((h r' c').mpr hQ)

/-! ### What the command answers -/

section
variable {x : Snapshot} (h1 : 1 ≤ x.mverNat) (h40 : x.mverNat ≤ 40)
include h1 h40

theorem penaltyRule_of_unset {r c : Nat}
    (h : FirstCell (symbolSize x.mverNat) (fun r c => (memCell x.mem r c).mod = .unset) r c) :
    penaltyRule x = .error (.unset r c) := by
  have hfirst : firstUnset (fun _ _ => false) 0 (gridOf x.mem (symbolSize x.mverNat)) = some (r, c) :=
    firstUnset_eq_some (h.congr fun _ _ => (and_iff_left rfl).symm)
  rw [penaltyRule, if_neg (not_badVersion h1 h40)]
  dsimp only
  rw [hfirst]

theorem penaltyRule_eq_ok
    (h : ∀ r c, r < symbolSize x.mverNat → c < symbolSize x.mverNat → (memCell x.mem r c).mod ≠ .unset) :
    penaltyRule x = .ok { res :=
      let n := symbolSize x.mverNat
      let dark := fun r c => (memCell x.mem r c).val
      [natWord (specPenalty n dark), natWord (specN1 n dark), natWord (specN2 n dark), natWord (specN3 n dark),
        natWord (specN4 n dark), natWord (specDark n dark)] } := by
  have hnone : firstUnset (fun _ _ => false) 0 (gridOf x.mem (symbolSize x.mverNat)) = none :=
    firstUnset_eq_none fun r c hr hc _ => h r c hr hc
  have hg := isSquare_gridOf x.mem (symbolSize x.mverNat)
  have hv : ∀ r c, r < symbolSize x.mverNat → c < symbolSize x.mverNat →
      (cellAt (gridOf x.mem (symbolSize x.mverNat)) r c).val = (memCell x.mem r c).val := fun r c hr hc => by
    rw [cellAt_gridOf x.mem hr hc]
  have hrows := rowLines_eq hg hv
  rw [penaltyRule, if_neg (not_badVersion h1 h40)]
  dsimp only
  rw [hnone]
  dsimp only
  rw [penaltyOf_eq hg hv, darkCount_eq hg hv, linesOf_eq hrows, hrows, n1_eq, n2_eq, n3_eq, n4_eq]

end

/-- Settles O50: the search stops at the first UNSET cell, and where there is none the walks over the lines give the
rules. -/
theorem penaltyScoresTheGrid : Obligations.PenaltyScoresTheGrid := by
  refine ⟨rfl, fun s hs => ?_⟩
  intro v n dark
  exact ⟨fun hv => hs.raises (e := .range v 7) (if_pos (badVersion_eq_true.mpr hv)), fun h1 h40 =>
    ⟨fun r c h => hs.raises (e := .unset r c) (penaltyRule_of_unset (x := s.snapshot) h1 h40 h),
      fun h => hs.exists_onlyRes (penaltyRule_eq_ok (x := s.snapshot) h1 h40 h)⟩⟩

end Sys2Proof.Machine

/-! Stamping the format word (R312), and the choice of the best mask (R290 to R292). -/

namespace Sys2Proof.Machine

/-! ### Marks along a path of cells -/

theorem markAll_append (ms ms' : List (Nat × Nat × Bool)) (g : Grid) :
    markAll g (ms ++ ms') = markAll (markAll g ms) ms' := by
  induction ms generalizing g with
  | nil => rfl
  | cons mark ms ih => exact ih _

section
variable {n : Nat} {r c : Nat}

/-- A path without repetition marks its cells with the bits of the word, from bit `b` down, and no other cell. -/
theorem cellAt_markAll_bitMarks (w b : Nat) {ps : List (Nat × Nat)} (hin : Inside n ps) (hnodup : ps.Nodup) {g : Grid}
    (hg : IsSquare n g) : cellAt (markAll g (bitMarks w b ps)) r c =
      match ps.idxOf? (r, c) with
      | some j => marked (w.testBit (b - j))
      | none => cellAt g r c := by
  induction ps generalizing b g with
  | nil => rfl
  | cons p ps ih =>
    obtain ⟨hp, hin⟩ := List.forall_mem_cons.mp hin
    obtain ⟨hnot, hnodup⟩ := List.nodup_cons.mp hnodup
    rw [bitMarks, markAll, ih (b - 1) hin hnodup (isSquare_setCell hg _ _ _), List.idxOf?_cons,
      cellAt_setCell hg _ _ _ _ _ hp.1 hp.2]
    by_cases heq : p = (r, c)
    · subst heq
      rw [List.idxOf?_eq_none_iff.mpr hnot]
      simp
    · have hne : ¬ (r = p.1 ∧ c = p.2) := fun h => heq (Prod.ext h.1.symm h.2.symm)
      rw [if_neg hne, beq_false_of_ne heq]
      cases ps.idxOf? (r, c) with
      | none => rfl
      | some j => simp [Nat.sub_sub, Nat.add_comm]

end

/-! ### The format cells (R312) -/

theorem nodup_fmt1 : fmt1.Nodup := by decide

theorem inside_fmt1 {n : Nat} (hn : 9 ≤ n) : Inside n fmt1 := fun q hq => by
  have := mem_fmt1_iff.mp (show (q.1, q.2) ∈ fmt1 from hq)
  omega

theorem inside_fmt2 {n : Nat} (hn : 9 ≤ n) : Inside n (fmt2 n) := by
  simp only [Inside, fmt2, List.forall_mem_cons, List.not_mem_nil, false_imp_iff, implies_true, and_true]
  omega

theorem nodup_fmt2 {n : Nat} (hn : 17 ≤ n) : (fmt2 n).Nodup := by
  simp only [fmt2, List.nodup_cons, List.mem_cons, List.not_mem_nil, or_false, not_false_eq_true, List.nodup_nil,
    Prod.mk.injEq, and_true]
  omega

/-- The two paths of the format word do not meet. -/
theorem not_mem_fmt2_of_mem_fmt1 {v r c : Nat} (h1 : 1 ≤ v) (hr : r < 17 + 4 * v) (hc : c < 17 + 4 * v)
    (h : (r, c) ∈ fmt1) : (r, c) ∉ fmt2 (17 + 4 * v) := by
  rw [mem_fmt2_iff hr hc]
  have := mem_fmt1_iff.mp h
  omega

theorem isFormatCell_eq_false_iff {n r c : Nat} : isFormatCell n r c = false ↔ formatBitAt n r c = none := by
  rw [isFormatCell_eq, Option.isSome_eq_false_iff, Option.isNone_iff_eq_none]

/-- What stamping makes of a cell (R312). -/
theorem cellAt_stampFormat {v : Nat} (h1 : 1 ≤ v) {g : Grid} (hg : IsSquare (17 + 4 * v) g) (e : Ecc) (k : MaskId)
    {r c : Nat} (hr : r < 17 + 4 * v) (hc : c < 17 + 4 * v) :
    cellAt (stampFormat (17 + 4 * v) g e k) r c = formatStamped (17 + 4 * v) e k r c (cellAt g r c) := by
  rw [stampFormat, markAll_append, cellAt_markAll_bitMarks _ _ (inside_fmt2 (by omega)) (nodup_fmt2 (by omega))
    (isSquare_markAll _ hg), cellAt_markAll_bitMarks _ _ (inside_fmt1 (by omega)) nodup_fmt1 hg, formatStamped,
    formatBitAt]
  cases hfirst : fmt1.idxOf? (r, c) with
  | none => cases (fmt2 (17 + 4 * v)).idxOf? (r, c) <;> rfl
  | some j =>
    have hmem : (r, c) ∈ fmt1 := List.isSome_idxOf?.mp (by rw [hfirst]; rfl)
    rw [List.idxOf?_eq_none_iff.mpr (not_mem_fmt2_of_mem_fmt1 h1 hr hc hmem)]

/-- A cell of a candidate (R290). -/
theorem cellAt_candidate {v : Nat} (h1 : 1 ≤ v) (m : Memory) (e : Ecc) (k : MaskId) {r c : Nat}
    (hr : r < 17 + 4 * v) (hc : c < 17 + 4 * v) :
    cellAt (candidate (17 + 4 * v) (gridOf m (17 + 4 * v)) e k) r c = candidateCell m (17 + 4 * v) e k r c := by
  have hg := isSquare_gridOf m (17 + 4 * v)
  rw [candidate, cellAt_stampFormat h1 (isSquare_applyMask hg k) e k hr hc, cellAt_applyMask hg k hr hc,
    cellAt_gridOf m hr hc, candidateCell]

theorem candidateCell_of_untouched {m : Memory} {n : Nat} {e : Ecc} {k : MaskId} {r c : Nat}
    (hk : ¬ Inverted k r c (memCell m r c)) (hf : formatBitAt n r c = none) :
    candidateCell m n e k r c = memCell m r c := by
  rw [candidateCell, maskedCell_of_not_inverted hk, formatStamped, hf]

/-! ### The lowest id of least score (R291) -/

section
variable (score : MaskId → Nat)

theorem length_map_maskIds : (maskIds.map score).length = 8 := rfl

theorem getElem?_map_maskIds (k : MaskId) : (maskIds.map score)[k.val]? = some (score k) := by
  have hid : maskIds[k.val]? = some k := by
    revert k
    decide
  rw [List.getElem?_map, hid, Option.map_some]

theorem minScore_mem_and_le : minScore (maskIds.map score) ∈ maskIds.map score ∧
    ∀ x ∈ maskIds.map score, minScore (maskIds.map score) ≤ x := List.min?_eq_some_iff.mp rfl

theorem minScore_le (k : MaskId) : minScore (maskIds.map score) ≤ score k :=
  (minScore_mem_and_le score).2 _ (List.mem_of_getElem? (getElem?_map_maskIds score k))

theorem val_bestOf : (bestOf (maskIds.map score)).val = (maskIds.map score).idxOf (minScore (maskIds.map score)) :=
  Nat.mod_eq_of_lt (List.idxOf_lt_length_of_mem (minScore_mem_and_le score).1)

theorem score_bestOf : score (bestOf (maskIds.map score)) = minScore (maskIds.map score) := by
  have hlt := List.idxOf_lt_length_of_mem (minScore_mem_and_le score).1
  have hget := getElem?_map_maskIds score (bestOf (maskIds.map score))
  rw [val_bestOf, List.getElem?_eq_getElem hlt, List.getElem_idxOf] at hget
  exact (Option.some.inj hget).symm

/-- The first place of the least score is the lowest id that has it (R291). -/
theorem isBest_bestOf : IsBest score (bestOf (maskIds.map score)) where
  least k := by
    rw [score_bestOf score]
    exact minScore_le score k
  lowest k hk := by
    rw [score_bestOf score] at hk
    rw [Fin.le_def, val_bestOf]
    by_contra hlt
    have hne := List.not_of_lt_findIdx (Nat.lt_of_not_le hlt)
    obtain ⟨_, hget⟩ := List.getElem?_eq_some_iff.mp (getElem?_map_maskIds score k)
    rw [hget, hk, beq_self_eq_true] at hne
    cases hne

end

/-- The scores of the candidates of the matrix (R291). -/
theorem scores_eq {v : Nat} (h1 : 1 ≤ v) (m : Memory) (e : Ecc) : scores (17 + 4 * v) (gridOf m (17 + 4 * v)) e =
    maskIds.map fun k => specPenalty (17 + 4 * v) fun r c => (candidateCell m (17 + 4 * v) e k r c).val :=
  List.map_congr_left fun k _ => penaltyOf_eq (isSquare_candidate (isSquare_gridOf _ _) e k) fun r c hr hc => by
    rw [cellAt_candidate h1 m e k hr hc]

/-! ### The matrix after MASK_SELECT -/

/-- What MASK_SELECT stores of the best candidate: the cells that the mask inverts, and the format cells (R292). -/
def selectedCells (m : Memory) (n : Nat) (e : Ecc) (best : MaskId) : List Host.Cell :=
  gridWrites (fun r c => inverts best r c (cellAt (gridOf m n) r c) || isFormatCell n r c) 0
    (candidate n (gridOf m n) e best)

section
variable {m : Memory} (hm : m.wf = true) {v : Nat} (e : Ecc) (best : MaskId)
include hm

theorem memCell_selectedCells (h1 : 1 ≤ v) (h40 : v ≤ 40) {r c : Nat} (hr : r < 17 + 4 * v) (hc : c < 17 + 4 * v) :
    memCell (writeBytes m (selectedCells m (17 + 4 * v) e best)) r c = candidateCell m (17 + 4 * v) e best r c := by
  have hg := isSquare_gridOf m (17 + 4 * v)
  rw [selectedCells, memCell_gridWrites hm (isSquare_candidate hg e best) (symbolSize_le h40) hr hc,
    cellAt_candidate h1 m e best hr hc, cellAt_gridOf m hr hc]
  split
  · rfl
  · rename_i hkept
    rw [Bool.or_eq_true, not_or, inverts_iff, isFormatCell_eq, Option.not_isSome_iff_eq_none] at hkept
    exact (candidateCell_of_untouched hkept.1 hkept.2).symm

theorem readByte_selectedCells_other {n a : Nat} (ha : ¬ inCells n (fun r c => (formatBitAt n r c).isSome = true ∨
    Inverted best r c (memCell m r c)) a) : readByte (writeBytes m (selectedCells m n e best)) a = readByte m a := by
  have hg := isSquare_gridOf m n
  rw [selectedCells]
  refine readByte_writeBytes_other hm fun hmem => ha ?_
  refine (inCells_congr fun r c hr hc => ?_).mp ((mem_map_fst_gridWrites_iff (isSquare_candidate hg e best)).mp hmem)
  rw [cellAt_gridOf m hr hc, Bool.or_eq_true, inverts_iff, isFormatCell_eq, or_comm]

end

/-! ### What the command answers -/

section
variable {x : Snapshot} (h1 : 1 ≤ x.mverNat) (h40 : x.mverNat ≤ 40)
include h1 h40

theorem maskSelectRule_of_unset {r c : Nat} (h : FirstCell (symbolSize x.mverNat) (fun r c =>
      (memCell x.mem r c).mod = .unset ∧ formatBitAt (symbolSize x.mverNat) r c = none) r c) :
    maskSelectRule x = .error (.unset r c) := by
  have hfirst :
      firstUnset (isFormatCell (symbolSize x.mverNat)) 0 (gridOf x.mem (symbolSize x.mverNat)) = some (r, c) :=
    firstUnset_eq_some (h.congr fun _ _ => by rw [isFormatCell_eq_false_iff])
  rw [maskSelectRule, if_neg (not_badVersion h1 h40)]
  dsimp only
  rw [hfirst]

theorem maskSelectRule_eq_ok {score : MaskId → Nat} (hscore : score = fun k =>
      specPenalty (symbolSize x.mverNat) fun r c => (candidateCell x.mem (symbolSize x.mverNat) x.ops.ecc k r c).val)
    {best : MaskId} (hbest : best = bestOf (maskIds.map score))
    (h : ∀ r c, r < symbolSize x.mverNat → c < symbolSize x.mverNat → formatBitAt (symbolSize x.mverNat) r c = none →
      (memCell x.mem r c).mod ≠ .unset) :
    maskSelectRule x = .ok {
      res := [natWord best.val, natWord (score best), natWord (formatWord x.ops.ecc best)]
      score := (maskIds.map score).map natWord
      mem := selectedCells x.mem (symbolSize x.mverNat) x.ops.ecc best } := by
  have hnone : firstUnset (isFormatCell (symbolSize x.mverNat)) 0 (gridOf x.mem (symbolSize x.mverNat)) = none :=
    firstUnset_eq_none fun r c hr hc hf => h r c hr hc (isFormatCell_eq_false_iff.mp hf)
  have hscores : scores (symbolSize x.mverNat) (gridOf x.mem (symbolSize x.mverNat)) x.ops.ecc = maskIds.map score :=
    hscore ▸ scores_eq h1 x.mem x.ops.ecc
  rw [maskSelectRule, if_neg (not_badVersion h1 h40)]
  dsimp only
  rw [hnone]
  dsimp only
  rw [hscores, hbest, score_bestOf score, selectedCells]

end

/-- A ready command whose rule answers its writes completes with them. -/
theorem State.Ready.exec_of_ok {s : State} (hs : s.Ready) {i : Instr} {w : Writes} (h : ruleOf i s.snapshot = .ok w) :
    exec i s = .next (s.completeOk w) := by
  rw [hs.exec_eq, h, State.finish_ok]

/-- Settles O51: the eight scores are the penalties of the candidates, the first place of the least one is the lowest
best id, and what is stored of its candidate are the cells in which it differs from the matrix. -/
theorem maskSelectTakesTheLowestScore : Obligations.MaskSelectTakesTheLowestScore := by
  refine ⟨rfl, fun s hs => ?_⟩
  intro v n e score
  refine ⟨fun hv => hs.raises (e := .range v 7) (if_pos (badVersion_eq_true.mpr hv)), fun h1 h40 =>
    ⟨fun r c h => hs.raises (e := .unset r c) (maskSelectRule_of_unset (x := s.snapshot) h1 h40 h), fun h => ?_⟩⟩
  have hscore : score = fun k => specPenalty n fun r c => (candidateCell s.mem n e k r c).val := rfl
  clear_value score
  obtain ⟨best, hbest⟩ : ∃ best, best = bestOf (maskIds.map score) := ⟨_, rfl⟩
  have hrule : ruleOf .maskSelect s.snapshot = _ := maskSelectRule_eq_ok (x := s.snapshot) h1 h40 hscore hbest h
  refine ⟨_, best, hs.exec_of_ok hrule, hbest ▸ isBest_bestOf score, completed_completeOk s _, resHolds_completeOk s _,
    fun k => ?_, rfl, rfl, fun r c hr hc => ?_, fun a ha => ?_⟩
  · rw [State.completeOk_score, setFrom_get _ _ _ _ k.isLt, if_pos (Nat.zero_le _), Nat.sub_zero, List.getElem?_map,
      getElem?_map_maskIds, Option.map_some, Option.getD_some]
  · dsimp only [State.completeOk_mem]
    exact memCell_selectedCells hs.mem_wf e best h1 h40 hr hc
  · dsimp only [State.completeOk_mem]
    exact readByte_selectedCells_other hs.mem_wf e best ha

end Sys2Proof.Machine

/-! The words of the format and version information (R310, R314): the division that computes the check bits takes a
multiple of the generator away, and what it leaves lies below the generator's degree. -/

namespace Sys2Proof.Machine

/-! ### Carry-less products -/

theorem clmul_xor_right (a b b' : Nat) : clmul a (b ^^^ b') = clmul a b ^^^ clmul a b' := by
  refine List.foldl_hom₂ _ (· ^^^ ·) _ _ _ 0 0 fun r r' i => ?_
  rw [Nat.testBit_xor]
  generalize a <<< i = m
  have both : r ^^^ m ^^^ (r' ^^^ m) = r ^^^ r' ^^^ (m ^^^ m) := by ac_rfl
  cases b.testBit i <;> cases b'.testBit i <;> simp [both] <;> ac_rfl

theorem clmul_zero_right (a : Nat) : clmul a 0 = 0 := by simp [clmul]

theorem clmul_two_pow (a : Nat) {k : Nat} (hk : k < 8) : clmul a (2 ^ k) = a <<< k := by
  interval_cases k <;> exact Nat.zero_xor _

/-! ### The division (R310, R314) -/

/-- Each step takes away the generator shifted to the bit that it clears; together they take away a multiple. -/
theorem exists_clmul_eq_xor_bchReduce (g low : Nat) {k : Nat} (hk : k ≤ 8) (x : Nat) :
    ∃ q, q < 2 ^ k ∧ x ^^^ bchReduce g low k x = clmul g q := by
  induction k generalizing x with
  | zero => exact ⟨0, by decide, by rw [bchReduce, Nat.xor_self, clmul_zero_right]⟩
  | succ k ih =>
    rw [bchReduce]
    have hpow : 2 ^ k < 2 ^ (k + 1) := Nat.pow_lt_pow_succ (by decide)
    by_cases hbit : x.testBit (low + k) = true
    · obtain ⟨q, hq, h⟩ := ih (by omega) (x ^^^ (g <<< k))
      refine ⟨q ^^^ 2 ^ k, Nat.xor_lt_two_pow (hq.trans hpow) hpow, ?_⟩
      rw [if_pos hbit, clmul_xor_right, clmul_two_pow g (by omega), ← h, Nat.xor_right_comm x, Nat.xor_xor_cancel_right]
    · obtain ⟨q, hq, h⟩ := ih (by omega) x
      exact ⟨q, hq.trans hpow, by rw [if_neg hbit, h]⟩

theorem lt_two_pow_of_testBit_eq_false {x n : Nat} (hx : x < 2 ^ (n + 1)) (hbit : x.testBit n = false) :
    x < 2 ^ n := by
  refine Nat.lt_pow_two_of_testBit x fun i hi => ?_
  obtain rfl | hlt := Nat.eq_or_lt_of_le hi
  · exact hbit
  · exact Nat.testBit_lt_two_pow (hx.trans_le (Nat.pow_le_pow_right (by decide) hlt))

/-- A generator of degree `low` leaves a remainder below `2 ^ low`, since each step clears the leading bit. -/
theorem bchReduce_lt {g low : Nat} (hlead : g.testBit low = true) (hdeg : g < 2 ^ (low + 1)) {k x : Nat}
    (hx : x < 2 ^ (low + k)) : bchReduce g low k x < 2 ^ low := by
  induction k generalizing x with
  | zero => exact hx
  | succ k ih =>
    rw [bchReduce]
    refine ih (lt_two_pow_of_testBit_eq_false ?_ ?_)
    · split
      · exact Nat.xor_lt_two_pow hx (by simpa only [Nat.add_right_comm] using Nat.shiftLeft_lt (m := k) hdeg)
      · exact hx
    · split
      · rename_i hbit
        rw [Nat.testBit_xor, hbit, Nat.testBit_shiftLeft, Nat.add_sub_cancel, hlead,
          decide_eq_true (Nat.le_add_left k low)]
        rfl
      · rename_i hbit
        exact Bool.eq_false_iff.mpr hbit

/-- The systematic codeword: the `k` data bits, and below them the check bits that the division leaves. -/
def bchWord (g low k d : Nat) : Nat := (d <<< low) ||| (bchReduce g low k (d <<< low) % 2 ^ low)

theorem formatWord_eq (e : Ecc) (k : MaskId) : formatWord e k = bchWord g15 10 5 (formatData e k) ^^^ mask15 := rfl

theorem versionWord_eq (v : Nat) : versionWord v = bchWord g18 12 6 v := rfl

theorem shiftLeft_or_eq_xor {r n : Nat} (hr : r < 2 ^ n) (d : Nat) : (d <<< n) ||| r = (d <<< n) ^^^ r := by
  refine Nat.eq_of_testBit_eq fun i => ?_
  rw [Nat.testBit_or, Nat.testBit_xor, Nat.testBit_shiftLeft]
  by_cases hi : n ≤ i
  · rw [Nat.testBit_lt_two_pow (hr.trans_le (Nat.pow_le_pow_right (by decide) hi)), Bool.or_false, Bool.xor_false]
  · rw [decide_eq_false hi, Bool.false_and, Bool.false_or, Bool.false_xor]

theorem bchWord_div (g low k d : Nat) : bchWord g low k d / 2 ^ low = d := by
  have hrem : bchReduce g low k (d <<< low) % 2 ^ low < 2 ^ low := Nat.mod_lt _ (Nat.two_pow_pos low)
  rw [bchWord, ← Nat.shiftRight_eq_div_pow, Nat.shiftRight_or_distrib, Nat.shiftLeft_shiftRight,
    Nat.shiftRight_eq_div_pow, Nat.div_eq_of_lt hrem, Nat.or_zero]

section
variable {g low k d : Nat} (hd : d < 2 ^ k)
include hd

theorem bchWord_lt : bchWord g low k d < 2 ^ (k + low) :=
  Nat.or_lt_two_pow (Nat.shiftLeft_lt hd) ((Nat.mod_lt _ (Nat.two_pow_pos low)).trans_le
    (Nat.pow_le_pow_right (by decide) (Nat.le_add_left low k)))

/-- The codeword is a multiple of the generator. -/
theorem exists_bchWord_eq_clmul (hlead : g.testBit low = true) (hdeg : g < 2 ^ (low + 1)) (hk : k ≤ 8) :
    ∃ q, q < 2 ^ k ∧ bchWord g low k d = clmul g q := by
  obtain ⟨q, hq, h⟩ := exists_clmul_eq_xor_bchReduce g low hk (d <<< low)
  have hrem : bchReduce g low k (d <<< low) < 2 ^ low :=
    bchReduce_lt hlead hdeg (Nat.add_comm low k ▸ Nat.shiftLeft_lt hd)
  exact ⟨q, hq, by rw [bchWord, Nat.mod_eq_of_lt hrem, shiftLeft_or_eq_xor hrem, h]⟩

end

/-! ### What FORMAT_ENCODE and VERSION_ENCODE answer (R311, R315) -/

theorem formatData_eq (e : Ecc) (k : MaskId) : formatData e k = 8 * eccIndicator e + k.val := by
  rw [formatData, ← Nat.shiftLeft_add_eq_or_of_lt k.isLt, Nat.shiftLeft_eq, Nat.mul_comm]

theorem formatData_lt (e : Ecc) (k : MaskId) : formatData e k < 2 ^ 5 := by
  have hind : eccIndicator e < 4 := by cases e <;> decide
  have hmask : k.val < 8 := k.isLt
  rw [formatData_eq]
  omega

/-- Settles O52: taking the fixed pattern off leaves the codeword of the five data bits. -/
theorem formatEncodeIsTheBchWord : Obligations.FormatEncodeIsTheBchWord := by
  intro s hs
  obtain ⟨t, hexec, hres⟩ := hs.exists_onlyRes (i := .formatEncode) rfl
  have hd := formatData_lt s.ops.ecc s.ops.mask
  obtain ⟨q, hq, hword⟩ := exists_bchWord_eq_clmul hd (g := g15) (low := 10) (by decide) (by decide) (by decide)
  have hunmask : formatWord s.ops.ecc s.ops.mask ^^^ 0x5412 = bchWord g15 10 5 (formatData s.ops.ecc s.ops.mask) :=
    Nat.xor_xor_cancel_right _ mask15
  refine ⟨t, _, q, hexec, hres, Nat.xor_lt_two_pow (bchWord_lt hd) (by decide), hq, hunmask.trans hword, ?_⟩
  rw [State.snapshot_ops, hunmask, bchWord_div, formatData_eq]
  cases s.ops.ecc <;> rfl

theorem versionEncodeRule_low {x : Snapshot} (h1 : 1 ≤ x.ver) (h7 : x.ver < 7) :
    versionEncodeRule x = .error (.range x.ver 8) := by
  rw [versionEncodeRule, if_neg (not_badVersion h1 (by omega)), if_pos h7]

theorem versionEncodeRule_eq_ok {x : Snapshot} (h7 : 7 ≤ x.ver) (h40 : x.ver ≤ 40) :
    versionEncodeRule x = .ok { res := [natWord (versionWord x.ver)] } := by
  rw [versionEncodeRule, if_neg (not_badVersion (by omega) h40), if_neg h7.not_gt]

/-- Settles O54: the word is the codeword of the version. -/
theorem versionEncodeIsTheBchWord : Obligations.VersionEncodeIsTheBchWord := by
  intro s hs v
  refine ⟨fun hv => hs.raises (e := .range v 1) (if_pos (badVersion_eq_true.mpr hv)),
    fun h1 h7 => hs.raises (e := .range v 8) (versionEncodeRule_low (x := s.snapshot) h1 h7), fun h7 h40 => ?_⟩
  obtain ⟨t, hexec, hres⟩ := hs.exists_onlyRes (i := .versionEncode) (versionEncodeRule_eq_ok (x := s.snapshot) h7 h40)
  obtain ⟨q, hq, hword⟩ := exists_bchWord_eq_clmul (g := g18) (low := 12) (k := 6) (d := v) (by omega) (by decide)
    (by decide) (by decide)
  exact ⟨t, _, q, hexec, hres, hq, hword, bchWord_div g18 12 6 v⟩

end Sys2Proof.Machine

/-! The cells of the metadata (R312, R316): what the stamps make of each cell of the matrix. -/

namespace Sys2Proof.Machine

/-! ### Marks in any order -/

section
variable {n r c : Nat}

/-- Every listed mark lies in `[0, n)²`. -/
def MarksInside (n : Nat) (ms : List (Nat × Nat × Bool)) : Prop := ∀ m ∈ ms, m.1 < n ∧ m.2.1 < n

theorem cellAt_markAll_of_unmarked {ms : List (Nat × Nat × Bool)} (hin : MarksInside n ms) {g : Grid}
    (hg : IsSquare n g) (h : ∀ y, (r, c, y) ∉ ms) : cellAt (markAll g ms) r c = cellAt g r c := by
  induction ms generalizing g with
  | nil => rfl
  | cons m ms ih =>
    obtain ⟨hm, hin⟩ := List.forall_mem_cons.mp hin
    have hne : ¬ (r = m.1 ∧ c = m.2.1) := fun ⟨hr, hc⟩ => h m.2.2 (hr ▸ hc ▸ List.mem_cons_self)
    rw [markAll, ih hin (isSquare_setCell hg _ _ _) fun y hy => h y (List.mem_cons_of_mem m hy),
      cellAt_setCell hg _ _ _ _ _ hm.1 hm.2, if_neg hne]

/-- A cell that every mark on it gives one value has that value. -/
theorem cellAt_markAll_of_marked {ms : List (Nat × Nat × Bool)} (hin : MarksInside n ms) {g : Grid}
    (hg : IsSquare n g) {y : Bool} (hy : (r, c, y) ∈ ms) (h : ∀ y', (r, c, y') ∈ ms → y' = y) :
    cellAt (markAll g ms) r c = marked y := by
  induction ms generalizing g with
  | nil => cases hy
  | cons m ms ih =>
    obtain ⟨hm, hins⟩ := List.forall_mem_cons.mp hin
    have hrest : ∀ y', (r, c, y') ∈ ms → y' = y := fun y' hy' => h y' (List.mem_cons_of_mem m hy')
    have hset := isSquare_setCell hg m.1 m.2.1 (marked m.2.2)
    rw [markAll]
    by_cases hlater : (r, c, y) ∈ ms
    · exact ih hins hset hlater hrest
    · obtain rfl := (List.mem_cons.mp hy).resolve_right hlater
      rw [cellAt_markAll_of_unmarked hins hset fun y' hy' => hlater (hrest y' hy' ▸ hy'),
        cellAt_setCell hg _ _ _ _ _ hm.1 hm.2, if_pos ⟨rfl, rfl⟩]

end

/-! ### The version cells (R316) -/

section
variable {n r c : Nat}

/-- A version cell has one bit: the two blocks do not meet, and no cell of a block is listed twice. -/
theorem versionBitAt_eq_some_iff (hn : 17 ≤ n) {i : Nat} : versionBitAt n r c = some i ↔
    i < 18 ∧ ((r, c) = vposTR n i ∨ (r, c) = vposBL n i) := by
  simp only [versionBitAt, vposTR, vposBL, Prod.mk.injEq]
  split_ifs with htop hleft
  · rw [Option.some.injEq]; omega
  · rw [Option.some.injEq]; omega
  · exact iff_of_false nofun (by omega)

theorem mem_versionMarks_iff {w i : Nat} {y : Bool} :
    (r, c, y) ∈ versionMarks n w i ↔ ((r, c) = vposTR n i ∨ (r, c) = vposBL n i) ∧ y = w.testBit i := by
  simp only [versionMarks, List.mem_cons, List.not_mem_nil, or_false, Prod.ext_iff, or_and_right, and_assoc]

theorem mem_allVersionMarks_iff (hn : 17 ≤ n) {w : Nat} {y : Bool} :
    (r, c, y) ∈ (List.range 18).flatMap (versionMarks n w) ↔ ∃ i, versionBitAt n r c = some i ∧ y = w.testBit i := by
  simp only [List.mem_flatMap, List.mem_range, versionBitAt_eq_some_iff hn, mem_versionMarks_iff, and_assoc]

theorem marksInside_versionMarks (hn : 17 ≤ n) (w : Nat) :
    MarksInside n ((List.range 18).flatMap (versionMarks n w)) := by
  rintro ⟨r, c, y⟩ hm
  obtain ⟨i, hi, -⟩ := (mem_allVersionMarks_iff hn).mp hm
  obtain ⟨hi, h⟩ := (versionBitAt_eq_some_iff hn).mp hi
  simp only [vposTR, vposBL, Prod.mk.injEq] at h
  dsimp only
  omega

/-- What stamping makes of a cell (R316). -/
theorem cellAt_stampVersion (hn : 17 ≤ n) {g : Grid} (hg : IsSquare n g) (v : Nat) :
    cellAt (stampVersion n g v) r c = versionStamped n v r c (cellAt g r c) := by
  have hin := marksInside_versionMarks hn (versionWord v)
  rw [stampVersion, versionStamped]
  cases hbit : versionBitAt n r c with
  | none =>
    refine cellAt_markAll_of_unmarked hin hg fun y hy => ?_
    obtain ⟨i, hi, -⟩ := (mem_allVersionMarks_iff hn).mp hy
    rw [hbit] at hi
    cases hi
  | some i =>
    refine cellAt_markAll_of_marked hin hg ((mem_allVersionMarks_iff hn).mpr ⟨i, hbit, rfl⟩) fun y hy => ?_
    obtain ⟨j, hj, rfl⟩ := (mem_allVersionMarks_iff hn).mp hy
    rw [hbit] at hj
    rw [Option.some.inj hj]

end

/-! ### The matrix after a stamp (R313, R317) -/

/-- A stored cell of a square is one that is kept. -/
theorem inCells_of_mem_gridWrites {keep : Nat → Nat → Bool} {n : Nat} {g : Grid} (hg : IsSquare n g)
    {P : Nat → Nat → Prop} (hP : ∀ r c, keep r c = true → P r c) {e : Host.Cell} (he : e ∈ gridWrites keep 0 g) :
    inCells n P e.1 := by
  obtain ⟨r, c, hr, hc, hkeep, haddr⟩ := (mem_map_fst_gridWrites_iff hg).mp (List.mem_map_of_mem he)
  exact ⟨r, c, hr, hc, hP r c hkeep, haddr⟩

section
variable {m : Memory} (hm : m.wf = true) {v : Nat} (h40 : v ≤ 40) {r c : Nat} (hr : r < 17 + 4 * v)
  (hc : c < 17 + 4 * v)
include hm h40 hr hc

theorem memCell_formatStamp (h1 : 1 ≤ v) (e : Ecc) (k : MaskId) :
    memCell (writeBytes m (gridWrites (isFormatCell (17 + 4 * v)) 0
      (stampFormat (17 + 4 * v) (gridOf m (17 + 4 * v)) e k))) r c =
      formatStamped (17 + 4 * v) e k r c (memCell m r c) := by
  have hg := isSquare_gridOf m (17 + 4 * v)
  rw [memCell_gridWrites hm (isSquare_stampFormat hg e k) (symbolSize_le h40) hr hc,
    cellAt_stampFormat h1 hg e k hr hc, cellAt_gridOf m hr hc]
  split
  · rfl
  · rename_i hkept
    rw [formatStamped, isFormatCell_eq_false_iff.mp (Bool.eq_false_iff.mpr hkept)]

theorem memCell_versionStamp :
    memCell (writeBytes m (gridWrites (isVersionCell (17 + 4 * v)) 0
      (stampVersion (17 + 4 * v) (gridOf m (17 + 4 * v)) v))) r c =
      versionStamped (17 + 4 * v) v r c (memCell m r c) := by
  have hg := isSquare_gridOf m (17 + 4 * v)
  rw [memCell_gridWrites hm (isSquare_stampVersion hg v) (symbolSize_le h40) hr hc,
    cellAt_stampVersion (Nat.le_add_right 17 _) hg v, cellAt_gridOf m hr hc, isVersionCell_eq (by omega)]
  split
  · rfl
  · rename_i hkept
    rw [versionStamped, Option.not_isSome_iff_eq_none.mp hkept]

end

/-! ### What FORMAT_STAMP and VERSION_STAMP answer -/

theorem formatStampRule_eq_ok {x : Snapshot} (h1 : 1 ≤ x.mverNat) (h40 : x.mverNat ≤ 40) : formatStampRule x = .ok {
    res := [natWord (formatWord x.ops.ecc x.ops.mask)]
    mem := gridWrites (isFormatCell (symbolSize x.mverNat)) 0
      (stampFormat (symbolSize x.mverNat) (gridOf x.mem (symbolSize x.mverNat)) x.ops.ecc x.ops.mask) } :=
  if_neg (not_badVersion h1 h40)

/-- Settles O53: what is stored are the format cells of the stamped matrix. -/
theorem formatStampWritesTheFormatCells : Obligations.FormatStampWritesTheFormatCells := by
  refine ⟨rfl, fun s hs => ?_⟩
  intro v n
  refine ⟨fun hv => hs.raises (e := .range v 7) (if_pos (badVersion_eq_true.mpr hv)), fun h1 h40 => ?_⟩
  have hrule : ruleOf .formatStamp s.snapshot = _ := formatStampRule_eq_ok h1 h40
  obtain ⟨t, hexec, hall, hmem⟩ := hs.exists_onlyResMem hrule
    (P := inCells n fun r c => (formatBitAt n r c).isSome = true) fun e =>
      inCells_of_mem_gridWrites (isSquare_stampFormat (isSquare_gridOf _ _) _ _) fun r c hkeep => by
        rwa [← isFormatCell_eq]
  refine ⟨t, hexec, hall, fun r c hr hc => ?_⟩
  rw [hmem]
  exact memCell_formatStamp hs.mem_wf h40 hr hc h1 _ _

theorem versionStampRule_low {x : Snapshot} (h1 : 1 ≤ x.mverNat) (h7 : x.mverNat < 7) :
    versionStampRule x = .error (.range x.mverNat 8) := by
  rw [versionStampRule, if_neg (not_badVersion h1 (by omega)), if_pos h7]

theorem versionStampRule_eq_ok {x : Snapshot} (h7 : 7 ≤ x.mverNat) (h40 : x.mverNat ≤ 40) : versionStampRule x = .ok {
    res := [natWord (versionWord x.mverNat)]
    mem := gridWrites (isVersionCell (symbolSize x.mverNat)) 0
      (stampVersion (symbolSize x.mverNat) (gridOf x.mem (symbolSize x.mverNat)) x.mverNat) } := by
  rw [versionStampRule, if_neg (not_badVersion (by omega) h40), if_neg h7.not_gt]

/-- Settles O55: what is stored are the version cells of the stamped matrix. -/
theorem versionStampWritesTheVersionCells : Obligations.VersionStampWritesTheVersionCells := by
  refine ⟨rfl, fun s hs => ?_⟩
  intro v n
  refine ⟨fun hv => hs.raises (e := .range v 7) (if_pos (badVersion_eq_true.mpr hv)),
    fun h1 h7 => hs.raises (e := .range v 8) (versionStampRule_low (x := s.snapshot) h1 h7), fun h7 h40 => ?_⟩
  have hrule : ruleOf .versionStamp s.snapshot = _ := versionStampRule_eq_ok h7 h40
  obtain ⟨t, hexec, hall, hmem⟩ := hs.exists_onlyResMem hrule
    (P := inCells n fun r c => (versionBitAt n r c).isSome = true) fun e =>
      inCells_of_mem_gridWrites (isSquare_stampVersion (isSquare_gridOf _ _) _) fun r c hkeep => by
        rwa [← isVersionCell_eq (by omega)]
  refine ⟨t, hexec, hall, fun r c hr hc => ?_⟩
  rw [hmem]
  exact memCell_versionStamp hs.mem_wf h40 hr hc

end Sys2Proof.Machine

/-! The lifecycle of a command (R350 to R360): an accepted word is decoded and completes, with an error or without, and
what sets and clears the interrupt line. -/

namespace Sys2Proof.Machine

/-! ### Decoding an accepted word (R100, R101, R108, R351) -/

/-- The opcode is of R108's list. -/
abbrev IsReservedOpcode (op : Nat) : Prop :=
  (0x02 ≤ op ∧ op ≤ 0x0F) ∨ (0x18 ≤ op ∧ op ≤ 0x1F) ∨ (0x22 ≤ op ∧ op ≤ 0x2F) ∨ (0x33 ≤ op ∧ op ≤ 0x37) ∨
    (0x3A ≤ op ∧ op ≤ 0x3F) ∨ (0x41 ≤ op ∧ op ≤ 0x4F) ∨ (0x52 ≤ op ∧ op ≤ 0x5F) ∨ (0x63 ≤ op ∧ op ≤ 0x6F) ∨
    (0x74 ≤ op ∧ op ≤ 0x7F) ∨ (0x81 ≤ op ∧ op ≤ 0xFF)

/-- The word names no command: a bit of [31:8] is set, or the opcode is reserved. -/
def NamesNoCommand (w : Word) : Prop := rsvdField w ≠ 0 ∨ IsReservedOpcode (opcodeField w).toNat

/-- The opcode map has no row for just the opcodes that R108 lists. -/
theorem instrOfOpcode_eq_none_iff (op : Byte) : instrOfOpcode op.toNat = none ↔ IsReservedOpcode op.toNat := by
  revert op
  decide +kernel

theorem opcodeOf_of_instrOfOpcode {op : Byte} {i : Instr} (h : instrOfOpcode op.toNat = some i) : opcodeOf i = op := by
  revert op
  cases i <;> decide +kernel

/-- A word that names no command does not decode. -/
theorem decode_of_namesNoCommand {w : Word} (h : NamesNoCommand w) : ∃ e, decode w = .error e := by
  unfold decode
  split
  · exact ⟨_, rfl⟩
  · rename_i hrsvd
    rw [(instrOfOpcode_eq_none_iff _).mpr (h.resolve_left hrsvd)]
    exact ⟨_, rfl⟩

/-- Every other word decodes to the command that has its opcode. -/
theorem decode_of_not_namesNoCommand {w : Word} (h : ¬ NamesNoCommand w) :
    ∃ i, opcodeOf i = w.extractLsb' 0 8 ∧ decode w = .ok i := by
  obtain ⟨hrsvd, hop⟩ := not_or.mp h
  rw [← instrOfOpcode_eq_none_iff] at hop
  obtain ⟨i, hi⟩ := Option.ne_none_iff_exists'.mp hop
  refine ⟨i, opcodeOf_of_instrOfOpcode hi, ?_⟩
  simp only [decode, if_neg hrsvd, hi]

/-! ### The step of a running machine (R351, R352, R353) -/

section
variable {s : State} {w : Word} {x : Snapshot}

/-- The sequencer's step completes the accepted word, whether it names a command or not. -/
theorem sequencerStep_of_running (hp : s.phase = .busy w x) : sequencerStep s = .next (s.finish (resultOf w x)) := by
  unfold sequencerStep resultOf
  rw [hp]
  dsimp only
  cases decode w with
  | error e => rfl
  | ok i => exact (exec_finish i s).trans (by rw [input_of_running hp])

theorem step_of_no_events (he : s.events = []) : step s = sequencerStep s := by
  rw [step, he]

/-- A word that does not decode raises E_ILLEGAL with the word. -/
theorem step_of_decode_error (hp : s.phase = .busy w x) (he : s.events = []) {e : DecodeError}
    (hd : decode w = .error e) : ∃ t, step s = .next t ∧ RaisedError s t 7 w 0 := by
  refine ⟨s.raiseError (.illegal w), ?_, raisedError_raiseError s (.illegal w)⟩
  rw [step_of_no_events he, sequencerStep_of_running hp, resultOf, hd, State.finish_error]

theorem State.finish_done (s : State) (r : CmdResult) : (s.finish r).done = true := by cases r <;> rfl

theorem State.finish_phase (s : State) (r : CmdResult) : (s.finish r).phase = .idle := by cases r <;> rfl

/-- A completion raises the interrupt line where it is enabled (R360). -/
theorem State.finish_irq (s : State) (r : CmdResult) : (s.finish r).irq = s.ie := by
  rw [State.irq, State.finish_done, (hostSideKept_finish s r).ie, Bool.and_true]

end

/-- Settles O4: the words that do not decode are those of R108's list, and every other one runs its command. -/
theorem acceptedWordIsDecodedFirst : Obligations.AcceptedWordIsDecodedFirst := by
  intro s w x hp he
  change (NamesNoCommand w → _) ∧ (¬ NamesNoCommand w → _)
  refine ⟨fun h => ?_, fun h => ?_⟩
  · obtain ⟨e, hd⟩ := decode_of_namesNoCommand h
    exact step_of_decode_error hp he hd
  · obtain ⟨i, hop, hd⟩ := decode_of_not_namesNoCommand h
    exact ⟨i, hop, (stepRunsTheDecodedCommand s w x i hp hd).1 he⟩

/-- A word is its RSVD field and its opcode (R100). -/
theorem rsvdField_ne_zero {w : Word} (hop : opcodeField w = 0) (hw : w ≠ 0) : rsvdField w ≠ 0 := by
  intro hrsvd
  refine hw (BitVec.eq_of_getLsbD_eq fun i hi => ?_)
  by_cases h8 : i < 8
  · have hbit := congrArg (·.getLsbD i) hop
    simpa [opcodeField, h8] using hbit
  · have hbit := congrArg (·.getLsbD (i - 8)) hrsvd
    simpa [rsvdField, show i - 8 < 24 by omega, show 8 + (i - 8) = i by omega] using hbit

/-- Settles O56: the rule of NOP writes nothing, and a word with opcode 0 that is not 0 has a reserved bit set. -/
theorem nopWritesOnlyStatus : Obligations.NopWritesOnlyStatus := by
  refine ⟨rfl, fun s hs => hs.exists_onlyRes rfl, fun s w x hp he hop hw => ?_⟩
  obtain ⟨e, hd⟩ := decode_of_namesNoCommand (.inl (rsvdField_ne_zero hop hw))
  exact step_of_decode_error hp he hd

/-- Settles O23: the step is a completion, which writes all of a command's outputs or, with an error, none. -/
theorem completionIsPrecise : Obligations.CompletionIsPrecise := by
  intro s w x hinv hp he
  obtain ⟨-, hcmd, -, herr, hcode, hinfo0, hinfo1⟩ := hinv.running w x hp
  have hkept := hostSideKept_finish s (resultOf w x)
  refine ⟨s.finish (resultOf w x), by rw [step_of_no_events he, sequencerStep_of_running hp], hkept,
    hkept.cmd.trans hcmd, s.finish_done _, s.finish_phase _, ?_⟩
  cases resultOf w x with
  | error e => exact .inr ⟨rfl, e.code_range.2, (raisedError_raiseError s e).toOutputsKept⟩
  | ok ws => exact .inl ⟨herr, hcode, hinfo0, hinfo1⟩

/-! ### What sets and clears DONE (R23, R360) -/

section
variable {s : State}

theorem done_of_writeReg {off : Nat} {d : Word} (h : (s.writeReg off d).done = true) : s.done = true := by
  unfold State.writeReg State.writeCtrl State.writeRegIdle at h
  split at h
  · split at h
    · cases h
    · exact h
  split at h
  · exact (Bool.and_eq_true_iff.mp h).1
  split at h
  · exact h
  split at h
  · exact h
  split at h
  · cases h
  all_goals exact h

theorem writeStorage_done (s : State) (a : Access) (d : Word) : (s.writeStorage a d).done = s.done := by
  unfold State.writeStorage
  split
  · split <;> rfl
  · rfl

theorem hostRead_done (s : State) (a : Access) : (s.hostRead a).done = s.done := by
  unfold State.hostRead
  split
  · rfl
  · split <;> rfl

/-- No host access sets DONE. -/
theorem done_of_hostAccess {t : State} {a : Access} (h : s.hostAccess a = .next t) (ht : t.done = true) :
    s.done = true := by
  obtain ⟨-, ⟨-, rfl⟩ | ⟨-, -, rfl⟩ | ⟨-, d, -, rfl⟩⟩ := hostAccess_cases h
  · exact ht
  · rwa [hostRead_done] at ht
  · unfold State.hostWrite at ht
    split at ht
    · exact done_of_writeReg ht
    · rwa [State.respond_done, writeStorage_done] at ht

/-- The sequencer sets DONE by completing a command, and by nothing else. -/
theorem running_of_sequencerStep_done {t : State} (h : sequencerStep s = .next t) (hs : s.done = false)
    (ht : t.done = true) : (∃ w x, s.phase = .busy w x) ∧ t.phase = .idle := by
  obtain ⟨-, rfl⟩ | ⟨-, rfl⟩ | ⟨w, x, i, hp, -, rfl⟩ | ⟨w, x, e, hp, -, rfl⟩ := sequencerStep_cases h
  · exact absurd (hs.symm.trans ht) Bool.false_ne_true
  · exact absurd (hs.symm.trans ht) Bool.false_ne_true
  · exact ⟨⟨w, x, hp⟩, s.finish_phase _⟩
  · exact ⟨⟨w, x, hp⟩, rfl⟩

/-- No step but a completion sets DONE. -/
theorem running_of_step_done {t : State} (h : step s = .next t) (hs : s.done = false) (ht : t.done = true) :
    (∃ w x, s.phase = .busy w x) ∧ t.phase = .idle := by
  obtain ⟨-, hq⟩ | ⟨es, -, hq⟩ | ⟨a, es, -, ha⟩ | ⟨b, es, -, rfl⟩ := step_cases h
  · exact running_of_sequencerStep_done hq hs ht
  · exact running_of_sequencerStep_done (s := { s with events := es }) hq hs ht
  · exact absurd (hs.symm.trans (done_of_hostAccess (s := { s with events := es }) ha ht)) Bool.false_ne_true
  · cases ht

theorem writeCtrl_irq (s : State) (d : Word) :
    (s.writeCtrl d).irq = (d.getLsbD 0 && !d.getLsbD 1 && s.done) := by
  unfold State.writeCtrl
  cases d.getLsbD 1 <;> simp [State.irq]

end

/-- Settles O22: the line is IE and DONE, completions alone set DONE, and each write acts on one of the two. -/
theorem interruptLine : Obligations.InterruptLine := by
  refine ⟨fun s => Bool.and_eq_true_iff, fun s w x hp => ?_, fun s t i h => ?_, fun s t => running_of_step_done,
    fun s d es he => ⟨_, step_writeReg he rfl (by decide), writeCtrl_irq { s with events := es } d⟩,
    fun s d es he => ⟨_, step_writeReg he rfl (by decide), (Bool.and_assoc ..).symm⟩, fun s d es hp he => ?_,
    fun s b es he => ?_⟩
  · exact ⟨_, sequencerStep_of_running hp, s.finish_phase _, s.finish_done _, s.finish_irq _⟩
  · rw [eq_finish_of_exec h, State.finish_irq]
  · have hidle : ({ s with events := es } : State).busy = false := State.busy_eq_false_iff.mpr hp
    refine ⟨_, step_writeReg he rfl (by decide), ?_⟩
    rw [writeReg_cmd_of_idle hidle]
    exact Bool.and_false _
  · exact ⟨({ s with events := es } : State).powerOn b, by rw [step, he], rfl⟩

end Sys2Proof.Machine

/-! Resets and completion (R390 to R401): what power-on and a soft reset leave, and that the machine comes to rest. -/

namespace Sys2Proof.Machine

/-- Settles O18: at a reset the registers hold their reset values, and power-on leaves only legal bytes. -/
theorem resetMeetsTheInvariant : Obligations.ResetMeetsTheInvariant :=
  ⟨inv_resetHolding (m := []) rfl, inv_powerOn⟩

/-! ### Completion (R401) -/

section
variable {s t : State}

theorem writeReg_events (s : State) (off : Nat) (d : Word) : (s.writeReg off d).events = s.events := by
  unfold State.writeReg State.writeCtrl State.writeRegIdle
  split
  · split <;> rfl
  split
  · rfl
  split
  · rfl
  split
  · rfl
  split <;> rfl

theorem writeStorage_events (s : State) (a : Access) (d : Word) : (s.writeStorage a d).events = s.events := by
  unfold State.writeStorage
  split
  · split <;> rfl
  · rfl

theorem hostRead_events (s : State) (a : Access) : (s.hostRead a).events = s.events := by
  unfold State.hostRead
  split
  · rfl
  · split <;> rfl

theorem hostWrite_events (s : State) (a : Access) (d : Word) : (s.hostWrite a d).events = s.events := by
  unfold State.hostWrite
  split
  · exact writeReg_events s _ d
  · exact writeStorage_events s a d

theorem events_of_hostAccess {a : Access} (h : s.hostAccess a = .next t) : t.events = s.events := by
  obtain ⟨-, ⟨-, rfl⟩ | ⟨-, -, rfl⟩ | ⟨-, d, -, rfl⟩⟩ := hostAccess_cases h
  · rfl
  · exact hostRead_events s a
  · exact hostWrite_events s a d

/-- The sequencer's step leads to IDLE, and leaves the events as they are. -/
theorem idle_of_sequencerStep (h : sequencerStep s = .next t) : t.phase = .idle ∧ t.events = s.events := by
  obtain ⟨-, rfl⟩ | ⟨hp, rfl⟩ | ⟨w, x, i, -, -, rfl⟩ | ⟨w, x, e, -, -, rfl⟩ := sequencerStep_cases h
  · exact ⟨rfl, rfl⟩
  · exact ⟨hp, rfl⟩
  · exact ⟨s.finish_phase _, (hostSideKept_finish s _).events⟩
  · exact ⟨rfl, rfl⟩

/-- A step takes the event at the front. -/
theorem events_of_step {e : Event} {es : List Event} (he : s.events = e :: es) (h : step s = .next t) :
    t.events = es := by
  rw [step, he] at h
  cases e with
  | sequencer => exact (idle_of_sequencerStep h).2
  | host a => exact events_of_hostAccess h
  | powerOn b =>
    obtain rfl := Host.Outcome.next.inj h
    rfl

/-- A step is taken where the access at the front, if there is one, lies inside the window. -/
theorem exists_step (h : ∀ a, .host a ∈ s.events → a.offset + a.width.bytes ≤ 0x10000) : ∃ t, step s = .next t := by
  obtain ht | ⟨a, es, he, hout, -⟩ := onlyAnAccessOutsideTheWindowStops s
  · exact ht
  · exact absurd (h a (he ▸ List.mem_cons_self)) hout.not_ge

end

/-- Settles O21: each step takes an event off the list, and with none left the sequencer's step leads to IDLE. -/
theorem everyCommandCompletes : Obligations.EveryCommandCompletes := by
  intro s h
  obtain ⟨t, ht⟩ := exists_step h
  generalize hevents : s.events = events at h
  induction events generalizing s t with
  | nil =>
    rw [step_of_no_events hevents] at ht
    obtain ⟨hidle, hkept⟩ := idle_of_sequencerStep ht
    exact ⟨1, t, (coreRun_one s).trans ((step_of_no_events hevents).trans ht), hidle, hkept.trans hevents⟩
  | cons e es ih =>
    have htail := events_of_step hevents ht
    have hin : ∀ a, .host a ∈ es → a.offset + a.width.bytes ≤ 0x10000 := fun a ha =>
      h a (List.mem_cons_of_mem e ha)
    obtain ⟨t', ht'⟩ := exists_step (s := t) (htail ▸ hin)
    obtain ⟨k, u, hrun, hu⟩ := ih t t' ht' htail hin
    exact ⟨k + 1, u, (coreRun_succ_of_step ht).trans hrun, hu⟩

/-! ### The field after initialisation (R390) -/

theorem tablesOf_polyReset : TablesOf 0x11D (buildField polyReset) :=
  tablesOf_buildField (validPoly_iff.mp validPoly_polyReset)

theorem replicate_zero_getElem {k : Nat} (h : k < 8) : (Vector.replicate 8 (0 : Word))[k] = 0 :=
  Vector.getElem_replicate h

/-! ### Soft reset (R393) -/

/-- A soft reset changes only bytes of an aborted command's write set. -/
theorem readByte_softReset_other {s : State} (hm : s.mem.wf = true) {a : Nat} (ha : a ∉ s.writeSet) :
    readByte s.softReset.mem a = readByte s.mem a := by
  refine readByte_writeBytes_other hm fun hmem => ha ?_
  obtain ⟨e, he, rfl⟩ := List.mem_map.mp hmem
  exact (mem_freeEntries he).1

theorem softReset_mem_of_not_running {s : State} (h : ∀ w x, s.phase ≠ .busy w x) : s.softReset.mem = s.mem := by
  rw [State.softReset_mem, writeSet_of_not_running h]
  rfl

/-- Settles O16: a CTRL write with SRST = 1 is the soft reset, whatever the phase. -/
theorem softReset : Obligations.SoftReset := by
  intro s d es hinv he hsrst
  have hstep := step_writeReg he rfl (by decide)
  have hctrl : ({ s with events := es } : State).writeReg 0x004 d = ({ s with events := es } : State).softReset :=
    if_pos hsrst
  rw [hctrl] at hstep
  exact ⟨_, hstep, rfl, rfl, rfl, rfl, rfl, rfl, rfl, rfl, rfl, rfl, rfl, rfl, rfl, rfl, rfl,
    fun k hk => ⟨replicate_zero_getElem hk, replicate_zero_getElem hk⟩, rfl, rfl,
    (hinv.withEvents es).softReset.memory, fun a => readByte_softReset_other (legalMem_wf hinv.memory),
    softReset_mem_of_not_running (s := { s with events := es }), _, rfl, rfl, tablesOf_polyReset, rfl⟩

/-! ### Power-on (R391) -/

/-- Storing a byte below every listed offset puts it in front. -/
theorem writeByte_of_below {m : Memory} {a : Nat} {x : Byte} (h : risingFrom (a + 1) m = true) (hx : x ≠ unlisted) :
    writeByte m a x = (a, x) :: m := by
  cases m with
  | nil => exact if_neg hx
  | cons e m =>
    have hlow : a + 1 ≤ e.1 := of_decide_eq_true (Bool.and_eq_true_iff.mp h).1
    rw [writeByte, if_neg (by omega)]
    dsimp only
    rw [if_neg hx, if_neg (by omega)]

/-- Storing the entries of a canonical memory builds it. -/
theorem writeBytes_nil_of_wf {m : Memory} {k : Nat} (h : risingFrom k m = true)
    (hl : m.all (fun e => e.2 != unlisted) = true) : writeBytes [] m = m := by
  induction m generalizing k with
  | nil => rfl
  | cons e m ih =>
    simp only [risingFrom, Bool.and_eq_true, decide_eq_true_eq] at h
    simp only [List.all_cons, Bool.and_eq_true, bne_iff_ne] at hl
    rw [writeBytes, ih h.2 hl.2, writeByte_of_below h.2 hl.1]

/-- A legal memory is what power-on with it as contents leaves. -/
theorem powerOnMemory_of_legal {m : Memory} (h : legalMem m = true) : powerOnMemory m = m := by
  simp only [legalMem, Memory.wf, Bool.and_eq_true, List.all_eq_true, beq_iff_eq] at h
  obtain ⟨⟨hrising, hlisted⟩, hlegal⟩ := h
  have hkept : (m.filter fun e => inStorage e.1) = m := List.filter_eq_self.mpr fun e he => (hlegal e he).1
  have hstored : (m.map fun e => (e.1, storedByte e.1 e.2)) = m :=
    (List.map_congr_left (g := id) fun e he => congrArg (Prod.mk e.1) (hlegal e he).2).trans (List.map_id m)
  rw [powerOnMemory, hkept, hstored, writeBytes_nil_of_wf hrising (List.all_eq_true.mpr hlisted)]

/-- An offset that the contents give one byte holds it, a cell of the matrix as the legal cell it encodes. -/
theorem readByte_powerOnMemory_of_mem {b : List Host.Cell} {a : Nat} {x : Byte} (ha : inStorage a = true)
    (hx : (a, x) ∈ b) (hu : ∀ y, (a, y) ∈ b → y = x) : readByte (powerOnMemory b) a = storedByte a x := by
  have hfind := find_of_unique hx fun e he hea => hu e.2 (hea ▸ he)
  rw [readByte_powerOnMemory, if_pos ha]
  cases hf : b.find? fun e => e.1 == a with
  | none => simp [hf] at hfind
  | some e =>
    rw [hf, Option.map_some, Option.some.injEq] at hfind
    rw [Option.map_some, Option.getD_some, hfind]

/-- STATUS reads GF_READY = 0 and BUSY = 1 after power-on, and the reverse after initialisation (R390). -/
theorem statusWord_powerOn (s : State) (b : List Host.Cell) :
    (s.powerOn b).statusWord = 1 ∧ (s.powerOn b).initialise.statusWord = 8 :=
  ⟨(by decide : flagBit true 0 ||| flagBit false 1 ||| flagBit false 2 ||| flagBit false 3 ||| flagBit false 4 = 1),
    (by decide : flagBit false 0 ||| flagBit false 1 ||| flagBit false 2 ||| flagBit true 3 ||| flagBit false 4 = 8)⟩

/-- Settles O17: power-on leaves the reset values with the contents, and initialisation builds the tables alone. -/
theorem powerOnReset : Obligations.PowerOnReset := by
  intro s b es he
  obtain ⟨t, ht⟩ : ∃ t, t = ({ s with events := es } : State).powerOn b := ⟨_, rfl⟩
  have hstep : step s = .next t := by rw [step, he, ht]
  subst ht
  refine ⟨_, _, hstep, rfl, fun z hz => ?_, rfl, (statusWord_powerOn _ b).1, rfl, (statusWord_powerOn _ b).2, rfl,
    tablesOf_polyReset, powerOnMemory_legal b, powerOnMemory_of_legal, fun a x => readByte_powerOnMemory_of_mem⟩
  simp only [List.mem_cons, List.not_mem_nil, or_false] at hz
  obtain rfl | rfl := hz
  all_goals exact ⟨rfl, rfl, rfl, rfl, rfl, rfl, rfl, rfl, rfl, rfl, rfl, rfl, rfl, rfl,
    fun k hk => ⟨replicate_zero_getElem hk, replicate_zero_getElem hk⟩, rfl, rfl, rfl⟩

end Sys2Proof.Machine

/-! The errors of the commands (R355 to R358), and those of ENCODE in their order (R331, R332). -/

namespace Sys2Proof.Machine

/-! ### Which errors a rule answers (R355, R357) -/

/-- The code of an error, with its field code where it is E_RANGE, as the state records them (R355, R356). -/
def CmdError.tag (e : CmdError) : Nat × Nat := (e.code.toNat, if e.code = 3 then e.info1.toNat else 0)

/-- Where the result is an error, it is one of those listed. -/
def RaisesOnly {α : Type} (l : List (Nat × Nat)) (r : Except CmdError α) : Prop := ∀ e, r = .error e → e.tag ∈ l

section
variable {α : Type} {l : List (Nat × Nat)}

@[simp] theorem raisesOnly_ok (a : α) : RaisesOnly l (.ok a) := nofun

@[simp] theorem raisesOnly_error (e : CmdError) : RaisesOnly l (.error e : Except CmdError α) ↔ e.tag ∈ l :=
  ⟨fun h => h e rfl, fun h _ he => Except.error.inj he ▸ h⟩

end

@[simp] theorem tag_range (v k : Nat) : (CmdError.range v k).tag = (3, k % 2 ^ 32) := rfl
@[simp] theorem tag_capacity (n : Nat) (m : Mode) (lo hi e : Nat) (given : Bool) :
    (CmdError.capacity n m lo hi e given).tag = (1, 0) := rfl
@[simp] theorem tag_mode (off field : Nat) : (CmdError.mode off field).tag = (2, 0) := rfl
@[simp] theorem tag_divZero (a : Byte) : (CmdError.divZero a).tag = (4, 0) := rfl
@[simp] theorem tag_logZero : CmdError.logZero.tag = (5, 0) := rfl
@[simp] theorem tag_poly (p : Poly) : (CmdError.poly p).tag = (8, 0) := rfl
@[simp] theorem tag_unset (r c : Nat) : (CmdError.unset r c).tag = (9, 0) := rfl

theorem raisesOnly_resolve (m : ModeField) (bs : List Byte) : RaisesOnly [(2, 0)] (resolve m bs) := by
  unfold resolve
  cases m with
  | alnum => dsimp only; split <;> simp
  | auto | byte | unsupported => simp [modeRefused]

theorem raisesOnly_select (m : Mode) (n lo hi : Nat) (eopt : Option Ecc) :
    RaisesOnly [(3, 4), (1, 0)] (select m n lo hi eopt) := by
  unfold select
  split
  · simp
  · split <;> simp

theorem raisesOnly_encodeVersion (x : Snapshot) (m : Mode) : RaisesOnly [(3, 4), (1, 0)] (encodeVersion x m) := by
  unfold encodeVersion
  split
  · split <;> simp
  · exact raisesOnly_select m x.len _ _ _

section
variable (x : Snapshot)

theorem raisesOnly_fitCheck : RaisesOnly (errorsOf .fitCheck) (fitCheckRule x) := by
  unfold fitCheckRule errorsOf
  dsimp only
  split
  · simp
  · split <;> simp [modeRefused]

theorem raisesOnly_selectVersion : RaisesOnly (errorsOf .selectVersion) (selectVersionRule x) := by
  unfold selectVersionRule errorsOf
  dsimp only
  iterate 3
    split
    · simp
  split
  · simp [modeRefused]
  · rename_i m _
    cases hsel : select m x.len (lowBound x.minv) (highBound x.maxv) x.ops.eccOpt with
    | ok p => simp
    | error e =>
      have := raisesOnly_select _ _ _ _ _ e hsel
      rw [raisesOnly_error]
      exact List.Sublist.subset (by decide) this

theorem raisesOnly_buildData : RaisesOnly (errorsOf .buildData) (buildDataRule x) := by
  unfold buildDataRule errorsOf
  dsimp only
  iterate 2
    split
    · simp
  split
  · rename_i e he
    rw [raisesOnly_error]
    exact List.Sublist.subset (by decide) (raisesOnly_resolve _ _ e he)
  · split <;> simp

/-- E_CONSISTENCY never arises: the blocks share out exactly the data codewords (R358). -/
theorem raisesOnly_blockAssemble : RaisesOnly (errorsOf .blockAssemble) (blockAssembleRule x) := by
  by_cases hv : badVersion x.ver = true
  · rw [blockAssembleRule_badVersion hv]
    simp [errorsOf]
  · obtain ⟨h1, h40⟩ := version_of_not_bad hv
    rw [blockAssembleRule_of_version h1 h40]
    simp

theorem raisesOnly_penalty : RaisesOnly (errorsOf .penalty) (penaltyRule x) := by
  unfold penaltyRule errorsOf
  dsimp only
  split
  · simp
  · split <;> simp

theorem raisesOnly_maskSelect : RaisesOnly (errorsOf .maskSelect) (maskSelectRule x) := by
  unfold maskSelectRule errorsOf
  dsimp only
  split
  · simp
  · split <;> simp

theorem raisesOnly_versionEncode : RaisesOnly (errorsOf .versionEncode) (versionEncodeRule x) := by
  unfold versionEncodeRule errorsOf
  dsimp only
  split
  · simp
  · split <;> simp

theorem raisesOnly_versionStamp : RaisesOnly (errorsOf .versionStamp) (versionStampRule x) := by
  unfold versionStampRule errorsOf
  dsimp only
  split
  · simp
  · split <;> simp

theorem raisesOnly_encode : RaisesOnly (errorsOf .encode) (encodeRule x) := by
  unfold encodeRule errorsOf
  dsimp only
  iterate 5
    split
    · simp
  split
  · rename_i e he
    rw [raisesOnly_error]
    exact List.Sublist.subset (by decide) (raisesOnly_resolve _ _ e he)
  · split
    · rename_i e he
      rw [raisesOnly_error]
      exact List.Sublist.subset (by decide) (raisesOnly_encodeVersion _ _ e he)
    · simp

/-- A rule that makes one check answers that check's error alone. -/
theorem raisesOnly_ite {α : Type} {p : Prop} [Decidable p] {l : List (Nat × Nat)} {e : CmdError} {a : α}
    (h : e.tag ∈ l) : RaisesOnly l (if p then .error e else .ok a) := by
  split
  · exact (raisesOnly_error e).mpr h
  · exact raisesOnly_ok a

/-- Every rule answers only the errors that R355 and R357 list for its command. -/
theorem raisesOnly_ruleOf (i : Instr) : RaisesOnly (errorsOf i) (ruleOf i x) := by
  cases i
  case nop => exact raisesOnly_ok _
  case gfInit =>
    show RaisesOnly _ (gfInitRule x)
    unfold gfInitRule
    split <;> simp [errorsOf]
  case gfAdd | gfSub | gfMul | gfPow | gfExp | rsGenpoly | formatEncode => exact raisesOnly_ok _
  case gfDiv | gfInv | gfLog => exact raisesOnly_ite (by simp [errorsOf])
  case rsEncode | capQuery | modeDetect | scaffold => exact raisesOnly_ite (by simp [errorsOf])
  case place | maskApply | formatStamp => exact raisesOnly_ite (by simp [errorsOf])
  case fitCheck => exact raisesOnly_fitCheck x
  case selectVersion => exact raisesOnly_selectVersion x
  case buildData => exact raisesOnly_buildData x
  case blockAssemble => exact raisesOnly_blockAssemble x
  case penalty => exact raisesOnly_penalty x
  case maskSelect => exact raisesOnly_maskSelect x
  case versionEncode => exact raisesOnly_versionEncode x
  case versionStamp => exact raisesOnly_versionStamp x
  case encode => exact raisesOnly_encode x

end

/-- Settles O24: the state records the tag of the error that the command's rule answers. -/
theorem errorsByCommand : Obligations.ErrorsByCommand := by
  intro s t w x i hinv hp hd h
  obtain rfl := eq_finish_of_exec h
  obtain ⟨-, -, -, herr, -⟩ := hinv.running w x hp
  cases hr : ruleOf i s.input with
  | ok ws => exact .inl herr
  | error e => exact .inr (raisesOnly_ruleOf s.input i e hr)

/-! ### The checks of ENCODE (R331, R332, R357) -/

/-- The ranges of ENCODE's options, as its rule checks them. -/
theorem EncodeRanges.encodeRule_eq {s : State} (h : EncodeRanges s) : encodeRule s.snapshot =
    (resolve s.ops.mode s.inputBytes).bind fun m =>
      (encodeVersion s.snapshot m).map fun p => encodeWrites s.field m s.inputBytes p.1 p.2 := by
  have hver : ¬ 40 < s.snapshot.ver := h.ver.not_gt
  have hminv : ¬ 40 < s.snapshot.minv := h.minv.not_gt
  have hmaxv : ¬ 40 < s.snapshot.maxv := h.maxv.not_gt
  have hbounds : ¬ highBound s.snapshot.maxv < lowBound s.snapshot.minv := h.bounds.not_gt
  have hlen : ¬ inBufSize < s.snapshot.len := h.len.not_gt
  simp only [encodeRule, if_neg hver, if_neg hminv, if_neg hmaxv, if_neg hbounds, if_neg hlen, snapshot_input,
    State.snapshot_ops, State.snapshot_field]
  cases resolve s.ops.mode s.inputBytes with
  | error e => rfl
  | ok m =>
    simp only [Except.bind]
    cases encodeVersion s.snapshot m <;> rfl

/-- The range errors, each where the checks before it pass (R331). -/
theorem encodeRule_badVersion {x : Snapshot} (hver : 40 < x.ver) : encodeRule x = .error (.range x.ver 1) := if_pos hver

section
variable {x : Snapshot} (hver : x.ver ≤ 40)
include hver

theorem encodeRule_badMin (hmin : 40 < x.minv) : encodeRule x = .error (.range x.minv 2) :=
  (if_neg hver.not_gt).trans (if_pos hmin)

variable (hmin : x.minv ≤ 40)
include hmin

theorem encodeRule_badMax (hmax : 40 < x.maxv) : encodeRule x = .error (.range x.maxv 3) :=
  (if_neg hver.not_gt).trans ((if_neg hmin.not_gt).trans (if_pos hmax))

variable (hmax : x.maxv ≤ 40)
include hmax

theorem encodeRule_badOrder (h : highBound x.maxv < lowBound x.minv) :
    encodeRule x = .error (.range (lowBound x.minv + 256 * highBound x.maxv) 4) :=
  (if_neg hver.not_gt).trans ((if_neg hmin.not_gt).trans ((if_neg hmax.not_gt).trans (if_pos h)))

theorem encodeRule_badLength (hle : lowBound x.minv ≤ highBound x.maxv) (hlen : 8192 < x.len) :
    encodeRule x = .error (.range x.len 5) :=
  (if_neg hver.not_gt).trans ((if_neg hmin.not_gt).trans ((if_neg hmax.not_gt).trans
    ((if_neg hle.not_gt).trans (if_pos hlen))))

end

/-! ### What ENCODE answers where a check fails -/

section
variable {s : State} (h : EncodeRanges s)
include h

theorem EncodeRanges.encodeRule_refused {e : CmdError} (hm : resolve s.ops.mode s.inputBytes = .error e) :
    encodeRule s.snapshot = .error e := by
  rw [h.encodeRule_eq, hm]
  rfl

theorem EncodeRanges.encodeRule_of_encodeVersion {m : Mode} (hm : ResolvesTo s.ops.mode s.inputBytes m)
    {r : Except CmdError (Nat × Ecc)} (hr : encodeVersion s.snapshot m = r) : encodeRule s.snapshot =
      r.map fun p => encodeWrites s.field m s.inputBytes p.1 p.2 := by
  rw [h.encodeRule_eq, resolve_of_resolvesTo hm, ← hr]
  rfl

end

/-- The level and the flag that ENCODE records with an explicit version: 0 and 0 where none was requested (R188). -/
theorem encodeLevel_ordinal (x : Snapshot) : eccOrdinal (encodeLevel x) = eccCode x.ops.eccOpt := by
  unfold encodeLevel
  cases x.ops.eccOpt <;> rfl

theorem encodeVersion_explicit {x : Snapshot} {m : Mode} (hv : x.ver ≠ 0) (hfit : Fits m x.len x.ver (encodeLevel x)) :
    encodeVersion x m = .ok (x.ver, encodeLevel x) := by
  rw [encodeVersion, if_pos hv, if_pos (fits_iff.mpr hfit)]

theorem encodeVersion_explicit_of_not_fits {x : Snapshot} {m : Mode} (hv : x.ver ≠ 0)
    (hfit : ¬ Fits m x.len x.ver (encodeLevel x)) : encodeVersion x m =
      .error (.capacity x.len m x.ver x.ver (eccCode x.ops.eccOpt) x.ops.eccOpt.isSome) := by
  rw [encodeVersion, if_pos hv, if_neg (fits_iff.not.mpr hfit), encodeLevel_ordinal, Operands.isSome_eccOpt]

theorem encodeVersion_search {x : Snapshot} (m : Mode) (hv : x.ver = 0) : encodeVersion x m =
    select m x.len (lowBound x.minv) (highBound x.maxv) x.ops.eccOpt := by
  rw [encodeVersion, if_neg (not_not_intro hv)]

/-- Settles O57: the rule makes its checks in the order of R357, each where those before it pass. -/
theorem encodeErrors : Obligations.EncodeErrors := by
  intro s hs ver minv maxv lo hi n
  refine ⟨fun hver => ?_, fun hver hmin => ?_, fun hver hmin hmax => ?_, fun hver hmin hmax hlt => ?_,
    fun hver hmin hmax hle hlen => ?_, fun h hm => ?_, fun h k hm hbad => ?_,
    fun h m hm => ⟨fun hv hfit => ?_, fun hv hfit => ?_⟩⟩
  · exact hs.raises (i := .encode) (encodeRule_badVersion (x := s.snapshot) hver)
  · exact hs.raises (i := .encode) (encodeRule_badMin (x := s.snapshot) hver hmin)
  · exact hs.raises (i := .encode) (encodeRule_badMax (x := s.snapshot) hver hmin hmax)
  · exact hs.raises (i := .encode) (encodeRule_badOrder (x := s.snapshot) hver hmin hmax hlt)
  · exact hs.raises (i := .encode) (encodeRule_badLength (x := s.snapshot) hver hmin hmax hle hlen)
  · exact hs.raises (i := .encode) (e := .mode 0xFFFF 3) (h.encodeRule_refused (by rw [hm]; rfl))
  · exact hs.raises (i := .encode) (e := .mode k 2) (h.encodeRule_refused (by rw [hm, resolve_of_firstBad hbad]))
  · rw [← CmdError.capacity_info1 n m]
    exact hs.raises (i := .encode) (h.encodeRule_of_encodeVersion hm
      (encodeVersion_explicit_of_not_fits (x := s.snapshot) hv hfit))
  · rw [← CmdError.capacity_info1 n m]
    exact hs.raises (i := .encode) (h.encodeRule_of_encodeVersion hm
      ((encodeVersion_search (x := s.snapshot) m hv).trans (select_of_not_fits h.bounds hfit)))

end Sys2Proof.Machine

/-! What ENCODE leaves (R332 to R335): its symbol is complete, and its scores are those of the candidates of the symbol
before its mask. -/

namespace Sys2Proof.Machine

/-! ### Placement into any grid (R257 to R259) -/

theorem inside_freeIn (v : Nat) (g : Grid) : Inside (17 + 4 * v) (freeIn g (visits (17 + 4 * v))) := fun q hq =>
  inside_visits v q (List.mem_filter.mp hq).1

section
variable {v : Nat} {g : Grid} (hg : IsSquare (17 + 4 * v) g) (cw : List Byte) {r c : Nat}
include hg

/-- Placement fills the visited cells that are free before it. -/
theorem placeInto_eq_foldl_freeIn : placeInto (17 + 4 * v) g cw =
    (freeIn g (visits (17 + 4 * v))).foldl fillCell ⟨g, byteBits cw, 0, 0⟩ := by
  rw [placeInto, order_symbol, visitAll_eq_foldl (inside_visits v) (nodup_visits v) hg]

theorem cellAt_placeInto_of_not_free (h : ¬ (cellAt g r c).isFree = true) :
    cellAt (placeInto (17 + 4 * v) g cw).grid r c = cellAt g r c := by
  have hq : (r, c) ∉ freeIn g (visits (17 + 4 * v)) := fun hq => h (List.mem_filter.mp hq).2
  rw [placeInto_eq_foldl_freeIn hg, cellAt_foldl_fillCell_other (q := (r, c)) (inside_freeIn v g) hq hg]

theorem cellAt_placeInto_of_free (h : (cellAt g r c).isFree = true) (hr : r < 17 + 4 * v) (hc : c < 17 + 4 * v)
    (h6 : c ≠ 6) : (cellAt (placeInto (17 + 4 * v) g cw).grid r c).mod ≠ .unset := by
  have hq : (r, c) ∈ freeIn g (visits (17 + 4 * v)) := List.mem_filter.mpr ⟨mem_visits hr hc h6, h⟩
  obtain ⟨i, hi⟩ := List.mem_iff_getElem?.mp hq
  rw [placeInto_eq_foldl_freeIn hg, cellAt_foldl_fillCell (q := (r, c)) (inside_freeIn v g) ((nodup_visits v).filter _) hi
    hg]
  exact marked_mod_ne_unset _

end

/-! ### The symbol before its mask (R332, R334) -/

theorem versionStamped_ne_unset {n v r c : Nat} {x : Cell} (h : x.mod ≠ .unset ∨ (versionBitAt n r c).isSome = true) :
    (versionStamped n v r c x).mod ≠ .unset := by
  unfold versionStamped
  cases hbit : versionBitAt n r c with
  | some b => exact marked_mod_ne_unset _
  | none => exact h.resolve_right (by rw [hbit]; exact Bool.false_ne_true)

theorem formatStamped_ne_unset {n r c : Nat} {e : Ecc} {k : MaskId} {x : Cell}
    (h : formatBitAt n r c = none → x.mod ≠ .unset) : (formatStamped n e k r c x).mod ≠ .unset := by
  unfold formatStamped
  cases hbit : formatBitAt n r c with
  | some b => exact marked_mod_ne_unset _
  | none => exact h hbit

theorem maskedCell_ne_unset {k : MaskId} {r c : Nat} {x : Cell} (h : x.mod ≠ .unset) :
    (maskedCell k r c x).mod ≠ .unset := by
  unfold maskedCell
  split
  · exact Module.flip_eq_unset_iff.not.mpr h
  · exact h

section
variable {v : Nat} (h1 : 1 ≤ v)
include h1

/-- A cell of a candidate of any grid (R290). -/
theorem cellAt_candidate_of_isSquare {g : Grid} (hg : IsSquare (17 + 4 * v) g) (e : Ecc) (k : MaskId) {r c : Nat}
    (hr : r < 17 + 4 * v) (hc : c < 17 + 4 * v) : cellAt (candidate (17 + 4 * v) g e k) r c =
      formatStamped (17 + 4 * v) e k r c (maskedCell k r c (cellAt g r c)) := by
  rw [candidate, cellAt_stampFormat h1 (isSquare_applyMask hg k) e k hr hc, cellAt_applyMask hg k hr hc]

variable (h40 : v ≤ 40) (ilv : List Byte) {r c : Nat} (hr : r < 17 + 4 * v) (hc : c < 17 + 4 * v)
include h40 hr hc

/-- Placement sets every cell of the scaffold but the cells of the format and the version word: a cell of column 6 is
in a pattern, so that placement has nothing to visit there (R256, R260). -/
theorem cellAt_placeInto_scaffold (hf : (formatBitAt (17 + 4 * v) r c).isSome = false)
    (hv : ¬ (7 ≤ v ∧ (versionBitAt (17 + 4 * v) r c).isSome = true)) :
    (cellAt (placeInto (17 + 4 * v) (scaffoldGrid v) ilv).grid r c).mod ≠ .unset := by
  have hg : IsSquare (17 + 4 * v) (scaffoldGrid v) := isSquare_scaffoldGrid v
  have hcell := cellAt_scaffoldGrid h1 h40 hr hc
  obtain ⟨hfree, hreserved⟩ := (scaffoldLaws v h1 h40).1 r c hr hc
  rw [← hcell] at hfree hreserved
  by_cases hres : (cellAt (scaffoldGrid v) r c).res = true
  · have hset : (cellAt (scaffoldGrid v) r c).mod ≠ .unset := fun hunset =>
      ((hreserved hres).mp hunset).elim (fun h => Bool.false_ne_true (hf.symm.trans h)) hv
    rwa [cellAt_placeInto_of_not_free hg ilv fun h => hset (isFree_iff.mp h).1]
  · have hres' := Bool.eq_false_iff.mpr hres
    refine cellAt_placeInto_of_free hg ilv (isFree_iff.mpr ⟨hfree hres', hres'⟩) hr hc fun h6 => hres ?_
    obtain ⟨x, hx⟩ := scaffoldSpec_of_inPattern h1 h40 hr hc (.inr (.inr (.inl (.inr h6))))
    rw [hcell, hx, marked_res]

/-- Before its mask the symbol is set everywhere but in the format cells. -/
theorem cellAt_encodeGrid_ne_unset (hf : formatBitAt (17 + 4 * v) r c = none) :
    (cellAt (encodeGrid v ilv) r c).mod ≠ .unset := by
  have hplaced := cellAt_placeInto_scaffold h1 h40 ilv hr hc (by rw [hf]; rfl)
  have hg : IsSquare (17 + 4 * v) (placeInto (17 + 4 * v) (scaffoldGrid v) ilv).grid :=
    isSquare_placeInto (isSquare_scaffoldGrid v) ilv
  unfold encodeGrid symbolSize
  dsimp only
  split
  · rw [cellAt_stampVersion (by omega) hg]
    refine versionStamped_ne_unset ?_
    by_cases hbit : (versionBitAt (17 + 4 * v) r c).isSome = true
    · exact .inr hbit
    · exact .inl (hplaced fun h => hbit h.2)
  · exact hplaced fun h => absurd h.1 ‹_›

end

/-! ### The bytes that ENCODE stores (R332) -/

/-- The bytes of the buffers that ENCODE stores: generator, data, parity and interleaved codewords. -/
def encodeBuffers (f : GfField) (v : Nat) (e : Ecc) (data : List Byte) : List Host.Cell :=
  bytesAt genBase (gen f (eccpb v e)) ++ bytesAt dataBase data ++ blockWrites f v e data

/-- The memory with a whole grid stored in the matrix. -/
def storeGrid (m : Memory) (g : Grid) : Memory := writeBytes m (gridWrites (fun _ _ => true) 0 g)

/-- The memory that ENCODE leaves: the candidate of the chosen mask in the matrix, and the buffers. -/
def encodedMem (mem : Memory) (f : GfField) (v : Nat) (e : Ecc) (data : List Byte) (g : Grid) (best : MaskId) : Memory :=
  writeBytes (storeGrid mem (candidate (symbolSize v) g e best)) (encodeBuffers f v e data)

theorem writeBytes_encodeWrites (mem : Memory) (f : GfField) (m : Mode) (bs : List Byte) (v : Nat) (e : Ecc) {g : Grid}
    (hg : g = encodeGrid v (interleave f v e (dataCodewords m bs v e))) :
    writeBytes mem (encodeWrites f m bs v e).mem =
      encodedMem mem f v e (dataCodewords m bs v e) g (bestOf (scores (symbolSize v) g e)) := by
  subst hg
  exact writeBytes_append ..

/-- Bytes stored below the matrix leave its cells. -/
theorem memCell_writeBytes_below {m : Memory} (hm : m.wf = true) {ws : List Host.Cell} (h : ∀ e ∈ ws, e.1 < matBase)
    (r c : Nat) : memCell (writeBytes m ws) r c = memCell m r c := by
  rw [memCell, readByte_writeBytes_other hm, ← memCell]
  intro ha
  obtain ⟨e, he, hea⟩ := List.mem_map.mp ha
  have := h e he
  unfold cellOffset at hea
  omega

section
variable (f : GfField) {v : Nat} {e : Ecc} {data : List Byte} (h1 : 1 ≤ v) (h40 : v ≤ 40) (hdata : data.length = dataCw v e)
include h1 h40 hdata

/-- Parity and interleaved codewords lie between DATA_BUF and IN_BUF. -/
theorem blockWrites_between {c : Host.Cell} (hc : c ∈ blockWrites f v e data) : eccBase ≤ c.1 ∧ c.1 < inBase := by
  have hpar := parityTotal_le h40 e
  have htotal := totalCw_le v
  have h := (mem_map_fst_blockWrites_iff f h1 h40 hdata).mp (List.mem_map_of_mem hc)
  unfold inRange ilvBase eccBase at h
  unfold eccBase inBase
  omega

theorem encodeBuffers_below : ∀ c ∈ encodeBuffers f v e data, c.1 < matBase := by
  intro c hc
  rcases List.mem_append.mp hc with hc | hc
  · rcases List.mem_append.mp hc with hc | hc
    · have hgen := (mem_bytesAt hc).2
      have hecc := eccpb_le h40 e
      rw [gen_length] at hgen
      unfold genBase at hgen
      unfold matBase
      omega
    · have hlast := (mem_bytesAt hc).2
      have hle := dataCw_le v e
      unfold dataBase at hlast
      unfold matBase
      omega
  · have hlast := (blockWrites_between f h1 h40 hdata hc).2
    unfold inBase at hlast
    unfold matBase
    omega

/-- A cell of the symbol that ENCODE stores (R290). -/
theorem memCell_encodedMem {mem : Memory} (hm : mem.wf = true) {g : Grid} (hg : IsSquare (17 + 4 * v) g) (best : MaskId)
    {r c : Nat} (hr : r < 17 + 4 * v) (hc : c < 17 + 4 * v) : memCell (encodedMem mem f v e data g best) r c =
      formatStamped (17 + 4 * v) e best r c (maskedCell best r c (cellAt g r c)) := by
  rw [encodedMem, storeGrid, memCell_writeBytes_below (writeBytes_wf hm _) (encodeBuffers_below f h1 h40 hdata),
    memCell_gridWrites hm (isSquare_candidate (n := symbolSize v) hg e best) (symbolSize_le h40) hr hc, if_pos rfl]
  exact cellAt_candidate_of_isSquare h1 hg e best hr hc

omit h1 in
/-- DATA_BUF holds the data after all of ENCODE's bytes have been stored. -/
theorem bytesOf_encodedMem {mem : Memory} (hm : mem.wf = true) (g : Grid) (best : MaskId) :
    bytesOf (encodedMem mem f v e data g best) dataBase (dataCw v e) = data := by
  have hwf := writeBytes_wf (writeBytes_wf hm (gridWrites (fun _ _ => true) 0 (candidate (symbolSize v) g e best)))
    (blockWrites f v e data)
  have hend : genBase + (eccpb v e + 1) ≤ dataBase := by
    have := eccpb_le h40 e
    unfold genBase dataBase
    omega
  rw [encodedMem, storeGrid, encodeBuffers, writeBytes_append, writeBytes_append,
    bytesOf_writeBytes_bytesAt_beside (writeBytes_wf hwf _) (gen_length f _) (.inl hend),
    bytesOf_writeBytes_bytesAt hwf dataBase hdata]

end

/-! ### What ENCODE chooses (R331) -/

theorem EncodeChoice.encodeVersion_eq {s : State} {m : Mode} {v : Nat} {e : Ecc} (h : EncodeChoice s m v e) :
    encodeVersion s.snapshot m = .ok (v, e) := by
  by_cases hv : s.ops.ver.toNat = 0
  · exact (encodeVersion_search (x := s.snapshot) m hv).trans (select_of_firstFit (h.search hv))
  · obtain ⟨rfl, rfl, hfit⟩ := h.explicit hv
    exact encodeVersion_explicit (x := s.snapshot) hv hfit

theorem EncodeChoice.encodeRule_eq {s : State} {m : Mode} {v : Nat} {e : Ecc} (h : EncodeChoice s m v e) :
    encodeRule s.snapshot = .ok (encodeWrites s.field m s.inputBytes v e) :=
  h.toEncodeRanges.encodeRule_of_encodeVersion h.mode h.encodeVersion_eq

/-- ENCODE works at a version from 1 to 40 that its input fits. -/
theorem EncodeChoice.version {s : State} {m : Mode} {v : Nat} {e : Ecc} (h : EncodeChoice s m v e) :
    1 ≤ v ∧ v ≤ 40 ∧ Fits m s.ops.len.toNat v e := by
  obtain ⟨h1, h40, hfit⟩ := encodeVersion_ok (x := s.snapshot) h.ver h.maxv h.encodeVersion_eq
  exact ⟨h1, h40, fits_iff.mp hfit⟩

/-! ### What the command answers -/

/-- The state after an ENCODE that completes, with `g` the symbol before its mask. -/
theorem State.Ready.exec_encode {s : State} (hs : s.Ready) {m : Mode} {v : Nat} {e : Ecc} (h : EncodeChoice s m v e)
    {g : Grid} (hg : g = encodeGrid v (interleave s.field v e (dataCodewords m s.inputBytes v e))) {sc : List Nat}
    (hsc : sc = scores (symbolSize v) g e) : ∃ t, exec .encode s = .next t ∧ Completed s t ∧ t.mver.toNat = v ∧
      t.field = s.field ∧ t.score = setFrom s.score 0 (sc.map natWord) ∧
      t.mem = encodedMem s.mem s.field v e (dataCodewords m s.inputBytes v e) g (bestOf sc) ∧
      ResHolds s t [natWord v, natWord (eccOrdinal e), natWord (modeNumber m), natWord (bestOf sc).val,
        natWord (formatWord e (bestOf sc)), natWord (minScore sc), natWord (dataCw v e), natWord (totalCw v)] := by
  have hmem := writeBytes_encodeWrites s.mem s.field m s.inputBytes v e hg
  subst hsc hg
  exact ⟨_, hs.exec_of_ok h.encodeRule_eq, completed_completeOk s _, mver_encodeWrites s _ m _ e h.version.2.1, rfl, rfl,
    hmem, resHolds_completeOk s _⟩

/-- Taking the mask off the stored symbol gives back every cell that is no format cell, so that its candidates are
those of the symbol before the mask (R283, R290). -/
theorem formatStamped_unmasked (n : Nat) (e : Ecc) (k best : MaskId) (r c : Nat) (x : Cell) :
    formatStamped n e k r c (maskedCell k r c (maskedCell best r c
      (formatStamped n e best r c (maskedCell best r c x)))) = formatStamped n e k r c (maskedCell k r c x) := by
  unfold formatStamped
  cases formatBitAt n r c with
  | some b => rfl
  | none => exact congrArg (maskedCell k r c) (maskedCell_maskedCell best r c x)

/-- The eight score registers hold the scores of the masks (R291). -/
theorem setFrom_scores_get (v : Vector Word 8) (score : MaskId → Nat) (k : MaskId) :
    (setFrom v 0 ((maskIds.map score).map natWord))[k.val] = natWord (score k) := by
  rw [setFrom_get _ _ _ _ k.isLt, if_pos (Nat.zero_le _), Nat.sub_zero, List.getElem?_map, getElem?_map_maskIds,
    Option.map_some, Option.getD_some]

/-- ENCODE leaves every byte outside its buffers and its square. -/
theorem readByte_encodedMem_other {mem : Memory} (hm : mem.wf = true) (f : GfField) {v : Nat} {e : Ecc} {data : List Byte}
    (h1 : 1 ≤ v) (h40 : v ≤ 40) (hdata : data.length = dataCw v e) {g : Grid} (hg : IsSquare (symbolSize v) g)
    (best : MaskId) {a : Nat} (ha : ¬ (inRange genBase (eccpb v e + 1) a ∨ inRange dataBase (dataCw v e) a ∨
      inRange eccBase (nb v e * eccpb v e) a ∨ inRange ilvBase (totalCw v) a ∨ inSquare (symbolSize v) a)) :
    readByte (encodedMem mem f v e data g best) a = readByte mem a := by
  simp only [not_or] at ha
  obtain ⟨hgen, hdataBuf, hecc, hilv, hsquare⟩ := ha
  have hbuffers : a ∉ (encodeBuffers f v e data).map Prod.fst := by
    rw [encodeBuffers, List.map_append, List.map_append, List.mem_append, List.mem_append,
      mem_map_fst_bytesAt_iff (gen_length f _), mem_map_fst_bytesAt_iff hdata,
      mem_map_fst_blockWrites_iff f h1 h40 hdata]
    exact not_or.mpr ⟨not_or.mpr ⟨hgen, hdataBuf⟩, not_or.mpr ⟨hecc, hilv⟩⟩
  have hgrid : a ∉ (gridWrites (fun _ _ => true) 0 (candidate (symbolSize v) g e best)).map Prod.fst := fun h => by
    obtain ⟨r, c, hr, hc, -, rfl⟩ := (mem_map_fst_gridWrites_iff (isSquare_candidate hg e best)).mp h
    exact hsquare ⟨r, c, hr, hc, rfl⟩
  rw [encodedMem, storeGrid, readByte_writeBytes_other (writeBytes_wf hm _) hbuffers,
    readByte_writeBytes_other hm hgrid]

/-- Settles O58: the stored symbol is the best candidate of the symbol before its mask, whose cells are all set but the
format cells, and the penalties of the candidates are the scores. -/
theorem encodeCompletesTheGrid : Obligations.EncodeCompletesTheGrid := by
  intro s m v e hs h n
  obtain ⟨h1, h40, hfit⟩ := h.version
  rw [← s.inputBytes_length] at hfit
  obtain ⟨g, hg⟩ : ∃ g, g = encodeGrid v (interleave s.field v e (dataCodewords m s.inputBytes v e)) := ⟨_, rfl⟩
  obtain ⟨t, hexec, hdone, hmver, hfield, hscore, hmem, hres⟩ := hs.exec_encode h hg rfl
  have hsq : IsSquare n g := hg ▸ isSquare_encodeGrid v _
  have hset : ∀ r c, r < n → c < n → formatBitAt n r c = none → (cellAt g r c).mod ≠ .unset := fun r c hr hc =>
    hg ▸ cellAt_encodeGrid_ne_unset h1 h40 _ hr hc
  have hdata : (dataCodewords m s.inputBytes v e).length = dataCw v e := dataCodewords_length (fits_iff.mpr hfit)
  clear hg
  generalize hbest : bestOf (scores (symbolSize v) g e) = best at hmem hres
  have hcell : ∀ r c, r < n → c < n →
      memCell t.mem r c = formatStamped n e best r c (maskedCell best r c (cellAt g r c)) := fun r c hr hc =>
    hmem ▸ memCell_encodedMem s.field h1 h40 hdata hs.mem_wf hsq best hr hc
  refine ⟨t, best, hexec, hdone, ?_⟩
  intro score
  have hpenalty : ∀ k, penaltyOf n (candidate n g e k) = score k := fun k =>
    penaltyOf_eq (isSquare_candidate hsq e k) fun r c hr hc => by
      rw [cellAt_candidate_of_isSquare h1 hsq e k hr hc, hcell r c hr hc, formatStamped_unmasked]
  have hscores : scores (symbolSize v) g e = maskIds.map score := List.map_congr_left fun k _ => hpenalty k
  have hstored : score best = specPenalty n fun r c => (memCell t.mem r c).val :=
    (hpenalty best).symm.trans (penaltyOf_eq (isSquare_candidate hsq e best) fun r c hr hc => by
      rw [cellAt_candidate_of_isSquare h1 hsq e best hr hc, hcell r c hr hc])
  clear_value score
  rw [hscores] at hbest hscore hres
  subst hbest
  refine ⟨hmver, hfield, isBest_bestOf score, ?_, fun k => ?_, ?_, fun r c hr hc => ?_, hstored, fun a ha => ?_⟩
  · rw [score_bestOf score]
    exact hres
  · rw [hscore, setFrom_scores_get]
  · rw [hmem, bytesOf_encodedMem s.field h40 hdata hs.mem_wf]
    exact isDataSequence_dataCodewords hfit fun hm => (hm ▸ h.mode).allAlnum
  · rw [hcell r c hr hc]
    exact formatStamped_ne_unset fun hf => maskedCell_ne_unset (hset r c hr hc hf)
  · rw [hmem]
    exact readByte_encodedMem_other hs.mem_wf s.field h1 h40 hdata hsq _ ha

end Sys2Proof.Machine

/-! ENCODE as its components (R332, R334): each component command stores the next part of what ENCODE stores at once. -/

namespace Sys2Proof.Machine

/-! ### Stores at offsets that do not meet -/

/-- Stores that name no offset in common may be made in either order. -/
theorem writeBytes_comm {m : Memory} (hm : m.wf = true) {ws ws' : List Host.Cell}
    (h : ∀ e ∈ ws, ∀ e' ∈ ws', e.1 ≠ e'.1) : writeBytes (writeBytes m ws) ws' = writeBytes (writeBytes m ws') ws := by
  have hwf := writeBytes_wf hm ws
  have hwf' := writeBytes_wf hm ws'
  refine eq_of_readByte (writeBytes_wf hwf ws') (writeBytes_wf hwf' ws) fun a => ?_
  by_cases ha : a ∈ ws.map Prod.fst
  · have ha' : a ∉ ws'.map Prod.fst := fun ha' => by
      obtain ⟨e, he, rfl⟩ := List.mem_map.mp ha
      obtain ⟨e', he', hee⟩ := List.mem_map.mp ha'
      exact h e he e' he' hee.symm
    rw [readByte_writeBytes_other hwf ha', readByte_writeBytes_listed hm hwf' ha]
  · rw [readByte_writeBytes_other hwf' ha]
    by_cases ha' : a ∈ ws'.map Prod.fst
    · exact readByte_writeBytes_listed hwf hm ha'
    · rw [readByte_writeBytes_other hwf ha', readByte_writeBytes_other hm ha', readByte_writeBytes_other hm ha]

/-- The memory that BUILD_DATA and BLOCK_ASSEMBLE leave to the matrix commands (R332). -/
def builtMem (mem : Memory) (f : GfField) (v : Nat) (e : Ecc) (data : List Byte) : Memory :=
  writeBytes (writeBytes mem (bytesAt dataBase data)) (bytesAt genBase (gen f (eccpb v e)) ++ blockWrites f v e data)

section
variable {mem : Memory} (f : GfField) {v : Nat} {e : Ecc} {data : List Byte} (h1 : 1 ≤ v) (h40 : v ≤ 40)
  (hdata : data.length = dataCw v e)
include h1 h40 hdata

theorem bytesOf_builtMem_ilv (hm : mem.wf = true) :
    bytesOf (builtMem mem f v e data) ilvBase (totalCw v) = interleave f v e data := by
  obtain ⟨-, -, hilv⟩ := bytesOf_writeBytes_blockWrites (writeBytes_wf hm (bytesAt dataBase data)) f h1 h40 hdata rfl
  exact hilv

theorem legalMem_builtMem (hm : legalMem mem = true) : legalMem (builtMem mem f v e data) = true := by
  have hdataBuf : ∀ c ∈ bytesAt dataBase data, MayStore .encode c :=
    mayStore_bytesAt (hdata.trans_le (dataCw_le v e)) (by decide) (mayWrite_data (by decide))
  have hgen : ∀ c ∈ bytesAt genBase (gen f (eccpb v e)), MayStore .encode c :=
    mayStore_gen (by decide) f ((eccpb_le h40 e).trans_lt (by decide))
  have hblock := mayStore_blockWrites (i := .encode) (by decide) f h1 h40 hdata
  exact legalMem_writeBytes (legalMem_writeBytes hm fun c hc => (hdataBuf c hc).legal) fun c hc =>
    (mayStore_append hgen hblock c hc).legal

/-- ENCODE's bytes, stored as BUILD_DATA, BLOCK_ASSEMBLE and the matrix commands store them (R332). -/
theorem encodedMem_eq (hm : mem.wf = true) {g : Grid} (hg : IsSquare (symbolSize v) g) (best : MaskId) :
    encodedMem mem f v e data g best = storeGrid (builtMem mem f v e data) (candidate (symbolSize v) g e best) := by
  have hgrid : ∀ c ∈ gridWrites (fun _ _ => true) 0 (candidate (symbolSize v) g e best),
      ∀ c' ∈ encodeBuffers f v e data, c.1 ≠ c'.1 := fun c hc c' hc' => by
    obtain ⟨i, j, -, -, -, rfl⟩ := mem_gridWrites (isSquare_candidate hg e best).2 hc
    have := encodeBuffers_below f h1 h40 hdata c' hc'
    unfold cellOffset
    omega
  have hblock : ∀ c ∈ bytesAt dataBase data, ∀ c' ∈ blockWrites f v e data, c.1 ≠ c'.1 := fun c hc c' hc' => by
    have hlast := (mem_bytesAt hc).2
    have hle := dataCw_le v e
    have hfirst := (blockWrites_between f h1 h40 hdata hc').1
    unfold dataBase at hlast
    unfold eccBase at hfirst
    omega
  rw [encodedMem, storeGrid, writeBytes_comm hm hgrid, ← storeGrid, encodeBuffers, writeBytes_append, writeBytes_append,
    builtMem, writeBytes_append, writeBytes_comm hm hblock]

end

/-! ### The matrix as one grid -/

theorem grid_ext {n : Nat} {g g' : Grid} (hg : IsSquare n g) (hg' : IsSquare n g')
    (h : ∀ r c, r < n → c < n → cellAt g r c = cellAt g' r c) : g = g' := by
  refine List.ext_getElem (hg.1.trans hg'.1.symm) fun r hr hr' => ?_
  have hrow := hg.2 _ (List.getElem_mem hr)
  have hrow' := hg'.2 _ (List.getElem_mem hr')
  refine List.ext_getElem (hrow.trans hrow'.symm) fun c hc hc' => ?_
  have hcell := h r c (hg.1 ▸ hr) (hrow ▸ hc)
  simpa [cellAt, List.getD_eq_getElem?_getD, hr, hr', hc, hc'] using hcell

section
variable {m : Memory} (hm : legalMem m = true) {n : Nat} (hn : n ≤ 177)
include hm hn

/-- Memories that agree outside a square and on its cells are equal. -/
theorem eq_of_cells {m' : Memory} (hm' : legalMem m' = true) (hout : ∀ a, ¬ inSquare n a → readByte m a = readByte m' a)
    (hin : ∀ r c, r < n → c < n → memCell m r c = memCell m' r c) : m = m' := by
  refine eq_of_readByte (legalMem_wf hm) (legalMem_wf hm') fun a => ?_
  by_cases ha : inSquare n a
  · obtain ⟨r, c, hr, hc, rfl⟩ := ha
    rw [readByte_cellOffset hm (by omega) (by omega), readByte_cellOffset hm' (by omega) (by omega), hin r c hr hc]
  · exact hout a ha

variable {g : Grid} (hg : IsSquare n g)
include hg

theorem legalMem_gridWrites (keep : Nat → Nat → Bool) : legalMem (writeBytes m (gridWrites keep 0 g)) = true :=
  legalMem_writeBytes hm fun e he => (mayStore_gridWrites hg hn (mayWrite_matrix (i := .encode) (by decide)) e he).legal

theorem memCell_storeGrid_inside {r c : Nat} (hr : r < n) (hc : c < n) : memCell (storeGrid m g) r c = cellAt g r c := by
  rw [storeGrid, memCell_gridWrites (legalMem_wf hm) hg hn hr hc, if_pos rfl]

/-- A stored grid reads back. -/
theorem gridOf_storeGrid : gridOf (storeGrid m g) n = g :=
  grid_ext (isSquare_gridOf _ _) hg fun r c hr hc => by
    rw [cellAt_gridOf _ hr hc, memCell_storeGrid_inside hm hn hg hr hc]

/-- Storing the kept cells of a grid that differs from the stored one in kept cells alone stores all of it. -/
theorem writeBytes_storeGrid {g' : Grid} (hg' : IsSquare n g') {keep : Nat → Nat → Bool}
    (h : ∀ r c, r < n → c < n → keep r c = false → cellAt g' r c = cellAt g r c) :
    writeBytes (storeGrid m g) (gridWrites keep 0 g') = storeGrid m g' := by
  have hlegal : legalMem (storeGrid m g) = true := legalMem_gridWrites hm hn hg _
  have hother : ∀ {mem : Memory} {keep : Nat → Nat → Bool} {g : Grid} {a : Nat}, mem.wf = true → IsSquare n g →
      ¬ inSquare n a → readByte (writeBytes mem (gridWrites keep 0 g)) a = readByte mem a := fun hwf hg ha =>
    readByte_writeBytes_other hwf fun hmem => by
      obtain ⟨r, c, hr, hc, -, rfl⟩ := (mem_map_fst_gridWrites_iff hg).mp hmem
      exact ha ⟨r, c, hr, hc, rfl⟩
  refine eq_of_cells (legalMem_gridWrites hlegal hn hg' keep) hn (legalMem_gridWrites hm hn hg' _) (fun a ha => ?_)
    fun r c hr hc => ?_
  · rw [hother (legalMem_wf hlegal) hg' ha, storeGrid, hother (legalMem_wf hm) hg ha, storeGrid,
      hother (legalMem_wf hm) hg' ha]
  · rw [memCell_gridWrites (legalMem_wf hlegal) hg' hn hr hc, memCell_storeGrid_inside hm hn hg hr hc,
      memCell_storeGrid_inside hm hn hg' hr hc]
    split
    · rfl
    · exact (h r c hr hc (Bool.eq_false_iff.mpr ‹_›)).symm

end

/-! ### A component command run on what the machine holds (R110, R353) -/

section
variable {s : State} {c : Command} {w : Writes}

/-- What a canonical command reads: the present registers and buffers, and its own operands. -/
def State.read (s : State) (c : Command) : Snapshot := ⟨s.poly, s.field, s.mver, c.operands, s.mem⟩

/-- A canonical command whose rule answers its writes completes with them, and with no error recorded. -/
theorem run_of_ok (h : ruleOf c.instr (s.read c) = .ok w) : s.run c = (s.loaded c).completeOk w := by
  have hexec := exec_loaded s c
  rw [exec_finish] at hexec
  exact (Host.Outcome.next.inj hexec).symm.trans (congrArg (s.loaded c).finish h)

@[simp] theorem loaded_field (s : State) (c : Command) : (s.loaded c).field = s.field := rfl
@[simp] theorem loaded_mver (s : State) (c : Command) : (s.loaded c).mver = s.mver := rfl
@[simp] theorem loaded_score (s : State) (c : Command) : (s.loaded c).score = s.score := rfl
@[simp] theorem loaded_res (s : State) (c : Command) : (s.loaded c).res = s.res := rfl
@[simp] theorem loaded_mem (s : State) (c : Command) : (s.loaded c).mem = s.mem := rfl
@[simp] theorem loaded_err (s : State) (c : Command) : (s.loaded c).err = false := rfl

end

theorem resolvesTo_fieldOf {f : ModeField} {bs : List Byte} {m : Mode} (h : ResolvesTo f bs m) :
    ResolvesTo (fieldOf m) bs m := by
  cases m with
  | byte => rfl
  | alnum => exact ⟨h.allAlnum, rfl⟩

section
variable (s : State) {v : Nat} {e : Ecc} (h1 : 1 ≤ v) (h40 : v ≤ 40)
include h1 h40

/-- BUILD_DATA at a concrete mode stores the data codewords of the input. -/
theorem run_buildData {m : Mode} {n : Nat} {bs : List Byte} (hn : n ≤ 8192) (hbs : readBytes s.mem inBase n = bs)
    (hm : ResolvesTo (fieldOf m) bs m) (hfit : Fits m n v e) : (s.run (.buildData v e (fieldOf m) n)).field = s.field ∧
      (s.run (.buildData v e (fieldOf m) n)).mem = writeBytes s.mem (bytesAt dataBase (dataCodewords m bs v e)) := by
  obtain ⟨hver, hecc, hmode, hlen⟩ := Command.buildData.inj
    (commandOf_operands (c := .buildData v e (fieldOf m) n)
      (Bool.and_eq_true_iff.mpr ⟨decide_eq_true (by omega), decide_eq_true (by omega)⟩))
  obtain ⟨x, hx⟩ : ∃ x, x = s.read (.buildData v e (fieldOf m) n) := ⟨_, rfl⟩
  replace hver : x.ver = v := hx ▸ hver
  replace hecc : x.ops.ecc = e := hx ▸ hecc
  replace hmode : x.ops.mode = fieldOf m := hx ▸ hmode
  replace hlen : x.len = n := hx ▸ hlen
  have hinput : x.input = bs := by rw [Snapshot.input, hlen, ← hbs, hx]; rfl
  have hrule := buildDataRule_of_fits (x := x) (m := m) (by rw [hver]; exact not_badVersion h1 h40) (hlen ▸ hn)
    (by rw [hmode, hinput]; exact resolve_of_resolvesTo hm) (by rwa [hver, hecc, hlen])
  rw [hver, hecc, hinput, hx] at hrule
  rw [run_of_ok (c := .buildData v e (fieldOf m) n) hrule]
  exact ⟨rfl, rfl⟩

/-- BLOCK_ASSEMBLE stores the generator, and the blocks of the bytes in DATA_BUF. -/
theorem run_blockAssemble {data : List Byte} (hdata : bytesOf s.mem dataBase (dataCw v e) = data) :
    (s.run (.blockAssemble v e)).mem =
      writeBytes s.mem (bytesAt genBase (gen s.field (eccpb v e)) ++ blockWrites s.field v e data) := by
  obtain ⟨hver, hecc⟩ := Command.blockAssemble.inj
    (commandOf_operands (c := .blockAssemble v e) (decide_eq_true (by omega)))
  obtain ⟨x, hx⟩ : ∃ x, x = s.read (.blockAssemble v e) := ⟨_, rfl⟩
  replace hver : x.ver = v := hx ▸ hver
  replace hecc : x.ops.ecc = e := hx ▸ hecc
  have hread : readBytes x.mem dataBase (dataCw v e) = data := by rw [readBytes_eq, ← hdata, hx]; rfl
  have hfield : x.field = s.field := hx ▸ rfl
  have hrule := blockAssembleRule_of_version (x := x) (hver ▸ h1) (hver ▸ h40)
  rw [hver, hecc, hread, hfield, hx] at hrule
  rw [run_of_ok (c := .blockAssemble v e) hrule]
  rfl

end

/-- The machine holds the symbol `g` of version `v` in the matrix, over the memory `m`. -/
structure HoldsSymbol (s : State) (v : Nat) (m : Memory) (g : Grid) : Prop where
  mver : s.mver.toNat = v
  mem : s.mem = storeGrid m g

/-- SCAFFOLD stores the scaffold of its version, and sets MVER. -/
theorem holdsSymbol_scaffold (s : State) {v : Nat} (h1 : 1 ≤ v) (h40 : v ≤ 40) :
    HoldsSymbol (s.run (.scaffold v)) v s.mem (scaffoldGrid v) := by
  have hver := Command.scaffold.inj (commandOf_operands (c := .scaffold v) (decide_eq_true (by omega)))
  obtain ⟨x, hx⟩ : ∃ x, x = s.read (.scaffold v) := ⟨_, rfl⟩
  replace hver : x.ver = v := hx ▸ hver
  have hrule : scaffoldRule x = _ := if_neg (by rw [hver]; exact not_badVersion h1 h40)
  rw [hver, hx] at hrule
  rw [run_of_ok (c := .scaffold v) hrule]
  exact ⟨Nat.mod_eq_of_lt (by omega), rfl⟩

/-- The matrix lies above the buffers. -/
theorem bytesOf_storeGrid {m : Memory} (hm : m.wf = true) {n : Nat} {g : Grid} (hg : IsSquare n g) {base k : Nat}
    (h : base + k ≤ matBase) : bytesOf (storeGrid m g) base k = bytesOf m base k :=
  bytesOf_writeBytes_other hm fun a ⟨_, hlast⟩ hmem => by
    obtain ⟨r, c, -, -, -, rfl⟩ := (mem_map_fst_gridWrites_iff hg).mp hmem
    unfold cellOffset at hlast
    omega

/-- MASK_SELECT's answer in terms of the scores of the grid it reads (R292). -/
theorem maskSelectRule_of_set {x : Snapshot} (h1 : 1 ≤ x.mverNat) (h40 : x.mverNat ≤ 40)
    (h : ∀ r c, r < symbolSize x.mverNat → c < symbolSize x.mverNat → formatBitAt (symbolSize x.mverNat) r c = none →
      (memCell x.mem r c).mod ≠ .unset)
    {sc : List Nat} (hsc : sc = scores (symbolSize x.mverNat) (gridOf x.mem (symbolSize x.mverNat)) x.ops.ecc) :
    maskSelectRule x = .ok {
      res := [natWord (bestOf sc).val, natWord (minScore sc), natWord (formatWord x.ops.ecc (bestOf sc))]
      score := sc.map natWord
      mem := selectedCells x.mem (symbolSize x.mverNat) x.ops.ecc (bestOf sc) } := by
  obtain ⟨score, hscore⟩ : ∃ score : MaskId → Nat, score = fun k => specPenalty (symbolSize x.mverNat) fun r c =>
    (candidateCell x.mem (symbolSize x.mverNat) x.ops.ecc k r c).val := ⟨_, rfl⟩
  have hscores : sc = maskIds.map score := hsc.trans (hscore ▸ scores_eq h1 x.mem x.ops.ecc)
  rw [maskSelectRule_eq_ok h1 h40 hscore (congrArg bestOf hscores) h, hscores, score_bestOf score]

section
variable {s : State} {v : Nat} {m : Memory} {g : Grid} (h : HoldsSymbol s v m g) (hm : legalMem m = true) (h1 : 1 ≤ v)
  (h40 : v ≤ 40) (hg : IsSquare (symbolSize v) g)
include h hm h40 hg

theorem HoldsSymbol.gridOf_eq : gridOf s.mem (symbolSize v) = g := by
  rw [h.mem, gridOf_storeGrid hm (symbolSize_le h40) hg]

include h1

/-- PLACE fills the held symbol with the bytes in ILV_BUF. -/
theorem HoldsSymbol.place {ilv : List Byte} (hilv : bytesOf m ilvBase (totalCw v) = ilv) :
    HoldsSymbol (s.run .place) v m (placeInto (symbolSize v) g ilv).grid := by
  obtain ⟨x, hx⟩ : ∃ x, x = s.read .place := ⟨_, rfl⟩
  have hver : x.mverNat = v := hx ▸ h.mver
  have hgrid : gridOf x.mem (symbolSize v) = g := hx ▸ h.gridOf_eq hm h40 hg
  have hread : readBytes x.mem ilvBase (totalCw v) = ilv := by
    have hend : ilvBase + totalCw v ≤ matBase := (Nat.add_le_add_left (totalCw_le v) ilvBase).trans (by decide)
    rw [readBytes_eq, ← hilv, ← bytesOf_storeGrid (legalMem_wf hm) hg hend, ← h.mem, hx]
    rfl
  have hrule : placeRule x = _ := if_neg (by rw [hver]; exact not_badVersion h1 h40)
  rw [hver, hgrid, hread, hx] at hrule
  rw [run_of_ok (c := .place) hrule]
  refine ⟨h.mver, ?_⟩
  dsimp only [State.completeOk_mem, loaded_mem]
  rw [h.mem]
  exact writeBytes_storeGrid hm (symbolSize_le h40) hg (isSquare_placeInto hg ilv) fun r c _ _ hkeep =>
    cellAt_placeInto_of_not_free hg ilv (Bool.eq_false_iff.mp hkeep)

/-- VERSION_STAMP stamps the held symbol. -/
theorem HoldsSymbol.versionStamp (h7 : 7 ≤ v) :
    HoldsSymbol (s.run .versionStamp) v m (stampVersion (symbolSize v) g v) := by
  obtain ⟨x, hx⟩ : ∃ x, x = s.read .versionStamp := ⟨_, rfl⟩
  have hver : x.mverNat = v := hx ▸ h.mver
  have hgrid : gridOf x.mem (symbolSize v) = g := hx ▸ h.gridOf_eq hm h40 hg
  have hrule := versionStampRule_eq_ok (x := x) (hver ▸ h7) (hver ▸ h40)
  rw [hver, hgrid, hx] at hrule
  rw [run_of_ok (c := .versionStamp) hrule]
  refine ⟨h.mver, ?_⟩
  dsimp only [State.completeOk_mem, loaded_mem]
  rw [h.mem]
  refine writeBytes_storeGrid hm (symbolSize_le h40) hg (isSquare_stampVersion hg v) fun r c _ _ hkeep => ?_
  rw [isVersionCell_eq (by unfold symbolSize; omega), Option.isSome_eq_false_iff, Option.isNone_iff_eq_none] at hkeep
  rw [cellAt_stampVersion (by unfold symbolSize; omega) hg, versionStamped, hkeep]

/-- MASK_SELECT masks and stamps the held symbol, and reports its scores. -/
theorem HoldsSymbol.maskSelect {e : Ecc} (hset : ∀ r c, r < symbolSize v → c < symbolSize v →
      formatBitAt (symbolSize v) r c = none → (cellAt g r c).mod ≠ .unset)
    {sc : List Nat} (hsc : sc = scores (symbolSize v) g e) :
    HoldsSymbol (s.run (.maskSelect e)) v m (candidate (symbolSize v) g e (bestOf sc)) ∧
      (s.run (.maskSelect e)).err = false ∧ (s.run (.maskSelect e)).score = setFrom s.score 0 (sc.map natWord) ∧
      ResHolds s (s.run (.maskSelect e))
        [natWord (bestOf sc).val, natWord (minScore sc), natWord (formatWord e (bestOf sc))] := by
  have hecc := Command.maskSelect.inj (commandOf_operands (c := .maskSelect e) rfl)
  obtain ⟨x, hx⟩ : ∃ x, x = s.read (.maskSelect e) := ⟨_, rfl⟩
  replace hecc : x.ops.ecc = e := hx ▸ hecc
  have hver : x.mverNat = v := hx ▸ h.mver
  have hgrid : gridOf x.mem (symbolSize v) = g := hx ▸ h.gridOf_eq hm h40 hg
  have hset' : ∀ r c, r < symbolSize x.mverNat → c < symbolSize x.mverNat →
      formatBitAt (symbolSize x.mverNat) r c = none → (memCell x.mem r c).mod ≠ .unset := fun r c hr hc hf => by
    rw [hver] at hr hc hf
    rw [← cellAt_gridOf x.mem hr hc, hgrid]
    exact hset r c hr hc hf
  have hrule := maskSelectRule_of_set (x := x) (hver ▸ h1) (hver ▸ h40) hset' (sc := sc) (by rw [hver, hgrid, hecc, hsc])
  rw [selectedCells, hver, hgrid, hecc, hx] at hrule
  rw [run_of_ok (c := .maskSelect e) hrule]
  refine ⟨⟨h.mver, ?_⟩, rfl, rfl, resHolds_completeOk (s.loaded _) _⟩
  dsimp only [State.completeOk_mem, loaded_mem]
  rw [h.mem]
  refine writeBytes_storeGrid hm (symbolSize_le h40) hg (isSquare_candidate hg e _) fun r c hr hc hkeep => ?_
  rw [Bool.or_eq_false_iff, isFormatCell_eq_false_iff] at hkeep
  obtain ⟨hinv, hf⟩ := hkeep
  have hcell := cellAt_candidate_of_isSquare h1 hg e (bestOf sc) hr hc
  rw [maskedCell_of_not_inverted (inverts_iff.not.mp (Bool.eq_false_iff.mp hinv)), formatStamped] at hcell
  refine hcell.trans ?_
  change formatBitAt (17 + 4 * v) r c = none at hf
  rw [hf]

end

/-! ### The pipeline (R332, R334) -/

section
variable {s : State} {v : Nat} (h1 : 1 ≤ v) (h40 : v ≤ 40)
include h1 h40

/-- SCAFFOLD, PLACE and, from version 7, VERSION_STAMP leave the symbol before its mask. -/
theorem holdsSymbol_encodeGrid (hm : legalMem s.mem = true) {ilv : List Byte}
    (hilv : bytesOf s.mem ilvBase (totalCw v) = ilv) :
    HoldsSymbol (if 7 ≤ v then ((s.run (.scaffold v)).run .place).run .versionStamp
      else (s.run (.scaffold v)).run .place) v s.mem (encodeGrid v ilv) := by
  have hg := isSquare_scaffoldGrid v
  have hplaced := (holdsSymbol_scaffold s h1 h40).place hm h1 h40 hg hilv
  unfold encodeGrid
  dsimp only
  split
  · exact hplaced.versionStamp hm h1 h40 (isSquare_placeInto hg ilv) ‹_›
  · exact hplaced

/-- BUILD_DATA and BLOCK_ASSEMBLE store the buffers of the symbol. -/
theorem run_buffers {m : Mode} {n : Nat} {e : Ecc} {bs data : List Byte} (hwf : s.mem.wf = true) (hn : n ≤ 8192)
    (hbs : readBytes s.mem inBase n = bs) (hm : ResolvesTo (fieldOf m) bs m) (hfit : Fits m n v e)
    (hdata : dataCodewords m bs v e = data) (hlen : data.length = dataCw v e) :
    ((s.run (.buildData v e (fieldOf m) n)).run (.blockAssemble v e)).mem = builtMem s.mem s.field v e data := by
  obtain ⟨hfield, hmem⟩ := run_buildData s h1 h40 hn hbs hm hfit
  rw [hdata] at hmem
  rw [run_blockAssemble _ h1 h40 (hmem ▸ bytesOf_writeBytes_bytesAt hwf dataBase hlen), hmem, hfield, ← builtMem]

end

/-- Settles O59: BUILD_DATA and BLOCK_ASSEMBLE store the buffers of ENCODE, the matrix commands its symbol before the
mask, and MASK_SELECT the candidate that ENCODE chooses. -/
theorem encodeEqualsTheComponents : Obligations.EncodeEqualsTheComponents := by
  intro s m v e hs h
  obtain ⟨h1, h40, hfit⟩ := h.version
  obtain ⟨data, hdata⟩ : ∃ data, dataCodewords m s.inputBytes v e = data := ⟨_, rfl⟩
  have hlen : data.length = dataCw v e :=
    hdata ▸ dataCodewords_length (fits_iff.mpr (s.inputBytes_length.symm ▸ hfit))
  obtain ⟨g, hg⟩ : ∃ g, g = encodeGrid v (interleave s.field v e data) := ⟨_, rfl⟩
  obtain ⟨sc, hsc⟩ : ∃ sc, sc = scores (symbolSize v) g e := ⟨_, rfl⟩
  obtain ⟨t, hexec, -, hmver, -, hscore, hmem, hres⟩ := hs.exec_encode h (hdata ▸ hg) hsc
  rw [hdata] at hmem
  have hbuilt := run_buffers h1 h40 hs.mem_wf h.len (readBytes_eq ..) (resolvesTo_fieldOf h.mode) hfit hdata hlen
  have hlegal := legalMem_builtMem s.field h1 h40 hlen hs.inv.memory
  have hheld := holdsSymbol_encodeGrid h1 h40 (hbuilt ▸ hlegal)
    (hbuilt ▸ bytesOf_builtMem_ilv s.field h1 h40 hlen hs.mem_wf)
  rw [hbuilt, ← hg] at hheld
  have hsq : IsSquare (symbolSize v) g := hg ▸ isSquare_encodeGrid v _
  have hset : ∀ r c, r < symbolSize v → c < symbolSize v → formatBitAt (symbolSize v) r c = none →
      (cellAt g r c).mod ≠ .unset := fun r c hr hc => hg ▸ cellAt_encodeGrid_ne_unset h1 h40 _ hr hc
  obtain ⟨hsymbol, herr, hscore', hres'⟩ := hheld.maskSelect hlegal h1 h40 hsq hset hsc
  have hcount : (sc.map natWord).length = 8 := hsc ▸ rfl
  refine ⟨t, hexec, herr, ?_, BitVec.eq_of_toNat_eq (hmver.trans hsymbol.mver.symm), ?_, ?_, ?_, ?_⟩
  · rw [hmem, encodedMem_eq s.field h1 h40 hlen hs.mem_wf hsq]
    exact hsymbol.mem.symm
  · rw [hscore]
    exact (setFrom_eq_of_length _ _ hcount).trans hscore'.symm
  · exact (hres 3 (by decide)).trans (hres' 0 (by decide)).symm
  · exact (hres 4 (by decide)).trans (hres' 2 (by decide)).symm
  · exact (hres 5 (by decide)).trans (hres' 1 (by decide)).symm

end Sys2Proof.Machine
